-- ==== Sys2Proof/Word.lean ====
section
/-! DEFINITION. The word types of the block, at the widths of spec/10_state.md (decision D8). -/

namespace Sys2Proof

/-- An entry of TEXT, CODEBUF, IN and OUT (R42). -/
abbrev Byte := BitVec 8

/-- A ring position, `0 .. N-1` (R4): the width of S, R and MATCH_POS (R16, R17, R19). -/
abbrev Pos := BitVec 12

/-- A tree index, `0 .. 4352` (R8): an entry of LEFT, RIGHT and PARENT (R12 to R14). -/
abbrev Link := BitVec 13

/-- The width of LEN, MATCH_LEN, CODEPTR, LAST and I (R18, R20, R22, R25). -/
abbrev Len := BitVec 5

/-- A ring position as a tree index (R37). -/
def Pos.link (p : Pos) : Link := p.setWidth 13

end Sys2Proof
end

