-- ==== Sys2Proof/Config.lean ====
section
/-! DEFINITION. The fixed parameters of spec/00_scope.md (R4 to R8) and the one free value of the model. -/

namespace Sys2Proof.Config

/-- R4: the number of ring positions. -/
def N : Nat := 4096

/-- R5: the look-ahead length, the greatest match length and the key length. -/
def F : Nat := 18

/-- R6: a match is coded as a reference only above this length. -/
def threshold : Nat := 2

/-- R7: the byte TEXT holds before any input arrives. -/
def filler : Byte := 0x20

/-- R8: the tree index that means "absent". -/
def nil : Link := 4096

/-- R5, R11: the bytes of TEXT, ring and mirror. -/
def textSize : Nat := N + F - 1

/-- R15: the bytes of CODEBUF. -/
def codeSize : Nat := 17

/-- R31, R93, R103: the value START gives R, `N - F`. -/
def startR : Pos := 4078

/-- The value a five-bit counter takes when the exact sum `n` does not fit it. The spec states no such value: I is in
`0..F` (R25) and no run leaves that range. A FREE VALUE, DESIGN CHOICE, safe: log 13. -/
opaque counterBeyond : Nat → Len

end Sys2Proof.Config
end

