-- ==== Sys2Proof/Syntax.lean ====
section
/-! DEFINITION. The instructions of the block: one constructor for each row of spec/opcode_table.json. R1 names two
layers, the token stream (CTRL, LIT, REF) and the operations; the host commands (R112) complete the table. -/

namespace Sys2Proof

/-- What the block can be told to do. Each docstring names the row and the rule of its effect. -/
inductive Instr where
  /-- CTRL, the control byte of a group (R54). -/
  | ctrl (k : Byte)
  /-- LIT, the literal token (R55). -/
  | lit (b : Byte)
  /-- REF, the reference token: absolute ring position and byte count (R56). -/
  | ref (pos : Pos) (len : Nat)
  /-- WIN.FILL (R70). -/
  | winFill
  /-- WIN.GET; `pos` is any natural number (R71). -/
  | winGet (pos : Nat)
  /-- WIN.SET; `pos` is any natural number (R72). -/
  | winSet (pos : Nat) (b : Byte)
  /-- WIN.KEYB: byte `i` of the key of ring position `p` (R74). -/
  | winKeyb (p : Pos) (i : Nat)
  /-- IDX.CLEAR (R75). -/
  | idxClear
  /-- CMP.KEY (R78). -/
  | cmpKey (r p : Pos)
  /-- IDX.SEARCH (R79). -/
  | idxSearch (r : Pos)
  /-- IDX.INSERT (R81). -/
  | idxInsert (r : Pos)
  /-- IDX.REPLACE (R82). -/
  | idxReplace (r p : Pos)
  /-- IDX.DELETE (R83). -/
  | idxDelete (p : Pos)
  /-- TOK.RESET (R87). -/
  | tokReset
  /-- TOK.LIT (R88). -/
  | tokLit (b : Byte)
  /-- TOK.REF (R89). -/
  | tokRef (pos : Pos) (len : Nat)
  /-- TOK.NEXT (R90). -/
  | tokNext
  /-- TOK.FLUSH (R91). -/
  | tokFlush
  /-- ENC.START (R93). -/
  | encStart
  /-- ENC.LOAD (R94). -/
  | encLoad
  /-- ENC.PREINSERT (R95). -/
  | encPreinsert
  /-- ENC.STEP (R96). -/
  | encStep
  /-- ENC.ADVANCE (R97). -/
  | encAdvance
  /-- ENC.DRAIN (R98). -/
  | encDrain
  /-- ENC.FINISH (R100). -/
  | encFinish
  /-- DEC.START (R103). -/
  | decStart
  /-- DEC.CTRL (R104). -/
  | decCtrl
  /-- DEC.LIT (R105). -/
  | decLit
  /-- DEC.REF (R106). -/
  | decRef
  /-- DEC.STOP (R108). -/
  | decStop
  /-- COMPRESS, CMD = 0b01 (R113). -/
  | compress
  /-- DECOMPRESS, CMD = 0b10 (R114). -/
  | decompress
  /-- CMD.NONE, CMD = 0b00 (R112). -/
  | cmdNone
  /-- CMD.IGNORED, CMD = 0b11 (R112). -/
  | cmdIgnored
  deriving DecidableEq, Repr

/-- Where the bytes of an instruction come from. The bytes alone do not say what they are: a token's kind is given by
its control bit (R59), an operation by its number (R64), a command by the port (R112). -/
inductive Source where
  | control | literal | reference | operation | command
  deriving DecidableEq, Repr

/-- The source each instruction is read from. -/
def Instr.source : Instr → Source
  | .ctrl _ => .control
  | .lit _ => .literal
  | .ref _ _ => .reference
  | .compress => .command
  | .decompress => .command
  | .cmdNone => .command
  | .cmdIgnored => .command
  | .winFill => .operation
  | .winGet _ => .operation
  | .winSet _ _ => .operation
  | .winKeyb _ _ => .operation
  | .idxClear => .operation
  | .cmpKey _ _ => .operation
  | .idxSearch _ => .operation
  | .idxInsert _ => .operation
  | .idxReplace _ _ => .operation
  | .idxDelete _ => .operation
  | .tokReset => .operation
  | .tokLit _ => .operation
  | .tokRef _ _ => .operation
  | .tokNext => .operation
  | .tokFlush => .operation
  | .encStart => .operation
  | .encLoad => .operation
  | .encPreinsert => .operation
  | .encStep => .operation
  | .encAdvance => .operation
  | .encDrain => .operation
  | .encFinish => .operation
  | .decStart => .operation
  | .decCtrl => .operation
  | .decLit => .operation
  | .decRef => .operation
  | .decStop => .operation

end Sys2Proof
end

