-- ==== Sys2Proof/WellFormed.lean ====
section
/-! DEFINITION. Which terms of Instr the spec admits: the operand ranges that the types do not give. -/

namespace Sys2Proof

/-- Why a term is no instruction of the block. -/
inductive Ill where
  /-- A ring address that the model's operand layout has no room for (log 3); the operation itself takes any
  natural number (R71, R72). -/
  | addressTooWide (pos : Nat)
  /-- A key has the bytes `0 .. F-1` (R74). -/
  | keyIndexBeyond (i : Nat)
  /-- A reference stands for 3 to 18 bytes (R56, R89). -/
  | lengthNotCoded (len : Nat)
  deriving DecidableEq, Repr

/-- R56, R89: the lengths a reference token can carry. -/
abbrev codedLen (len : Nat) : Prop := Config.threshold + 1 ≤ len ∧ len ≤ Config.F

/-- The first check an instruction fails, if any. -/
def Instr.ill : Instr → Option Ill
  | .ref _ len => if codedLen len then none else some (.lengthNotCoded len)
  | .tokRef _ len => if codedLen len then none else some (.lengthNotCoded len)
  | .winGet pos => if pos < 65536 then none else some (.addressTooWide pos)
  | .winSet pos _ => if pos < 65536 then none else some (.addressTooWide pos)
  | .winKeyb _ i => if i < Config.F then none else some (.keyIndexBeyond i)
  | .ctrl _ => none
  | .lit _ => none
  | .winFill => none
  | .idxClear => none
  | .cmpKey _ _ => none
  | .idxSearch _ => none
  | .idxInsert _ => none
  | .idxReplace _ _ => none
  | .idxDelete _ => none
  | .tokReset => none
  | .tokLit _ => none
  | .tokNext => none
  | .tokFlush => none
  | .encStart => none
  | .encLoad => none
  | .encPreinsert => none
  | .encStep => none
  | .encAdvance => none
  | .encDrain => none
  | .encFinish => none
  | .decStart => none
  | .decCtrl => none
  | .decLit => none
  | .decRef => none
  | .decStop => none
  | .compress => none
  | .decompress => none
  | .cmdNone => none
  | .cmdIgnored => none

/-- The instruction passes every check. -/
def Instr.wellFormed (i : Instr) : Bool := i.ill.isNone

end Sys2Proof
end

