-- ==== Sys2Proof/Decode.lean ====
section
/-! DEFINITION. From bytes to instructions and back: the token formats of R53 to R58, the operation numbers of R64, the
command codes of R112. The operands of an operation have no bits in the spec; the layout used here is the model's own
(DESIGN CHOICE, log 3): an address or ring position is two bytes, low byte first, a byte or key index one byte, and the
operands of TOK.REF are the two bytes of the token it packs (R58). -/

namespace Sys2Proof

/-- Why bytes are no instruction. -/
inductive DecodeError where
  /-- The bytes end before the instruction does. -/
  | truncated
  /-- Operation numbers 0x1B to 0x1F are unassigned (R64), and a number has five bits. -/
  | unassignedOperation (b : Byte)
  /-- A command has two bits (R112). -/
  | commandTooWide (b : Byte)
  /-- A ring position has twelve bits (R16, R17). -/
  | positionBeyondRing (n : Nat)
  /-- A key has F bytes (R74). -/
  | keyIndexBeyond (b : Byte)
  deriving DecidableEq, Repr

/-- R57: `pos = zext_12(b0) | ((b1 & 0xF0) << 4)`. -/
def refPos (b0 b1 : Byte) : Pos := b0.setWidth 12 ||| ((b1 &&& 0xF0).setWidth 12 <<< 4)

/-- R57: `n = (b1 & 0x0F) + THRESHOLD + 1`. -/
def refLen (b1 : Byte) : Nat := (b1 &&& 0x0F).toNat + Config.threshold + 1

/-- R58: `b0 = MATCH_POS & 0xFF`. -/
def refByte0 (pos : Pos) : Byte := (pos &&& 0xFF).setWidth 8

/-- R58: `b1 = ((MATCH_POS >> 4) & 0xF0) | (MATCH_LEN - 3)`. -/
def refByte1 (pos : Pos) (len : Nat) : Byte :=
  ((pos >>> 4) &&& 0xF0).setWidth 8 ||| BitVec.ofNat 8 (len - (Config.threshold + 1))

/-- The rest of a decoding once one operand byte is read. -/
def withByte (bytes : List Byte) (k : Byte → List Byte → Except DecodeError (Instr × List Byte)) :
    Except DecodeError (Instr × List Byte) :=
  match bytes with
  | b :: rest => k b rest
  | [] => .error .truncated

/-- The rest of a decoding once a two-byte address is read, low byte first. -/
def withAddress (bytes : List Byte) (k : Nat → List Byte → Except DecodeError (Instr × List Byte)) :
    Except DecodeError (Instr × List Byte) :=
  match bytes with
  | lo :: hi :: rest => k (lo.toNat + 256 * hi.toNat) rest
  | _ => .error .truncated

/-- The rest of a decoding once a ring position is read: an address below N. -/
def withPos (bytes : List Byte) (k : Pos → List Byte → Except DecodeError (Instr × List Byte)) :
    Except DecodeError (Instr × List Byte) :=
  withAddress bytes fun n rest =>
    if n < Config.N then k (BitVec.ofNat 12 n) rest else .error (.positionBeyondRing n)

/-- R64: the operation of a number, with its operands. -/
def decodeOperation (b : Byte) (rest : List Byte) : Except DecodeError (Instr × List Byte) :=
  match b.toNat with
  | 0x00 => .ok (.winFill, rest)
  | 0x01 => withAddress rest fun pos r => .ok (.winGet pos, r)
  | 0x02 => withAddress rest fun pos r => withByte r fun v r => .ok (.winSet pos v, r)
  | 0x03 => withPos rest fun p r => withByte r fun i r =>
      if i.toNat < Config.F then .ok (.winKeyb p i.toNat, r) else .error (.keyIndexBeyond i)
  | 0x04 => .ok (.idxClear, rest)
  | 0x05 => withPos rest fun r t => withPos t fun p t => .ok (.cmpKey r p, t)
  | 0x06 => withPos rest fun r t => .ok (.idxSearch r, t)
  | 0x07 => withPos rest fun r t => .ok (.idxInsert r, t)
  | 0x08 => withPos rest fun r t => withPos t fun p t => .ok (.idxReplace r p, t)
  | 0x09 => withPos rest fun p t => .ok (.idxDelete p, t)
  | 0x0A => .ok (.tokReset, rest)
  | 0x0B => withByte rest fun v t => .ok (.tokLit v, t)
  | 0x0C => withByte rest fun b0 t => withByte t fun b1 t => .ok (.tokRef (refPos b0 b1) (refLen b1), t)
  | 0x0D => .ok (.tokNext, rest)
  | 0x0E => .ok (.tokFlush, rest)
  | 0x0F => .ok (.encStart, rest)
  | 0x10 => .ok (.encLoad, rest)
  | 0x11 => .ok (.encPreinsert, rest)
  | 0x12 => .ok (.encStep, rest)
  | 0x13 => .ok (.encAdvance, rest)
  | 0x14 => .ok (.encDrain, rest)
  | 0x15 => .ok (.encFinish, rest)
  | 0x16 => .ok (.decStart, rest)
  | 0x17 => .ok (.decCtrl, rest)
  | 0x18 => .ok (.decLit, rest)
  | 0x19 => .ok (.decRef, rest)
  | 0x1A => .ok (.decStop, rest)
  | _ => .error (.unassignedOperation b)

/-- R112: the command of a code. -/
def decodeCommand (b : Byte) (rest : List Byte) : Except DecodeError (Instr × List Byte) :=
  match b.toNat with
  | 0 => .ok (.cmdNone, rest)
  | 1 => .ok (.compress, rest)
  | 2 => .ok (.decompress, rest)
  | 3 => .ok (.cmdIgnored, rest)
  | _ => .error (.commandTooWide b)

/-- The instruction at the head of `bytes`, read as `src` says, and the bytes after it. -/
def decode (src : Source) (bytes : List Byte) : Except DecodeError (Instr × List Byte) :=
  match src with
  | .control => withByte bytes fun k rest => .ok (.ctrl k, rest)
  | .literal => withByte bytes fun b rest => .ok (.lit b, rest)
  | .reference => withByte bytes fun b0 t => withByte t fun b1 rest => .ok (.ref (refPos b0 b1) (refLen b1), rest)
  | .operation => withByte bytes decodeOperation
  | .command => withByte bytes decodeCommand

/-- An address as the model lays it out, low byte first (log 3). -/
def addressBytes (n : Nat) : List Byte := [BitVec.ofNat 8 n, BitVec.ofNat 8 (n / 256)]

/-- The bytes of an instruction, from the tables of R54 to R58, R64 and R112. -/
def encode : Instr → List Byte
  | .ctrl k => [k]
  | .lit b => [b]
  | .ref pos len => [refByte0 pos, refByte1 pos len]
  | .winFill => [0x00]
  | .winGet pos => 0x01 :: addressBytes pos
  | .winSet pos b => 0x02 :: addressBytes pos ++ [b]
  | .winKeyb p i => 0x03 :: addressBytes p.toNat ++ [BitVec.ofNat 8 i]
  | .idxClear => [0x04]
  | .cmpKey r p => 0x05 :: addressBytes r.toNat ++ addressBytes p.toNat
  | .idxSearch r => 0x06 :: addressBytes r.toNat
  | .idxInsert r => 0x07 :: addressBytes r.toNat
  | .idxReplace r p => 0x08 :: addressBytes r.toNat ++ addressBytes p.toNat
  | .idxDelete p => 0x09 :: addressBytes p.toNat
  | .tokReset => [0x0A]
  | .tokLit b => [0x0B, b]
  | .tokRef pos len => [0x0C, refByte0 pos, refByte1 pos len]
  | .tokNext => [0x0D]
  | .tokFlush => [0x0E]
  | .encStart => [0x0F]
  | .encLoad => [0x10]
  | .encPreinsert => [0x11]
  | .encStep => [0x12]
  | .encAdvance => [0x13]
  | .encDrain => [0x14]
  | .encFinish => [0x15]
  | .decStart => [0x16]
  | .decCtrl => [0x17]
  | .decLit => [0x18]
  | .decRef => [0x19]
  | .decStop => [0x1A]
  | .cmdNone => [0x00]
  | .compress => [0x01]
  | .decompress => [0x02]
  | .cmdIgnored => [0x03]

/-- The source a row of the opcode table is read from, by its number of bits. The table tells its 8-bit, 5-bit and
2-bit rows apart by their width alone; where all of them are given in whole bytes, a byte below 0x20 is read as an
operation number and any other as a literal (DESIGN CHOICE, log 7). -/
def tableSource (nbits w : Nat) : Option Source :=
  if nbits = 16 then some .reference
  else if nbits = 8 then some (if w < 32 then .operation else .literal)
  else if 3 ≤ nbits ∧ nbits ≤ 5 then some .operation
  else if 1 ≤ nbits ∧ nbits ≤ 2 then some .command
  else none

/-- The bytes of a table word, first byte from the low bits, followed by operand bytes of zeros. -/
def tableBytes (w : Nat) : List Byte :=
  [BitVec.ofNat 8 w, BitVec.ofNat 8 (w / 256), 0, 0, 0]

/-- The instruction `decode` reads from a word of the opcode table's numbering. -/
def decodeTableWord (nbits w : Nat) : Option Instr :=
  match tableSource nbits w with
  | none => none
  | some src =>
    match decode src (tableBytes w) with
    | .ok (i, _) => some i
    | .error _ => none

end Sys2Proof
end

