-- ==== Sys2Proof/Machine/State.lean ====
section
/-! DEFINITION. The state of the block (spec/10_state.md), the reasons a step can stop, and the state after power-on. -/

namespace Sys2Proof.Machine

/-- R24: the sign of the first difference of two keys. -/
inductive Cmp where
  | neg | zero | pos
  deriving DecidableEq, Repr

/-- R65: the phases of the sequencer. -/
inductive Phase where
  | idle | eInit | eLoad | ePre | eStep | eAdv | eFin | dInit | dBit | dLit | dRef
  deriving DecidableEq, Repr

/-- R27: the mode of the block. -/
inductive Mode where
  | idle | enc | dec
  deriving DecidableEq, Repr

/-- R35: the private address spaces. -/
inductive Space where
  | text | left | right | parent | codebuf
  deriving DecidableEq, Repr

/-- R79: the side of a node an absent child slot is on. -/
inductive Side where
  | leftSide | rightSide
  deriving DecidableEq, Repr

/-- R79: how a walk ends. -/
inductive SearchResult where
  /-- At an absent child slot of `p`, a node or a root sentinel. -/
  | slot (p : Link) (side : Side)
  /-- At a node with an equal key. -/
  | full (p : Pos)
  deriving DecidableEq, Repr

/-- What an issued operation returned; the model's own register (log 4). -/
inductive Returned where
  | nothing
  /-- WIN.GET (R71) or WIN.KEYB (R74). -/
  | byte (b : Byte)
  /-- CMP.KEY (R78): the common-prefix length and the sign. -/
  | prefixLength (i : Nat) (c : Cmp)
  /-- IDX.SEARCH (R79). -/
  | search (r : SearchResult)
  deriving DecidableEq, Repr

/-- A sparse memory: the entries that differ from what an unlisted address reads as, by rising address. -/
abbrev Cells (w : Nat) := List (Nat × BitVec w)

/-- The block between two operations. -/
structure State where
  /-- TEXT (R11). -/
  text : List Host.Cell
  /-- LEFT (R12). -/
  left : Cells 13
  /-- RIGHT (R13). -/
  right : Cells 13
  /-- PARENT (R14). -/
  parent : Cells 13
  /-- CODEBUF (R15). -/
  codebuf : List Host.Cell
  /-- S (R16). -/
  sCur : Pos
  /-- R (R17). -/
  rCur : Pos
  /-- LEN (R18). -/
  len : Len
  /-- MATCH_POS (R19). -/
  matchPos : Pos
  /-- MATCH_LEN (R20). -/
  matchLen : Len
  /-- MASK (R21). -/
  mask : Byte
  /-- CODEPTR (R22). -/
  codePtr : Len
  /-- FLAGS (R23). -/
  flags : BitVec 16
  /-- LAST (R25). -/
  last : Len
  /-- I (R25). -/
  iCnt : Len
  /-- CMP (R24). It "does not live across operations"; the field keeps the last sign (DESIGN CHOICE, log 20). -/
  cmp : Cmp
  /-- PHASE (R26, R65). -/
  phase : Phase
  /-- MODE (R27). -/
  mode : Mode
  /-- STATUS.BUSY (R27). -/
  busy : Bool
  /-- STATUS.DONE (R27). -/
  done : Bool
  /-- IN; IN_LEN is its length (R28). -/
  inp : List Byte
  /-- IP (R28). -/
  ip : Nat
  /-- OUT; OUT_LEN is its length (R29). -/
  out : List Byte
  /-- The command port CMD (R112). -/
  cmd : BitVec 2
  /-- The model's own: operations issued from outside the sequencer (log 3). -/
  ops : List Byte
  /-- The model's own: what the last issued operation returned (log 4). -/
  ret : Returned
  deriving DecidableEq, Repr

/-- Why the machine stops where the block would not go on. -/
inductive Fault where
  /-- Raised by the walks of IDX.SEARCH (R79) and IDX.DELETE (R83) when the links they follow form a cycle, so that the
  walk of the spec never ends. Safe: no finite tree (R120) reaches it (log 11). -/
  | walkEndless
  deriving DecidableEq, Repr

/-- Why a step is refused. -/
inductive Refusal where
  /-- Raised by an arm of exec whose instruction has no meaning yet. Safe. -/
  | notModelled (mnemonic : String)
  /-- Raised by the fetch when issued bytes are no operation (R64). Safe (log 3). -/
  | undecodable (e : DecodeError)
  /-- Raised by IDX.INSERT and IDX.REPLACE when `r` is already in a tree: "a model refuses a call that does not"
  (R85, R82, D24). Safe (log 9). -/
  | alreadyInTree (r : Pos)
  /-- Raised by IDX.REPLACE when `p` is no node (R82, D24). Safe (log 9). -/
  | notInTree (p : Pos)
  /-- Raised by any access to an entry that does not exist: "a model should make them refuse" (R37, U2).
  Safe (log 10). -/
  | noEntry (space : Space) (addr : Nat)
  /-- Raised by a walk whose link names no ring position, where a key is wanted (R37, U2). Safe (log 10). -/
  | notRingPosition (l : Link)
  /-- Raised by ENC.ADVANCE when the input is exhausted: `IN.next()` is "Only called when IN.avail()" (R9, R97).
  Safe (log 9). -/
  | inputExhausted
  /-- Raised by ENC.DRAIN when LEN is 0: its precondition is `LEN >= 1` (R98), "it never goes below 0" (R51).
  Safe (log 9). -/
  | lenZero
  /-- Raised by TOK.REF and REF with a length that "cannot be represented and is never passed" (R89). Safe (log 9). -/
  | lengthNotCoded (len : Nat)
  deriving DecidableEq, Repr

/-- A fault or a refusal, for the operations that meanings share. -/
inductive Stop where
  | fault (f : Fault)
  | refused (r : Refusal)
  deriving DecidableEq, Repr

/-- After power-on MODE, STATUS and PHASE are as R148 says; CMD is at no command (R112). Every other field is
unspecified there and holds the value log 1 names (the START value of R31 where there is one), DESIGN CHOICE. The
memories list nothing (log 2). -/
def State.reset : State where
  text := []
  left := []
  right := []
  parent := []
  codebuf := []
  sCur := 0
  rCur := 4078
  len := 0
  matchPos := 0
  matchLen := 0
  mask := 1
  codePtr := 1
  flags := 0
  last := 0
  iCnt := 0
  cmp := .pos
  phase := .idle
  mode := .idle
  busy := false
  done := false
  inp := []
  ip := 0
  out := []
  cmd := 0
  ops := []
  ret := .nothing

end Sys2Proof.Machine
end

