-- ==== Sys2Proof/Machine/Memory.lean ====
section
/-! DEFINITION. Sparse memories in one canonical form, and what an unlisted entry of each space reads as. -/

namespace Sys2Proof.Machine

/-- What an unlisted address of TEXT reads as: FILLER (R11; at power-on DESIGN CHOICE, log 2). -/
def unlistedText : Byte := Config.filler

/-- What an unlisted entry of LEFT, RIGHT and PARENT reads as: NIL (R13, R14; at power-on DESIGN CHOICE, log 2). -/
def unlistedLink : Link := Config.nil

/-- What an unlisted address of CODEBUF reads as: 0 (DESIGN CHOICE, log 2). -/
def unlistedCode : Byte := 0

/-- The entry at `a`; `d` is what an unlisted address reads as. -/
def Memory.read {w : Nat} (d : BitVec w) : Cells w → Nat → BitVec w
  | [], _ => d
  | (k, v) :: m, a => if a = k then v else Memory.read d m a

/-- Write `v` at `a`, keeping the canonical form: writing `d` removes the entry. -/
def Memory.write {w : Nat} (d : BitVec w) : Cells w → Nat → BitVec w → Cells w
  | [], a, v => if v = d then [] else [(a, v)]
  | (k, x) :: m, a, v =>
    if a < k then (if v = d then (k, x) :: m else (a, v) :: (k, x) :: m)
    else if a = k then (if v = d then m else (a, v) :: m)
    else (k, x) :: Memory.write d m a v

/-- Every listed address is at least `lo` and they rise strictly, and no entry equals `d`. -/
def Memory.wfFrom {w : Nat} (d : BitVec w) : Nat → Cells w → Bool
  | _, [] => true
  | lo, (k, v) :: m => decide (lo ≤ k) && decide (v ≠ d) && Memory.wfFrom d (k + 1) m

/-- The canonical form. -/
def Memory.wf {w : Nat} (d : BitVec w) (m : Cells w) : Bool := Memory.wfFrom d 0 m

/-- Every listed address satisfies `p`. -/
def Memory.within {w : Nat} (p : Nat → Bool) (m : Cells w) : Bool := m.all fun c => p c.1

/-- R35, R37: the addresses that exist in each space. -/
def entryExists : Space → Nat → Bool
  | .text, a => decide (a < Config.textSize)
  | .left, a => decide (a < Config.N)
  | .right, a => decide (a < Config.N) || (decide (Config.N + 1 ≤ a) && decide (a ≤ Config.N + 256))
  | .parent, a => decide (a < Config.N)
  | .codebuf, a => decide (a < Config.codeSize)

/-- Every memory of the state is in canonical form and lists only addresses that exist. -/
def State.memWf (s : State) : Bool :=
  Memory.wf unlistedText s.text && Memory.within (entryExists .text) s.text &&
  (Memory.wf unlistedLink s.left && Memory.within (entryExists .left) s.left) &&
  (Memory.wf unlistedLink s.right && Memory.within (entryExists .right) s.right) &&
  (Memory.wf unlistedLink s.parent && Memory.within (entryExists .parent) s.parent) &&
  (Memory.wf unlistedCode s.codebuf && Memory.within (entryExists .codebuf) s.codebuf)

/-- Entry `a` of TEXT. -/
def State.textAt (s : State) (a : Nat) : Byte := Memory.read unlistedText s.text a

/-- Entry `a` of LEFT. -/
def State.leftAt (s : State) (a : Nat) : Link := Memory.read unlistedLink s.left a

/-- Entry `a` of RIGHT. -/
def State.rightAt (s : State) (a : Nat) : Link := Memory.read unlistedLink s.right a

/-- Entry `a` of PARENT. -/
def State.parentAt (s : State) (a : Nat) : Link := Memory.read unlistedLink s.parent a

/-- Entry `a` of CODEBUF. -/
def State.codeAt (s : State) (a : Nat) : Byte := Memory.read unlistedCode s.codebuf a

/-- TEXT with `v` at `a`. -/
def State.setText (s : State) (a : Nat) (v : Byte) : State := { s with text := Memory.write unlistedText s.text a v }

/-- LEFT with `v` at `a`. -/
def State.setLeft (s : State) (a : Nat) (v : Link) : State := { s with left := Memory.write unlistedLink s.left a v }

/-- RIGHT with `v` at `a`. -/
def State.setRight (s : State) (a : Nat) (v : Link) : State := { s with right := Memory.write unlistedLink s.right a v }

/-- PARENT with `v` at `a`. -/
def State.setParent (s : State) (a : Nat) (v : Link) : State :=
  { s with parent := Memory.write unlistedLink s.parent a v }

/-- CODEBUF with `v` at `a`. -/
def State.setCode (s : State) (a : Nat) (v : Byte) : State :=
  { s with codebuf := Memory.write unlistedCode s.codebuf a v }

end Sys2Proof.Machine
end

