-- ==== Sys2Proof/Machine/Operands.lean ====
section
/-! DEFINITION. The operand forms: ring addresses, linear addresses, tree indices, and the arithmetic on them
(spec/20_memory.md R36, R37, R44, R51). -/

namespace Sys2Proof.Machine

/-- R36, R45: a ring access uses its address modulo N. -/
def ringAddr (pos : Nat) : Nat := pos % Config.N

/-- R44: `(x + 1) mod N`. -/
def nextPos (x : Pos) : Pos := x + 1

/-- R74: the linear address of byte `i` of the key of ring position `p`, not reduced modulo N. -/
def keyAddr (p : Pos) (i : Nat) : Nat := p.toNat + i

/-- R8, R76: the root sentinel of the tree of leading byte `b`. -/
def rootLink (b : Byte) : Link := 4097 + b.setWidth 13

/-- R37: the tree index names a ring position. -/
def isRing (l : Link) : Bool := decide (l.toNat < Config.N)

/-- R37: the ring position a tree index below N names. -/
def ringOf (l : Link) : Pos := l.setWidth 12

/-- R44, R95: `R - i`; modulo N where `R < i`, which no run meets (DEDUCED from R45, log 12). -/
def backPos (r : Pos) (i : Nat) : Pos := r - BitVec.ofNat 12 i

/-- R25: a five-bit counter one higher; a free value where the sum does not fit (log 13). -/
def nextCount (i : Len) : Len :=
  if i.toNat + 1 < 32 then i + 1 else Config.counterBeyond (i.toNat + 1)

/-- R51: the smaller of two lengths. -/
def minLen (a b : Len) : Len := if b.toNat < a.toNat then b else a

end Sys2Proof.Machine
end

