-- ==== Sys2Proof/Machine/Flags.lean ====
section
/-! DEFINITION. The flags: the comparator's CMP (R24, R52, R78), the decoder's control register FLAGS (R23, R104), the
one-hot MASK (R21, R90), and the status words the host reads (R27). -/

namespace Sys2Proof.Machine

/-- R52, R78: the sign of `a - b` for unequal bytes, compared as unsigned numbers. -/
def signOf (a b : Byte) : Cmp := if b.toNat < a.toNat then .pos else .neg

/-- R78: the comparator from lane `i` on, `n` lanes left. -/
def compareFrom (s : State) (r p : Pos) : Nat → Nat → Nat × Cmp
  | 0, i => (i, .zero)
  | n + 1, i =>
    if s.textAt (keyAddr r i) = s.textAt (keyAddr p i) then compareFrom s r p n (i + 1)
    else (i, signOf (s.textAt (keyAddr r i)) (s.textAt (keyAddr p i)))

/-- R78: the common-prefix length of two keys, counting byte 0, and the sign of the first difference. -/
def compareKeys (s : State) (r p : Pos) : Nat × Cmp := compareFrom s r p (Config.F - 1) 1

/-- R104: `FLAGS <- FLAGS >> 1`, a logical shift. -/
def shiftFlags (f : BitVec 16) : BitVec 16 := f >>> 1

/-- R104: bit 8 tells whether an unconsumed control bit remains. -/
def bitsRemain (f : BitVec 16) : Bool := f.getLsbD 8

/-- R104: `FLAGS <- 0xFF00 | zext_16(c)`. -/
def loadFlags (c : Byte) : BitVec 16 := 0xFF00 ||| c.setWidth 16

/-- R104, R54: bit 0 selects the kind of the token, 1 a literal, 0 a reference. -/
def tokenPhase (f : BitVec 16) : Phase := if f.getLsbD 0 then .dLit else .dRef

/-- R90: `MASK <- (MASK << 1) & 0xFF`. -/
def shiftMask (m : Byte) : Byte := m <<< 1

/-- R65: the number of a phase, a label only. -/
def phaseNumber : Phase → Nat
  | .idle => 0
  | .eInit => 1
  | .eLoad => 2
  | .ePre => 3
  | .eStep => 4
  | .eAdv => 5
  | .eFin => 6
  | .dInit => 7
  | .dBit => 8
  | .dLit => 9
  | .dRef => 10

/-- R27: MODE as the host reads it. -/
def modeWord : Mode → BitVec 2
  | .idle => 0
  | .enc => 1
  | .dec => 2

/-- R27: STATUS as the host reads it, BUSY in bit 0 and DONE in bit 1. -/
def statusWord (busy done : Bool) : BitVec 2 := BitVec.ofBool done ++ BitVec.ofBool busy

end Sys2Proof.Machine
end

