-- ==== Sys2Proof/Machine/Ops.lean ====
section
/-! DEFINITION. The named operations over memories, registers and streams that meanings share. The spec gives the block
no exception, no trap and no return from one (R136, R140, R141): no operation here saves a state or goes to a handler.
A run ends by one operation, `endRun`. -/

namespace Sys2Proof.Machine

/-- What an operation answers: a value, or the reason it stops. -/
abbrev Res (α : Type) := Except Stop α

/-- The outcome of an operation that answers a state. -/
def outcome : Res State → Host.Outcome State Fault Refusal
  | .ok s => .next s
  | .error (.fault f) => .fault f
  | .error (.refused r) => .refused r

/-- The stop for an entry that does not exist (R37, U2). -/
def noEntry (space : Space) (a : Nat) : Stop := .refused (.noEntry space a)

/-! ## Tree links (R37, R46) -/

/-- Read `LEFT[x]`. -/
def readLeft (s : State) (x : Link) : Res Link :=
  if entryExists .left x.toNat then .ok (s.leftAt x.toNat) else .error (noEntry .left x.toNat)

/-- Read `RIGHT[x]`. -/
def readRight (s : State) (x : Link) : Res Link :=
  if entryExists .right x.toNat then .ok (s.rightAt x.toNat) else .error (noEntry .right x.toNat)

/-- Read `PARENT[x]`. -/
def readParent (s : State) (x : Link) : Res Link :=
  if entryExists .parent x.toNat then .ok (s.parentAt x.toNat) else .error (noEntry .parent x.toNat)

/-- `LEFT[x] <- v`. -/
def writeLeft (x v : Link) (s : State) : Res State :=
  if entryExists .left x.toNat then .ok (s.setLeft x.toNat v) else .error (noEntry .left x.toNat)

/-- `RIGHT[x] <- v`. -/
def writeRight (x v : Link) (s : State) : Res State :=
  if entryExists .right x.toNat then .ok (s.setRight x.toNat v) else .error (noEntry .right x.toNat)

/-- `PARENT[x] <- v`. -/
def writeParent (x v : Link) (s : State) : Res State :=
  if entryExists .parent x.toNat then .ok (s.setParent x.toNat v) else .error (noEntry .parent x.toNat)

/-- R46: `SetParent(x, v)`: a write addressed to `PARENT[NIL]` does nothing. -/
def linkParent (x v : Link) (s : State) : Res State :=
  if x = Config.nil then .ok s else writeParent x v s

/-- A tree index where a ring position is wanted (R37). -/
def ringPosition (l : Link) : Res Pos :=
  if isRing l then .ok (ringOf l) else .error (.refused (.notRingPosition l))

/-! ## Window (R70 to R74) -/

/-- R70: every byte of TEXT is FILLER, which is what an unlisted address reads as. -/
def fillWindow (s : State) : State := { s with text := [] }

/-- R71: the byte at a ring position. -/
def windowGet (s : State) (pos : Nat) : Byte := s.textAt (ringAddr pos)

/-- R72: write a byte at a ring position and, below `F - 1`, its mirror byte. -/
def windowSet (pos : Nat) (b : Byte) (s : State) : State :=
  if ringAddr pos < Config.F - 1 then (s.setText (ringAddr pos) b).setText (ringAddr pos + Config.N) b
  else s.setText (ringAddr pos) b

/-- R74: byte `i` of the key of `p`, at a linear address. For `i >= F`, where the rule gives no byte, the byte at that
address where TEXT has one (DESIGN CHOICE, log 17); past TEXT, refused (log 10). -/
def keyByte (s : State) (p : Pos) (i : Nat) : Res Byte :=
  if entryExists .text (keyAddr p i) then .ok (s.textAt (keyAddr p i)) else .error (noEntry .text (keyAddr p i))

/-! ## Group buffer (R15) -/

/-- `CODEBUF[a] <- v`. -/
def writeCode (a : Nat) (v : Byte) (s : State) : Res State :=
  if entryExists .codebuf a then .ok (s.setCode a v) else .error (noEntry .codebuf a)

/-- R90, R91: the bytes `CODEBUF[0 .. CODEPTR-1]`. -/
def groupBytes (s : State) : Res (List Byte) :=
  if s.codePtr.toNat ≤ Config.codeSize then .ok ((List.range s.codePtr.toNat).map s.codeAt)
  else .error (noEntry .codebuf Config.codeSize)

/-- R87: an empty group. The bytes of CODEBUF from CODEPTR on, which are unspecified at all times, keep their values:
DESIGN CHOICE, log 21. -/
def resetGroup (s : State) : State := { s.setCode 0 0 with codePtr := 1, mask := 1 }

/-! ## Streams (R9, R28, R29) -/

/-- `IN.avail()`. -/
def inAvail (s : State) : Bool := decide (s.ip < s.inp.length)

/-- `IN.next()` where `IN.avail()`: the byte and the state with the cursor past it. -/
def inNext (s : State) : Option (Byte × State) :=
  match s.inp[s.ip]? with
  | some b => some (b, { s with ip := s.ip + 1 })
  | none => none

/-- `OUT.append(b)`. -/
def appendOut (b : Byte) (s : State) : State := { s with out := s.out ++ [b] }

/-- `OUT.append` of each byte in order. -/
def appendAll (bs : List Byte) (s : State) : State := { s with out := s.out ++ bs }

/-! ## Registers -/

/-- `R <- (R + 1) mod N` (R17, R44). -/
def advanceR (s : State) : State := { s with rCur := nextPos s.rCur }

/-- `S <- (S + 1) mod N` (R16, R44). -/
def advanceS (s : State) : State := { s with sCur := nextPos s.sCur }

/-- `PHASE <- p` (R26). -/
def setPhase (p : Phase) (s : State) : State := { s with phase := p }

/-- R94, R100, R108: the end of a run. -/
def endRun (s : State) : State := { s with busy := false, done := true, mode := .idle, phase := .idle }

end Sys2Proof.Machine
end

