-- ==== Sys2Proof/Machine/Decoder.lean ====
section
/-! DEFINITION. The decoder (spec/44_decoder.md) and the effect of the tokens it fetches. -/

namespace Sys2Proof.Machine

/-- R103: every piece of decoder state as a run starts. The state decode mode does not use, unspecified after START (R31,
R150), keeps its value: DESIGN CHOICE, log 19. -/
def startDecoder (s : State) : State :=
  { fillWindow s with rCur := Config.startR, flags := 0, ip := 0, out := [], phase := .dBit }

/-- R104: a control byte is loaded and its first bit selects the token kind. -/
def controlToken (k : Byte) (s : State) : State :=
  { s with flags := loadFlags k, phase := tokenPhase (loadFlags k) }

/-- R105, R106: one byte goes to OUT and into the ring at R. -/
def emitByte (c : Byte) (s : State) : State :=
  advanceR (windowSet s.rCur.toNat c (appendOut c s))

/-- R106, R107: copy `n` bytes from ring positions `pos + k` on, each read before it is written and written before the
next is read. -/
def copyBytes (pos : Nat) : Nat → Nat → State → State
  | 0, _, s => s
  | n + 1, k, s => copyBytes pos n (k + 1) (emitByte (windowGet s (pos + k)) s)

/-- R105: the effect of a literal token. -/
def literalToken (b : Byte) (s : State) : State := setPhase .dBit (emitByte b s)

/-- R106: the effect of a reference token. -/
def referenceToken (pos : Pos) (len : Nat) (s : State) : State := setPhase .dBit (copyBytes pos.toNat len 0 s)

/-- CTRL (R54, R104). -/
def execCtrl (k : Byte) (s : State) : Host.Outcome State Fault Refusal := .next (controlToken k s)

/-- LIT (R55, R105). -/
def execLit (b : Byte) (s : State) : Host.Outcome State Fault Refusal := .next (literalToken b s)

/-- REF (R56, R106); a length no token carries is refused (log 9). -/
def execRef (pos : Pos) (len : Nat) (s : State) : Host.Outcome State Fault Refusal :=
  if codedLen len then .next (referenceToken pos len s) else .refused (.lengthNotCoded len)

/-- DEC.START (R103). -/
def execDecStart (s : State) : Host.Outcome State Fault Refusal := .next (startDecoder s)

/-- DEC.CTRL (R104); at truncation point (a) the run ends (R62). -/
def execDecCtrl (s : State) : Host.Outcome State Fault Refusal :=
  let s' := { s with flags := shiftFlags s.flags }
  if bitsRemain s'.flags then .next (setPhase (tokenPhase s'.flags) s')
  else
    match inNext s' with
    | none => .next (endRun s')
    | some (c, s'') => .next (controlToken c s'')

/-- DEC.LIT (R105); at truncation point (b) the run ends (R62). -/
def execDecLit (s : State) : Host.Outcome State Fault Refusal :=
  match inNext s with
  | none => .next (endRun s)
  | some (c, s') => .next (literalToken c s')

/-- DEC.REF (R106); at truncation points (c) and (d) the run ends, at (d) with the first byte consumed (R62). -/
def execDecRef (s : State) : Host.Outcome State Fault Refusal :=
  match inNext s with
  | none => .next (endRun s)
  | some (b0, s') =>
    match inNext s' with
    | none => .next (endRun s')
    | some (b1, s'') => .next (referenceToken (refPos b0 b1) (refLen b1) s'')

/-- DEC.STOP (R108). -/
def execDecStop (s : State) : Host.Outcome State Fault Refusal := .next (endRun s)

end Sys2Proof.Machine
end

