-- ==== Sys2Proof/Machine/MatchIndex.lean ====
section
/-! DEFINITION. The comparator and the Match Index operations (spec/41_match_index_ops.md). The procedures are the
spec's, read for read and write for write; the loops carry a bound no finite tree reaches (log 11). -/

namespace Sys2Proof.Machine

/-- R75: every tree is empty and no position is in a tree. Root entries lie above N. The node entries of LEFT and RIGHT
are not written (R75); after START their values are unspecified (R31), and that they are the old ones is DESIGN CHOICE,
log 19. -/
def clearIndex (s : State) : State :=
  { s with right := s.right.filter fun c => decide (c.1 < Config.N), parent := [] }

/-- R79: the node `q` becomes the best match when its key agrees with that of `r` on more bytes than the best so far. -/
def betterMatch (s : State) (r q : Pos) : Bool := decide (s.matchLen.toNat < (compareKeys s r q).1)

/-- R79: the walk visits node `q`: CMP and, when the match is better, MATCH_POS and MATCH_LEN. CMP keeps the sign after
the operation (DESIGN CHOICE, log 20). -/
def visitNode (r q : Pos) (s : State) : State :=
  if betterMatch s r q then
    { s with cmp := (compareKeys s r q).2, matchPos := q, matchLen := BitVec.ofNat 5 (compareKeys s r q).1 }
  else { s with cmp := (compareKeys s r q).2 }

/-- R79: the link the walk follows from `p`: RIGHT after POS (and from a root), LEFT after NEG. -/
def walkLink (s : State) (p : Link) : Res Link :=
  if s.cmp = .neg then readLeft s p else readRight s p

/-- R79: the side of `p` the walk looks at. -/
def walkSide (s : State) : Side := if s.cmp = .neg then .leftSide else .rightSide

/-- R79: the loop of IDX.SEARCH from node or sentinel `p`, for at most `fuel` rounds. Returns how the walk ends and the
state with CMP, MATCH_POS and MATCH_LEN as it left them. -/
def walk (r : Pos) : Nat → Link → State → Res (SearchResult × State)
  | 0, _, _ => .error (.fault .walkEndless)
  | fuel + 1, p, s => do
    let q ← walkLink s p
    if q = Config.nil then pure (.slot p (walkSide s), s)
    else do
      let n ← ringPosition q
      if betterMatch s r n ∧ Config.F ≤ (compareKeys s r n).1 then pure (.full n, visitNode r n s)
      else walk r fuel q (visitNode r n s)

/-- The rounds after which a walk has met an index twice: the tree indices are `0 .. 4352` (R37, log 11). -/
def walkBound : Nat := Config.N + 257

/-- R79: IDX.SEARCH. -/
def searchIndex (r : Pos) (s : State) : Res (SearchResult × State) :=
  walk r walkBound (rootLink (s.textAt r.toNat)) { s with cmp := .pos, matchLen := 0 }

/-- R82, R83, R84: put `v` into the child slot of `PARENT[p]` that holds `p`, found by comparing links. -/
def replaceChild (p v : Link) (s : State) : Res State := do
  let y ← readParent s p
  let c ← readRight s y
  if c = p then writeRight y v s else writeLeft y v s

/-- R82: IDX.REPLACE, with its operand conditions "r (not in a tree), p (a node)" (log 9); that the two keys are equal is
not checked (DESIGN CHOICE, log 18). -/
def replaceNode (r p : Pos) (s : State) : Res State :=
  if s.parentAt r.toNat ≠ Config.nil then .error (.refused (.alreadyInTree r))
  else if s.parentAt p.toNat = Config.nil then .error (.refused (.notInTree p))
  else do
    let s ← writeParent r.link (← readParent s p.link) s
    let s ← writeLeft r.link (← readLeft s p.link) s
    let s ← writeRight r.link (← readRight s p.link) s
    let s ← linkParent (← readLeft s p.link) r.link s
    let s ← linkParent (← readRight s p.link) r.link s
    let s ← replaceChild p.link r.link s
    writeParent p.link Config.nil s

/-- R81: make `r` the child of `p` on the side the walk ended on. -/
def spliceLeaf (r : Pos) (p : Link) (side : Side) (s : State) : Res State := do
  let s ← match side with
    | .rightSide => writeRight p r.link s
    | .leftSide => writeLeft p r.link s
  writeParent r.link p s

/-- R81: IDX.INSERT. A position already in a tree is refused (R85, D24). -/
def insertNode (r : Pos) (s : State) : Res State :=
  if s.parentAt r.toNat ≠ Config.nil then .error (.refused (.alreadyInTree r))
  else do
    let s ← writeLeft r.link Config.nil s
    let s ← writeRight r.link Config.nil s
    let (result, s) ← searchIndex r s
    match result with
    | .slot p side => spliceLeaf r p side s
    | .full p => replaceNode r p s

/-- R83: descend to the right from `q` to the node whose right child is absent, for at most `fuel` rounds. -/
def rightmost (s : State) : Nat → Link → Res Link
  | 0, _ => .error (.fault .walkEndless)
  | fuel + 1, q => do
    let x ← readRight s q
    if x = Config.nil then pure q else rightmost s fuel x

/-- R83: take the in-order predecessor `q` out of its place and give it the left subtree of `p`. -/
def spliceOut (q p : Link) (s : State) : Res State := do
  let s ← writeRight (← readParent s q) (← readLeft s q) s
  let s ← linkParent (← readLeft s q) (← readParent s q) s
  let s ← writeLeft q (← readLeft s p) s
  linkParent (← readLeft s p) q s

/-- R83, the case of two children: the predecessor of `p`, and the state in which it holds both subtrees of `p`. -/
def graftPredecessor (p : Link) (s : State) : Res (Link × State) := do
  let l ← readLeft s p
  let q ← rightmost s walkBound l
  let s ← if q = l then pure s else spliceOut q p s
  let s ← writeRight q (← readRight s p) s
  let s ← linkParent (← readRight s p) q s
  pure (q, s)

/-- R83: the node (or NIL) that takes the place of `p`, and the state prepared for it. -/
def successor (p : Link) (s : State) : Res (Link × State) := do
  let r ← readRight s p
  let l ← readLeft s p
  if r = Config.nil then pure (l, s)
  else if l = Config.nil then pure (r, s)
  else graftPredecessor p s

/-- R83: IDX.DELETE; a no-op for a position that is in no tree. -/
def deleteNode (p : Pos) (s : State) : Res State :=
  if s.parentAt p.toNat = Config.nil then .ok s
  else do
    let (q, s) ← successor p.link s
    let s ← linkParent q (← readParent s p.link) s
    let s ← replaceChild p.link q s
    writeParent p.link Config.nil s

/-- IDX.CLEAR (R75). -/
def execIdxClear (s : State) : Host.Outcome State Fault Refusal := .next (clearIndex s)

/-- CMP.KEY (R78): writes CMP and returns `(i, CMP)`. -/
def execCmpKey (r p : Pos) (s : State) : Host.Outcome State Fault Refusal :=
  .next { s with cmp := (compareKeys s r p).2,
                 ret := .prefixLength (compareKeys s r p).1 (compareKeys s r p).2 }

/-- IDX.SEARCH (R79): writes CMP, MATCH_POS and MATCH_LEN and returns how the walk ended. -/
def execIdxSearch (r : Pos) (s : State) : Host.Outcome State Fault Refusal :=
  outcome do
    let (result, s') ← searchIndex r s
    pure { s' with ret := .search result }

/-- IDX.INSERT (R81). -/
def execIdxInsert (r : Pos) (s : State) : Host.Outcome State Fault Refusal := outcome (insertNode r s)

/-- IDX.REPLACE (R82). -/
def execIdxReplace (r p : Pos) (s : State) : Host.Outcome State Fault Refusal := outcome (replaceNode r p s)

/-- IDX.DELETE (R83). -/
def execIdxDelete (p : Pos) (s : State) : Host.Outcome State Fault Refusal := outcome (deleteNode p s)

end Sys2Proof.Machine
end

