-- ==== Sys2Proof/Machine/TokenEncoder.lean ====
section
/-! DEFINITION. The token encoder (spec/42_token_encoder_ops.md). -/

namespace Sys2Proof.Machine

/-- R88: pack a literal token. That MASK is one-hot is not checked (DESIGN CHOICE, log 18). -/
def packLiteral (b : Byte) (s : State) : Res State := do
  let s ← writeCode 0 (s.codeAt 0 ||| s.mask) s
  let s ← writeCode s.codePtr.toNat b s
  pure { s with codePtr := s.codePtr + 1 }

/-- R89: pack a reference token; its control bit stays 0. -/
def packReference (pos : Pos) (len : Nat) (s : State) : Res State :=
  if codedLen len then do
    let s ← writeCode s.codePtr.toNat (refByte0 pos) s
    let s ← writeCode (s.codePtr.toNat + 1) (refByte1 pos len) s
    pure { s with codePtr := s.codePtr + 2 }
  else .error (.refused (.lengthNotCoded len))

/-- R90: close the token slot just filled; a full group goes to OUT. -/
def closeToken (s : State) : Res State :=
  let s' := { s with mask := shiftMask s.mask }
  if s'.mask = 0 then do
    let bs ← groupBytes s'
    pure (resetGroup (appendAll bs s'))
  else pure s'

/-- R91: write out a partial group. -/
def flushGroup (s : State) : Res State :=
  if 1 < s.codePtr.toNat then do
    let bs ← groupBytes s
    pure (appendAll bs s)
  else pure s

/-- TOK.RESET (R87). -/
def execTokReset (s : State) : Host.Outcome State Fault Refusal := .next (resetGroup s)

/-- TOK.LIT (R88). -/
def execTokLit (b : Byte) (s : State) : Host.Outcome State Fault Refusal := outcome (packLiteral b s)

/-- TOK.REF (R89). -/
def execTokRef (pos : Pos) (len : Nat) (s : State) : Host.Outcome State Fault Refusal :=
  outcome (packReference pos len s)

/-- TOK.NEXT (R90). -/
def execTokNext (s : State) : Host.Outcome State Fault Refusal := outcome (closeToken s)

/-- TOK.FLUSH (R91). -/
def execTokFlush (s : State) : Host.Outcome State Fault Refusal := outcome (flushGroup s)

end Sys2Proof.Machine
end

