-- ==== Sys2Proof/Machine/Encoder.lean ====
section
/-! DEFINITION. The encoder sequencer (spec/43_encoder_sequencer.md). -/

namespace Sys2Proof.Machine

/-- R93: every piece of encoder state as a run starts. What R31 and R150 leave unspecified after START (MATCH_POS, CMP,
`CODEBUF[1..16]`, the node entries of LEFT and RIGHT, the decoder's FLAGS) keeps its value: DESIGN CHOICE, log 19. -/
def startEncoder (s : State) : State :=
  { resetGroup (clearIndex (fillWindow s)) with
    sCur := 0, rCur := Config.startR, len := 0, matchLen := 0, last := 0, iCnt := 0, ip := 0, out := [],
    phase := .eLoad }

/-- R94: move input bytes into the lookahead while there is room and input, for at most `n` bytes. -/
def loadLookahead : Nat → State → State
  | 0, s => s
  | n + 1, s =>
    if s.len.toNat < Config.F then
      match inNext s with
      | some (b, s') => loadLookahead n { windowSet (s.rCur.toNat + s.len.toNat) b s' with len := s.len + 1 }
      | none => s
    else s

/-- R95: insert the `n` positions `R - i`, `R - i - 1`, … -/
def insertBack : Nat → Nat → State → Res State
  | 0, _, s => pure s
  | n + 1, i, s => do
    let s ← insertNode (backPos s.rCur i) s
    insertBack n (i + 1) s

/-- R96 step 1: the clamp of the match to the input that remains. -/
def clampMatch (s : State) : State := { s with matchLen := minLen s.matchLen s.len }

/-- R96 steps 2 and 3: the token of the current Match State. -/
def packToken (s : State) : Res State :=
  if s.matchLen.toNat ≤ Config.threshold then
    packLiteral (windowGet s s.rCur.toNat) { s with matchLen := 1 }
  else packReference s.matchPos s.matchLen.toNat s

/-- R96: ENC.STEP. The preconditions `LEN >= 1` and a last `IDX.INSERT(R)` are not checked: a call that breaks one does
what the rule's lines say (DESIGN CHOICE, log 18). -/
def stepEncoder (s : State) : Res State := do
  let s ← packToken (clampMatch s)
  let s ← closeToken s
  pure { s with last := s.matchLen, iCnt := 0, phase := .eAdv }

/-- R97: ENC.ADVANCE: delete, write, advance, insert, in this order (R155). -/
def advanceEncoder (s : State) : Res State := do
  let s ← deleteNode s.sCur s
  match inNext s with
  | none => .error (.refused .inputExhausted)
  | some (c, s) => do
    let s := advanceR (advanceS (windowSet s.sCur.toNat c s))
    let s ← insertNode s.rCur s
    pure { s with iCnt := nextCount s.iCnt }

/-- R98: ENC.DRAIN; its precondition is `LEN >= 1` (log 9). -/
def drainEncoder (s : State) : Res State :=
  if s.len = 0 then .error (.refused .lenZero)
  else do
    let s ← deleteNode s.sCur { s with iCnt := nextCount s.iCnt }
    let s := advanceR (advanceS s)
    let s := { s with len := s.len - 1 }
    if s.len = 0 then pure s else insertNode s.rCur s

/-- R100: ENC.FINISH. -/
def finishEncoder (s : State) : Res State := do
  let s ← flushGroup s
  pure (endRun s)

/-- ENC.START (R93). -/
def execEncStart (s : State) : Host.Outcome State Fault Refusal := .next (startEncoder s)

/-- ENC.LOAD (R94); on empty input the run ends (R101). -/
def execEncLoad (s : State) : Host.Outcome State Fault Refusal :=
  let s' := loadLookahead Config.F s
  .next (if s'.len = 0 then endRun s' else setPhase .ePre s')

/-- ENC.PREINSERT (R95). -/
def execEncPreinsert (s : State) : Host.Outcome State Fault Refusal :=
  outcome do
    let s ← insertBack Config.F 1 s
    let s ← insertNode s.rCur s
    pure (setPhase .eStep s)

/-- ENC.STEP (R96). -/
def execEncStep (s : State) : Host.Outcome State Fault Refusal := outcome (stepEncoder s)

/-- ENC.ADVANCE (R97). -/
def execEncAdvance (s : State) : Host.Outcome State Fault Refusal := outcome (advanceEncoder s)

/-- ENC.DRAIN (R98). -/
def execEncDrain (s : State) : Host.Outcome State Fault Refusal := outcome (drainEncoder s)

/-- ENC.FINISH (R100). -/
def execEncFinish (s : State) : Host.Outcome State Fault Refusal := outcome (finishEncoder s)

end Sys2Proof.Machine
end

