-- ==== Sys2Proof/Machine/HostInterface.lean ====
section
/-! DEFINITION. The host commands and what the host can see and do (spec/45_host_interface_ops.md). -/

namespace Sys2Proof.Machine

/-- R113, R114: a command starts a run; while PHASE is not IDLE it is refused and "changes nothing" (R116). -/
def startRun (m : Mode) (p : Phase) (s : State) : State :=
  if s.phase = .idle then { s with mode := m, busy := true, done := false, phase := p } else s

/-- COMPRESS (R113). -/
def execCompress (s : State) : Host.Outcome State Fault Refusal := .next (startRun .enc .eInit s)

/-- DECOMPRESS (R114). -/
def execDecompress (s : State) : Host.Outcome State Fault Refusal := .next (startRun .dec .dInit s)

/-- CMD.NONE (R112): no command, no effect. -/
def execCmdNone (s : State) : Host.Outcome State Fault Refusal := .next s

/-- CMD.IGNORED (R112): ignored, as no command. -/
def execCmdIgnored (s : State) : Host.Outcome State Fault Refusal := .next s

/-- The host presents a command together with an input (R112). While BUSY = 1 the host must not change IN (R116), and
does not here; DESIGN CHOICE, log 5 and log 8. -/
def State.hostPresent (c : BitVec 2) (input : List Byte) (s : State) : State :=
  if s.busy then { s with cmd := c } else { s with cmd := c, inp := input }

/-- R115: the host reads MODE at any time, without side effect. -/
def hostMode (s : State) : BitVec 2 := modeWord s.mode

/-- R115: the host reads STATUS at any time, without side effect. -/
def hostStatus (s : State) : BitVec 2 := statusWord s.busy s.done

/-- R117: OUT has a meaning for the host only when DONE = 1. -/
def hostOut (s : State) : Option (List Byte) := if s.done then some s.out else none

end Sys2Proof.Machine
end

