-- ==== Sys2Proof/Machine/Window.lean ====
section
/-! DEFINITION. The Window Buffer operations (spec/40_window_ops.md). -/

namespace Sys2Proof.Machine

/-- WIN.FILL (R70). -/
def execWinFill (s : State) : Host.Outcome State Fault Refusal := .next (fillWindow s)

/-- WIN.GET (R71): returns the byte; no other effect. -/
def execWinGet (pos : Nat) (s : State) : Host.Outcome State Fault Refusal :=
  .next { s with ret := .byte (windowGet s pos) }

/-- WIN.SET (R72). -/
def execWinSet (pos : Nat) (b : Byte) (s : State) : Host.Outcome State Fault Refusal := .next (windowSet pos b s)

/-- WIN.KEYB (R74): returns the byte; no other effect. -/
def execWinKeyb (p : Pos) (i : Nat) (s : State) : Host.Outcome State Fault Refusal :=
  outcome do
    let b ← keyByte s p i
    pure { s with ret := .byte b }

end Sys2Proof.Machine
end

