-- ==== Sys2Proof/Machine/Dispatch.lean ====
section
/-! DEFINITION. The meaning of each instruction, one arm per constructor. -/

namespace Sys2Proof.Machine

def exec (i : Instr) (s : State) : Host.Outcome State Fault Refusal :=
  match i with
  | .ctrl k => Sys2Proof.Machine.execCtrl k s
  | .lit b => Sys2Proof.Machine.execLit b s
  | .ref pos len => Sys2Proof.Machine.execRef pos len s
  | .winFill => Sys2Proof.Machine.execWinFill s
  | .winGet pos => Sys2Proof.Machine.execWinGet pos s
  | .winSet pos b => Sys2Proof.Machine.execWinSet pos b s
  | .winKeyb p j => Sys2Proof.Machine.execWinKeyb p j s
  | .idxClear => Sys2Proof.Machine.execIdxClear s
  | .cmpKey r p => Sys2Proof.Machine.execCmpKey r p s
  | .idxSearch r => Sys2Proof.Machine.execIdxSearch r s
  | .idxInsert r => Sys2Proof.Machine.execIdxInsert r s
  | .idxReplace r p => Sys2Proof.Machine.execIdxReplace r p s
  | .idxDelete p => Sys2Proof.Machine.execIdxDelete p s
  | .tokReset => Sys2Proof.Machine.execTokReset s
  | .tokLit b => Sys2Proof.Machine.execTokLit b s
  | .tokRef pos len => Sys2Proof.Machine.execTokRef pos len s
  | .tokNext => Sys2Proof.Machine.execTokNext s
  | .tokFlush => Sys2Proof.Machine.execTokFlush s
  | .encStart => Sys2Proof.Machine.execEncStart s
  | .encLoad => Sys2Proof.Machine.execEncLoad s
  | .encPreinsert => Sys2Proof.Machine.execEncPreinsert s
  | .encStep => Sys2Proof.Machine.execEncStep s
  | .encAdvance => Sys2Proof.Machine.execEncAdvance s
  | .encDrain => Sys2Proof.Machine.execEncDrain s
  | .encFinish => Sys2Proof.Machine.execEncFinish s
  | .decStart => Sys2Proof.Machine.execDecStart s
  | .decCtrl => Sys2Proof.Machine.execDecCtrl s
  | .decLit => Sys2Proof.Machine.execDecLit s
  | .decRef => Sys2Proof.Machine.execDecRef s
  | .decStop => Sys2Proof.Machine.execDecStop s
  | .compress => Sys2Proof.Machine.execCompress s
  | .decompress => Sys2Proof.Machine.execDecompress s
  | .cmdNone => Sys2Proof.Machine.execCmdNone s
  | .cmdIgnored => Sys2Proof.Machine.execCmdIgnored s

end Sys2Proof.Machine
end

