-- ==== Sys2Proof/Machine/Fetch.lean ====
section
/-! DEFINITION. What the block does next. Issued operations come first (log 3), then a presented command (log 5), then
the operation PHASE names (R65); in PHASE E_ADV the choice of R99. And the inverse: how a state is set up so that the
next step runs a given instruction (log 8). -/

namespace Sys2Proof.Machine

/-- What the block does next. -/
inductive Fetched where
  /-- Perform instruction `i` in state `s`. -/
  | run (i : Instr) (s : State)
  /-- No operation: the exit test of the advance loop (R99) moved PHASE. -/
  | pass (s : State)
  /-- Issued bytes that are no operation. -/
  | reject (e : DecodeError)
  deriving DecidableEq, Repr

/-- R99: PHASE E_ADV: one advance step, or the exit test. -/
def fetchAdvance (s : State) : Fetched :=
  if s.iCnt.toNat < s.last.toNat then
    if inAvail s then .run .encAdvance s else .run .encDrain s
  else if s.len = 0 then .pass (setPhase .eFin s)
  else .pass (setPhase .eStep s)

/-- R65: the operation PHASE names. -/
def fetchPhase (s : State) : Fetched :=
  match s.phase with
  | .idle => .run .cmdNone s
  | .eInit => .run .encStart s
  | .eLoad => .run .encLoad s
  | .ePre => .run .encPreinsert s
  | .eStep => .run .encStep s
  | .eAdv => fetchAdvance s
  | .eFin => .run .encFinish s
  | .dInit => .run .decStart s
  | .dBit => .run .decCtrl s
  | .dLit => .run .decLit s
  | .dRef => .run .decRef s

/-- R112: the command on the port, which this step consumes. -/
def fetchCommand (s : State) : Fetched :=
  match decode .command [s.cmd.setWidth 8] with
  | .ok (i, _) => .run i { s with cmd := 0 }
  | .error e => .reject e

/-- The next operation of an issued program (log 3). -/
def fetchIssued (s : State) : Fetched :=
  match decode .operation s.ops with
  | .ok (i, rest) => .run i { s with ops := rest }
  | .error e => .reject e

/-- What the block does next. -/
def fetch (s : State) : Fetched :=
  if s.ops ≠ [] then fetchIssued s
  else if s.cmd ≠ 0 then fetchCommand s
  else fetchPhase s

/-- The sequencer is about to perform the operation of phase `p`, with nothing issued and no command. -/
def atPhase (p : Phase) (s : State) : State := { s with ops := [], cmd := 0, phase := p }

/-- The stream stands at its first byte. -/
def withStream (bytes : List Byte) (s : State) : State := { s with inp := bytes, ip := 0 }

/-- The state in which the next step runs `i`: the phase that names it, the token at the stream cursor, the command on
the port, or the operation issued (log 8). -/
def placeInstr (i : Instr) (s : State) : State :=
  match i with
  | .ctrl k => withStream [k] (atPhase .dBit { s with flags := 0 })
  | .lit b => withStream [b] (atPhase .dLit s)
  | .ref pos len => withStream (encode (.ref pos len)) (atPhase .dRef s)
  | .encStart => atPhase .eInit s
  | .encLoad => atPhase .eLoad s
  | .encPreinsert => atPhase .ePre s
  | .encStep => atPhase .eStep s
  | .encAdvance => withStream [0] (atPhase .eAdv { s with last := 1, iCnt := 0 })
  | .encDrain => withStream [] (atPhase .eAdv { s with last := 1, iCnt := 0, len := if s.len = 0 then 1 else s.len })
  | .encFinish => atPhase .eFin s
  | .decStart => atPhase .dInit s
  | .decCtrl => atPhase .dBit s
  | .decLit => atPhase .dLit s
  | .decRef => atPhase .dRef s
  | .cmdNone => atPhase .idle s
  | .compress => { s with ops := [], cmd := 1 }
  | .decompress => { s with ops := [], cmd := 2 }
  | .cmdIgnored => { s with ops := [], cmd := 3 }
  | .winFill => { s with ops := encode i }
  | .winGet _ => { s with ops := encode i }
  | .winSet _ _ => { s with ops := encode i }
  | .winKeyb _ _ => { s with ops := encode i }
  | .idxClear => { s with ops := encode i }
  | .cmpKey _ _ => { s with ops := encode i }
  | .idxSearch _ => { s with ops := encode i }
  | .idxInsert _ => { s with ops := encode i }
  | .idxReplace _ _ => { s with ops := encode i }
  | .idxDelete _ => { s with ops := encode i }
  | .tokReset => { s with ops := encode i }
  | .tokLit _ => { s with ops := encode i }
  | .tokRef _ _ => { s with ops := encode i }
  | .tokNext => { s with ops := encode i }
  | .tokFlush => { s with ops := encode i }
  | .decStop => { s with ops := encode i }

/-- The state in which the next step fetches a word of the opcode table's numbering; bytes that are no instruction are
issued as they stand. -/
def placeTableWord (nbits w : Nat) (s : State) : State :=
  match decodeTableWord nbits w with
  | some i => placeInstr i s
  | none => { s with ops := tableBytes w }

end Sys2Proof.Machine
end

