-- ==== Sys2Proof/Safety.lean ====
section
/-! DEFINITION. What counts as a safe run, in the terms claims use: the invariants of spec/47_invariants_and_properties.md,
what it means that the host's command ends in a state, and the DECOMPRESS function of R109 written without the machine. -/

namespace Sys2Proof.Safety

open Sys2Proof.Machine

/-! ## Invariants of the state -/

/-- R73, R119: the mirror holds the first `F - 1` ring bytes. -/
def Mirror (s : State) : Prop := ∀ a < Config.F - 1, s.textAt (a + Config.N) = s.textAt a

/-- R113, R114: the mode a phase belongs to. -/
def phaseMode : Phase → Mode
  | .idle => .idle
  | .eInit => .enc
  | .eLoad => .enc
  | .ePre => .enc
  | .eStep => .enc
  | .eAdv => .enc
  | .eFin => .enc
  | .dInit => .dec
  | .dBit => .dec
  | .dLit => .dec
  | .dRef => .dec

/-- R115: MODE and BUSY follow PHASE, and BUSY and DONE are never 1 together: "No other combination occurs". -/
structure Control (s : State) : Prop where
  mode_eq : s.mode = phaseMode s.phase
  busy_iff : s.busy = true ↔ s.phase ≠ .idle
  not_both : ¬ (s.busy = true ∧ s.done = true)

/-- R125: `R ≡ S + N - F (mod N)`. -/
def Cursors (s : State) : Prop := s.rCur = s.sCur + Config.startR

/-- R92: the control byte of the tokens packed so far, bit `j` for token `j`, 1 for a literal. -/
def kindBits : List Bool → Nat
  | [] => 0
  | k :: ks => k.toNat + 2 * kindBits ks

/-- R92: the bytes the tokens packed so far take. -/
def kindBytes : List Bool → Nat
  | [] => 0
  | k :: ks => (if k then 1 else 2) + kindBytes ks

/-- R92: the group buffer holds the tokens `kinds`, oldest first, `true` for a literal. -/
structure HoldsGroup (s : State) (kinds : List Bool) : Prop where
  mask_eq : s.mask = 1 <<< kinds.length
  codePtr_eq : s.codePtr.toNat = 1 + kindBytes kinds
  control_eq : (s.codeAt 0).toNat = kindBits kinds

/-- R92: "at most seven tokens are held between operations". -/
def GroupLaw (s : State) : Prop := ∃ kinds : List Bool, kinds.length ≤ 7 ∧ HoldsGroup s kinds

/-! ## Trees (R120 to R123) -/

/-- The shape of a tree of ring positions. -/
inductive Shape where
  | leaf
  | node (l : Shape) (p : Pos) (r : Shape)
  deriving DecidableEq, Repr

/-- The positions of a tree, in order. -/
def Shape.nodes : Shape → List Pos
  | .leaf => []
  | .node l p r => l.nodes ++ p :: r.nodes

/-- R120: link `x`, held by parent `y`, is the root of the tree `t` through LEFT, RIGHT and PARENT. -/
def Shape.Linked (s : State) : Link → Link → Shape → Prop
  | _, x, .leaf => x = Config.nil
  | y, x, .node l p r =>
    x = p.link ∧ s.parentAt p.toNat = y ∧
    Shape.Linked s p.link (s.leftAt p.toNat) l ∧ Shape.Linked s p.link (s.rightAt p.toNat) r

/-- R120, R122: `f b` is the tree of leading byte `b`; no position is reached twice; a position is a node of some tree
exactly when its PARENT entry is not NIL. -/
structure Forest (s : State) (f : Byte → Shape) : Prop where
  linked : ∀ b, (f b).Linked s (rootLink b) (s.rightAt (rootLink b).toNat)
  nodup : ∀ b, (f b).nodes.Nodup
  disjoint : ∀ b c p, p ∈ (f b).nodes → p ∈ (f c).nodes → b = c
  node_iff : ∀ p : Pos, s.parentAt p.toNat ≠ Config.nil ↔ ∃ b, p ∈ (f b).nodes

/-- R120: the links form 256 finite trees. -/
def TreeLaw (s : State) : Prop := ∃ f, Forest s f

/-- R120: `p` "is a node of some tree exactly when `PARENT[p] != NIL`". -/
def IsNode (s : State) (p : Pos) : Prop := s.parentAt p.toNat ≠ Config.nil

/-- R121: the key of `a` is smaller than the key of `b`, as unsigned byte strings of length F. -/
def KeyLess (s : State) (a b : Pos) : Prop :=
  ∃ i < Config.F, (∀ j < i, s.textAt (keyAddr a j) = s.textAt (keyAddr b j)) ∧
    (s.textAt (keyAddr a i)).toNat < (s.textAt (keyAddr b i)).toNat

/-- R121: in the tree of byte `b` every key starts with `b`, and the keys rise strictly in order: those to the left of a
node are smaller than its key, those to the right greater, and no two are equal. -/
structure Shape.Sorted (s : State) (b : Byte) (t : Shape) : Prop where
  head : ∀ p ∈ t.nodes, s.textAt p.toNat = b
  order : t.nodes.Pairwise (KeyLess s)

/-- R120, R121: the links form 256 binary search trees. -/
def SearchTrees (s : State) : Prop := ∃ f, Forest s f ∧ ∀ b, (f b).Sorted s b

/-! ### What the Match Index operations do to a tree -/

/-- R83: the tree `node l p r` without its last position in order, and that position. -/
def Shape.popLast : Shape → Pos → Shape → Shape × Pos
  | l, p, .leaf => (l, p)
  | l, p, .node l' p' r' => (.node l p (popLast l' p' r').1, (popLast l' p' r').2)

/-- R83: what takes the place of a node with subtrees `l` and `r`: the other subtree where one is absent, else the
in-order predecessor with what is left of `l`, and `r`. -/
def Shape.join : Shape → Shape → Shape
  | l, .leaf => l
  | .leaf, r => r
  | .node ll lp lr, r => .node (popLast ll lp lr).1 (popLast ll lp lr).2 r

/-- R83: the tree without `p`. -/
def Shape.remove (p : Pos) : Shape → Shape
  | .leaf => .leaf
  | .node l x r => if x = p then join l r else .node (remove p l) x (remove p r)

/-- R82: the tree with `r` in the place of `p`. -/
def Shape.substitute (p r : Pos) : Shape → Shape
  | .leaf => .leaf
  | .node l x t => .node (substitute p r l) (if x = p then r else x) (substitute p r t)

/-- R79, R81, R82: the tree with `r` at the place its key belongs: in place of a node with an equal key, else to the
left of the nodes whose key is greater and to the right of the others. -/
def Shape.insertKey (s : State) (r : Pos) : Shape → Shape
  | .leaf => .node .leaf r .leaf
  | .node l p t =>
    if (compareKeys s r p).1 = Config.F then .node l r t
    else if (compareKeys s r p).2 = .neg then .node (insertKey s r l) p t
    else .node l p (insertKey s r t)

/-- R75: every tree is empty and no position is in a tree. -/
structure EmptyIndex (s : State) : Prop where
  roots : ∀ b, s.rightAt (rootLink b).toNat = Config.nil
  parents : ∀ p : Pos, s.parentAt p.toNat = Config.nil

/-- R123: every node is one of the positions `S, S+1, …, R` (modulo N). -/
def Members (s : State) : Prop := ∀ p : Pos, IsNode s p → (p - s.sCur).toNat ≤ Config.N - Config.F

/-- R79, R80: the probe path: the nodes the search walk for `r` visits, in order, from the child slot of `p` that `c`
selects; it ends at an absent slot or after an equal key. -/
def probePath (s : State) (r : Pos) : Nat → Link → Cmp → List Pos
  | 0, _, _ => []
  | fuel + 1, p, c =>
    let q := if c = .neg then s.leftAt p.toNat else s.rightAt p.toNat
    if q = Config.nil then []
    else
      ringOf q :: (if (compareKeys s r (ringOf q)).1 = Config.F then []
        else probePath s r fuel q (compareKeys s r (ringOf q)).2)

/-! ## Ring contents (R118) -/

/-- R118: the ring position of stream byte number `k`. -/
def posOf (k : Nat) : Nat := (Config.N - Config.F + k) % Config.N

/-- R118: the ring holds the last N bytes of `bytes`, and FILLER where none of them is. -/
def RingHolds (s : State) (bytes : List Byte) : Prop :=
  (∀ k (h : k < bytes.length), bytes.length ≤ k + Config.N → s.textAt (posOf k) = bytes[k]) ∧
  (∀ a < Config.N, (∀ k < bytes.length, posOf k ≠ a) → s.textAt a = Config.filler)

/-- R118 in decode mode: the ring holds OUT, and R is the position of the next byte. -/
def DecoderRing (s : State) : Prop :=
  RingHolds s s.out ∧ s.rCur.toNat = posOf s.out.length

/-- R118 in encode mode: the ring holds the input read so far, and while input remains S is the position of its next
byte (R125). -/
def EncoderRing (s : State) : Prop :=
  match s.phase with
  | .eLoad => RingHolds s [] ∧ s.ip = 0 ∧ s.len = 0 ∧ s.sCur = 0 ∧ s.rCur = Config.startR
  | .ePre => RingHolds s (s.inp.take s.ip) ∧ (s.ip < s.inp.length → s.sCur.toNat = posOf s.ip)
  | .eStep => RingHolds s (s.inp.take s.ip) ∧ (s.ip < s.inp.length → s.sCur.toNat = posOf s.ip)
  | .eAdv => RingHolds s (s.inp.take s.ip) ∧ (s.ip < s.inp.length → s.sCur.toNat = posOf s.ip)
  | .eFin => RingHolds s (s.inp.take s.ip)
  | .idle => True
  | .eInit => True
  | .dInit => True
  | .dBit => True
  | .dLit => True
  | .dRef => True

/-! ## Safe runs -/

/-- The block waits for a command, in a state its own steps can leave. -/
structure Idle (s : State) : Prop where
  phase_eq : s.phase = .idle
  no_ops : s.ops = []
  no_cmd : s.cmd = 0
  mem_wf : s.memWf = true
  control : Control s

/-- What holds of the encoder in each phase of a COMPRESS run (R92, R120, R123, R125, and the ranges of R18, R20, R25). -/
def EncoderLaw (s : State) : Prop :=
  match s.phase with
  | .eLoad => GroupLaw s ∧ EmptyIndex s ∧ s.sCur = 0 ∧ Cursors s ∧ s.len = 0
  | .ePre => GroupLaw s ∧ EmptyIndex s ∧ s.sCur = 0 ∧ Cursors s ∧ 1 ≤ s.len.toNat ∧ s.len.toNat ≤ Config.F
  | .eStep => GroupLaw s ∧ TreeLaw s ∧ Members s ∧ Cursors s ∧ 1 ≤ s.len.toNat ∧ s.len.toNat ≤ Config.F ∧
      s.matchLen.toNat ≤ Config.F
  | .eAdv => GroupLaw s ∧ TreeLaw s ∧ Members s ∧ Cursors s ∧ s.len.toNat ≤ Config.F ∧
      s.matchLen.toNat ≤ Config.F ∧ s.iCnt.toNat ≤ s.last.toNat ∧ s.last.toNat ≤ s.iCnt.toNat + s.len.toNat
  | .eFin => GroupLaw s
  | .idle => True
  | .eInit => True
  | .dInit => True
  | .dBit => True
  | .dLit => True
  | .dRef => True

/-- A state of a run the host started: nothing is issued from outside the sequencer, and the laws hold. -/
structure RunLaw (s : State) : Prop where
  no_ops : s.ops = []
  mem_wf : s.memWf = true
  control : Control s
  encoder : EncoderLaw s

/-- The host presents command `c` with `input` at `s`, and the run ends in `t`: the command is consumed and PHASE is
IDLE again. -/
def Ends (c : BitVec 2) (input : List Byte) (s t : State) : Prop :=
  ∃ k, Sys2Proof.core.run k (s.hostPresent c input) = .next t ∧ t.phase = .idle ∧ t.cmd = 0

/-- R106, R107: `u k` is the state after `k` bytes of the copy from ring position `pos`: each byte is read before it is
written and written before the next is read. -/
def Copies (pos n : Nat) (u : Nat → State) : Prop :=
  ∀ k < n, u (k + 1) = advanceR (windowSet (u k).rCur.toNat ((u k).textAt ((pos + k) % Config.N))
    { u k with out := (u k).out ++ [(u k).textAt ((pos + k) % Config.N)] })

/-! ## DECOMPRESS as a function (R109) -/

/-- R104: the control bits of a byte, LSB first. -/
def controlBits (c : Byte) : List Bool := (List.range 8).map fun i => c.getLsbD i

/-- A ring with `b` at `p`. -/
def ringSet (ring : Pos → Byte) (p : Pos) (b : Byte) : Pos → Byte := fun q => if q = p then b else ring q

/-- R106, R107: the bytes of a copy of `n` bytes from `src` to `dst`, and the ring after it. -/
def ringCopy (ring : Pos → Byte) (src dst : Pos) : Nat → List Byte × (Pos → Byte)
  | 0 => ([], ring)
  | n + 1 =>
    let rest := ringCopy (ringSet ring dst (ring src)) (src + 1) (dst + 1) n
    (ring src :: rest.1, rest.2)

/-- R109: the output of the loop, with ring, cursor `r`, the control bits not yet consumed and the input left. -/
def decodeStream (ring : Pos → Byte) (r : Pos) : List Bool → List Byte → List Byte
  | [], [] => []
  | [], c :: input => decodeStream ring r (controlBits c) input
  | true :: _, [] => []
  | true :: bits, c :: input => c :: decodeStream (ringSet ring r c) (r + 1) bits input
  | false :: _, [] => []
  | false :: _, [_] => []
  | false :: bits, b0 :: b1 :: input =>
    (ringCopy ring (refPos b0 b1) r (refLen b1)).1 ++
      decodeStream (ringCopy ring (refPos b0 b1) r (refLen b1)).2 (r + BitVec.ofNat 12 (refLen b1)) bits input

/-- R109: `Decompress(IN)`. -/
def decompress (input : List Byte) : List Byte := decodeStream (fun _ => Config.filler) Config.startR [] input

end Sys2Proof.Safety
end

