-- ==== Sys2Proof/Certificates/Slice0/Obligations.lean ====
section
/-! DEFINITION. The statements for the provers. Each docstring names the rule of spec/ it formalises. -/

section

open Sys2Proof Sys2Proof.Machine Sys2Proof.Safety

/-! ## Reset -/

/-- R148: "after power-on `MODE = IDLE`, `STATUS.BUSY = 0`, `STATUS.DONE = 0`, `PHASE = IDLE`". -/
def Obligations.PowerOnLeavesTheBlockIdle : Prop :=
  State.reset.mode = .idle ∧ State.reset.busy = false ∧ State.reset.done = false ∧ State.reset.phase = .idle

/-- The state after power-on satisfies the laws every step keeps. The memories list nothing, which is the model's choice
(log 2). -/
def Obligations.ResetSatisfiesEveryLaw : Prop :=
  State.reset.memWf = true ∧ Mirror State.reset ∧ Control State.reset ∧ Idle State.reset ∧ RunLaw State.reset ∧
  Cursors State.reset ∧ SearchTrees State.reset

/-! ## Steps and encodings -/

/-- R65: with nothing issued and no command, a step performs the operation PHASE names; in PHASE IDLE, nothing. -/
def Obligations.StepPerformsTheOperationOfPhase : Prop :=
  ∀ s : State, s.ops = [] → s.cmd = 0 →
    (s.phase = .idle → step s = .next s) ∧
    (s.phase = .eInit → step s = exec .encStart s) ∧
    (s.phase = .eLoad → step s = exec .encLoad s) ∧
    (s.phase = .ePre → step s = exec .encPreinsert s) ∧
    (s.phase = .eStep → step s = exec .encStep s) ∧
    (s.phase = .eFin → step s = exec .encFinish s) ∧
    (s.phase = .dInit → step s = exec .decStart s) ∧
    (s.phase = .dBit → step s = exec .decCtrl s) ∧
    (s.phase = .dLit → step s = exec .decLit s) ∧
    (s.phase = .dRef → step s = exec .decRef s)

/-- R99: PHASE E_ADV performs one ENC.ADVANCE, one ENC.DRAIN, or the exit test. -/
def Obligations.AdvancePhaseDoesOneOfFourThings : Prop :=
  ∀ s : State, s.ops = [] → s.cmd = 0 → s.phase = .eAdv →
    (s.iCnt.toNat < s.last.toNat → s.ip < s.inp.length → step s = exec .encAdvance s) ∧
    (s.iCnt.toNat < s.last.toNat → s.inp.length ≤ s.ip → step s = exec .encDrain s) ∧
    (∀ t, s.iCnt.toNat < s.last.toNat → step s = .next t → t.phase = .eAdv) ∧
    (s.last.toNat ≤ s.iCnt.toNat → 0 < s.len.toNat → step s = .next { s with phase := .eStep }) ∧
    (s.last.toNat ≤ s.iCnt.toNat → s.len.toNat = 0 → step s = .next { s with phase := .eFin })

/-- A step runs the instruction at the place it fetches from: the operation whose bytes are issued (log 3), the command on
the port (log 5), or, in the decoder's phases, the token at IP (R104 to R106), a control byte, a literal or a reference,
with IP past it. -/
def Obligations.StepRunsTheDecodedInstruction : Prop :=
  (∀ (s : State) (i : Instr) (rest : List Byte), i.source = .operation → i.wellFormed = true →
    s.ops = encode i ++ rest → step s = exec i { s with ops := rest }) ∧
  (∀ (s : State) (i : Instr) (rest : List Byte), s.ops ≠ [] → decode .operation s.ops = .ok (i, rest) →
    step s = exec i { s with ops := rest }) ∧
  (∀ s : State, s.ops = [] →
    (s.cmd = 1 → step s = exec .compress { s with cmd := 0 }) ∧
    (s.cmd = 2 → step s = exec .decompress { s with cmd := 0 }) ∧
    (s.cmd = 3 → step s = exec .cmdIgnored { s with cmd := 0 })) ∧
  (∀ (s : State) (i : Instr) (rest : List Byte), s.ops = [] → s.cmd = 0 →
    (s.phase = .dBit → (s.flags >>> 1).getLsbD 8 = false → decode .control (s.inp.drop s.ip) = .ok (i, rest) →
      step s = exec i { s with flags := s.flags >>> 1, ip := s.ip + 1 }) ∧
    (s.phase = .dLit → decode .literal (s.inp.drop s.ip) = .ok (i, rest) → step s = exec i { s with ip := s.ip + 1 }) ∧
    (s.phase = .dRef → decode .reference (s.inp.drop s.ip) = .ok (i, rest) →
      step s = exec i { s with ip := s.ip + 2 }))

/-- Words written out from R54 to R58, R64 and R112 decode to the instructions they stand for. The operand bytes of the
operations 0x09 and 0x0C follow the model's layout (log 3). -/
def Obligations.WrittenWordsDecode : Prop :=
  decode .control [0xA5] = .ok (.ctrl 0xA5, []) ∧
  decode .literal [0x41] = .ok (.lit 0x41, []) ∧
  decode .reference [0xEE, 0xFF] = .ok (.ref 4078 18, []) ∧
  decode .operation [0x04] = .ok (.idxClear, []) ∧
  decode .operation [0x09, 0x34, 0x02] = .ok (.idxDelete 0x234, []) ∧
  decode .operation [0x0C, 0xDC, 0xF0] = .ok (.tokRef 4060 3, []) ∧
  decode .operation [0x13] = .ok (.encAdvance, []) ∧
  decode .operation [0x1A] = .ok (.decStop, []) ∧
  decode .operation [0x1B] = .error (.unassignedOperation 0x1B) ∧
  decode .command [0x01] = .ok (.compress, []) ∧
  decode .command [0x02] = .ok (.decompress, [])

/-- Decoding the encoding of a well-formed instruction gives it back, whatever bytes follow. The operand layout of
operations is the model's (log 3). -/
def Obligations.DecodeInvertsEncode : Prop :=
  ∀ (i : Instr) (rest : List Byte), i.wellFormed = true → decode i.source (encode i ++ rest) = .ok (i, rest)

/-- What decodes is the encoding of the well-formed instruction it decodes to, followed by the bytes left. The operand
layout of operations is the model's (log 3). -/
def Obligations.EncodeInvertsDecode : Prop :=
  ∀ (src : Source) (bytes : List Byte) (i : Instr) (rest : List Byte), decode src bytes = .ok (i, rest) →
    i.source = src ∧ i.wellFormed = true ∧ encode i ++ rest = bytes

/-- R58: the two bytes of a reference token, field by field, and "Rule R57 applied to `(b0, b1)` returns
`pos = MATCH_POS`, `n = MATCH_LEN`". -/
def Obligations.ReferenceFieldsPackAndAssemble : Prop :=
  ∀ (pos : Pos) (len : Nat), 3 ≤ len → len ≤ 18 →
    refByte0 pos = pos.extractLsb' 0 8 ∧
    refByte1 pos len = pos.extractLsb' 8 4 ++ BitVec.ofNat 4 (len - 3) ∧
    refPos (refByte0 pos) (refByte1 pos len) = pos ∧ refLen (refByte1 pos len) = len

/-! ## Window Buffer -/

/-- R70: WIN.FILL writes FILLER into all 4113 bytes; nothing else changes. -/
def Obligations.FillWritesFillerEverywhere : Prop :=
  ∀ s : State, ∃ t, exec .winFill s = .next t ∧ t = { s with text := t.text } ∧ ∀ a < 4113, t.textAt a = 0x20

/-- R71: WIN.GET returns the byte at a ring position, the address modulo N, and changes nothing. Where the returned byte
stands is the model's (log 4). -/
def Obligations.GetReadsAtARingPosition : Prop :=
  ∀ (s : State) (pos : Nat), exec (.winGet pos) s = .next { s with ret := .byte (s.textAt (pos % 4096)) }

/-- R72: WIN.SET writes the ring byte and, below `F - 1`, the mirror byte; every other byte of TEXT and every other
piece of state is unchanged. -/
def Obligations.SetWritesRingAndMirror : Prop :=
  ∀ (s : State) (pos : Nat) (b : Byte), s.memWf = true →
    ∃ t, exec (.winSet pos b) s = .next t ∧ t = { s with text := t.text } ∧
      ∀ a, t.textAt a = if a = pos % 4096 ∨ (pos % 4096 < 17 ∧ a = pos % 4096 + 4096) then b else s.textAt a

/-- R74: WIN.KEYB returns the byte at linear address `p + i`, inside TEXT for every key byte, and changes nothing. The
model's own: the register that holds the byte (log 4), the byte for a key index of 18 and above (log 17), the refusal
past the end of TEXT (log 10). -/
def Obligations.KeyByteReadsALinearAddress : Prop :=
  ∀ (s : State) (p : Pos) (i : Nat),
    (i < 18 → p.toNat + i ≤ 4112) ∧
    (p.toNat + i ≤ 4112 → exec (.winKeyb p i) s = .next { s with ret := .byte (s.textAt (p.toNat + i)) }) ∧
    (4112 < p.toNat + i → exec (.winKeyb p i) s = .refused (.noEntry .text (p.toNat + i)))

/-- R73: the mirror holds after WIN.FILL and is kept by WIN.SET, and while it holds a linear read equals the ring
read. -/
def Obligations.MirrorMakesLinearReadsRingReads : Prop :=
  (∀ s t : State, exec .winFill s = .next t → Mirror t) ∧
  (∀ (s t : State) (pos : Nat) (b : Byte), s.memWf = true → Mirror s → exec (.winSet pos b) s = .next t → Mirror t) ∧
  (∀ (s : State) (p : Pos) (i : Nat), Mirror s → i < 18 → s.textAt (p.toNat + i) = s.textAt ((p.toNat + i) % 4096))

/-! ## Match Index -/

/-- R75: IDX.CLEAR empties every tree; LEFT and the node entries of RIGHT are not written, nor anything else. -/
def Obligations.ClearEmptiesEveryTree : Prop :=
  ∀ s : State, ∃ t, exec .idxClear s = .next t ∧ t = { s with right := t.right, parent := t.parent } ∧
    (∀ b : Byte, t.rightAt (4097 + b.toNat) = Config.nil) ∧ (∀ p : Pos, t.parentAt p.toNat = Config.nil) ∧
    (∀ p : Pos, t.rightAt p.toNat = s.rightAt p.toNat)

/-- R78: CMP.KEY returns the common-prefix length of two keys, counting byte 0, and the sign of the first difference,
compared unsigned; of the spec's state it writes CMP and nothing else. The model's own: the register that holds the
returned pair (log 4), byte 0 counted as equal for positions that differ in it (log 16), and CMP after the operation
(log 20). -/
def Obligations.CompareReturnsPrefixAndSign : Prop :=
  ∀ (s : State) (r p : Pos), ∃ (i : Nat) (c : Cmp),
    exec (.cmpKey r p) s = .next { s with cmp := c, ret := .prefixLength i c } ∧ 1 ≤ i ∧ i ≤ 18 ∧
    (∀ j, 1 ≤ j → j < i → s.textAt (r.toNat + j) = s.textAt (p.toNat + j)) ∧
    (i = 18 → c = .zero) ∧
    (i < 18 → s.textAt (r.toNat + i) ≠ s.textAt (p.toNat + i) ∧
      c = if (s.textAt (p.toNat + i)).toNat < (s.textAt (r.toNat + i)).toNat then .pos else .neg)

/-- R79, R80: after IDX.SEARCH, MATCH_LEN is the greatest common-prefix length on the probe path and MATCH_POS the first
node of the path that attained it; on an empty tree MATCH_LEN is 0 and MATCH_POS as before. The walk ends at a node with an
equal key, or at the absent child slot of the last node of the path, of the root sentinel where the tree is empty, on the
side CMP selects. Only CMP, MATCH_POS and MATCH_LEN change. The model's own: the register that holds the result (log 4),
that IDX.SEARCH is issued alone (log 16), and CMP after the operation (log 20). -/
def Obligations.SearchReportsTheFirstLongestMatch : Prop :=
  ∀ (s : State) (r : Pos) (path : List Pos), TreeLaw s →
    path = probePath s r 4096 (rootLink (s.textAt r.toNat)) .pos →
    ∃ t result, exec (.idxSearch r) s = .next t ∧
      t = { s with cmp := t.cmp, matchPos := t.matchPos, matchLen := t.matchLen, ret := .search result } ∧
      (path = [] → t.matchLen = 0 ∧ t.matchPos = s.matchPos ∧ t.cmp = .pos) ∧
      (path ≠ [] → 1 ≤ t.matchLen.toNat ∧ ∃ before after, path = before ++ t.matchPos :: after ∧
        (compareKeys s r t.matchPos).1 = t.matchLen.toNat ∧ ∀ q ∈ before, (compareKeys s r q).1 < t.matchLen.toNat) ∧
      (∀ q ∈ path, (compareKeys s r q).1 ≤ t.matchLen.toNat) ∧
      (∀ q, path.getLast? = some q → t.cmp = (compareKeys s r q).2) ∧
      match result with
      | .full p => path.getLast? = some p ∧ (compareKeys s r p).1 = 18
      | .slot p side =>
        (path = [] ∧ p = rootLink (s.textAt r.toNat) ∨ ∃ q, path.getLast? = some q ∧ p = q.link) ∧
        (∀ q ∈ path, (compareKeys s r q).1 < 18) ∧
        (t.cmp = .neg → side = .leftSide ∧ s.leftAt p.toNat = Config.nil) ∧
        (t.cmp ≠ .neg → side = .rightSide ∧ s.rightAt p.toNat = Config.nil)

/-- Five conditions that make a call refused: IDX.INSERT of a node (R85: "A model should refuse such a call"); IDX.REPLACE
by a node, and of a position that is no node (R82); ENC.ADVANCE with no input left (R9, R97); ENC.DRAIN with LEN 0 (R98).
The last four refusals are the model's (DEDUCED from D24, log 9). Calls that break other conditions are performed
(log 18). -/
def Obligations.CallsThatBreakAConditionAreRefused : Prop :=
  ∀ (s : State) (r p : Pos),
    (IsNode s r → exec (.idxInsert r) s = .refused (.alreadyInTree r)) ∧
    (IsNode s r → exec (.idxReplace r p) s = .refused (.alreadyInTree r)) ∧
    (¬ IsNode s r → ¬ IsNode s p → exec (.idxReplace r p) s = .refused (.notInTree p)) ∧
    (s.memWf = true → TreeLaw s → s.inp.length ≤ s.ip → exec .encAdvance s = .refused .inputExhausted) ∧
    (s.len = 0 → exec .encDrain s = .refused .lenZero)

/-- R81: the first insert into an empty tree hangs `r` under the root sentinel as a leaf, with no match found. CMP after
the operation is the model's (log 20). -/
def Obligations.InsertIntoAnEmptyTreeMakesTheRoot : Prop :=
  ∀ (s : State) (r : Pos) (root : Link), s.memWf = true → ¬ IsNode s r → root = 4097 + (s.textAt r.toNat).setWidth 13 →
    s.rightAt root.toNat = Config.nil →
    ∃ t, exec (.idxInsert r) s = .next t ∧
      t = { s with left := t.left, right := t.right, parent := t.parent, cmp := .pos, matchLen := 0 } ∧
      (∀ a, t.rightAt a = if a = root.toNat then r.link else if a = r.toNat then Config.nil else s.rightAt a) ∧
      (∀ a, t.leftAt a = if a = r.toNat then Config.nil else s.leftAt a) ∧
      (∀ a, t.parentAt a = if a = r.toNat then root else s.parentAt a)

/-- R81, R82, R120: on any forest, IDX.INSERT of a position in no tree completes; the trees after it are those before with
`r` at its place in the tree of its leading byte; the nodes after it are `r` and those before, without the one it replaced
at a full match. CMP, MATCH_POS and MATCH_LEN are those that IDX.SEARCH leaves on the same state (R79 to R81). Only the
links, CMP, MATCH_POS and MATCH_LEN change, and no entry of another position in no tree. The model's own: IDX.SEARCH
issued alone (log 16), and CMP after the operation (log 20). -/
def Obligations.InsertRefinesInsertionIntoATree : Prop :=
  ∀ (s : State) (f : Byte → Shape) (r : Pos), s.memWf = true → Forest s f → ¬ IsNode s r →
    ∃ t, exec (.idxInsert r) s = .next t ∧ t.memWf = true ∧
      t = { s with left := t.left, right := t.right, parent := t.parent, cmp := t.cmp, matchPos := t.matchPos,
                   matchLen := t.matchLen } ∧
      Forest t (fun b => if b = s.textAt r.toNat then (f b).insertKey s r else f b) ∧
      (∃ u, exec (.idxSearch r) s = .next u ∧ t.cmp = u.cmp ∧ t.matchPos = u.matchPos ∧ t.matchLen = u.matchLen) ∧
      (∀ z, IsNode t z ↔ z = r ∨ (IsNode s z ∧ ¬ (t.matchLen = 18 ∧ z = t.matchPos))) ∧
      (∀ z : Pos, z ≠ r → ¬ IsNode s z →
        t.leftAt z.toNat = s.leftAt z.toNat ∧ t.rightAt z.toNat = s.rightAt z.toNat)

/-- R121: IDX.INSERT keeps the search order of the trees. -/
def Obligations.InsertKeepsTheSearchOrder : Prop :=
  ∀ (s t : State) (r : Pos), s.memWf = true → SearchTrees s → exec (.idxInsert r) s = .next t → SearchTrees t

/-- R80, R81, R124: after IDX.INSERT(r) MATCH_LEN is the greatest common-prefix length on the probe path and MATCH_POS the
first node of the path that attained it; on an empty path MATCH_LEN is 0 and MATCH_POS as before. With
`MATCH_LEN = m >= 1`, MATCH_POS was a node other than `r`, its key agrees with that of `r` on exactly `m` bytes, and
after a full match it is no node any more. CMP after the operation is the model's (log 20). -/
def Obligations.InsertReportsAValidMatch : Prop :=
  ∀ (s : State) (r : Pos) (path : List Pos), s.memWf = true → SearchTrees s → ¬ IsNode s r →
    path = probePath s r 4096 (rootLink (s.textAt r.toNat)) .pos →
    ∃ t, exec (.idxInsert r) s = .next t ∧ t.matchLen.toNat ≤ 18 ∧
      (path = [] → t.matchLen = 0 ∧ t.matchPos = s.matchPos ∧ t.cmp = .pos) ∧
      (path ≠ [] → 1 ≤ t.matchLen.toNat ∧ ∃ before after, path = before ++ t.matchPos :: after ∧
        (compareKeys s r t.matchPos).1 = t.matchLen.toNat ∧ ∀ q ∈ before, (compareKeys s r q).1 < t.matchLen.toNat) ∧
      (∀ q ∈ path, (compareKeys s r q).1 ≤ t.matchLen.toNat) ∧
      (∀ q, path.getLast? = some q → t.cmp = (compareKeys s r q).2) ∧
      (1 ≤ t.matchLen.toNat →
        IsNode s t.matchPos ∧ t.matchPos ≠ r ∧
        (∀ i < t.matchLen.toNat, s.textAt (t.matchPos.toNat + i) = s.textAt (r.toNat + i)) ∧
        (t.matchLen.toNat < 18 →
          s.textAt (t.matchPos.toNat + t.matchLen.toNat) ≠ s.textAt (r.toNat + t.matchLen.toNat)) ∧
        (t.matchLen = 18 → ¬ IsNode t t.matchPos))

/-- R82, for keys that are equal or not (the latter the model's choice, log 18): IDX.REPLACE, entry by entry: `r` takes the parent and the children of `p`, the child slot that held `p` holds
`r`, `p` is in no tree; every other link and every other piece of state is unchanged; the trees after it are those before
with `r` in the place of `p`. -/
def Obligations.ReplaceTakesThePlaceOfTheNode : Prop :=
  ∀ (s : State) (f : Byte → Shape) (r p : Pos), s.memWf = true → Forest s f → IsNode s p → ¬ IsNode s r →
    ∃ t, exec (.idxReplace r p) s = .next t ∧
      t = { s with left := t.left, right := t.right, parent := t.parent } ∧
      (∀ z : Pos, t.parentAt z.toNat =
        if z = p then Config.nil
        else if z.link = s.leftAt p.toNat ∨ z.link = s.rightAt p.toNat then r.link
        else if z = r then s.parentAt p.toNat else s.parentAt z.toNat) ∧
      (∀ z : Pos, t.leftAt z.toNat =
        if z = r then s.leftAt p.toNat
        else if z.link = s.parentAt p.toNat ∧ s.leftAt z.toNat = p.link then r.link else s.leftAt z.toNat) ∧
      (∀ z : Pos, t.rightAt z.toNat =
        if z = r then s.rightAt p.toNat
        else if z.link = s.parentAt p.toNat ∧ s.rightAt z.toNat = p.link then r.link else s.rightAt z.toNat) ∧
      (∀ b, t.rightAt (rootLink b).toNat =
        if rootLink b = s.parentAt p.toNat then r.link else s.rightAt (rootLink b).toNat) ∧
      Forest t (fun b => (f b).substitute p r)

/-- R83, R120: IDX.DELETE of a position in no tree changes nothing. On any forest, IDX.DELETE of a node completes; the trees
after it are those before without `p`, by the cases of the rule; exactly `p` is a node no more; `p` keeps its dead links,
and so does every position in no tree; only the links change. -/
def Obligations.DeleteRefinesRemovalFromATree : Prop :=
  ∀ (s : State) (p : Pos),
    (¬ IsNode s p → exec (.idxDelete p) s = .next s) ∧
    ∀ f : Byte → Shape, s.memWf = true → Forest s f → IsNode s p →
      ∃ t, exec (.idxDelete p) s = .next t ∧ t.memWf = true ∧
        t = { s with left := t.left, right := t.right, parent := t.parent } ∧
        Forest t (fun b => (f b).remove p) ∧
        (∀ z, IsNode t z ↔ IsNode s z ∧ z ≠ p) ∧
        (∀ z : Pos, z = p ∨ ¬ IsNode s z →
          t.leftAt z.toNat = s.leftAt z.toNat ∧ t.rightAt z.toNat = s.rightAt z.toNat)

/-- R121: IDX.DELETE and IDX.REPLACE (by a position with an equal key) keep the search order of the trees. -/
def Obligations.DeleteAndReplaceKeepTheSearchOrder : Prop :=
  (∀ (s t : State) (p : Pos), s.memWf = true → SearchTrees s → exec (.idxDelete p) s = .next t → SearchTrees t) ∧
  (∀ (s t : State) (r p : Pos), s.memWf = true → SearchTrees s → (∀ i < 18, s.textAt (r.toNat + i) = s.textAt (p.toNat + i)) →
    exec (.idxReplace r p) s = .next t → SearchTrees t)

/-! ## Token encoder -/

/-- R87: TOK.RESET starts an empty group; the other bytes of CODEBUF and everything else are unchanged. That the bytes of
CODEBUF beyond CODEPTR are the old ones is the model's (log 21). -/
def Obligations.TokenResetEmptiesTheGroup : Prop :=
  ∀ s : State, s.memWf = true →
    ∃ t, exec .tokReset s = .next t ∧ t = { s with codebuf := t.codebuf, codePtr := 1, mask := 1 } ∧
      ∀ a, t.codeAt a = if a = 0 then 0 else s.codeAt a

/-- R88: TOK.LIT sets the control bit of the token, stores its byte and counts it. The model's own: the refusal of a
buffer with no room (log 10), a MASK that is not one-hot (log 18), and the bytes of CODEBUF beyond CODEPTR (log 21). -/
def Obligations.LiteralIsPacked : Prop :=
  ∀ (s : State) (b : Byte), s.memWf = true →
    (s.codePtr.toNat ≤ 16 → ∃ t, exec (.tokLit b) s = .next t ∧
      t = { s with codebuf := t.codebuf, codePtr := s.codePtr + 1 } ∧
      ∀ a, t.codeAt a = if a = s.codePtr.toNat then b else if a = 0 then s.codeAt 0 ||| s.mask else s.codeAt a) ∧
    (16 < s.codePtr.toNat → exec (.tokLit b) s = .refused (.noEntry .codebuf s.codePtr.toNat))

/-- R89: TOK.REF stores the two bytes of the token and counts them; its control bit stays as it is. The model's own: the
refusal of a length no token carries (log 9) and of a buffer with no room (log 10), and the bytes of CODEBUF beyond
CODEPTR (log 21). -/
def Obligations.ReferenceIsPacked : Prop :=
  ∀ (s : State) (pos : Pos) (len : Nat), s.memWf = true →
    (3 ≤ len → len ≤ 18 → s.codePtr.toNat ≤ 15 → ∃ t, exec (.tokRef pos len) s = .next t ∧
      t = { s with codebuf := t.codebuf, codePtr := s.codePtr + 2 } ∧
      ∀ a, t.codeAt a =
        if a = s.codePtr.toNat then BitVec.ofNat 8 (pos.toNat % 256)
        else if a = s.codePtr.toNat + 1 then BitVec.ofNat 8 (pos.toNat / 256 * 16 + (len - 3))
        else s.codeAt a) ∧
    (3 ≤ len → len ≤ 18 → 15 < s.codePtr.toNat →
      ∃ a, 17 ≤ a ∧ exec (.tokRef pos len) s = .refused (.noEntry .codebuf a)) ∧
    (len < 3 ∨ 18 < len → exec (.tokRef pos len) s = .refused (.lengthNotCoded len))

/-- R90: TOK.NEXT moves to the next token slot; after the eighth token the group goes to OUT, control byte first, and an
empty group starts. The model's own: the refusal of a CODEPTR past the buffer (log 10), and the bytes of CODEBUF beyond
CODEPTR (log 21). -/
def Obligations.FullGroupGoesToTheOutput : Prop :=
  ∀ s : State, s.memWf = true →
    (s.mask.toNat * 2 % 256 ≠ 0 → exec .tokNext s = .next { s with mask := s.mask <<< 1 }) ∧
    (s.mask.toNat * 2 % 256 = 0 → s.codePtr.toNat ≤ 17 → ∃ t, exec .tokNext s = .next t ∧
      t = { s with out := t.out, codebuf := t.codebuf, codePtr := 1, mask := 1 } ∧
      t.out = s.out ++ (List.range s.codePtr.toNat).map s.codeAt ∧
      ∀ a, t.codeAt a = if a = 0 then 0 else s.codeAt a) ∧
    (s.mask.toNat * 2 % 256 = 0 → 17 < s.codePtr.toNat → exec .tokNext s = .refused (.noEntry .codebuf 17))

/-- R91: TOK.FLUSH appends a group that holds a token to OUT; where it holds none nothing is written. The model's own:
the refusal of a CODEPTR past the buffer (log 10). -/
def Obligations.PartialGroupIsFlushed : Prop :=
  ∀ s : State,
    (1 < s.codePtr.toNat → s.codePtr.toNat ≤ 17 → exec .tokFlush s =
      .next { s with out := s.out ++ (List.range s.codePtr.toNat).map s.codeAt }) ∧
    (s.codePtr.toNat ≤ 1 → exec .tokFlush s = .next s) ∧
    (17 < s.codePtr.toNat → exec .tokFlush s = .refused (.noEntry .codebuf 17))

/-- R92: in a group of at most seven tokens MASK, CODEPTR and the control byte follow from the kinds of the tokens,
`1 <= CODEPTR <= 15`; TOK.RESET makes an empty group, and packing a token and closing its slot keeps the law. -/
def Obligations.GroupLawIsKept : Prop :=
  ∀ s : State, s.memWf = true →
    (∀ t, exec .tokReset s = .next t → HoldsGroup t []) ∧
    (GroupLaw s → 1 ≤ s.codePtr.toNat ∧ s.codePtr.toNat ≤ 15) ∧
    (∀ (kinds : List Bool) (b : Byte), kinds.length ≤ 7 → HoldsGroup s kinds →
      ∃ t u, exec (.tokLit b) s = .next t ∧ exec .tokNext t = .next u ∧ u.memWf = true ∧
        HoldsGroup u (if kinds.length = 7 then [] else kinds ++ [true])) ∧
    (∀ (kinds : List Bool) (pos : Pos) (len : Nat), kinds.length ≤ 7 → HoldsGroup s kinds → 3 ≤ len → len ≤ 18 →
      ∃ t u, exec (.tokRef pos len) s = .next t ∧ exec .tokNext t = .next u ∧ u.memWf = true ∧
        HoldsGroup u (if kinds.length = 7 then [] else kinds ++ [false]))

/-! ## Encoder -/

/-- R93: ENC.START initialises every piece of encoder state. That the state R31 leaves unspecified after START keeps its
value is the model's (log 19). -/
def Obligations.EncoderStartInitialises : Prop :=
  ∀ s : State, s.memWf = true →
    ∃ t, exec .encStart s = .next t ∧
      t = { s with text := t.text, right := t.right, parent := t.parent, codebuf := t.codebuf, codePtr := 1, mask := 1,
                   sCur := 0, rCur := 4078, len := 0, matchLen := 0, last := 0, iCnt := 0, ip := 0, out := [],
                   phase := .eLoad } ∧
      (∀ a < 4113, t.textAt a = 0x20) ∧ t.codeAt 0 = 0 ∧ EmptyIndex t

/-- R94: ENC.LOAD moves bytes of the input into the lookahead until it holds F or the input ends; with an empty lookahead
the run ends, else ENC.PREINSERT is next. -/
def Obligations.LoadFillsTheLookahead : Prop :=
  ∀ (s : State) (n : Nat), s.memWf = true → n = min (18 - s.len.toNat) (s.inp.length - s.ip) →
    ∃ t, exec .encLoad s = .next t ∧ t.len.toNat = s.len.toNat + n ∧ t.ip = s.ip + n ∧
      (∀ j < n, s.inp[s.ip + j]? = some (t.textAt ((s.rCur.toNat + s.len.toNat + j) % 4096))) ∧
      (∀ a < 4096, (∀ j < n, a ≠ (s.rCur.toNat + s.len.toNat + j) % 4096) →
        t.textAt a = s.textAt a ∧ t.textAt (a + 4096) = s.textAt (a + 4096)) ∧
      (Mirror s → Mirror t) ∧
      (t.len = 0 → t = { s with text := t.text, len := t.len, ip := t.ip, busy := false, done := true, mode := .idle,
                                phase := .idle }) ∧
      (t.len ≠ 0 → t = { s with text := t.text, len := t.len, ip := t.ip, phase := .ePre })

/-- R95: ENC.PREINSERT is IDX.INSERT of `R-1`, `R-2`, …, `R-F` and then of `R`; it completes where none of them is a node
yet, and afterwards `R` is a node and no other position has become one. For R below 18 the positions are taken modulo N,
which is the model's (log 12). -/
def Obligations.PreinsertIsNineteenInserts : Prop :=
  ∀ s : State, s.memWf = true → TreeLaw s → (∀ i ≤ 18, ¬ IsNode s (s.rCur - BitVec.ofNat 12 i)) →
    ∃ u : Nat → State, u 0 = s ∧
      (∀ i < 18, exec (.idxInsert (s.rCur - BitVec.ofNat 12 (i + 1))) (u i) = .next (u (i + 1))) ∧
      exec (.idxInsert s.rCur) (u 18) = .next (u 19) ∧
      exec .encPreinsert s = .next { u 19 with phase := .eStep } ∧
      u 19 = { s with left := (u 19).left, right := (u 19).right, parent := (u 19).parent, cmp := (u 19).cmp,
                      matchPos := (u 19).matchPos, matchLen := (u 19).matchLen } ∧
      TreeLaw (u 19) ∧ IsNode (u 19) s.rCur ∧
      (∀ z, IsNode (u 19) z → IsNode s z ∨ ∃ i ≤ 18, z = s.rCur - BitVec.ofNat 12 i)

/-- R96: ENC.STEP clamps the match to LEN, packs a literal of the byte at R for a match of at most THRESHOLD bytes and a
reference otherwise, closes the token slot, and sets the advance count. That it does so with LEN 0, and whatever
operation came before, is the model's (log 18). -/
def Obligations.StepTurnsTheMatchIntoAToken : Prop :=
  ∀ (s : State) (m : Nat), s.memWf = true → GroupLaw s → s.matchLen.toNat ≤ 18 →
    m = min s.matchLen.toNat s.len.toNat →
    (m ≤ 2 → ∃ t u, exec (.tokLit (s.textAt s.rCur.toNat)) { s with matchLen := 1 } = .next t ∧
      exec .tokNext t = .next u ∧ exec .encStep s = .next { u with last := 1, iCnt := 0, phase := .eAdv }) ∧
    (2 < m → ∃ t u, exec (.tokRef s.matchPos m) { s with matchLen := BitVec.ofNat 5 m } = .next t ∧
      exec .tokNext t = .next u ∧
      exec .encStep s = .next { u with last := BitVec.ofNat 5 m, iCnt := 0, phase := .eAdv })

/-- R97, R155: ENC.ADVANCE deletes `S`, writes the next input byte there, advances both cursors and inserts the new `R`,
in this order, and counts the step. -/
def Obligations.AdvanceDeletesWritesAndInserts : Prop :=
  ∀ (s : State) (c : Byte), s.memWf = true → TreeLaw s → Members s → Cursors s → s.inp[s.ip]? = some c →
    ∃ t u v, exec (.idxDelete s.sCur) s = .next t ∧
      exec (.winSet s.sCur.toNat c) { t with ip := s.ip + 1 } = .next u ∧
      exec (.idxInsert (s.rCur + 1)) { u with sCur := s.sCur + 1, rCur := s.rCur + 1 } = .next v ∧
      ∃ w, exec .encAdvance s = .next w ∧ w = { v with iCnt := w.iCnt } ∧
        (s.iCnt.toNat < 31 → w.iCnt.toNat = s.iCnt.toNat + 1)

/-- R98: ENC.DRAIN counts the step, deletes `S`, advances both cursors, lowers LEN and, unless LEN is now 0, inserts the
new `R`; TEXT is not written. -/
def Obligations.DrainDeletesAndInserts : Prop :=
  ∀ s : State, s.memWf = true → TreeLaw s → Members s → Cursors s → 1 ≤ s.len.toNat →
    ∃ t, exec (.idxDelete s.sCur) s = .next t ∧
      (s.len = 1 → ∃ w, exec .encDrain s = .next w ∧
        w = { t with sCur := s.sCur + 1, rCur := s.rCur + 1, len := 0, iCnt := w.iCnt } ∧
        (s.iCnt.toNat < 31 → w.iCnt.toNat = s.iCnt.toNat + 1)) ∧
      (s.len ≠ 1 → ∃ v w, exec (.idxInsert (s.rCur + 1))
          { t with sCur := s.sCur + 1, rCur := s.rCur + 1, len := s.len - 1 } = .next v ∧
        exec .encDrain s = .next w ∧ w = { v with iCnt := w.iCnt } ∧
        (s.iCnt.toNat < 31 → w.iCnt.toNat = s.iCnt.toNat + 1))

/-- R100, R108: ENC.FINISH flushes the last group and ends the run; DEC.STOP ends the run and OUT keeps every byte. -/
def Obligations.FinishAndStopEndTheRun : Prop :=
  ∀ s : State,
    (s.codePtr.toNat ≤ 17 → exec .encFinish s = .next
      { s with out := if 1 < s.codePtr.toNat then s.out ++ (List.range s.codePtr.toNat).map s.codeAt else s.out,
               busy := false, done := true, mode := .idle, phase := .idle }) ∧
    exec .decStop s = .next { s with busy := false, done := true, mode := .idle, phase := .idle }

/-! ## Decoder -/

/-- R103: DEC.START initialises the decoder state. That the state decode mode does not use keeps its value is the
model's (log 19). -/
def Obligations.DecoderStartInitialises : Prop :=
  ∀ s : State, ∃ t, exec .decStart s = .next t ∧
    t = { s with text := t.text, rCur := 4078, flags := 0, ip := 0, out := [], phase := .dBit } ∧
    ∀ a < 4113, t.textAt a = 0x20

/-- R104: DEC.CTRL shifts FLAGS, loads a control byte when its eight bits are used up, and selects the token kind; at
truncation point (a) the run ends. A control byte has the effect of the load. -/
def Obligations.ControlBitSelectsTheTokenKind : Prop :=
  ∀ s : State,
    ((s.flags >>> 1).getLsbD 8 = true → exec .decCtrl s = .next
      { s with flags := s.flags >>> 1, phase := if (s.flags >>> 1).getLsbD 0 then .dLit else .dRef }) ∧
    ((s.flags >>> 1).getLsbD 8 = false → s.inp.length ≤ s.ip → exec .decCtrl s = .next
      { s with flags := s.flags >>> 1, busy := false, done := true, mode := .idle, phase := .idle }) ∧
    (∀ c : Byte, (s.flags >>> 1).getLsbD 8 = false → s.inp[s.ip]? = some c → exec .decCtrl s = .next
      { s with flags := 0xFF00 ||| c.setWidth 16, ip := s.ip + 1, phase := if c.getLsbD 0 then .dLit else .dRef }) ∧
    (∀ c : Byte, exec (.ctrl c) s = .next
      { s with flags := 0xFF00 ||| c.setWidth 16, phase := if c.getLsbD 0 then .dLit else .dRef })

/-- R105: DEC.LIT appends one byte of the input to OUT and writes it into the ring at R; at truncation point (b) the run
ends. A literal token has that effect on its byte. -/
def Obligations.LiteralIsCopied : Prop :=
  ∀ s : State, s.memWf = true →
    (∀ c : Byte, ∃ t, exec (.lit c) s = .next t ∧
      t = { s with text := t.text, out := s.out ++ [c], rCur := s.rCur + 1, phase := .dBit } ∧
      ∀ a, t.textAt a = if a = s.rCur.toNat ∨ (s.rCur.toNat < 17 ∧ a = s.rCur.toNat + 4096) then c else s.textAt a) ∧
    (∀ c : Byte, s.inp[s.ip]? = some c → exec .decLit s = exec (.lit c) { s with ip := s.ip + 1 }) ∧
    (s.inp.length ≤ s.ip → exec .decLit s = .next { s with busy := false, done := true, mode := .idle, phase := .idle })

/-- R106: DEC.REF copies `n` bytes from ring position `pos` on, one byte at a time; at truncation points (c) and (d) the
run ends, at (d) with the first byte consumed. A reference token has the effect of the copy; that one with a length
outside 3 to 18 is refused is the model's (log 9). -/
def Obligations.ReferenceIsCopiedByteByByte : Prop :=
  ∀ s : State,
    (∀ (pos : Pos) (n : Nat), 3 ≤ n → n ≤ 18 → ∃ u : Nat → State, u 0 = s ∧ Copies pos.toNat n u ∧
      exec (.ref pos n) s = .next { u n with phase := .dBit }) ∧
    (∀ (pos : Pos) (n : Nat), n < 3 ∨ 18 < n → exec (.ref pos n) s = .refused (.lengthNotCoded n)) ∧
    (∀ b0 b1 : Byte, s.inp[s.ip]? = some b0 → s.inp[s.ip + 1]? = some b1 →
      exec .decRef s = exec (.ref (BitVec.ofNat 12 (b0.toNat + b1.toNat / 16 * 256)) (b1.toNat % 16 + 3))
        { s with ip := s.ip + 2 }) ∧
    (∀ b0 : Byte, s.inp[s.ip]? = some b0 → s.inp.length ≤ s.ip + 1 → exec .decRef s = .next
      { s with ip := s.ip + 1, busy := false, done := true, mode := .idle, phase := .idle }) ∧
    (s.inp.length ≤ s.ip → exec .decRef s = .next { s with busy := false, done := true, mode := .idle, phase := .idle })

/-- R107: with the source `d` positions behind the destination, `1 <= d < n`, the output is the `d` bytes at the source
repeated to length `n`; in every other case it is the `n` bytes at the source as they were. -/
def Obligations.OverlappingCopyRepeats : Prop :=
  ∀ (s t : State) (pos : Pos) (n d : Nat), s.memWf = true → 3 ≤ n → n ≤ 18 → d = (s.rCur - pos).toNat →
    exec (.ref pos n) s = .next t →
    (1 ≤ d → d < n → t.out = s.out ++ (List.range n).map fun k => s.textAt ((pos.toNat + k % d) % 4096)) ∧
    (d = 0 ∨ n ≤ d → t.out = s.out ++ (List.range n).map fun k => s.textAt ((pos.toNat + k) % 4096))

/-! ## Host interface -/

/-- R112, R113, R114, R116: COMPRESS and DECOMPRESS start a run in PHASE IDLE, and change nothing while PHASE is not IDLE;
no command and the ignored code have no effect. -/
def Obligations.CommandsStartARunOnlyWhenIdle : Prop :=
  ∀ s : State,
    (s.phase = .idle → exec .compress s = .next { s with mode := .enc, busy := true, done := false, phase := .eInit }) ∧
    (s.phase = .idle → exec .decompress s = .next { s with mode := .dec, busy := true, done := false, phase := .dInit }) ∧
    (s.phase ≠ .idle → exec .compress s = .next s ∧ exec .decompress s = .next s) ∧
    exec .cmdNone s = .next s ∧ exec .cmdIgnored s = .next s

/-! ## Laws every step keeps -/

/-- Every memory operation of every step keeps the canonical form of the memories, and lists only entries that exist
(R35, R37). -/
def Obligations.EveryStepKeepsTheMemoryForm : Prop :=
  ∀ s t : State, s.memWf = true → step s = .next t → t.memWf = true

/-- R119: the mirror holds after ENC.START and DEC.START, and every step keeps it. -/
def Obligations.EveryStepKeepsTheMirror : Prop :=
  (∀ s t : State, exec .encStart s = .next t → Mirror t) ∧
  (∀ s t : State, exec .decStart s = .next t → Mirror t) ∧
  (∀ s t : State, s.memWf = true → Mirror s → step s = .next t → Mirror t)

/-- R115: MODE, BUSY and DONE take no other combination than the three of the table, and follow PHASE, in every step the
sequencer takes. -/
def Obligations.EveryStepKeepsTheStatusCombinations : Prop :=
  (∀ s t : State, s.ops = [] → Control s → step s = .next t → Control t) ∧
  (∀ s : State, Control s →
    (hostMode s = 0 ∧ hostStatus s = 0) ∨ ((hostMode s = 1 ∨ hostMode s = 2) ∧ hostStatus s = 1) ∨
    (hostMode s = 0 ∧ hostStatus s = 2))

/-- R125: `R ≡ S + N - F` holds after ENC.START and every step of an encode run keeps it. -/
def Obligations.EncodeStepsKeepTheCursorsApart : Prop :=
  (∀ s t : State, exec .encStart s = .next t → Cursors t) ∧
  (∀ s t : State, s.ops = [] → phaseMode s.phase = .enc → Cursors s → step s = .next t → Cursors t)

/-- R118 in decode mode: after DEC.START the ring holds FILLER only, and every step of a decode run keeps: the ring holds
the last N bytes of OUT, each at its position, and FILLER elsewhere. -/
def Obligations.DecodeStepsKeepTheRingContents : Prop :=
  (∀ s t : State, exec .decStart s = .next t → DecoderRing t) ∧
  (∀ s t : State, s.memWf = true → s.ops = [] → phaseMode s.phase = .dec → s.phase ≠ .dInit → DecoderRing s →
    step s = .next t → DecoderRing t)

/-- R118 in encode mode: every step of an encode run keeps: the ring holds the last N bytes read from IN, each at its
position, and FILLER elsewhere. -/
def Obligations.EncodeStepsKeepTheRingContents : Prop :=
  (∀ s t : State, exec .encStart s = .next t → EncoderRing t) ∧
  (∀ s t : State, s.memWf = true → s.ops = [] → phaseMode s.phase = .enc → s.phase ≠ .eInit → EncoderRing s →
    step s = .next t → EncoderRing t ∧ RingHolds t (t.inp.take t.ip))

/-- R121: in a run the search order holds after ENC.START and every later step of the encode run keeps it, the steps that
write TEXT included. -/
def Obligations.EncodeStepsKeepTheSearchOrder : Prop :=
  (∀ s t : State, s.memWf = true → exec .encStart s = .next t → SearchTrees t) ∧
  (∀ s t : State, RunLaw s → phaseMode s.phase = .enc → s.phase ≠ .eInit → SearchTrees s → step s = .next t →
    SearchTrees t)

/-- R136: "A model's step function for this block returns a state, never an error": in a run the host starts no step
faults and none is refused, and the laws of the run (R92, R115, R120, R123, R125 and the register ranges) hold again. -/
def Obligations.EveryStepOfARunCompletes : Prop :=
  ∀ s : State, RunLaw s → ∃ t, step s = .next t ∧ RunLaw t

/-! ## Whole runs -/

/-- R128: empty input gives empty output for both commands, and the run is done. -/
def Obligations.EmptyInputGivesEmptyOutput : Prop :=
  ∀ (s : State) (c : BitVec 2), Idle s → c = 1 ∨ c = 2 →
    (∃ t, Ends c [] s t) ∧ ∀ t, Ends c [] s t → t.out = [] ∧ t.done = true ∧ t.busy = false

/-- R109, R134: DECOMPRESS of every byte sequence ends, and OUT is the value of the rule's loop. -/
def Obligations.DecompressComputesTheRule : Prop :=
  ∀ (s : State) (input : List Byte), Idle s →
    (∃ t, Ends 2 input s t) ∧ ∀ t, Ends 2 input s t → t.out = decompress input ∧ t.done = true ∧ Idle t

/-- R109: "The output length is less than `9 * IN_LEN`", of a DECOMPRESS run on a stream that is not empty. -/
def Obligations.DecompressOutputIsBounded : Prop :=
  ∀ (s t : State) (input : List Byte), Idle s → input ≠ [] → Ends 2 input s t → t.out.length < 9 * input.length

/-- R134, R163: COMPRESS of every byte sequence ends, with DONE set and the block idle again. -/
def Obligations.CompressTerminates : Prop :=
  ∀ (s : State) (input : List Byte), Idle s →
    (∃ t, Ends 1 input s t) ∧ ∀ t, Ends 1 input s t → t.done = true ∧ Idle t

/-- R132: "For every input, `OUT_LEN <= IN_LEN + ceil(IN_LEN / 8)`". -/
def Obligations.CompressExpandsByAtMostOneEighth : Prop :=
  ∀ (s t : State) (input : List Byte), Idle s → Ends 1 input s t →
    t.out.length ≤ input.length + (input.length + 7) / 8

/-- R127: for all byte sequences, `Decompress(Compress(x)) == x`, for the function of R109 and for the machine's next
run. -/
def Obligations.DecompressInvertsCompress : Prop :=
  ∀ (s t : State) (input : List Byte), Idle s → Ends 1 input s t →
    decompress t.out = input ∧ ∀ u, Ends 2 t.out t u → u.out = input

/-- R113, R152: "two COMPRESS runs on equal inputs give equal outputs, whatever ran before". -/
def Obligations.CompressDependsOnItsInputOnly : Prop :=
  ∀ (s s' t t' : State) (input : List Byte), Idle s → Idle s' → Ends 1 input s t → Ends 1 input s' t' → t.out = t'.out

end
end

