-- ==== Sys2Proof/Laws/Memory.lean ====
section
/-! SUPPORT. Sparse memories: read after write, and the canonical form every write keeps. -/

namespace Sys2Proof.Laws

open Sys2Proof.Machine

variable {w : Nat} {d : BitVec w}

theorem read_nil (a : Nat) : Memory.read d [] a = d := rfl

theorem read_cons (k : Nat) (v : BitVec w) (m : Cells w) (a : Nat) :
    Memory.read d ((k, v) :: m) a = if a = k then v else Memory.read d m a := rfl

/-- A memory whose addresses all lie above `a` does not list `a`. -/
theorem read_below {m : Cells w} {lo a : Nat} (h : Memory.wfFrom d lo m = true) (ha : a < lo) :
    Memory.read d m a = d := by
  induction m generalizing lo with
  | nil => rfl
  | cons c m ih =>
    obtain ⟨k, v⟩ := c
    simp only [Memory.wfFrom, Bool.and_eq_true, decide_eq_true_eq] at h
    rw [read_cons, if_neg (by omega)]
    exact ih h.2 (by omega)

theorem wfFrom_mono {m : Cells w} {lo lo' : Nat} (h : Memory.wfFrom d lo m = true) (hl : lo' ≤ lo) :
    Memory.wfFrom d lo' m = true := by
  cases m with
  | nil => rfl
  | cons c m =>
    simp only [Memory.wfFrom, Bool.and_eq_true, decide_eq_true_eq] at h ⊢
    exact ⟨⟨by omega, h.1.2⟩, h.2⟩

/-- A read of another address sees no change. -/
theorem read_write_ne (m : Cells w) {a b : Nat} (v : BitVec w) (h : b ≠ a) :
    Memory.read d (Memory.write d m a v) b = Memory.read d m b := by
  induction m with
  | nil => by_cases hv : v = d <;> simp [Memory.write, Memory.read, hv, h]
  | cons c m ih =>
    obtain ⟨k, x⟩ := c
    simp only [Memory.write]
    split
    · split
      · rfl
      · rw [read_cons, if_neg h]
    · split
      · subst_vars
        split <;> simp [Memory.read, h]
      · simp only [read_cons, ih]

/-- A read of the written address gives the written value. -/
theorem read_write_same {m : Cells w} {lo : Nat} (hm : Memory.wfFrom d lo m = true) (a : Nat) (v : BitVec w) :
    Memory.read d (Memory.write d m a v) a = v := by
  induction m generalizing lo with
  | nil => by_cases hv : v = d <;> simp [Memory.write, Memory.read, hv]
  | cons c m ih =>
    obtain ⟨k, x⟩ := c
    simp only [Memory.wfFrom, Bool.and_eq_true, decide_eq_true_eq] at hm
    simp only [Memory.write]
    split
    · split
      · subst_vars
        rw [read_cons, if_neg (by omega)]
        exact read_below hm.2 (by omega)
      · rw [read_cons, if_pos rfl]
    · split
      · split
        · subst_vars
          exact read_below hm.2 (by omega)
        · rw [read_cons, if_pos rfl]
      · rw [read_cons, if_neg (by omega)]
        exact ih hm.2

/-- A write keeps the canonical form. -/
theorem wfFrom_write {m : Cells w} {lo : Nat} (hm : Memory.wfFrom d lo m = true) {a : Nat} (ha : lo ≤ a)
    (v : BitVec w) : Memory.wfFrom d lo (Memory.write d m a v) = true := by
  induction m generalizing lo with
  | nil => by_cases hv : v = d <;> simp [Memory.write, Memory.wfFrom, hv, ha]
  | cons c m ih =>
    obtain ⟨k, x⟩ := c
    have hm' := hm
    simp only [Memory.wfFrom, Bool.and_eq_true, decide_eq_true_eq] at hm
    obtain ⟨⟨hk, hx⟩, hr⟩ := hm
    simp only [Memory.write]
    split
    · split
      · exact hm'
      · rename_i hak hv
        simp only [Memory.wfFrom, Bool.and_eq_true, decide_eq_true_eq]
        exact ⟨⟨ha, hv⟩, ⟨⟨by omega, hx⟩, hr⟩⟩
    · split
      · split
        · exact wfFrom_mono hr (by omega)
        · rename_i hv
          simp only [Memory.wfFrom, Bool.and_eq_true, decide_eq_true_eq]
          exact ⟨⟨by omega, hv⟩, by subst_vars; exact hr⟩
      · simp only [Memory.wfFrom, Bool.and_eq_true, decide_eq_true_eq]
        exact ⟨⟨hk, hx⟩, ih hr (by omega)⟩

/-- Every memory operation keeps the canonical form. -/
theorem wf_write {m : Cells w} (hm : Memory.wf d m = true) (a : Nat) (v : BitVec w) :
    Memory.wf d (Memory.write d m a v) = true := wfFrom_write hm (Nat.zero_le a) v

/-- A write at an address that exists lists only addresses that exist. -/
theorem within_write {m : Cells w} {p : Nat → Bool} (hm : Memory.within p m = true) {a : Nat} (ha : p a = true)
    (v : BitVec w) : Memory.within p (Memory.write d m a v) = true := by
  induction m with
  | nil => by_cases hv : v = d <;> simp [Memory.write, Memory.within, hv, ha]
  | cons c m ih =>
    obtain ⟨k, x⟩ := c
    simp only [Memory.within, List.all_cons, Bool.and_eq_true] at hm ih ⊢
    simp only [Memory.write]
    split
    · split <;> simp [hm, ha]
    · split
      · split
        · exact hm.2
        · rw [List.all_cons, hm.2, ha]; rfl
      · rw [List.all_cons, hm.1, ih hm.2]; rfl

/-- A filter keeps the canonical form. -/
theorem wfFrom_filter {m : Cells w} {lo : Nat} (hm : Memory.wfFrom d lo m = true) (p : Nat × BitVec w → Bool) :
    Memory.wfFrom d lo (m.filter p) = true := by
  induction m generalizing lo with
  | nil => rfl
  | cons c m ih =>
    obtain ⟨k, x⟩ := c
    simp only [Memory.wfFrom, Bool.and_eq_true, decide_eq_true_eq] at hm
    rw [List.filter_cons]
    split
    · simp only [Memory.wfFrom, Bool.and_eq_true, decide_eq_true_eq]
      exact ⟨hm.1, ih hm.2⟩
    · exact wfFrom_mono (ih hm.2) (by omega)

/-- A read sees a filter by address. -/
theorem read_filter (m : Cells w) (p : Nat → Bool) (a : Nat) :
    Memory.read d (m.filter fun c => p c.1) a = if p a then Memory.read d m a else d := by
  induction m with
  | nil => simp [Memory.read]
  | cons c m ih =>
    obtain ⟨k, x⟩ := c
    rw [List.filter_cons]
    by_cases hk : p k = true
    · simp only [hk, if_true, read_cons, ih]
      by_cases ha : a = k
      · simp [ha, hk]
      · simp [ha]
    · rw [if_neg hk, ih, read_cons]
      by_cases ha : a = k
      · subst ha; simp [hk]
      · simp [ha]

/-- Equal reads make equal memories: the form is canonical. -/
theorem ext_of_read {m n : Cells w} {lo : Nat} (hm : Memory.wfFrom d lo m = true) (hn : Memory.wfFrom d lo n = true)
    (h : ∀ a, Memory.read d m a = Memory.read d n a) : m = n := by
  induction m generalizing n lo with
  | nil =>
    cases n with
    | nil => rfl
    | cons c n =>
      obtain ⟨k, x⟩ := c
      simp only [Memory.wfFrom, Bool.and_eq_true, decide_eq_true_eq] at hn
      have := h k
      simp [Memory.read] at this
      exact absurd this.symm hn.1.2
  | cons c m ih =>
    obtain ⟨k, x⟩ := c
    simp only [Memory.wfFrom, Bool.and_eq_true, decide_eq_true_eq] at hm
    cases n with
    | nil =>
      have := h k
      simp [Memory.read] at this
      exact absurd this hm.1.2
    | cons c' n =>
      obtain ⟨k', x'⟩ := c'
      simp only [Memory.wfFrom, Bool.and_eq_true, decide_eq_true_eq] at hn
      have hkk : k = k' := by
        rcases Nat.lt_trichotomy k k' with hlt | heq | hgt
        · have := h k
          rw [read_cons, if_pos rfl, read_cons, if_neg (by omega), read_below hn.2 (by omega)] at this
          exact absurd this hm.1.2
        · exact heq
        · have := h k'
          rw [read_cons, if_neg (by omega), read_below hm.2 (by omega), read_cons, if_pos rfl] at this
          exact absurd this.symm hn.1.2
      subst hkk
      have hx : x = x' := by simpa [Memory.read] using h k
      subst hx
      congr 1
      refine ih hm.2 hn.2 fun a => ?_
      have := h a
      by_cases ha : a = k
      · subst ha
        rw [read_below hm.2 (by omega), read_below hn.2 (by omega)]
      · simpa [read_cons, ha] using this

end Sys2Proof.Laws
end

