-- ==== Sys2Proof/Laws/State.lean ====
section
/-! SUPPORT. The fields of a state after each update: one lemma per field per update, so that no proof unfolds a record. -/

namespace Sys2Proof.Laws

open Sys2Proof.Machine

/-! ## setText -/

@[simp] theorem setText_text (s : State) (a : Nat) (v : Byte) : (s.setText a v).text = Memory.write unlistedText s.text a v := rfl
@[simp] theorem setText_left (s : State) (a : Nat) (v : Byte) : (s.setText a v).left = s.left := rfl
@[simp] theorem setText_right (s : State) (a : Nat) (v : Byte) : (s.setText a v).right = s.right := rfl
@[simp] theorem setText_parent (s : State) (a : Nat) (v : Byte) : (s.setText a v).parent = s.parent := rfl
@[simp] theorem setText_codebuf (s : State) (a : Nat) (v : Byte) : (s.setText a v).codebuf = s.codebuf := rfl
@[simp] theorem setText_sCur (s : State) (a : Nat) (v : Byte) : (s.setText a v).sCur = s.sCur := rfl
@[simp] theorem setText_rCur (s : State) (a : Nat) (v : Byte) : (s.setText a v).rCur = s.rCur := rfl
@[simp] theorem setText_len (s : State) (a : Nat) (v : Byte) : (s.setText a v).len = s.len := rfl
@[simp] theorem setText_matchPos (s : State) (a : Nat) (v : Byte) : (s.setText a v).matchPos = s.matchPos := rfl
@[simp] theorem setText_matchLen (s : State) (a : Nat) (v : Byte) : (s.setText a v).matchLen = s.matchLen := rfl
@[simp] theorem setText_mask (s : State) (a : Nat) (v : Byte) : (s.setText a v).mask = s.mask := rfl
@[simp] theorem setText_codePtr (s : State) (a : Nat) (v : Byte) : (s.setText a v).codePtr = s.codePtr := rfl
@[simp] theorem setText_flags (s : State) (a : Nat) (v : Byte) : (s.setText a v).flags = s.flags := rfl
@[simp] theorem setText_last (s : State) (a : Nat) (v : Byte) : (s.setText a v).last = s.last := rfl
@[simp] theorem setText_iCnt (s : State) (a : Nat) (v : Byte) : (s.setText a v).iCnt = s.iCnt := rfl
@[simp] theorem setText_cmp (s : State) (a : Nat) (v : Byte) : (s.setText a v).cmp = s.cmp := rfl
@[simp] theorem setText_phase (s : State) (a : Nat) (v : Byte) : (s.setText a v).phase = s.phase := rfl
@[simp] theorem setText_mode (s : State) (a : Nat) (v : Byte) : (s.setText a v).mode = s.mode := rfl
@[simp] theorem setText_busy (s : State) (a : Nat) (v : Byte) : (s.setText a v).busy = s.busy := rfl
@[simp] theorem setText_done (s : State) (a : Nat) (v : Byte) : (s.setText a v).done = s.done := rfl
@[simp] theorem setText_inp (s : State) (a : Nat) (v : Byte) : (s.setText a v).inp = s.inp := rfl
@[simp] theorem setText_ip (s : State) (a : Nat) (v : Byte) : (s.setText a v).ip = s.ip := rfl
@[simp] theorem setText_out (s : State) (a : Nat) (v : Byte) : (s.setText a v).out = s.out := rfl
@[simp] theorem setText_cmd (s : State) (a : Nat) (v : Byte) : (s.setText a v).cmd = s.cmd := rfl
@[simp] theorem setText_ops (s : State) (a : Nat) (v : Byte) : (s.setText a v).ops = s.ops := rfl
@[simp] theorem setText_ret (s : State) (a : Nat) (v : Byte) : (s.setText a v).ret = s.ret := rfl

/-! ## setLeft -/

@[simp] theorem setLeft_text (s : State) (a : Nat) (v : Link) : (s.setLeft a v).text = s.text := rfl
@[simp] theorem setLeft_left (s : State) (a : Nat) (v : Link) : (s.setLeft a v).left = Memory.write unlistedLink s.left a v := rfl
@[simp] theorem setLeft_right (s : State) (a : Nat) (v : Link) : (s.setLeft a v).right = s.right := rfl
@[simp] theorem setLeft_parent (s : State) (a : Nat) (v : Link) : (s.setLeft a v).parent = s.parent := rfl
@[simp] theorem setLeft_codebuf (s : State) (a : Nat) (v : Link) : (s.setLeft a v).codebuf = s.codebuf := rfl
@[simp] theorem setLeft_sCur (s : State) (a : Nat) (v : Link) : (s.setLeft a v).sCur = s.sCur := rfl
@[simp] theorem setLeft_rCur (s : State) (a : Nat) (v : Link) : (s.setLeft a v).rCur = s.rCur := rfl
@[simp] theorem setLeft_len (s : State) (a : Nat) (v : Link) : (s.setLeft a v).len = s.len := rfl
@[simp] theorem setLeft_matchPos (s : State) (a : Nat) (v : Link) : (s.setLeft a v).matchPos = s.matchPos := rfl
@[simp] theorem setLeft_matchLen (s : State) (a : Nat) (v : Link) : (s.setLeft a v).matchLen = s.matchLen := rfl
@[simp] theorem setLeft_mask (s : State) (a : Nat) (v : Link) : (s.setLeft a v).mask = s.mask := rfl
@[simp] theorem setLeft_codePtr (s : State) (a : Nat) (v : Link) : (s.setLeft a v).codePtr = s.codePtr := rfl
@[simp] theorem setLeft_flags (s : State) (a : Nat) (v : Link) : (s.setLeft a v).flags = s.flags := rfl
@[simp] theorem setLeft_last (s : State) (a : Nat) (v : Link) : (s.setLeft a v).last = s.last := rfl
@[simp] theorem setLeft_iCnt (s : State) (a : Nat) (v : Link) : (s.setLeft a v).iCnt = s.iCnt := rfl
@[simp] theorem setLeft_cmp (s : State) (a : Nat) (v : Link) : (s.setLeft a v).cmp = s.cmp := rfl
@[simp] theorem setLeft_phase (s : State) (a : Nat) (v : Link) : (s.setLeft a v).phase = s.phase := rfl
@[simp] theorem setLeft_mode (s : State) (a : Nat) (v : Link) : (s.setLeft a v).mode = s.mode := rfl
@[simp] theorem setLeft_busy (s : State) (a : Nat) (v : Link) : (s.setLeft a v).busy = s.busy := rfl
@[simp] theorem setLeft_done (s : State) (a : Nat) (v : Link) : (s.setLeft a v).done = s.done := rfl
@[simp] theorem setLeft_inp (s : State) (a : Nat) (v : Link) : (s.setLeft a v).inp = s.inp := rfl
@[simp] theorem setLeft_ip (s : State) (a : Nat) (v : Link) : (s.setLeft a v).ip = s.ip := rfl
@[simp] theorem setLeft_out (s : State) (a : Nat) (v : Link) : (s.setLeft a v).out = s.out := rfl
@[simp] theorem setLeft_cmd (s : State) (a : Nat) (v : Link) : (s.setLeft a v).cmd = s.cmd := rfl
@[simp] theorem setLeft_ops (s : State) (a : Nat) (v : Link) : (s.setLeft a v).ops = s.ops := rfl
@[simp] theorem setLeft_ret (s : State) (a : Nat) (v : Link) : (s.setLeft a v).ret = s.ret := rfl

/-! ## setRight -/

@[simp] theorem setRight_text (s : State) (a : Nat) (v : Link) : (s.setRight a v).text = s.text := rfl
@[simp] theorem setRight_left (s : State) (a : Nat) (v : Link) : (s.setRight a v).left = s.left := rfl
@[simp] theorem setRight_right (s : State) (a : Nat) (v : Link) : (s.setRight a v).right = Memory.write unlistedLink s.right a v := rfl
@[simp] theorem setRight_parent (s : State) (a : Nat) (v : Link) : (s.setRight a v).parent = s.parent := rfl
@[simp] theorem setRight_codebuf (s : State) (a : Nat) (v : Link) : (s.setRight a v).codebuf = s.codebuf := rfl
@[simp] theorem setRight_sCur (s : State) (a : Nat) (v : Link) : (s.setRight a v).sCur = s.sCur := rfl
@[simp] theorem setRight_rCur (s : State) (a : Nat) (v : Link) : (s.setRight a v).rCur = s.rCur := rfl
@[simp] theorem setRight_len (s : State) (a : Nat) (v : Link) : (s.setRight a v).len = s.len := rfl
@[simp] theorem setRight_matchPos (s : State) (a : Nat) (v : Link) : (s.setRight a v).matchPos = s.matchPos := rfl
@[simp] theorem setRight_matchLen (s : State) (a : Nat) (v : Link) : (s.setRight a v).matchLen = s.matchLen := rfl
@[simp] theorem setRight_mask (s : State) (a : Nat) (v : Link) : (s.setRight a v).mask = s.mask := rfl
@[simp] theorem setRight_codePtr (s : State) (a : Nat) (v : Link) : (s.setRight a v).codePtr = s.codePtr := rfl
@[simp] theorem setRight_flags (s : State) (a : Nat) (v : Link) : (s.setRight a v).flags = s.flags := rfl
@[simp] theorem setRight_last (s : State) (a : Nat) (v : Link) : (s.setRight a v).last = s.last := rfl
@[simp] theorem setRight_iCnt (s : State) (a : Nat) (v : Link) : (s.setRight a v).iCnt = s.iCnt := rfl
@[simp] theorem setRight_cmp (s : State) (a : Nat) (v : Link) : (s.setRight a v).cmp = s.cmp := rfl
@[simp] theorem setRight_phase (s : State) (a : Nat) (v : Link) : (s.setRight a v).phase = s.phase := rfl
@[simp] theorem setRight_mode (s : State) (a : Nat) (v : Link) : (s.setRight a v).mode = s.mode := rfl
@[simp] theorem setRight_busy (s : State) (a : Nat) (v : Link) : (s.setRight a v).busy = s.busy := rfl
@[simp] theorem setRight_done (s : State) (a : Nat) (v : Link) : (s.setRight a v).done = s.done := rfl
@[simp] theorem setRight_inp (s : State) (a : Nat) (v : Link) : (s.setRight a v).inp = s.inp := rfl
@[simp] theorem setRight_ip (s : State) (a : Nat) (v : Link) : (s.setRight a v).ip = s.ip := rfl
@[simp] theorem setRight_out (s : State) (a : Nat) (v : Link) : (s.setRight a v).out = s.out := rfl
@[simp] theorem setRight_cmd (s : State) (a : Nat) (v : Link) : (s.setRight a v).cmd = s.cmd := rfl
@[simp] theorem setRight_ops (s : State) (a : Nat) (v : Link) : (s.setRight a v).ops = s.ops := rfl
@[simp] theorem setRight_ret (s : State) (a : Nat) (v : Link) : (s.setRight a v).ret = s.ret := rfl

/-! ## setParent -/

@[simp] theorem setParent_text (s : State) (a : Nat) (v : Link) : (s.setParent a v).text = s.text := rfl
@[simp] theorem setParent_left (s : State) (a : Nat) (v : Link) : (s.setParent a v).left = s.left := rfl
@[simp] theorem setParent_right (s : State) (a : Nat) (v : Link) : (s.setParent a v).right = s.right := rfl
@[simp] theorem setParent_parent (s : State) (a : Nat) (v : Link) : (s.setParent a v).parent = Memory.write unlistedLink s.parent a v := rfl
@[simp] theorem setParent_codebuf (s : State) (a : Nat) (v : Link) : (s.setParent a v).codebuf = s.codebuf := rfl
@[simp] theorem setParent_sCur (s : State) (a : Nat) (v : Link) : (s.setParent a v).sCur = s.sCur := rfl
@[simp] theorem setParent_rCur (s : State) (a : Nat) (v : Link) : (s.setParent a v).rCur = s.rCur := rfl
@[simp] theorem setParent_len (s : State) (a : Nat) (v : Link) : (s.setParent a v).len = s.len := rfl
@[simp] theorem setParent_matchPos (s : State) (a : Nat) (v : Link) : (s.setParent a v).matchPos = s.matchPos := rfl
@[simp] theorem setParent_matchLen (s : State) (a : Nat) (v : Link) : (s.setParent a v).matchLen = s.matchLen := rfl
@[simp] theorem setParent_mask (s : State) (a : Nat) (v : Link) : (s.setParent a v).mask = s.mask := rfl
@[simp] theorem setParent_codePtr (s : State) (a : Nat) (v : Link) : (s.setParent a v).codePtr = s.codePtr := rfl
@[simp] theorem setParent_flags (s : State) (a : Nat) (v : Link) : (s.setParent a v).flags = s.flags := rfl
@[simp] theorem setParent_last (s : State) (a : Nat) (v : Link) : (s.setParent a v).last = s.last := rfl
@[simp] theorem setParent_iCnt (s : State) (a : Nat) (v : Link) : (s.setParent a v).iCnt = s.iCnt := rfl
@[simp] theorem setParent_cmp (s : State) (a : Nat) (v : Link) : (s.setParent a v).cmp = s.cmp := rfl
@[simp] theorem setParent_phase (s : State) (a : Nat) (v : Link) : (s.setParent a v).phase = s.phase := rfl
@[simp] theorem setParent_mode (s : State) (a : Nat) (v : Link) : (s.setParent a v).mode = s.mode := rfl
@[simp] theorem setParent_busy (s : State) (a : Nat) (v : Link) : (s.setParent a v).busy = s.busy := rfl
@[simp] theorem setParent_done (s : State) (a : Nat) (v : Link) : (s.setParent a v).done = s.done := rfl
@[simp] theorem setParent_inp (s : State) (a : Nat) (v : Link) : (s.setParent a v).inp = s.inp := rfl
@[simp] theorem setParent_ip (s : State) (a : Nat) (v : Link) : (s.setParent a v).ip = s.ip := rfl
@[simp] theorem setParent_out (s : State) (a : Nat) (v : Link) : (s.setParent a v).out = s.out := rfl
@[simp] theorem setParent_cmd (s : State) (a : Nat) (v : Link) : (s.setParent a v).cmd = s.cmd := rfl
@[simp] theorem setParent_ops (s : State) (a : Nat) (v : Link) : (s.setParent a v).ops = s.ops := rfl
@[simp] theorem setParent_ret (s : State) (a : Nat) (v : Link) : (s.setParent a v).ret = s.ret := rfl

/-! ## setCode -/

@[simp] theorem setCode_text (s : State) (a : Nat) (v : Byte) : (s.setCode a v).text = s.text := rfl
@[simp] theorem setCode_left (s : State) (a : Nat) (v : Byte) : (s.setCode a v).left = s.left := rfl
@[simp] theorem setCode_right (s : State) (a : Nat) (v : Byte) : (s.setCode a v).right = s.right := rfl
@[simp] theorem setCode_parent (s : State) (a : Nat) (v : Byte) : (s.setCode a v).parent = s.parent := rfl
@[simp] theorem setCode_codebuf (s : State) (a : Nat) (v : Byte) : (s.setCode a v).codebuf = Memory.write unlistedCode s.codebuf a v := rfl
@[simp] theorem setCode_sCur (s : State) (a : Nat) (v : Byte) : (s.setCode a v).sCur = s.sCur := rfl
@[simp] theorem setCode_rCur (s : State) (a : Nat) (v : Byte) : (s.setCode a v).rCur = s.rCur := rfl
@[simp] theorem setCode_len (s : State) (a : Nat) (v : Byte) : (s.setCode a v).len = s.len := rfl
@[simp] theorem setCode_matchPos (s : State) (a : Nat) (v : Byte) : (s.setCode a v).matchPos = s.matchPos := rfl
@[simp] theorem setCode_matchLen (s : State) (a : Nat) (v : Byte) : (s.setCode a v).matchLen = s.matchLen := rfl
@[simp] theorem setCode_mask (s : State) (a : Nat) (v : Byte) : (s.setCode a v).mask = s.mask := rfl
@[simp] theorem setCode_codePtr (s : State) (a : Nat) (v : Byte) : (s.setCode a v).codePtr = s.codePtr := rfl
@[simp] theorem setCode_flags (s : State) (a : Nat) (v : Byte) : (s.setCode a v).flags = s.flags := rfl
@[simp] theorem setCode_last (s : State) (a : Nat) (v : Byte) : (s.setCode a v).last = s.last := rfl
@[simp] theorem setCode_iCnt (s : State) (a : Nat) (v : Byte) : (s.setCode a v).iCnt = s.iCnt := rfl
@[simp] theorem setCode_cmp (s : State) (a : Nat) (v : Byte) : (s.setCode a v).cmp = s.cmp := rfl
@[simp] theorem setCode_phase (s : State) (a : Nat) (v : Byte) : (s.setCode a v).phase = s.phase := rfl
@[simp] theorem setCode_mode (s : State) (a : Nat) (v : Byte) : (s.setCode a v).mode = s.mode := rfl
@[simp] theorem setCode_busy (s : State) (a : Nat) (v : Byte) : (s.setCode a v).busy = s.busy := rfl
@[simp] theorem setCode_done (s : State) (a : Nat) (v : Byte) : (s.setCode a v).done = s.done := rfl
@[simp] theorem setCode_inp (s : State) (a : Nat) (v : Byte) : (s.setCode a v).inp = s.inp := rfl
@[simp] theorem setCode_ip (s : State) (a : Nat) (v : Byte) : (s.setCode a v).ip = s.ip := rfl
@[simp] theorem setCode_out (s : State) (a : Nat) (v : Byte) : (s.setCode a v).out = s.out := rfl
@[simp] theorem setCode_cmd (s : State) (a : Nat) (v : Byte) : (s.setCode a v).cmd = s.cmd := rfl
@[simp] theorem setCode_ops (s : State) (a : Nat) (v : Byte) : (s.setCode a v).ops = s.ops := rfl
@[simp] theorem setCode_ret (s : State) (a : Nat) (v : Byte) : (s.setCode a v).ret = s.ret := rfl

/-! ## fillWindow -/

@[simp] theorem fillWindow_text (s : State) : (fillWindow s).text = [] := rfl
@[simp] theorem fillWindow_left (s : State) : (fillWindow s).left = s.left := rfl
@[simp] theorem fillWindow_right (s : State) : (fillWindow s).right = s.right := rfl
@[simp] theorem fillWindow_parent (s : State) : (fillWindow s).parent = s.parent := rfl
@[simp] theorem fillWindow_codebuf (s : State) : (fillWindow s).codebuf = s.codebuf := rfl
@[simp] theorem fillWindow_sCur (s : State) : (fillWindow s).sCur = s.sCur := rfl
@[simp] theorem fillWindow_rCur (s : State) : (fillWindow s).rCur = s.rCur := rfl
@[simp] theorem fillWindow_len (s : State) : (fillWindow s).len = s.len := rfl
@[simp] theorem fillWindow_matchPos (s : State) : (fillWindow s).matchPos = s.matchPos := rfl
@[simp] theorem fillWindow_matchLen (s : State) : (fillWindow s).matchLen = s.matchLen := rfl
@[simp] theorem fillWindow_mask (s : State) : (fillWindow s).mask = s.mask := rfl
@[simp] theorem fillWindow_codePtr (s : State) : (fillWindow s).codePtr = s.codePtr := rfl
@[simp] theorem fillWindow_flags (s : State) : (fillWindow s).flags = s.flags := rfl
@[simp] theorem fillWindow_last (s : State) : (fillWindow s).last = s.last := rfl
@[simp] theorem fillWindow_iCnt (s : State) : (fillWindow s).iCnt = s.iCnt := rfl
@[simp] theorem fillWindow_cmp (s : State) : (fillWindow s).cmp = s.cmp := rfl
@[simp] theorem fillWindow_phase (s : State) : (fillWindow s).phase = s.phase := rfl
@[simp] theorem fillWindow_mode (s : State) : (fillWindow s).mode = s.mode := rfl
@[simp] theorem fillWindow_busy (s : State) : (fillWindow s).busy = s.busy := rfl
@[simp] theorem fillWindow_done (s : State) : (fillWindow s).done = s.done := rfl
@[simp] theorem fillWindow_inp (s : State) : (fillWindow s).inp = s.inp := rfl
@[simp] theorem fillWindow_ip (s : State) : (fillWindow s).ip = s.ip := rfl
@[simp] theorem fillWindow_out (s : State) : (fillWindow s).out = s.out := rfl
@[simp] theorem fillWindow_cmd (s : State) : (fillWindow s).cmd = s.cmd := rfl
@[simp] theorem fillWindow_ops (s : State) : (fillWindow s).ops = s.ops := rfl
@[simp] theorem fillWindow_ret (s : State) : (fillWindow s).ret = s.ret := rfl

/-! ## clearIndex -/

@[simp] theorem clearIndex_text (s : State) : (clearIndex s).text = s.text := rfl
@[simp] theorem clearIndex_left (s : State) : (clearIndex s).left = s.left := rfl
@[simp] theorem clearIndex_right (s : State) : (clearIndex s).right = s.right.filter fun c => decide (c.1 < Config.N) := rfl
@[simp] theorem clearIndex_parent (s : State) : (clearIndex s).parent = [] := rfl
@[simp] theorem clearIndex_codebuf (s : State) : (clearIndex s).codebuf = s.codebuf := rfl
@[simp] theorem clearIndex_sCur (s : State) : (clearIndex s).sCur = s.sCur := rfl
@[simp] theorem clearIndex_rCur (s : State) : (clearIndex s).rCur = s.rCur := rfl
@[simp] theorem clearIndex_len (s : State) : (clearIndex s).len = s.len := rfl
@[simp] theorem clearIndex_matchPos (s : State) : (clearIndex s).matchPos = s.matchPos := rfl
@[simp] theorem clearIndex_matchLen (s : State) : (clearIndex s).matchLen = s.matchLen := rfl
@[simp] theorem clearIndex_mask (s : State) : (clearIndex s).mask = s.mask := rfl
@[simp] theorem clearIndex_codePtr (s : State) : (clearIndex s).codePtr = s.codePtr := rfl
@[simp] theorem clearIndex_flags (s : State) : (clearIndex s).flags = s.flags := rfl
@[simp] theorem clearIndex_last (s : State) : (clearIndex s).last = s.last := rfl
@[simp] theorem clearIndex_iCnt (s : State) : (clearIndex s).iCnt = s.iCnt := rfl
@[simp] theorem clearIndex_cmp (s : State) : (clearIndex s).cmp = s.cmp := rfl
@[simp] theorem clearIndex_phase (s : State) : (clearIndex s).phase = s.phase := rfl
@[simp] theorem clearIndex_mode (s : State) : (clearIndex s).mode = s.mode := rfl
@[simp] theorem clearIndex_busy (s : State) : (clearIndex s).busy = s.busy := rfl
@[simp] theorem clearIndex_done (s : State) : (clearIndex s).done = s.done := rfl
@[simp] theorem clearIndex_inp (s : State) : (clearIndex s).inp = s.inp := rfl
@[simp] theorem clearIndex_ip (s : State) : (clearIndex s).ip = s.ip := rfl
@[simp] theorem clearIndex_out (s : State) : (clearIndex s).out = s.out := rfl
@[simp] theorem clearIndex_cmd (s : State) : (clearIndex s).cmd = s.cmd := rfl
@[simp] theorem clearIndex_ops (s : State) : (clearIndex s).ops = s.ops := rfl
@[simp] theorem clearIndex_ret (s : State) : (clearIndex s).ret = s.ret := rfl

/-! ## resetGroup -/

@[simp] theorem resetGroup_text (s : State) : (resetGroup s).text = s.text := rfl
@[simp] theorem resetGroup_left (s : State) : (resetGroup s).left = s.left := rfl
@[simp] theorem resetGroup_right (s : State) : (resetGroup s).right = s.right := rfl
@[simp] theorem resetGroup_parent (s : State) : (resetGroup s).parent = s.parent := rfl
@[simp] theorem resetGroup_codebuf (s : State) : (resetGroup s).codebuf = Memory.write unlistedCode s.codebuf 0 0 := rfl
@[simp] theorem resetGroup_sCur (s : State) : (resetGroup s).sCur = s.sCur := rfl
@[simp] theorem resetGroup_rCur (s : State) : (resetGroup s).rCur = s.rCur := rfl
@[simp] theorem resetGroup_len (s : State) : (resetGroup s).len = s.len := rfl
@[simp] theorem resetGroup_matchPos (s : State) : (resetGroup s).matchPos = s.matchPos := rfl
@[simp] theorem resetGroup_matchLen (s : State) : (resetGroup s).matchLen = s.matchLen := rfl
@[simp] theorem resetGroup_mask (s : State) : (resetGroup s).mask = 1 := rfl
@[simp] theorem resetGroup_codePtr (s : State) : (resetGroup s).codePtr = 1 := rfl
@[simp] theorem resetGroup_flags (s : State) : (resetGroup s).flags = s.flags := rfl
@[simp] theorem resetGroup_last (s : State) : (resetGroup s).last = s.last := rfl
@[simp] theorem resetGroup_iCnt (s : State) : (resetGroup s).iCnt = s.iCnt := rfl
@[simp] theorem resetGroup_cmp (s : State) : (resetGroup s).cmp = s.cmp := rfl
@[simp] theorem resetGroup_phase (s : State) : (resetGroup s).phase = s.phase := rfl
@[simp] theorem resetGroup_mode (s : State) : (resetGroup s).mode = s.mode := rfl
@[simp] theorem resetGroup_busy (s : State) : (resetGroup s).busy = s.busy := rfl
@[simp] theorem resetGroup_done (s : State) : (resetGroup s).done = s.done := rfl
@[simp] theorem resetGroup_inp (s : State) : (resetGroup s).inp = s.inp := rfl
@[simp] theorem resetGroup_ip (s : State) : (resetGroup s).ip = s.ip := rfl
@[simp] theorem resetGroup_out (s : State) : (resetGroup s).out = s.out := rfl
@[simp] theorem resetGroup_cmd (s : State) : (resetGroup s).cmd = s.cmd := rfl
@[simp] theorem resetGroup_ops (s : State) : (resetGroup s).ops = s.ops := rfl
@[simp] theorem resetGroup_ret (s : State) : (resetGroup s).ret = s.ret := rfl

/-! ## advanceR -/

@[simp] theorem advanceR_text (s : State) : (advanceR s).text = s.text := rfl
@[simp] theorem advanceR_left (s : State) : (advanceR s).left = s.left := rfl
@[simp] theorem advanceR_right (s : State) : (advanceR s).right = s.right := rfl
@[simp] theorem advanceR_parent (s : State) : (advanceR s).parent = s.parent := rfl
@[simp] theorem advanceR_codebuf (s : State) : (advanceR s).codebuf = s.codebuf := rfl
@[simp] theorem advanceR_sCur (s : State) : (advanceR s).sCur = s.sCur := rfl
@[simp] theorem advanceR_rCur (s : State) : (advanceR s).rCur = nextPos s.rCur := rfl
@[simp] theorem advanceR_len (s : State) : (advanceR s).len = s.len := rfl
@[simp] theorem advanceR_matchPos (s : State) : (advanceR s).matchPos = s.matchPos := rfl
@[simp] theorem advanceR_matchLen (s : State) : (advanceR s).matchLen = s.matchLen := rfl
@[simp] theorem advanceR_mask (s : State) : (advanceR s).mask = s.mask := rfl
@[simp] theorem advanceR_codePtr (s : State) : (advanceR s).codePtr = s.codePtr := rfl
@[simp] theorem advanceR_flags (s : State) : (advanceR s).flags = s.flags := rfl
@[simp] theorem advanceR_last (s : State) : (advanceR s).last = s.last := rfl
@[simp] theorem advanceR_iCnt (s : State) : (advanceR s).iCnt = s.iCnt := rfl
@[simp] theorem advanceR_cmp (s : State) : (advanceR s).cmp = s.cmp := rfl
@[simp] theorem advanceR_phase (s : State) : (advanceR s).phase = s.phase := rfl
@[simp] theorem advanceR_mode (s : State) : (advanceR s).mode = s.mode := rfl
@[simp] theorem advanceR_busy (s : State) : (advanceR s).busy = s.busy := rfl
@[simp] theorem advanceR_done (s : State) : (advanceR s).done = s.done := rfl
@[simp] theorem advanceR_inp (s : State) : (advanceR s).inp = s.inp := rfl
@[simp] theorem advanceR_ip (s : State) : (advanceR s).ip = s.ip := rfl
@[simp] theorem advanceR_out (s : State) : (advanceR s).out = s.out := rfl
@[simp] theorem advanceR_cmd (s : State) : (advanceR s).cmd = s.cmd := rfl
@[simp] theorem advanceR_ops (s : State) : (advanceR s).ops = s.ops := rfl
@[simp] theorem advanceR_ret (s : State) : (advanceR s).ret = s.ret := rfl

/-! ## advanceS -/

@[simp] theorem advanceS_text (s : State) : (advanceS s).text = s.text := rfl
@[simp] theorem advanceS_left (s : State) : (advanceS s).left = s.left := rfl
@[simp] theorem advanceS_right (s : State) : (advanceS s).right = s.right := rfl
@[simp] theorem advanceS_parent (s : State) : (advanceS s).parent = s.parent := rfl
@[simp] theorem advanceS_codebuf (s : State) : (advanceS s).codebuf = s.codebuf := rfl
@[simp] theorem advanceS_sCur (s : State) : (advanceS s).sCur = nextPos s.sCur := rfl
@[simp] theorem advanceS_rCur (s : State) : (advanceS s).rCur = s.rCur := rfl
@[simp] theorem advanceS_len (s : State) : (advanceS s).len = s.len := rfl
@[simp] theorem advanceS_matchPos (s : State) : (advanceS s).matchPos = s.matchPos := rfl
@[simp] theorem advanceS_matchLen (s : State) : (advanceS s).matchLen = s.matchLen := rfl
@[simp] theorem advanceS_mask (s : State) : (advanceS s).mask = s.mask := rfl
@[simp] theorem advanceS_codePtr (s : State) : (advanceS s).codePtr = s.codePtr := rfl
@[simp] theorem advanceS_flags (s : State) : (advanceS s).flags = s.flags := rfl
@[simp] theorem advanceS_last (s : State) : (advanceS s).last = s.last := rfl
@[simp] theorem advanceS_iCnt (s : State) : (advanceS s).iCnt = s.iCnt := rfl
@[simp] theorem advanceS_cmp (s : State) : (advanceS s).cmp = s.cmp := rfl
@[simp] theorem advanceS_phase (s : State) : (advanceS s).phase = s.phase := rfl
@[simp] theorem advanceS_mode (s : State) : (advanceS s).mode = s.mode := rfl
@[simp] theorem advanceS_busy (s : State) : (advanceS s).busy = s.busy := rfl
@[simp] theorem advanceS_done (s : State) : (advanceS s).done = s.done := rfl
@[simp] theorem advanceS_inp (s : State) : (advanceS s).inp = s.inp := rfl
@[simp] theorem advanceS_ip (s : State) : (advanceS s).ip = s.ip := rfl
@[simp] theorem advanceS_out (s : State) : (advanceS s).out = s.out := rfl
@[simp] theorem advanceS_cmd (s : State) : (advanceS s).cmd = s.cmd := rfl
@[simp] theorem advanceS_ops (s : State) : (advanceS s).ops = s.ops := rfl
@[simp] theorem advanceS_ret (s : State) : (advanceS s).ret = s.ret := rfl

/-! ## setPhase -/

@[simp] theorem setPhase_text (p : Phase) (s : State) : (setPhase p s).text = s.text := rfl
@[simp] theorem setPhase_left (p : Phase) (s : State) : (setPhase p s).left = s.left := rfl
@[simp] theorem setPhase_right (p : Phase) (s : State) : (setPhase p s).right = s.right := rfl
@[simp] theorem setPhase_parent (p : Phase) (s : State) : (setPhase p s).parent = s.parent := rfl
@[simp] theorem setPhase_codebuf (p : Phase) (s : State) : (setPhase p s).codebuf = s.codebuf := rfl
@[simp] theorem setPhase_sCur (p : Phase) (s : State) : (setPhase p s).sCur = s.sCur := rfl
@[simp] theorem setPhase_rCur (p : Phase) (s : State) : (setPhase p s).rCur = s.rCur := rfl
@[simp] theorem setPhase_len (p : Phase) (s : State) : (setPhase p s).len = s.len := rfl
@[simp] theorem setPhase_matchPos (p : Phase) (s : State) : (setPhase p s).matchPos = s.matchPos := rfl
@[simp] theorem setPhase_matchLen (p : Phase) (s : State) : (setPhase p s).matchLen = s.matchLen := rfl
@[simp] theorem setPhase_mask (p : Phase) (s : State) : (setPhase p s).mask = s.mask := rfl
@[simp] theorem setPhase_codePtr (p : Phase) (s : State) : (setPhase p s).codePtr = s.codePtr := rfl
@[simp] theorem setPhase_flags (p : Phase) (s : State) : (setPhase p s).flags = s.flags := rfl
@[simp] theorem setPhase_last (p : Phase) (s : State) : (setPhase p s).last = s.last := rfl
@[simp] theorem setPhase_iCnt (p : Phase) (s : State) : (setPhase p s).iCnt = s.iCnt := rfl
@[simp] theorem setPhase_cmp (p : Phase) (s : State) : (setPhase p s).cmp = s.cmp := rfl
@[simp] theorem setPhase_phase (p : Phase) (s : State) : (setPhase p s).phase = p := rfl
@[simp] theorem setPhase_mode (p : Phase) (s : State) : (setPhase p s).mode = s.mode := rfl
@[simp] theorem setPhase_busy (p : Phase) (s : State) : (setPhase p s).busy = s.busy := rfl
@[simp] theorem setPhase_done (p : Phase) (s : State) : (setPhase p s).done = s.done := rfl
@[simp] theorem setPhase_inp (p : Phase) (s : State) : (setPhase p s).inp = s.inp := rfl
@[simp] theorem setPhase_ip (p : Phase) (s : State) : (setPhase p s).ip = s.ip := rfl
@[simp] theorem setPhase_out (p : Phase) (s : State) : (setPhase p s).out = s.out := rfl
@[simp] theorem setPhase_cmd (p : Phase) (s : State) : (setPhase p s).cmd = s.cmd := rfl
@[simp] theorem setPhase_ops (p : Phase) (s : State) : (setPhase p s).ops = s.ops := rfl
@[simp] theorem setPhase_ret (p : Phase) (s : State) : (setPhase p s).ret = s.ret := rfl

/-! ## appendOut -/

@[simp] theorem appendOut_text (b : Byte) (s : State) : (appendOut b s).text = s.text := rfl
@[simp] theorem appendOut_left (b : Byte) (s : State) : (appendOut b s).left = s.left := rfl
@[simp] theorem appendOut_right (b : Byte) (s : State) : (appendOut b s).right = s.right := rfl
@[simp] theorem appendOut_parent (b : Byte) (s : State) : (appendOut b s).parent = s.parent := rfl
@[simp] theorem appendOut_codebuf (b : Byte) (s : State) : (appendOut b s).codebuf = s.codebuf := rfl
@[simp] theorem appendOut_sCur (b : Byte) (s : State) : (appendOut b s).sCur = s.sCur := rfl
@[simp] theorem appendOut_rCur (b : Byte) (s : State) : (appendOut b s).rCur = s.rCur := rfl
@[simp] theorem appendOut_len (b : Byte) (s : State) : (appendOut b s).len = s.len := rfl
@[simp] theorem appendOut_matchPos (b : Byte) (s : State) : (appendOut b s).matchPos = s.matchPos := rfl
@[simp] theorem appendOut_matchLen (b : Byte) (s : State) : (appendOut b s).matchLen = s.matchLen := rfl
@[simp] theorem appendOut_mask (b : Byte) (s : State) : (appendOut b s).mask = s.mask := rfl
@[simp] theorem appendOut_codePtr (b : Byte) (s : State) : (appendOut b s).codePtr = s.codePtr := rfl
@[simp] theorem appendOut_flags (b : Byte) (s : State) : (appendOut b s).flags = s.flags := rfl
@[simp] theorem appendOut_last (b : Byte) (s : State) : (appendOut b s).last = s.last := rfl
@[simp] theorem appendOut_iCnt (b : Byte) (s : State) : (appendOut b s).iCnt = s.iCnt := rfl
@[simp] theorem appendOut_cmp (b : Byte) (s : State) : (appendOut b s).cmp = s.cmp := rfl
@[simp] theorem appendOut_phase (b : Byte) (s : State) : (appendOut b s).phase = s.phase := rfl
@[simp] theorem appendOut_mode (b : Byte) (s : State) : (appendOut b s).mode = s.mode := rfl
@[simp] theorem appendOut_busy (b : Byte) (s : State) : (appendOut b s).busy = s.busy := rfl
@[simp] theorem appendOut_done (b : Byte) (s : State) : (appendOut b s).done = s.done := rfl
@[simp] theorem appendOut_inp (b : Byte) (s : State) : (appendOut b s).inp = s.inp := rfl
@[simp] theorem appendOut_ip (b : Byte) (s : State) : (appendOut b s).ip = s.ip := rfl
@[simp] theorem appendOut_out (b : Byte) (s : State) : (appendOut b s).out = s.out ++ [b] := rfl
@[simp] theorem appendOut_cmd (b : Byte) (s : State) : (appendOut b s).cmd = s.cmd := rfl
@[simp] theorem appendOut_ops (b : Byte) (s : State) : (appendOut b s).ops = s.ops := rfl
@[simp] theorem appendOut_ret (b : Byte) (s : State) : (appendOut b s).ret = s.ret := rfl

/-! ## appendAll -/

@[simp] theorem appendAll_text (bs : List Byte) (s : State) : (appendAll bs s).text = s.text := rfl
@[simp] theorem appendAll_left (bs : List Byte) (s : State) : (appendAll bs s).left = s.left := rfl
@[simp] theorem appendAll_right (bs : List Byte) (s : State) : (appendAll bs s).right = s.right := rfl
@[simp] theorem appendAll_parent (bs : List Byte) (s : State) : (appendAll bs s).parent = s.parent := rfl
@[simp] theorem appendAll_codebuf (bs : List Byte) (s : State) : (appendAll bs s).codebuf = s.codebuf := rfl
@[simp] theorem appendAll_sCur (bs : List Byte) (s : State) : (appendAll bs s).sCur = s.sCur := rfl
@[simp] theorem appendAll_rCur (bs : List Byte) (s : State) : (appendAll bs s).rCur = s.rCur := rfl
@[simp] theorem appendAll_len (bs : List Byte) (s : State) : (appendAll bs s).len = s.len := rfl
@[simp] theorem appendAll_matchPos (bs : List Byte) (s : State) : (appendAll bs s).matchPos = s.matchPos := rfl
@[simp] theorem appendAll_matchLen (bs : List Byte) (s : State) : (appendAll bs s).matchLen = s.matchLen := rfl
@[simp] theorem appendAll_mask (bs : List Byte) (s : State) : (appendAll bs s).mask = s.mask := rfl
@[simp] theorem appendAll_codePtr (bs : List Byte) (s : State) : (appendAll bs s).codePtr = s.codePtr := rfl
@[simp] theorem appendAll_flags (bs : List Byte) (s : State) : (appendAll bs s).flags = s.flags := rfl
@[simp] theorem appendAll_last (bs : List Byte) (s : State) : (appendAll bs s).last = s.last := rfl
@[simp] theorem appendAll_iCnt (bs : List Byte) (s : State) : (appendAll bs s).iCnt = s.iCnt := rfl
@[simp] theorem appendAll_cmp (bs : List Byte) (s : State) : (appendAll bs s).cmp = s.cmp := rfl
@[simp] theorem appendAll_phase (bs : List Byte) (s : State) : (appendAll bs s).phase = s.phase := rfl
@[simp] theorem appendAll_mode (bs : List Byte) (s : State) : (appendAll bs s).mode = s.mode := rfl
@[simp] theorem appendAll_busy (bs : List Byte) (s : State) : (appendAll bs s).busy = s.busy := rfl
@[simp] theorem appendAll_done (bs : List Byte) (s : State) : (appendAll bs s).done = s.done := rfl
@[simp] theorem appendAll_inp (bs : List Byte) (s : State) : (appendAll bs s).inp = s.inp := rfl
@[simp] theorem appendAll_ip (bs : List Byte) (s : State) : (appendAll bs s).ip = s.ip := rfl
@[simp] theorem appendAll_out (bs : List Byte) (s : State) : (appendAll bs s).out = s.out ++ bs := rfl
@[simp] theorem appendAll_cmd (bs : List Byte) (s : State) : (appendAll bs s).cmd = s.cmd := rfl
@[simp] theorem appendAll_ops (bs : List Byte) (s : State) : (appendAll bs s).ops = s.ops := rfl
@[simp] theorem appendAll_ret (bs : List Byte) (s : State) : (appendAll bs s).ret = s.ret := rfl

/-! ## endRun -/

@[simp] theorem endRun_text (s : State) : (endRun s).text = s.text := rfl
@[simp] theorem endRun_left (s : State) : (endRun s).left = s.left := rfl
@[simp] theorem endRun_right (s : State) : (endRun s).right = s.right := rfl
@[simp] theorem endRun_parent (s : State) : (endRun s).parent = s.parent := rfl
@[simp] theorem endRun_codebuf (s : State) : (endRun s).codebuf = s.codebuf := rfl
@[simp] theorem endRun_sCur (s : State) : (endRun s).sCur = s.sCur := rfl
@[simp] theorem endRun_rCur (s : State) : (endRun s).rCur = s.rCur := rfl
@[simp] theorem endRun_len (s : State) : (endRun s).len = s.len := rfl
@[simp] theorem endRun_matchPos (s : State) : (endRun s).matchPos = s.matchPos := rfl
@[simp] theorem endRun_matchLen (s : State) : (endRun s).matchLen = s.matchLen := rfl
@[simp] theorem endRun_mask (s : State) : (endRun s).mask = s.mask := rfl
@[simp] theorem endRun_codePtr (s : State) : (endRun s).codePtr = s.codePtr := rfl
@[simp] theorem endRun_flags (s : State) : (endRun s).flags = s.flags := rfl
@[simp] theorem endRun_last (s : State) : (endRun s).last = s.last := rfl
@[simp] theorem endRun_iCnt (s : State) : (endRun s).iCnt = s.iCnt := rfl
@[simp] theorem endRun_cmp (s : State) : (endRun s).cmp = s.cmp := rfl
@[simp] theorem endRun_phase (s : State) : (endRun s).phase = .idle := rfl
@[simp] theorem endRun_mode (s : State) : (endRun s).mode = .idle := rfl
@[simp] theorem endRun_busy (s : State) : (endRun s).busy = false := rfl
@[simp] theorem endRun_done (s : State) : (endRun s).done = true := rfl
@[simp] theorem endRun_inp (s : State) : (endRun s).inp = s.inp := rfl
@[simp] theorem endRun_ip (s : State) : (endRun s).ip = s.ip := rfl
@[simp] theorem endRun_out (s : State) : (endRun s).out = s.out := rfl
@[simp] theorem endRun_cmd (s : State) : (endRun s).cmd = s.cmd := rfl
@[simp] theorem endRun_ops (s : State) : (endRun s).ops = s.ops := rfl
@[simp] theorem endRun_ret (s : State) : (endRun s).ret = s.ret := rfl

/-! ## Entries after an update -/

@[simp] theorem setLeft_textAt (s : State) (a : Nat) (v : Link) (b : Nat) : (s.setLeft a v).textAt b = s.textAt b := rfl
@[simp] theorem setRight_textAt (s : State) (a : Nat) (v : Link) (b : Nat) : (s.setRight a v).textAt b = s.textAt b := rfl
@[simp] theorem setParent_textAt (s : State) (a : Nat) (v : Link) (b : Nat) : (s.setParent a v).textAt b = s.textAt b := rfl
@[simp] theorem setCode_textAt (s : State) (a : Nat) (v : Byte) (b : Nat) : (s.setCode a v).textAt b = s.textAt b := rfl
@[simp] theorem setText_leftAt (s : State) (a : Nat) (v : Byte) (b : Nat) : (s.setText a v).leftAt b = s.leftAt b := rfl
@[simp] theorem setRight_leftAt (s : State) (a : Nat) (v : Link) (b : Nat) : (s.setRight a v).leftAt b = s.leftAt b := rfl
@[simp] theorem setParent_leftAt (s : State) (a : Nat) (v : Link) (b : Nat) : (s.setParent a v).leftAt b = s.leftAt b := rfl
@[simp] theorem setCode_leftAt (s : State) (a : Nat) (v : Byte) (b : Nat) : (s.setCode a v).leftAt b = s.leftAt b := rfl
@[simp] theorem setText_rightAt (s : State) (a : Nat) (v : Byte) (b : Nat) : (s.setText a v).rightAt b = s.rightAt b := rfl
@[simp] theorem setLeft_rightAt (s : State) (a : Nat) (v : Link) (b : Nat) : (s.setLeft a v).rightAt b = s.rightAt b := rfl
@[simp] theorem setParent_rightAt (s : State) (a : Nat) (v : Link) (b : Nat) : (s.setParent a v).rightAt b = s.rightAt b := rfl
@[simp] theorem setCode_rightAt (s : State) (a : Nat) (v : Byte) (b : Nat) : (s.setCode a v).rightAt b = s.rightAt b := rfl
@[simp] theorem setText_parentAt (s : State) (a : Nat) (v : Byte) (b : Nat) : (s.setText a v).parentAt b = s.parentAt b := rfl
@[simp] theorem setLeft_parentAt (s : State) (a : Nat) (v : Link) (b : Nat) : (s.setLeft a v).parentAt b = s.parentAt b := rfl
@[simp] theorem setRight_parentAt (s : State) (a : Nat) (v : Link) (b : Nat) : (s.setRight a v).parentAt b = s.parentAt b := rfl
@[simp] theorem setCode_parentAt (s : State) (a : Nat) (v : Byte) (b : Nat) : (s.setCode a v).parentAt b = s.parentAt b := rfl
@[simp] theorem setText_codeAt (s : State) (a : Nat) (v : Byte) (b : Nat) : (s.setText a v).codeAt b = s.codeAt b := rfl
@[simp] theorem setLeft_codeAt (s : State) (a : Nat) (v : Link) (b : Nat) : (s.setLeft a v).codeAt b = s.codeAt b := rfl
@[simp] theorem setRight_codeAt (s : State) (a : Nat) (v : Link) (b : Nat) : (s.setRight a v).codeAt b = s.codeAt b := rfl
@[simp] theorem setParent_codeAt (s : State) (a : Nat) (v : Link) (b : Nat) : (s.setParent a v).codeAt b = s.codeAt b := rfl

/-- A read of TEXT after a write of it. -/
theorem setText_textAt {s : State} (h : Memory.wf unlistedText s.text = true) (a : Nat) (v : Byte) (b : Nat) :
    (s.setText a v).textAt b = if b = a then v else s.textAt b := by
  split
  · subst_vars; exact read_write_same h _ _
  · exact read_write_ne _ _ ‹_›

/-- A read of LEFT after a write of it. -/
theorem setLeft_leftAt {s : State} (h : Memory.wf unlistedLink s.left = true) (a : Nat) (v : Link) (b : Nat) :
    (s.setLeft a v).leftAt b = if b = a then v else s.leftAt b := by
  split
  · subst_vars; exact read_write_same h _ _
  · exact read_write_ne _ _ ‹_›

/-- A read of RIGHT after a write of it. -/
theorem setRight_rightAt {s : State} (h : Memory.wf unlistedLink s.right = true) (a : Nat) (v : Link) (b : Nat) :
    (s.setRight a v).rightAt b = if b = a then v else s.rightAt b := by
  split
  · subst_vars; exact read_write_same h _ _
  · exact read_write_ne _ _ ‹_›

/-- A read of PARENT after a write of it. -/
theorem setParent_parentAt {s : State} (h : Memory.wf unlistedLink s.parent = true) (a : Nat) (v : Link) (b : Nat) :
    (s.setParent a v).parentAt b = if b = a then v else s.parentAt b := by
  split
  · subst_vars; exact read_write_same h _ _
  · exact read_write_ne _ _ ‹_›

/-- A read of CODEBUF after a write of it. -/
theorem setCode_codeAt {s : State} (h : Memory.wf unlistedCode s.codebuf = true) (a : Nat) (v : Byte) (b : Nat) :
    (s.setCode a v).codeAt b = if b = a then v else s.codeAt b := by
  split
  · subst_vars; exact read_write_same h _ _
  · exact read_write_ne _ _ ‹_›

@[simp] theorem clearIndex_textAt (s : State) (b : Nat) : (clearIndex s).textAt b = s.textAt b := rfl
@[simp] theorem resetGroup_textAt (s : State) (b : Nat) : (resetGroup s).textAt b = s.textAt b := rfl
@[simp] theorem advanceR_textAt (s : State) (b : Nat) : (advanceR s).textAt b = s.textAt b := rfl
@[simp] theorem advanceS_textAt (s : State) (b : Nat) : (advanceS s).textAt b = s.textAt b := rfl
@[simp] theorem setPhase_textAt (p : Phase) (s : State) (b : Nat) : (setPhase p s).textAt b = s.textAt b := rfl
@[simp] theorem appendOut_textAt (b : Byte) (s : State) (a : Nat) : (appendOut b s).textAt a = s.textAt a := rfl
@[simp] theorem appendAll_textAt (bs : List Byte) (s : State) (b : Nat) : (appendAll bs s).textAt b = s.textAt b := rfl
@[simp] theorem endRun_textAt (s : State) (b : Nat) : (endRun s).textAt b = s.textAt b := rfl
@[simp] theorem fillWindow_leftAt (s : State) (b : Nat) : (fillWindow s).leftAt b = s.leftAt b := rfl
@[simp] theorem clearIndex_leftAt (s : State) (b : Nat) : (clearIndex s).leftAt b = s.leftAt b := rfl
@[simp] theorem resetGroup_leftAt (s : State) (b : Nat) : (resetGroup s).leftAt b = s.leftAt b := rfl
@[simp] theorem advanceR_leftAt (s : State) (b : Nat) : (advanceR s).leftAt b = s.leftAt b := rfl
@[simp] theorem advanceS_leftAt (s : State) (b : Nat) : (advanceS s).leftAt b = s.leftAt b := rfl
@[simp] theorem setPhase_leftAt (p : Phase) (s : State) (b : Nat) : (setPhase p s).leftAt b = s.leftAt b := rfl
@[simp] theorem appendOut_leftAt (b : Byte) (s : State) (a : Nat) : (appendOut b s).leftAt a = s.leftAt a := rfl
@[simp] theorem appendAll_leftAt (bs : List Byte) (s : State) (b : Nat) : (appendAll bs s).leftAt b = s.leftAt b := rfl
@[simp] theorem endRun_leftAt (s : State) (b : Nat) : (endRun s).leftAt b = s.leftAt b := rfl
@[simp] theorem fillWindow_rightAt (s : State) (b : Nat) : (fillWindow s).rightAt b = s.rightAt b := rfl
@[simp] theorem resetGroup_rightAt (s : State) (b : Nat) : (resetGroup s).rightAt b = s.rightAt b := rfl
@[simp] theorem advanceR_rightAt (s : State) (b : Nat) : (advanceR s).rightAt b = s.rightAt b := rfl
@[simp] theorem advanceS_rightAt (s : State) (b : Nat) : (advanceS s).rightAt b = s.rightAt b := rfl
@[simp] theorem setPhase_rightAt (p : Phase) (s : State) (b : Nat) : (setPhase p s).rightAt b = s.rightAt b := rfl
@[simp] theorem appendOut_rightAt (b : Byte) (s : State) (a : Nat) : (appendOut b s).rightAt a = s.rightAt a := rfl
@[simp] theorem appendAll_rightAt (bs : List Byte) (s : State) (b : Nat) : (appendAll bs s).rightAt b = s.rightAt b := rfl
@[simp] theorem endRun_rightAt (s : State) (b : Nat) : (endRun s).rightAt b = s.rightAt b := rfl
@[simp] theorem fillWindow_parentAt (s : State) (b : Nat) : (fillWindow s).parentAt b = s.parentAt b := rfl
@[simp] theorem resetGroup_parentAt (s : State) (b : Nat) : (resetGroup s).parentAt b = s.parentAt b := rfl
@[simp] theorem advanceR_parentAt (s : State) (b : Nat) : (advanceR s).parentAt b = s.parentAt b := rfl
@[simp] theorem advanceS_parentAt (s : State) (b : Nat) : (advanceS s).parentAt b = s.parentAt b := rfl
@[simp] theorem setPhase_parentAt (p : Phase) (s : State) (b : Nat) : (setPhase p s).parentAt b = s.parentAt b := rfl
@[simp] theorem appendOut_parentAt (b : Byte) (s : State) (a : Nat) : (appendOut b s).parentAt a = s.parentAt a := rfl
@[simp] theorem appendAll_parentAt (bs : List Byte) (s : State) (b : Nat) : (appendAll bs s).parentAt b = s.parentAt b := rfl
@[simp] theorem endRun_parentAt (s : State) (b : Nat) : (endRun s).parentAt b = s.parentAt b := rfl
@[simp] theorem fillWindow_codeAt (s : State) (b : Nat) : (fillWindow s).codeAt b = s.codeAt b := rfl
@[simp] theorem clearIndex_codeAt (s : State) (b : Nat) : (clearIndex s).codeAt b = s.codeAt b := rfl
@[simp] theorem advanceR_codeAt (s : State) (b : Nat) : (advanceR s).codeAt b = s.codeAt b := rfl
@[simp] theorem advanceS_codeAt (s : State) (b : Nat) : (advanceS s).codeAt b = s.codeAt b := rfl
@[simp] theorem setPhase_codeAt (p : Phase) (s : State) (b : Nat) : (setPhase p s).codeAt b = s.codeAt b := rfl
@[simp] theorem appendOut_codeAt (b : Byte) (s : State) (a : Nat) : (appendOut b s).codeAt a = s.codeAt a := rfl
@[simp] theorem appendAll_codeAt (bs : List Byte) (s : State) (b : Nat) : (appendAll bs s).codeAt b = s.codeAt b := rfl
@[simp] theorem endRun_codeAt (s : State) (b : Nat) : (endRun s).codeAt b = s.codeAt b := rfl

@[simp] theorem fillWindow_textAt (s : State) (b : Nat) : (fillWindow s).textAt b = Config.filler := rfl
@[simp] theorem clearIndex_parentAt (s : State) (b : Nat) : (clearIndex s).parentAt b = Config.nil := rfl

/-- R75: IDX.CLEAR makes every root entry of RIGHT absent and keeps the node entries. -/
theorem clearIndex_rightAt (s : State) (b : Nat) :
    (clearIndex s).rightAt b = if b < Config.N then s.rightAt b else Config.nil := by
  have := read_filter (d := unlistedLink) s.right (fun k => decide (k < Config.N)) b
  simpa [State.rightAt, unlistedLink] using this

end Sys2Proof.Laws
end

