-- ==== Sys2Proof/Laws/Ops.lean ====
section
/-! SUPPORT. One lemma per shared operation: everything it can do when it answers. -/

namespace Sys2Proof.Laws

open Sys2Proof.Machine

/-! ## Answers -/

@[simp] theorem ok_bind {α β : Type} (a : α) (f : α → Res β) : (Except.ok a : Res α) >>= f = f a := rfl
@[simp] theorem error_bind {α β : Type} (e : Stop) (f : α → Res β) : (Except.error e : Res α) >>= f = .error e := rfl
@[simp] theorem pure_eq_ok {α : Type} (a : α) : (pure a : Res α) = .ok a := rfl

/-- A chain that answers answered at each link. -/
theorem bind_eq_ok {α β : Type} {x : Res α} {f : α → Res β} {b : β} :
    x >>= f = .ok b ↔ ∃ a, x = .ok a ∧ f a = .ok b := by
  cases x <;> simp

@[simp] theorem outcome_ok (s : State) : outcome (.ok s) = .next s := rfl

/-- A meaning over an operation answers a next state exactly when the operation answers it. -/
theorem outcome_eq_next {x : Res State} {t : State} : outcome x = .next t ↔ x = .ok t := by
  cases x with
  | ok s => simp [outcome]
  | error e => cases e <;> simp [outcome]

/-! ## Numbers -/

@[simp] theorem link_toNat (p : Pos) : p.link.toNat = p.toNat := by
  simp [Pos.link, Nat.mod_eq_of_lt (show p.toNat < 8192 by omega)]

theorem link_injective {p q : Pos} (h : p.link = q.link) : p = q := by
  apply BitVec.eq_of_toNat_eq
  rw [← link_toNat p, ← link_toNat q, h]

@[simp] theorem link_inj {p q : Pos} : p.link = q.link ↔ p = q := ⟨link_injective, congrArg _⟩

theorem nil_toNat : (Config.nil).toNat = 4096 := rfl

@[simp] theorem link_ne_nil (p : Pos) : p.link ≠ Config.nil := by
  intro h
  have := congrArg BitVec.toNat h
  rw [link_toNat, nil_toNat] at this
  omega

theorem rootLink_toNat (b : Byte) : (rootLink b).toNat = 4097 + b.toNat := by
  have hb := b.isLt
  simp only [rootLink, BitVec.toNat_add, BitVec.toNat_setWidth]
  show (4097 + b.toNat % 8192) % 8192 = _
  omega

theorem rootLink_injective {b c : Byte} (h : rootLink b = rootLink c) : b = c := by
  have := congrArg BitVec.toNat h
  rw [rootLink_toNat, rootLink_toNat] at this
  exact BitVec.eq_of_toNat_eq (by omega)

@[simp] theorem rootLink_ne_nil (b : Byte) : rootLink b ≠ Config.nil := by
  intro h
  have := congrArg BitVec.toNat h
  rw [rootLink_toNat, nil_toNat] at this
  omega

@[simp] theorem rootLink_ne_link (b : Byte) (p : Pos) : rootLink b ≠ p.link := by
  intro h
  have := congrArg BitVec.toNat h
  rw [rootLink_toNat, link_toNat] at this
  omega

theorem isRing_iff {l : Link} : isRing l = true ↔ l.toNat < 4096 := decide_eq_true_iff

@[simp] theorem isRing_link (p : Pos) : isRing p.link = true := by
  rw [isRing_iff, link_toNat]; exact p.isLt

@[simp] theorem ringOf_link (p : Pos) : ringOf p.link = p := by
  apply BitVec.eq_of_toNat_eq
  simp [ringOf, Nat.mod_eq_of_lt (show p.toNat < 4096 by omega)]

@[simp] theorem ringPosition_link (p : Pos) : ringPosition p.link = .ok p := by simp [ringPosition]

theorem ringPosition_eq_ok {l : Link} {p : Pos} : ringPosition l = .ok p ↔ l = p.link := by
  constructor
  · intro h
    simp only [ringPosition] at h
    split at h
    · rename_i hr
      rw [isRing_iff] at hr
      cases h
      apply BitVec.eq_of_toNat_eq
      simp [ringOf]; omega
    · cases h
  · rintro rfl; simp

/-! ## Entries that exist (R37) -/

theorem exists_text_iff {a : Nat} : entryExists .text a = true ↔ a < 4113 := decide_eq_true_iff

theorem exists_left_iff {a : Nat} : entryExists .left a = true ↔ a < 4096 := decide_eq_true_iff

theorem exists_parent_iff {a : Nat} : entryExists .parent a = true ↔ a < 4096 := decide_eq_true_iff

theorem exists_codebuf_iff {a : Nat} : entryExists .codebuf a = true ↔ a < 17 := decide_eq_true_iff

theorem exists_right_iff {a : Nat} : entryExists .right a = true ↔ a < 4096 ∨ (4097 ≤ a ∧ a ≤ 4352) := by
  show (decide (a < 4096) || (decide (4097 ≤ a) && decide (a ≤ 4352))) = true ↔ _
  rw [Bool.or_eq_true, Bool.and_eq_true, decide_eq_true_iff, decide_eq_true_iff, decide_eq_true_iff]

@[simp] theorem exists_left_pos (p : Pos) : entryExists .left p.toNat = true := exists_left_iff.mpr p.isLt

@[simp] theorem exists_parent_pos (p : Pos) : entryExists .parent p.toNat = true := exists_parent_iff.mpr p.isLt

@[simp] theorem exists_right_pos (p : Pos) : entryExists .right p.toNat = true := exists_right_iff.mpr (.inl p.isLt)

@[simp] theorem exists_right_root (b : Byte) : entryExists .right (rootLink b).toNat = true := by
  have hb := b.isLt
  rw [exists_right_iff, rootLink_toNat]; omega

/-! ## Link accesses -/

theorem readLeft_eq_ok {s : State} {x v : Link} :
    readLeft s x = .ok v ↔ entryExists .left x.toNat = true ∧ v = s.leftAt x.toNat := by
  unfold readLeft; split <;> simp [*, @eq_comm _ _ v]

theorem readRight_eq_ok {s : State} {x v : Link} :
    readRight s x = .ok v ↔ entryExists .right x.toNat = true ∧ v = s.rightAt x.toNat := by
  unfold readRight; split <;> simp [*, @eq_comm _ _ v]

theorem readParent_eq_ok {s : State} {x v : Link} :
    readParent s x = .ok v ↔ entryExists .parent x.toNat = true ∧ v = s.parentAt x.toNat := by
  unfold readParent; split <;> simp [*, @eq_comm _ _ v]

theorem writeLeft_eq_ok {s t : State} {x v : Link} :
    writeLeft x v s = .ok t ↔ entryExists .left x.toNat = true ∧ t = s.setLeft x.toNat v := by
  unfold writeLeft; split <;> simp [*, @eq_comm _ _ t]

theorem writeRight_eq_ok {s t : State} {x v : Link} :
    writeRight x v s = .ok t ↔ entryExists .right x.toNat = true ∧ t = s.setRight x.toNat v := by
  unfold writeRight; split <;> simp [*, @eq_comm _ _ t]

theorem writeParent_eq_ok {s t : State} {x v : Link} :
    writeParent x v s = .ok t ↔ entryExists .parent x.toNat = true ∧ t = s.setParent x.toNat v := by
  unfold writeParent; split <;> simp [*, @eq_comm _ _ t]

theorem linkParent_eq_ok {s t : State} {x v : Link} :
    linkParent x v s = .ok t ↔
      (x = Config.nil ∧ t = s) ∨
      (x ≠ Config.nil ∧ entryExists .parent x.toNat = true ∧ t = s.setParent x.toNat v) := by
  unfold linkParent; split <;> simp [*, writeParent_eq_ok, @eq_comm _ _ t]

theorem writeCode_eq_ok {s t : State} {a : Nat} {v : Byte} :
    writeCode a v s = .ok t ↔ a < 17 ∧ t = s.setCode a v := by
  rw [← exists_codebuf_iff]
  unfold writeCode; split <;> simp [*, @eq_comm _ _ t]

@[simp] theorem readLeft_link (s : State) (p : Pos) : readLeft s p.link = .ok (s.leftAt p.toNat) := by
  simp [readLeft_eq_ok]

@[simp] theorem readRight_link (s : State) (p : Pos) : readRight s p.link = .ok (s.rightAt p.toNat) := by
  simp [readRight_eq_ok]

@[simp] theorem readRight_root (s : State) (b : Byte) :
    readRight s (rootLink b) = .ok (s.rightAt (rootLink b).toNat) := by
  simp [readRight_eq_ok]

@[simp] theorem readParent_link (s : State) (p : Pos) : readParent s p.link = .ok (s.parentAt p.toNat) := by
  simp [readParent_eq_ok]

@[simp] theorem writeLeft_link (s : State) (p : Pos) (v : Link) :
    writeLeft p.link v s = .ok (s.setLeft p.toNat v) := by
  simp [writeLeft_eq_ok]

@[simp] theorem writeRight_link (s : State) (p : Pos) (v : Link) :
    writeRight p.link v s = .ok (s.setRight p.toNat v) := by
  simp [writeRight_eq_ok]

@[simp] theorem writeRight_root (s : State) (b : Byte) (v : Link) :
    writeRight (rootLink b) v s = .ok (s.setRight (rootLink b).toNat v) := by
  simp [writeRight_eq_ok]

@[simp] theorem writeParent_link (s : State) (p : Pos) (v : Link) :
    writeParent p.link v s = .ok (s.setParent p.toNat v) := by
  simp [writeParent_eq_ok]

@[simp] theorem linkParent_nil (s : State) (v : Link) : linkParent Config.nil v s = .ok s := by
  simp [linkParent]

@[simp] theorem linkParent_link (s : State) (p : Pos) (v : Link) :
    linkParent p.link v s = .ok (s.setParent p.toNat v) := by
  simp [linkParent]

/-! ## The canonical form -/

theorem memWf_iff {s : State} : s.memWf = true ↔
    (Memory.wf unlistedText s.text = true ∧ Memory.within (entryExists .text) s.text = true) ∧
    (Memory.wf unlistedLink s.left = true ∧ Memory.within (entryExists .left) s.left = true) ∧
    (Memory.wf unlistedLink s.right = true ∧ Memory.within (entryExists .right) s.right = true) ∧
    (Memory.wf unlistedLink s.parent = true ∧ Memory.within (entryExists .parent) s.parent = true) ∧
    (Memory.wf unlistedCode s.codebuf = true ∧ Memory.within (entryExists .codebuf) s.codebuf = true) := by
  simp only [State.memWf, Bool.and_eq_true, and_assoc]

theorem memWf_setText {s : State} (h : s.memWf = true) {a : Nat} (ha : entryExists .text a = true) (v : Byte) :
    (s.setText a v).memWf = true := by
  rw [memWf_iff] at h ⊢
  exact ⟨⟨wf_write h.1.1 _ _, within_write h.1.2 ha _⟩, h.2⟩

theorem memWf_setLeft {s : State} (h : s.memWf = true) {a : Nat} (ha : entryExists .left a = true) (v : Link) :
    (s.setLeft a v).memWf = true := by
  rw [memWf_iff] at h ⊢
  exact ⟨h.1, ⟨wf_write h.2.1.1 _ _, within_write h.2.1.2 ha _⟩, h.2.2⟩

theorem memWf_setRight {s : State} (h : s.memWf = true) {a : Nat} (ha : entryExists .right a = true) (v : Link) :
    (s.setRight a v).memWf = true := by
  rw [memWf_iff] at h ⊢
  exact ⟨h.1, h.2.1, ⟨wf_write h.2.2.1.1 _ _, within_write h.2.2.1.2 ha _⟩, h.2.2.2⟩

theorem memWf_setParent {s : State} (h : s.memWf = true) {a : Nat} (ha : entryExists .parent a = true) (v : Link) :
    (s.setParent a v).memWf = true := by
  rw [memWf_iff] at h ⊢
  exact ⟨h.1, h.2.1, h.2.2.1, ⟨wf_write h.2.2.2.1.1 _ _, within_write h.2.2.2.1.2 ha _⟩, h.2.2.2.2⟩

theorem memWf_setCode {s : State} (h : s.memWf = true) {a : Nat} (ha : entryExists .codebuf a = true) (v : Byte) :
    (s.setCode a v).memWf = true := by
  rw [memWf_iff] at h ⊢
  exact ⟨h.1, h.2.1, h.2.2.1, h.2.2.2.1, ⟨wf_write h.2.2.2.2.1 _ _, within_write h.2.2.2.2.2 ha _⟩⟩

/-- R70: filling the window keeps the form: nothing is listed. -/
theorem memWf_fillWindow {s : State} (h : s.memWf = true) : (fillWindow s).memWf = true := by
  rw [memWf_iff] at h ⊢
  exact ⟨⟨rfl, rfl⟩, h.2⟩

/-- R75: clearing the index keeps the form. -/
theorem memWf_clearIndex {s : State} (h : s.memWf = true) : (clearIndex s).memWf = true := by
  rw [memWf_iff] at h ⊢
  refine ⟨h.1, h.2.1, ⟨wfFrom_filter h.2.2.1.1 _, ?_⟩, ⟨rfl, rfl⟩, h.2.2.2.2⟩
  simp only [Memory.within, clearIndex_right, List.all_filter, List.all_eq_true] at h ⊢
  intro c hc
  have := h.2.2.1.2 c hc
  simp [this]

/-! ## The window (R72) -/

theorem ringAddr_lt (pos : Nat) : ringAddr pos < Config.N := Nat.mod_lt _ (by decide)

/-- R72: a ring write keeps the form. -/
theorem memWf_windowSet {s : State} (h : s.memWf = true) (pos : Nat) (b : Byte) :
    (windowSet pos b s).memWf = true := by
  have hr := ringAddr_lt pos
  simp only [Config.N] at hr
  have h1 : entryExists .text (ringAddr pos) = true := by
    rw [exists_text_iff]; omega
  unfold windowSet
  split
  · rename_i hlt
    simp only [Config.F] at hlt
    refine memWf_setText (memWf_setText h h1 _) ?_ _
    rw [exists_text_iff]; simp only [Config.N]; omega
  · exact memWf_setText h h1 _

/-- R72: what a ring write changes in TEXT: the ring byte and, below `F - 1`, its mirror byte. -/
theorem windowSet_textAt {s : State} (h : s.memWf = true) (pos : Nat) (b : Byte) (a : Nat) :
    (windowSet pos b s).textAt a =
      if a = ringAddr pos ∨ (ringAddr pos < Config.F - 1 ∧ a = ringAddr pos + Config.N) then b else s.textAt a := by
  have hw := (memWf_iff.mp h).1.1
  unfold windowSet
  split
  · rename_i hlt
    rw [setText_textAt (by exact wf_write hw _ _), setText_textAt hw]
    by_cases h1 : a = ringAddr pos <;> by_cases h2 : a = ringAddr pos + Config.N <;> simp [h1, h2, hlt]
  · rename_i hlt
    rw [setText_textAt hw]
    simp [hlt]

end Sys2Proof.Laws
end

