-- ==== Sys2Proof/Laws/Trees.lean ====
section
/-! SUPPORT. Trees in the three link arrays: what a change of links does to the trees (R120, R122). -/

namespace Sys2Proof.Laws

open Sys2Proof.Machine Sys2Proof.Safety

/-! ## Shapes -/

@[simp] theorem nodes_leaf : Shape.leaf.nodes = [] := rfl
@[simp] theorem nodes_node (l : Shape) (p : Pos) (r : Shape) : (Shape.node l p r).nodes = l.nodes ++ p :: r.nodes := rfl

/-- The positions of a node are distinct: those of the two subtrees, and the node itself. -/
theorem nodup_node {l : Shape} {p : Pos} {r : Shape} : (Shape.node l p r).nodes.Nodup ↔
    l.nodes.Nodup ∧ r.nodes.Nodup ∧ p ∉ l.nodes ∧ p ∉ r.nodes ∧ (∀ z ∈ l.nodes, z ∉ r.nodes) := by
  simp only [nodes_node, List.nodup_append, List.nodup_cons, List.mem_cons, ne_eq]
  constructor
  · rintro ⟨h1, ⟨h2, h3⟩, h4⟩
    exact ⟨h1, h3, fun h => h4 p h p (.inl rfl) rfl, h2, fun z hz hz' => h4 z hz z (.inr hz') rfl⟩
  · rintro ⟨h1, h2, h3, h4, h5⟩
    refine ⟨h1, ⟨h4, h2⟩, ?_⟩
    rintro z hz w (rfl | hw) rfl
    · exact h3 hz
    · exact h5 z hz hw

/-- There are at most N distinct ring positions. -/
theorem nodup_length_le {l : List Pos} (h : l.Nodup) : l.length ≤ 4096 := by
  have h2 : (l.map BitVec.toNat).Nodup := h.map fun a b hab => BitVec.eq_of_toNat_eq hab
  have h3 : (l.map BitVec.toNat) ⊆ List.range 4096 := by
    intro a ha
    obtain ⟨p, _, rfl⟩ := List.mem_map.mp ha
    exact List.mem_range.mpr p.isLt
  simpa using (List.subperm_of_subset h2 h3).length_le

theorem mem_right {l : Shape} {x p : Pos} {r : Shape} (h : p ∈ (Shape.node l x r).nodes) (hx : x ≠ p)
    (hl : p ∉ l.nodes) : p ∈ r.nodes := by
  simp only [nodes_node, List.mem_append, List.mem_cons] at h
  rcases h with h | h | h
  · exact absurd h hl
  · exact absurd h.symm hx
  · exact h

/-! ## Links of a tree -/

@[simp] theorem linked_leaf {s : State} {y x : Link} : Shape.Linked s y x .leaf ↔ x = Config.nil := Iff.rfl

theorem linked_node {s : State} {y x : Link} {l : Shape} {p : Pos} {r : Shape} :
    Shape.Linked s y x (.node l p r) ↔ x = p.link ∧ s.parentAt p.toNat = y ∧
      Shape.Linked s p.link (s.leftAt p.toNat) l ∧ Shape.Linked s p.link (s.rightAt p.toNat) r := Iff.rfl

/-- The root link of a tree is NIL or names one of its positions. -/
theorem linked_root {s : State} {y x : Link} {t : Shape} (h : t.Linked s y x) :
    (t = .leaf ∧ x = Config.nil) ∨ ∃ p ∈ t.nodes, x = p.link := by
  cases t with
  | leaf => exact .inl ⟨rfl, h⟩
  | node l p r => exact .inr ⟨p, by simp, h.1⟩

theorem mem_of_linked_root {s : State} {y : Link} {p : Pos} {t : Shape} (h : t.Linked s y p.link) : p ∈ t.nodes := by
  rcases linked_root h with ⟨_, h⟩ | ⟨q, hq, h⟩
  · exact absurd h (link_ne_nil p)
  · rwa [link_injective h]

/-- Links that agree on the positions of a tree link the same tree. -/
theorem linked_congr {s s' : State} {t : Shape} {y x : Link} (h : t.Linked s y x)
    (hl : ∀ z ∈ t.nodes, s'.leftAt z.toNat = s.leftAt z.toNat)
    (hr : ∀ z ∈ t.nodes, s'.rightAt z.toNat = s.rightAt z.toNat)
    (hp : ∀ z ∈ t.nodes, s'.parentAt z.toNat = s.parentAt z.toNat) : t.Linked s' y x := by
  induction t generalizing y x with
  | leaf => exact h
  | node l p r ihl ihr =>
    simp only [nodes_node, List.mem_append, List.mem_cons] at hl hr hp
    obtain ⟨hx, hy, h1, h2⟩ := h
    refine ⟨hx, (hp p (by simp)).trans hy, ?_, ?_⟩
    · rw [hl p (by simp)]
      exact ihl h1 (fun z hz => hl z (by simp [hz])) (fun z hz => hr z (by simp [hz])) (fun z hz => hp z (by simp [hz]))
    · rw [hr p (by simp)]
      exact ihr h2 (fun z hz => hl z (by simp [hz])) (fun z hz => hr z (by simp [hz])) (fun z hz => hp z (by simp [hz]))

/-- Changing the parent entry of its root hangs the tree under the new parent. -/
theorem linked_reparent {s s' : State} {t : Shape} {y x y' : Link} (h : t.Linked s y x) (hd : t.nodes.Nodup)
    (hl : ∀ z ∈ t.nodes, s'.leftAt z.toNat = s.leftAt z.toNat)
    (hr : ∀ z ∈ t.nodes, s'.rightAt z.toNat = s.rightAt z.toNat)
    (hp : ∀ z ∈ t.nodes, s'.parentAt z.toNat = if z.link = x then y' else s.parentAt z.toNat) :
    t.Linked s' y' x := by
  cases t with
  | leaf => exact h
  | node l p r =>
    rw [nodup_node] at hd
    obtain ⟨-, -, hpl, hpr, -⟩ := hd
    simp only [nodes_node, List.mem_append, List.mem_cons] at hl hr hp
    obtain ⟨rfl, hy, h1, h2⟩ := h
    refine ⟨rfl, by simpa using hp p (by simp), ?_, ?_⟩
    · rw [hl p (by simp)]
      refine linked_congr h1 (fun z hz => hl z (by simp [hz])) (fun z hz => hr z (by simp [hz])) fun z hz => ?_
      rw [hp z (by simp [hz]), if_neg]
      intro he
      exact hpl (link_injective he ▸ hz)
    · rw [hr p (by simp)]
      refine linked_congr h2 (fun z hz => hl z (by simp [hz])) (fun z hz => hr z (by simp [hz])) fun z hz => ?_
      rw [hp z (by simp [hz]), if_neg]
      intro he
      exact hpr (link_injective he ▸ hz)

/-- The parent of a position of a tree: the holder of the tree for its root, else another position of it. -/
theorem parent_of_mem {s : State} {t : Shape} {y x : Link} (h : t.Linked s y x) {p : Pos} (hp : p ∈ t.nodes) :
    (x = p.link ∧ s.parentAt p.toNat = y) ∨ ∃ w ∈ t.nodes, s.parentAt p.toNat = w.link := by
  induction t generalizing y x with
  | leaf => simp at hp
  | node l z r ihl ihr =>
    obtain ⟨rfl, hy, h1, h2⟩ := h
    simp only [nodes_node, List.mem_append, List.mem_cons] at hp ⊢
    rcases hp with hp | rfl | hp
    · rcases ihl h1 hp with ⟨_, h⟩ | ⟨w, hw, h⟩
      · exact .inr ⟨z, by simp, h⟩
      · exact .inr ⟨w, by simp [hw], h⟩
    · exact .inl ⟨rfl, hy⟩
    · rcases ihr h2 hp with ⟨_, h⟩ | ⟨w, hw, h⟩
      · exact .inr ⟨z, by simp, h⟩
      · exact .inr ⟨w, by simp [hw], h⟩

/-! ## The subtree at a position -/

/-- The two subtrees of `p` in a tree. -/
def childrenOf (p : Pos) : Shape → Shape × Shape
  | .leaf => (.leaf, .leaf)
  | .node l x r => if x = p then (l, r) else if p ∈ l.nodes then childrenOf p l else childrenOf p r

/-- The positions at and below `p`. -/
def below (p : Pos) (t : Shape) : List Pos := (childrenOf p t).1.nodes ++ p :: (childrenOf p t).2.nodes

/-- The tree with `u` in the place of the subtree at `p`. -/
def graft (p : Pos) (u : Shape) : Shape → Shape
  | .leaf => .leaf
  | .node l x r => if x = p then u else .node (graft p u l) x (graft p u r)

theorem graft_of_not_mem {p : Pos} {u t : Shape} (h : p ∉ t.nodes) : graft p u t = t := by
  induction t with
  | leaf => rfl
  | node l x r ihl ihr =>
    simp only [nodes_node, List.mem_append, List.mem_cons, not_or] at h
    rw [graft, if_neg (Ne.symm h.2.1), ihl h.1, ihr h.2.2]

theorem below_subset {p : Pos} {t : Shape} (h : p ∈ t.nodes) : ∀ z ∈ below p t, z ∈ t.nodes := by
  induction t with
  | leaf => simp at h
  | node l x r ihl ihr =>
    intro z hz
    simp only [nodes_node, List.mem_append, List.mem_cons] at h ⊢
    simp only [below, childrenOf] at hz
    split at hz
    · subst_vars; simpa using hz
    · split at hz
      · exact .inl (ihl ‹_› z hz)
      · have : p ∈ r.nodes := by rcases h with h | h | h <;> simp_all
        exact .inr (.inr (ihr this z hz))

theorem linked_children {s : State} {t : Shape} {y x : Link} (h : t.Linked s y x) {p : Pos} (hp : p ∈ t.nodes) :
    (childrenOf p t).1.Linked s p.link (s.leftAt p.toNat) ∧
    (childrenOf p t).2.Linked s p.link (s.rightAt p.toNat) := by
  induction t generalizing y x with
  | leaf => simp at hp
  | node l z r ihl ihr =>
    obtain ⟨rfl, hy, h1, h2⟩ := h
    simp only [nodes_node, List.mem_append, List.mem_cons] at hp
    simp only [childrenOf]
    split
    · subst_vars; exact ⟨h1, h2⟩
    · split
      · exact ihl h1 ‹_›
      · exact ihr h2 (by rcases hp with hp | hp | hp <;> simp_all)

theorem nodup_below {t : Shape} (hd : t.nodes.Nodup) {p : Pos} (hp : p ∈ t.nodes) : (below p t).Nodup := by
  induction t with
  | leaf => simp at hp
  | node l x r ihl ihr =>
    have hd' := hd
    rw [nodup_node] at hd
    simp only [nodes_node, List.mem_append, List.mem_cons] at hp
    simp only [below, childrenOf]
    split
    · subst_vars; simpa using hd'
    · split
      · exact ihl hd.1 ‹_›
      · exact ihr hd.2.1 (by rcases hp with hp | hp | hp <;> simp_all)

/-- R84: a change of the child slot that holds `p`, with `u` linked there instead of the subtree at `p`, links the tree
with `u` grafted in place of that subtree. `q` is the link of `u`; `s'` is the state after the change. -/
theorem linked_graft {s s' : State} {p : Pos} {q : Link} {u : Shape} {t : Shape} {y x : Link}
    (h : t.Linked s y x) (hd : t.nodes.Nodup) (hp : p ∈ t.nodes)
    (hpar : ∀ z ∈ t.nodes, z ∉ below p t → s'.parentAt z.toNat = s.parentAt z.toNat)
    (hoff : ∀ z ∈ t.nodes, z ∉ below p t → z.link ≠ s.parentAt p.toNat →
      s'.leftAt z.toNat = s.leftAt z.toNat ∧ s'.rightAt z.toNat = s.rightAt z.toNat)
    (hon : ∀ z ∈ t.nodes, z ∉ below p t → z.link = s.parentAt p.toNat →
      s'.rightAt z.toNat = (if s.rightAt z.toNat = p.link then q else s.rightAt z.toNat) ∧
      s'.leftAt z.toNat = (if s.rightAt z.toNat = p.link then s.leftAt z.toNat else q))
    (hu : u.Linked s' (s.parentAt p.toNat) q) :
    (graft p u t).Linked s' y (if x = p.link then q else x) := by
  induction t generalizing y x with
  | leaf => simp at hp
  | node l z r ihl ihr =>
    have hmem := hp
    have hd' := hd
    rw [nodup_node] at hd
    obtain ⟨hdl, hdr, hzl, hzr, hlr⟩ := hd
    obtain ⟨rfl, hy, h1, h2⟩ := h
    simp only [nodes_node, List.mem_append, List.mem_cons] at hp hpar hoff hon
    by_cases hzp : z = p
    · subst hzp
      rw [graft, if_pos rfl, if_pos rfl, ← hy]
      exact hu
    rw [graft, if_neg hzp, if_neg (fun h => hzp (link_injective h))]
    have hzb : z ∉ below p (.node l z r) := by
      simp only [below, childrenOf, if_neg hzp]
      split
      · intro hz
        exact hzl (below_subset ‹_› z hz)
      · intro hz
        exact hzr (below_subset (mem_right hmem hzp ‹_›) z hz)
    by_cases hpl : p ∈ l.nodes
    · have hb : below p (.node l z r) = below p l := by simp [below, childrenOf, if_neg hzp, if_pos hpl]
      rw [hb] at hpar hoff hon hzb
      have hpr : p ∉ r.nodes := hlr p hpl
      have hYr : ∀ w ∈ r.nodes, w.link ≠ s.parentAt p.toNat := by
        intro w hw he
        rcases parent_of_mem h1 hpl with ⟨_, hh⟩ | ⟨v, hv, hh⟩
        · rw [hh] at he; exact hzr (link_injective he ▸ hw)
        · rw [hh] at he; exact hlr v hv (link_injective he ▸ hw)
      have hbr : ∀ w ∈ r.nodes, w ∉ below p l := fun w hw hw' => hlr w (below_subset hpl w hw') hw
      have hzr' : s.rightAt z.toNat ≠ p.link := fun he => hpr (mem_of_linked_root (he ▸ h2))
      have hright : s'.rightAt z.toNat = s.rightAt z.toNat := by
        by_cases hY : z.link = s.parentAt p.toNat
        · rw [(hon z (by simp) hzb hY).1, if_neg hzr']
        · exact (hoff z (by simp) hzb hY).2
      refine ⟨rfl, (hpar z (by simp) hzb).trans hy, ?_, ?_⟩
      · have hl' : s'.leftAt z.toNat = if s.leftAt z.toNat = p.link then q else s.leftAt z.toNat := by
          by_cases hY : z.link = s.parentAt p.toNat
          · rw [(hon z (by simp) hzb hY).2, if_neg hzr', if_pos]
            rcases parent_of_mem h1 hpl with ⟨hh, _⟩ | ⟨v, hv, hh⟩
            · exact hh
            · rw [hh] at hY; exact absurd (link_injective hY ▸ hv) hzl
          · rw [(hoff z (by simp) hzb hY).1, if_neg]
            intro hh
            have := linked_root h1
            rcases parent_of_mem h1 hpl with ⟨_, hh'⟩ | ⟨v, hv, hh'⟩
            · exact hY hh'.symm
            · cases l with
              | leaf => simp at hpl
              | node ll a lr =>
                obtain ⟨ha, hpa, -⟩ := h1
                rw [hh] at ha
                rw [← link_injective ha] at hpa
                exact hY hpa.symm
        rw [hl']
        exact ihl h1 hdl hpl (fun w hw => hpar w (by simp [hw])) (fun w hw => hoff w (by simp [hw]))
          (fun w hw => hon w (by simp [hw]))
      · rw [hright, graft_of_not_mem hpr]
        exact linked_congr h2 (fun w hw => (hoff w (by simp [hw]) (hbr w hw) (hYr w hw)).1)
          (fun w hw => (hoff w (by simp [hw]) (hbr w hw) (hYr w hw)).2) (fun w hw => hpar w (by simp [hw]) (hbr w hw))
    · have hpr : p ∈ r.nodes := mem_right hmem hzp hpl
      have hb : below p (.node l z r) = below p r := by simp [below, childrenOf, if_neg hzp, if_neg hpl]
      rw [hb] at hpar hoff hon hzb
      have hYl : ∀ w ∈ l.nodes, w.link ≠ s.parentAt p.toNat := by
        intro w hw he
        rcases parent_of_mem h2 hpr with ⟨_, hh⟩ | ⟨v, hv, hh⟩
        · rw [hh] at he; exact hzl (link_injective he ▸ hw)
        · rw [hh] at he; exact hlr w hw (link_injective he ▸ hv)
      have hbl : ∀ w ∈ l.nodes, w ∉ below p r := fun w hw hw' => hlr w hw (below_subset hpr w hw')
      have hYz : z.link = s.parentAt p.toNat ↔ s.rightAt z.toNat = p.link := by
        constructor
        · intro hY
          rcases parent_of_mem h2 hpr with ⟨hh, _⟩ | ⟨v, hv, hh⟩
          · exact hh
          · rw [hh] at hY; exact absurd (link_injective hY ▸ hv) hzr
        · intro hh
          cases r with
          | leaf => simp at hpr
          | node rl a rr =>
            obtain ⟨ha, hpa, -⟩ := h2
            rw [hh] at ha
            rw [← link_injective ha] at hpa
            exact hpa.symm
      have hleft : s'.leftAt z.toNat = s.leftAt z.toNat := by
        by_cases hY : z.link = s.parentAt p.toNat
        · rw [(hon z (by simp) hzb hY).2, if_pos (hYz.mp hY)]
        · exact (hoff z (by simp) hzb hY).1
      have hright : s'.rightAt z.toNat = if s.rightAt z.toNat = p.link then q else s.rightAt z.toNat := by
        by_cases hY : z.link = s.parentAt p.toNat
        · exact (hon z (by simp) hzb hY).1
        · rw [(hoff z (by simp) hzb hY).2, if_neg (fun hh => hY (hYz.mpr hh))]
      refine ⟨rfl, (hpar z (by simp) hzb).trans hy, ?_, ?_⟩
      · rw [hleft, graft_of_not_mem hpl]
        exact linked_congr h1 (fun w hw => (hoff w (by simp [hw]) (hbl w hw) (hYl w hw)).1)
          (fun w hw => (hoff w (by simp [hw]) (hbl w hw) (hYl w hw)).2) (fun w hw => hpar w (by simp [hw]) (hbl w hw))
      · rw [hright]
        exact ihr h2 hdr hpr (fun w hw => hpar w (by simp [hw])) (fun w hw => hoff w (by simp [hw]))
          (fun w hw => hon w (by simp [hw]))

/-! ## Removing and substituting as grafts -/

theorem remove_of_not_mem {p : Pos} {t : Shape} (h : p ∉ t.nodes) : t.remove p = t := by
  induction t with
  | leaf => rfl
  | node l x r ihl ihr =>
    simp only [nodes_node, List.mem_append, List.mem_cons, not_or] at h
    rw [Shape.remove, if_neg (Ne.symm h.2.1), ihl h.1, ihr h.2.2]

theorem remove_eq_graft {p : Pos} {t : Shape} (hd : t.nodes.Nodup) (hp : p ∈ t.nodes) :
    t.remove p = graft p ((childrenOf p t).1.join (childrenOf p t).2) t := by
  induction t with
  | leaf => rfl
  | node l x r ihl ihr =>
    rw [nodup_node] at hd
    simp only [nodes_node, List.mem_append, List.mem_cons] at hp
    rw [Shape.remove, graft]
    by_cases hx : x = p
    · rw [if_pos hx, if_pos hx]
      simp [childrenOf, hx]
    · rw [if_neg hx, if_neg hx]
      by_cases hl : p ∈ l.nodes
      · have hr := hd.2.2.2.2 p hl
        simp only [childrenOf, if_neg hx, if_pos hl]
        rw [ihl hd.1 hl, remove_of_not_mem hr, graft_of_not_mem hr]
      · have hr : p ∈ r.nodes := by rcases hp with hp | hp | hp <;> simp_all
        simp only [childrenOf, if_neg hx, if_neg hl]
        rw [ihr hd.2.1 hr, remove_of_not_mem hl, graft_of_not_mem hl]

theorem substitute_of_not_mem {p r : Pos} {t : Shape} (h : p ∉ t.nodes) : t.substitute p r = t := by
  induction t with
  | leaf => rfl
  | node l x u ihl ihr =>
    simp only [nodes_node, List.mem_append, List.mem_cons, not_or] at h
    rw [Shape.substitute, if_neg (Ne.symm h.2.1), ihl h.1, ihr h.2.2]

theorem substitute_eq_graft {p r : Pos} {t : Shape} (hd : t.nodes.Nodup) (hp : p ∈ t.nodes) :
    t.substitute p r = graft p (.node (childrenOf p t).1 r (childrenOf p t).2) t := by
  induction t with
  | leaf => rfl
  | node l x u ihl ihr =>
    rw [nodup_node] at hd
    simp only [nodes_node, List.mem_append, List.mem_cons] at hp
    rw [Shape.substitute, graft]
    by_cases hx : x = p
    · subst hx
      rw [if_pos rfl, if_pos rfl, substitute_of_not_mem hd.2.2.1, substitute_of_not_mem hd.2.2.2.1]
      simp [childrenOf]
    · rw [if_neg hx, if_neg hx]
      by_cases hl : p ∈ l.nodes
      · have hr := hd.2.2.2.2 p hl
        simp only [childrenOf, if_neg hx, if_pos hl]
        rw [ihl hd.1 hl, substitute_of_not_mem hr, graft_of_not_mem hr]
      · have hr : p ∈ u.nodes := by rcases hp with hp | hp | hp <;> simp_all
        simp only [childrenOf, if_neg hx, if_neg hl]
        rw [ihr hd.2.1 hr, substitute_of_not_mem hl, graft_of_not_mem hl]

/-! ## The positions after an operation -/

theorem popLast_nodes (l : Shape) (p : Pos) (r : Shape) :
    (Shape.popLast l p r).1.nodes ++ [(Shape.popLast l p r).2] = l.nodes ++ p :: r.nodes := by
  induction r generalizing l p with
  | leaf => simp [Shape.popLast]
  | node l' p' r' _ ih =>
    rw [Shape.popLast]
    simp only [nodes_node, List.append_assoc, List.cons_append, ih]

theorem join_nodes (l r : Shape) : (l.join r).nodes = l.nodes ++ r.nodes := by
  cases r with
  | leaf => cases l <;> simp [Shape.join]
  | node rl rp rr =>
    cases l with
    | leaf => simp [Shape.join]
    | node ll lp lr =>
      simp only [Shape.join, nodes_node]
      rw [← popLast_nodes ll lp lr]
      simp

/-- R83: removing `p` takes exactly `p` out of the order of the tree. -/
theorem remove_nodes {p : Pos} {t : Shape} (hd : t.nodes.Nodup) : (t.remove p).nodes = t.nodes.erase p := by
  induction t with
  | leaf => rfl
  | node l x r ihl ihr =>
    rw [nodup_node] at hd
    rw [Shape.remove]
    by_cases hx : x = p
    · subst hx
      rw [if_pos rfl, join_nodes, nodes_node, List.erase_append_right _ hd.2.2.1, List.erase_cons_head]
    · rw [if_neg hx, nodes_node, nodes_node, ihl hd.1, ihr hd.2.1]
      by_cases hl : p ∈ l.nodes
      · rw [List.erase_append_left _ hl, List.erase_of_not_mem (hd.2.2.2.2 p hl)]
      · rw [List.erase_of_not_mem hl, List.erase_append_right _ hl, List.erase_cons_tail (by simpa using hx)]

/-- R82: substituting `r` for `p` puts `r` where `p` was in the order of the tree. -/
theorem substitute_nodes (p r : Pos) (t : Shape) :
    (t.substitute p r).nodes = t.nodes.map fun x => if x = p then r else x := by
  induction t with
  | leaf => rfl
  | node l x u ihl ihr => simp [Shape.substitute, ihl, ihr]

end Sys2Proof.Laws
end

