-- ==== Sys2Proof/Laws/Forest.lean ====
section
/-! SUPPORT. What grafting one subtree does to the 256 trees (R120, R122). -/

namespace Sys2Proof.Laws

open Sys2Proof.Machine Sys2Proof.Safety

theorem self_mem_below (p : Pos) (t : Shape) : p ∈ below p t := by simp [below]

theorem below_node_self (l : Shape) (p : Pos) (r : Shape) : below p (.node l p r) = (Shape.node l p r).nodes := by
  simp [below, childrenOf]

theorem below_node_left {l : Shape} {x p : Pos} {r : Shape} (hx : x ≠ p) (h : p ∈ l.nodes) :
    below p (.node l x r) = below p l := by
  simp [below, childrenOf, hx, h]

theorem below_node_right {l : Shape} {x p : Pos} {r : Shape} (hx : x ≠ p) (h : p ∉ l.nodes) :
    below p (.node l x r) = below p r := by
  simp [below, childrenOf, hx, h]

/-- The positions of a tree after a graft: those not below `p`, and those of the grafted tree. -/
theorem mem_graft {p : Pos} {u t : Shape} (hd : t.nodes.Nodup) (hp : p ∈ t.nodes) (z : Pos) :
    z ∈ (graft p u t).nodes ↔ (z ∈ t.nodes ∧ z ∉ below p t) ∨ z ∈ u.nodes := by
  induction t with
  | leaf => simp at hp
  | node l x r ihl ihr =>
    rw [nodup_node] at hd
    obtain ⟨hdl, hdr, hxl, hxr, hlr⟩ := hd
    by_cases hx : x = p
    · subst hx
      rw [graft, if_pos rfl, below_node_self]
      exact ⟨.inr, fun h => h.elim (fun h => absurd h.1 h.2) id⟩
    · rw [graft, if_neg hx]
      by_cases hl : p ∈ l.nodes
      · have hr : p ∉ r.nodes := hlr p hl
        have h1 : z = x → z ∉ below p l := by rintro rfl hz; exact hxl (below_subset hl z hz)
        have h2 : z ∈ r.nodes → z ∉ below p l := fun hz hz' => hlr z (below_subset hl z hz') hz
        have ih := ihl hdl hl
        rw [below_node_left hx hl, graft_of_not_mem hr]
        simp only [nodes_node, List.mem_append, List.mem_cons, ih]
        clear ih ihl ihr hdl hdr hxl hxr hlr hp hx hl hr
        tauto
      · have hr : p ∈ r.nodes := mem_right hp hx hl
        have h1 : z = x → z ∉ below p r := by rintro rfl hz; exact hxr (below_subset hr z hz)
        have h2 : z ∈ l.nodes → z ∉ below p r := fun hz hz' => hlr z hz (below_subset hr z hz')
        have ih := ihr hdr hr
        rw [below_node_right hx hl, graft_of_not_mem hl]
        simp only [nodes_node, List.mem_append, List.mem_cons, ih]
        clear ih ihl ihr hdl hdr hxl hxr hlr hp hx hl hr
        tauto

theorem nodup_graft {p : Pos} {u t : Shape} (hd : t.nodes.Nodup) (hp : p ∈ t.nodes) (hu : u.nodes.Nodup)
    (h : ∀ z ∈ u.nodes, z ∈ t.nodes → z ∈ below p t) : (graft p u t).nodes.Nodup := by
  induction t with
  | leaf => simp at hp
  | node l x r ihl ihr =>
    have hmem := hp
    rw [nodup_node] at hd
    obtain ⟨hdl, hdr, hxl, hxr, hlr⟩ := hd
    simp only [nodes_node, List.mem_append, List.mem_cons] at hp h
    by_cases hx : x = p
    · rw [graft, if_pos hx]; exact hu
    · rw [graft, if_neg hx, nodup_node]
      by_cases hl : p ∈ l.nodes
      · have hr : p ∉ r.nodes := hlr p hl
        rw [below_node_left hx hl] at h
        rw [graft_of_not_mem hr]
        refine ⟨ihl hdl hl fun z hz hz' => h z hz (.inl hz'), hdr, ?_, hxr, ?_⟩
        · rw [mem_graft hdl hl]
          rintro (hz | hz)
          · exact hxl hz.1
          · exact hxl (below_subset hl x (h x hz (by simp)))
        · intro z hz hz'
          rw [mem_graft hdl hl] at hz
          rcases hz with hz | hz
          · exact hlr z hz.1 hz'
          · exact hlr z (below_subset hl z (h z hz (by simp [hz']))) hz'
      · have hr : p ∈ r.nodes := mem_right hmem hx hl
        rw [below_node_right hx hl] at h
        rw [graft_of_not_mem hl]
        refine ⟨hdl, ihr hdr hr fun z hz hz' => h z hz (.inr (.inr hz')), hxl, ?_, ?_⟩
        · rw [mem_graft hdr hr]
          rintro (hz | hz)
          · exact hxr hz.1
          · exact hxr (below_subset hr x (h x hz (by simp)))
        · intro z hz hz'
          rw [mem_graft hdr hr] at hz'
          rcases hz' with hz' | hz'
          · exact hlr z hz hz'.1
          · exact hlr z hz (below_subset hr z (h z hz' (by simp [hz])))

/-- A position of a tree held by a root sentinel has a parent. -/
theorem parent_ne_nil {s : State} {t : Shape} {b : Byte} {x : Link} (h : t.Linked s (rootLink b) x) {p : Pos}
    (hp : p ∈ t.nodes) : s.parentAt p.toNat ≠ Config.nil := by
  rcases parent_of_mem h hp with ⟨_, h⟩ | ⟨w, _, h⟩ <;> rw [h] <;> simp

/-- The parent of `p` is neither `p` nor below it. -/
theorem parent_not_below {s : State} {t : Shape} {y x : Link} (h : t.Linked s y x) (hd : t.nodes.Nodup)
    (hy : ∀ z ∈ t.nodes, z.link ≠ y) {p : Pos} (hp : p ∈ t.nodes) : ∀ z ∈ below p t, z.link ≠ s.parentAt p.toNat := by
  induction t generalizing y x with
  | leaf => simp at hp
  | node l a r ihl ihr =>
    obtain ⟨-, ha, h1, h2⟩ := h
    rw [nodup_node] at hd
    obtain ⟨hdl, hdr, hal, har, -⟩ := hd
    by_cases hap : a = p
    · subst hap
      rw [below_node_self, ha]
      exact hy
    · by_cases hl : p ∈ l.nodes
      · rw [below_node_left hap hl]
        exact ihl h1 hdl (fun z hz he => hal (link_injective he ▸ hz)) hl
      · rw [below_node_right hap hl]
        exact ihr h2 hdr (fun z hz he => har (link_injective he ▸ hz)) (mem_right hp hap hl)

/-- The parent of a position of a tree of the forest: its own sentinel, or another position of the same tree. -/
theorem forest_parent_cases {s : State} {f : Byte → Shape} (hf : Forest s f) {b : Byte} {p : Pos}
    (hp : p ∈ (f b).nodes) :
    (s.parentAt p.toNat = rootLink b ∧ s.rightAt (rootLink b).toNat = p.link) ∨
    ∃ w ∈ (f b).nodes, s.parentAt p.toNat = w.link := by
  rcases parent_of_mem (hf.linked b) hp with ⟨h1, h2⟩ | h
  · exact .inl ⟨h2, h1⟩
  · exact .inr h

/-- The root of a tree of the forest is held by its sentinel. -/
theorem forest_root_parent {s : State} {f : Byte → Shape} (hf : Forest s f) {b : Byte} {p : Pos}
    (hp : s.rightAt (rootLink b).toNat = p.link) : p ∈ (f b).nodes ∧ s.parentAt p.toNat = rootLink b := by
  have h := hf.linked b
  rw [hp] at h
  refine ⟨mem_of_linked_root h, ?_⟩
  cases hfb : f b with
  | leaf => rw [hfb] at h; exact absurd h (link_ne_nil p)
  | node l q r =>
    rw [hfb] at h
    obtain ⟨h1, h2, -⟩ := h
    rwa [← link_injective h1] at h2

/-- R82, R83, R84: `s'` is the state after the subtree at `p` gave its place to a tree `u`, whose root link is `q`. -/
structure Grafted (s s' : State) (f : Byte → Shape) (b : Byte) (p : Pos) (q : Link) (u : Shape) : Prop where
  mem : p ∈ (f b).nodes
  linked : u.Linked s' (s.parentAt p.toNat) q
  nodup : u.nodes.Nodup
  from_below : ∀ z ∈ u.nodes, z ∈ below p (f b) ∨ s.parentAt z.toNat = Config.nil
  to_graft : ∀ z ∈ below p (f b), z = p ∨ z ∈ u.nodes
  gone : p ∉ u.nodes
  gone_nil : s'.parentAt p.toNat = Config.nil
  parent_else : ∀ z : Pos, z ∉ below p (f b) → z ∉ u.nodes → s'.parentAt z.toNat = s.parentAt z.toNat
  links_else : ∀ z : Pos, z ∉ below p (f b) → z ∉ u.nodes → z.link ≠ s.parentAt p.toNat →
    s'.leftAt z.toNat = s.leftAt z.toNat ∧ s'.rightAt z.toNat = s.rightAt z.toNat
  links_parent : ∀ z : Pos, z ∉ below p (f b) → z ∉ u.nodes → z.link = s.parentAt p.toNat →
    s'.rightAt z.toNat = (if s.rightAt z.toNat = p.link then q else s.rightAt z.toNat) ∧
    s'.leftAt z.toNat = (if s.rightAt z.toNat = p.link then s.leftAt z.toNat else q)
  roots : ∀ c, s'.rightAt (rootLink c).toNat =
    if rootLink c = s.parentAt p.toNat then q else s.rightAt (rootLink c).toNat

theorem forest_graft {s s' : State} {f : Byte → Shape} {b : Byte} {p : Pos} {q : Link} {u : Shape}
    (hf : Forest s f) (h : Grafted s s' f b p q u) : Forest s' (fun c => graft p u (f c)) := by
  have hmem := h.mem
  have hd := hf.nodup b
  have hnode : ∀ {c z}, z ∈ (f c).nodes → s.parentAt z.toNat ≠ Config.nil := fun hz => parent_ne_nil (hf.linked _) hz
  have hother : ∀ c, c ≠ b → p ∉ (f c).nodes := fun c hc hp => hc (hf.disjoint c b p hp hmem)
  have hsub := below_subset hmem
  -- a position of another tree is outside the graft
  have hout : ∀ c, c ≠ b → ∀ z ∈ (f c).nodes, z ∉ below p (f b) ∧ z ∉ u.nodes := by
    intro c hc z hz
    have h1 : z ∉ below p (f b) := fun hb => hc (hf.disjoint c b z hz (hsub z hb))
    exact ⟨h1, fun hu => (h.from_below z hu).elim h1 (hnode hz)⟩
  -- a position of this tree above or beside `p` is outside the graft
  have hin : ∀ z ∈ (f b).nodes, z ∉ below p (f b) → z ∉ u.nodes :=
    fun z hz hb hu => (h.from_below z hu).elim hb (hnode hz)
  have hmemb : ∀ z, z ∈ (graft p u (f b)).nodes ↔ (z ∈ (f b).nodes ∧ z ∉ below p (f b)) ∨ z ∈ u.nodes :=
    mem_graft hd hmem
  have hlink : ∀ c, (graft p u (f c)).Linked s' (rootLink c) (s'.rightAt (rootLink c).toNat) := by
    intro c
    have hpar := forest_parent_cases hf hmem
    by_cases hc : c = b
    · subst hc
      have key := linked_graft (s' := s') (q := q) (u := u) (hf.linked c) hd hmem
        (fun z hz hb => h.parent_else z hb (hin z hz hb))
        (fun z hz hb => h.links_else z hb (hin z hz hb))
        (fun z hz hb => h.links_parent z hb (hin z hz hb)) h.linked
      have hroot : s'.rightAt (rootLink c).toNat =
          if s.rightAt (rootLink c).toNat = p.link then q else s.rightAt (rootLink c).toNat := by
        rw [h.roots]
        by_cases hr : s.rightAt (rootLink c).toNat = p.link
        · rw [if_pos hr, if_pos (forest_root_parent hf hr).2.symm]
        · rw [if_neg hr, if_neg]
          intro he
          rcases hpar with ⟨_, h2⟩ | ⟨w, _, h2⟩
          · exact hr h2
          · rw [h2] at he; exact rootLink_ne_link _ _ he
      rw [hroot]; exact key
    · rw [graft_of_not_mem (hother c hc), h.roots, if_neg]
      · have hne : ∀ z ∈ (f c).nodes, z.link ≠ s.parentAt p.toNat := by
          intro z hz he
          rcases hpar with ⟨h1, _⟩ | ⟨w, hw, h1⟩
          · rw [h1] at he; exact rootLink_ne_link _ _ he.symm
          · rw [h1] at he
            exact hc (hf.disjoint c b z hz (link_injective he ▸ hw))
        exact linked_congr (hf.linked c)
          (fun z hz => (h.links_else z (hout c hc z hz).1 (hout c hc z hz).2 (hne z hz)).1)
          (fun z hz => (h.links_else z (hout c hc z hz).1 (hout c hc z hz).2 (hne z hz)).2)
          (fun z hz => h.parent_else z (hout c hc z hz).1 (hout c hc z hz).2)
      · intro he
        rcases hpar with ⟨h1, _⟩ | ⟨w, _, h1⟩
        · rw [h1] at he; exact hc (rootLink_injective he)
        · rw [h1] at he; exact rootLink_ne_link _ _ he
  refine ⟨hlink, fun c => ?_, ?_, fun z => ⟨fun hz => ?_, ?_⟩⟩
  · by_cases hc : c = b
    · subst hc
      exact nodup_graft hd hmem h.nodup fun z hz hz' => (h.from_below z hz).elim id fun hn => absurd hn (hnode hz')
    · rw [graft_of_not_mem (hother c hc)]; exact hf.nodup c
  · have aux : ∀ c z, c ≠ b → z ∈ (f c).nodes → z ∉ (graft p u (f b)).nodes := by
      intro c z hc hz hz'
      rcases (hmemb z).mp hz' with hz' | hz'
      · exact hc (hf.disjoint c b z hz hz'.1)
      · exact (hout c hc z hz).2 hz'
    intro c d z hc hdz
    by_cases h1 : c = b <;> by_cases h2 : d = b
    · rw [h1, h2]
    · simp only [graft_of_not_mem (hother d h2)] at hdz
      exact absurd (h1 ▸ hc) (aux d z h2 hdz)
    · simp only [graft_of_not_mem (hother c h1)] at hc
      exact absurd (h2 ▸ hdz) (aux c z h1 hc)
    · simp only [graft_of_not_mem (hother c h1)] at hc
      simp only [graft_of_not_mem (hother d h2)] at hdz
      exact hf.disjoint c d z hc hdz
  · by_cases hu : z ∈ u.nodes
    · exact ⟨b, (hmemb z).mpr (.inr hu)⟩
    by_cases hb : z ∈ below p (f b)
    · rcases h.to_graft z hb with rfl | hu'
      · exact absurd h.gone_nil hz
      · exact absurd hu' hu
    rw [h.parent_else z hb hu] at hz
    obtain ⟨c, hc⟩ := (hf.node_iff z).mp hz
    by_cases hcb : c = b
    · subst hcb
      exact ⟨c, (hmemb z).mpr (.inl ⟨hc, hb⟩)⟩
    · exact ⟨c, by simpa [graft_of_not_mem (hother c hcb)] using hc⟩
  · rintro ⟨c, hc⟩
    exact parent_ne_nil (hlink c) hc

end Sys2Proof.Laws
end

