-- ==== Sys2Proof/Laws/MatchIndex.lean ====
section
/-! SUPPORT. The Match Index operations: what each does to the trees when it answers, and that it answers on every
forest (R79 to R84, R120, R122). -/

namespace Sys2Proof.Laws

open Sys2Proof.Machine Sys2Proof.Safety

/-! ## Only the links change -/

/-- The two states differ in LEFT, RIGHT and PARENT at most. -/
def OnlyLinks (s t : State) : Prop := t = { s with left := t.left, right := t.right, parent := t.parent }

theorem OnlyLinks.refl (s : State) : OnlyLinks s s := rfl

theorem OnlyLinks.trans {s t u : State} (h1 : OnlyLinks s t) (h2 : OnlyLinks t u) : OnlyLinks s u := by
  unfold OnlyLinks at *
  rw [h2, h1]

theorem OnlyLinks.setLeft (s : State) (a : Nat) (v : Link) : OnlyLinks s (s.setLeft a v) := rfl
theorem OnlyLinks.setRight (s : State) (a : Nat) (v : Link) : OnlyLinks s (s.setRight a v) := rfl
theorem OnlyLinks.setParent (s : State) (a : Nat) (v : Link) : OnlyLinks s (s.setParent a v) := rfl

theorem OnlyLinks.textAt {s t : State} (h : OnlyLinks s t) (a : Nat) : t.textAt a = s.textAt a := by
  rw [h]; rfl

/-! ## Entries after a write, on canonical memories -/

theorem leftAt_setLeft {s : State} (h : s.memWf = true) (a : Nat) (v : Link) (b : Nat) :
    (s.setLeft a v).leftAt b = if b = a then v else s.leftAt b := setLeft_leftAt (memWf_iff.mp h).2.1.1 a v b

theorem rightAt_setRight {s : State} (h : s.memWf = true) (a : Nat) (v : Link) (b : Nat) :
    (s.setRight a v).rightAt b = if b = a then v else s.rightAt b := setRight_rightAt (memWf_iff.mp h).2.2.1.1 a v b

theorem parentAt_setParent {s : State} (h : s.memWf = true) (a : Nat) (v : Link) (b : Nat) :
    (s.setParent a v).parentAt b = if b = a then v else s.parentAt b :=
  setParent_parentAt (memWf_iff.mp h).2.2.2.1.1 a v b

theorem toNat_inj {p q : Pos} : p.toNat = q.toNat ↔ p = q := ⟨BitVec.eq_of_toNat_eq, congrArg _⟩

theorem rootLink_ne_pos (b : Byte) (p : Pos) : (rootLink b).toNat ≠ p.toNat := by
  rw [rootLink_toNat]; omega

/-- R46: SetParent on the root of a tree: that one entry takes the value, nothing else changes. -/
theorem linkParent_spec {s : State} (h : s.memWf = true) {x : Link} (hx : x = Config.nil ∨ ∃ p : Pos, x = p.link)
    (v : Link) : ∃ t, linkParent x v s = .ok t ∧ t.memWf = true ∧ OnlyLinks s t ∧
      (∀ a, t.leftAt a = s.leftAt a) ∧ (∀ a, t.rightAt a = s.rightAt a) ∧
      (∀ a, x = Config.nil ∨ a ≠ x.toNat → t.parentAt a = s.parentAt a) ∧
      (∀ z : Pos, t.parentAt z.toNat = if z.link = x then v else s.parentAt z.toNat) := by
  rcases hx with rfl | ⟨p, rfl⟩
  · exact ⟨s, by simp, h, .refl s, fun _ => rfl, fun _ => rfl, fun _ _ => rfl, fun z => by simp⟩
  · refine ⟨s.setParent p.toNat v, by simp, memWf_setParent h (by simp) _, .setParent .., fun _ => rfl, fun _ => rfl,
      fun a ha => ?_, fun z => ?_⟩
    · rw [parentAt_setParent h, if_neg (by simpa using ha)]
    · rw [parentAt_setParent h]
      simp [toNat_inj]

theorem linked_root_or {s : State} {y x : Link} {t : Shape} (h : t.Linked s y x) :
    x = Config.nil ∨ ∃ p : Pos, x = p.link := by
  rcases linked_root h with ⟨_, h⟩ | ⟨p, _, h⟩
  · exact .inl h
  · exact .inr ⟨p, h⟩

/-! ## IDX.DELETE (R83) -/

/-- R83: descending to the right from the root of a tree ends at its last position in order. -/
theorem rightmost_spec {s : State} {r : Shape} : ∀ {l : Shape} {p : Pos} {y : Link} {fuel : Nat},
    (Shape.node l p r).Linked s y p.link → r.nodes.length < fuel →
    rightmost s fuel p.link = .ok (Shape.popLast l p r).2.link := by
  induction r with
  | leaf =>
    intro l p y fuel h hf
    obtain ⟨fuel, rfl⟩ : ∃ k, fuel = k + 1 := ⟨fuel - 1, by omega⟩
    have := h.2.2.2
    simp only [linked_leaf] at this
    simp [rightmost, this, Shape.popLast]
  | node l' p' r' _ ih =>
    intro l p y fuel h hf
    obtain ⟨fuel, rfl⟩ : ∃ k, fuel = k + 1 := ⟨fuel - 1, by omega⟩
    obtain ⟨-, -, -, h2⟩ := h
    have hx := h2.1
    rw [hx] at h2
    simp only [rightmost, readRight_link, ok_bind, hx, link_ne_nil, if_false, Shape.popLast]
    refine ih h2 ?_
    simp only [nodes_node, List.length_append, List.length_cons] at hf
    omega

theorem popLast_mem (l : Shape) (p : Pos) (r : Shape) :
    (Shape.popLast l p r).2 ∈ (Shape.node l p r).nodes := by
  have := popLast_nodes l p r
  rw [nodes_node, ← this]
  simp

theorem popLast_rest_mem {l : Shape} {p : Pos} {r : Shape} {z : Pos} (h : z ∈ (Shape.popLast l p r).1.nodes) :
    z ∈ (Shape.node l p r).nodes := by
  rw [nodes_node, ← popLast_nodes l p r]
  simp [h]

theorem popLast_nodup {l : Shape} {p : Pos} {r : Shape} (h : (Shape.node l p r).nodes.Nodup) :
    (Shape.popLast l p r).1.nodes.Nodup ∧ (Shape.popLast l p r).2 ∉ (Shape.popLast l p r).1.nodes := by
  rw [nodes_node, ← popLast_nodes l p r, List.nodup_append] at h
  exact ⟨h.1, fun hm => h.2.2 _ hm _ (by simp) rfl⟩

/-- R83: taking the last position `q` of a tree out of its place, below its root: its left subtree becomes the right
subtree of its parent `w`. `s'` is the state after the two writes. -/
theorem linked_popLast {s s' : State} {q w : Pos} (hw : s.parentAt q.toNat = w.link) {r : Shape} :
    ∀ {l : Shape} {p : Pos} {y : Link}, (Shape.popLast l p r).2 = q →
    (Shape.node l p r).Linked s y p.link → (Shape.node l p r).nodes.Nodup → r ≠ .leaf →
    (∀ z ∈ (Shape.node l p r).nodes, s'.leftAt z.toNat = s.leftAt z.toNat) →
    (∀ z ∈ (Shape.node l p r).nodes, s'.rightAt z.toNat =
      if z = w then s.leftAt q.toNat else s.rightAt z.toNat) →
    (∀ z ∈ (Shape.node l p r).nodes, s'.parentAt z.toNat =
      if z.link = s.leftAt q.toNat then w.link else s.parentAt z.toNat) →
    (Shape.popLast l p r).1.Linked s' y p.link := by
  induction r with
  | leaf => intro l p y _ _ _ hne; exact absurd rfl hne
  | node l' p' r' _ ih =>
    intro l p y hq h hd _ hl hr hp
    rw [nodup_node] at hd
    obtain ⟨hdl, hdr, hpl, hpr, hlr⟩ := hd
    obtain ⟨-, hy, h1, h2⟩ := h
    have hx := h2.1
    rw [hx] at h2
    rw [Shape.popLast] at hq ⊢
    replace hq : (Shape.popLast l' p' r').2 = q := hq
    show Shape.Linked s' y p.link (.node l p (Shape.popLast l' p' r').1)
    -- `q` lies in the right subtree, so its left child does too, or is absent
    have hqm : q ∈ (Shape.node l' p' r').nodes := hq ▸ popLast_mem ..
    have hroot : ∀ z : Pos, z.link = s.leftAt q.toNat → z ∈ (Shape.node l' p' r').nodes := by
      intro z hz
      have := mem_of_linked_root (hz ▸ (linked_children h2 hqm).1)
      exact below_subset hqm z (by simp [below, this])
    have hpz : s'.parentAt p.toNat = y := by
      rw [hp p (by simp), if_neg (fun he => hpr (hroot p he)), hy]
    have hleft : l.Linked s' p.link (s'.leftAt p.toNat) := by
      rw [hl p (by simp)]
      have hwl : ∀ z ∈ l.nodes, z ≠ w := by
        rintro z hz rfl
        rcases parent_of_mem h2 hqm with ⟨_, he⟩ | ⟨v, hv, he⟩
        · rw [he] at hw; exact hpl (link_injective hw ▸ hz)
        · rw [he] at hw; exact hlr z hz (link_injective hw ▸ hv)
      refine linked_congr h1 (fun z hz => hl z (by simp [hz])) (fun z hz => ?_) fun z hz => ?_
      · rw [hr z (by simp [hz]), if_neg (hwl z hz)]
      · rw [hp z (by simp [hz]), if_neg (fun he => hlr z hz (hroot z he))]
    cases r' with
    | leaf =>
      replace hq : p' = q := hq
      subst hq
      have hwp : p = w := by
        rw [h2.2.1] at hw; exact link_injective hw
      subst hwp
      refine ⟨rfl, hpz, hleft, ?_⟩
      rw [hr p (by simp), if_pos rfl]
      obtain ⟨-, -, h3, -⟩ := h2
      rw [nodup_node] at hdr
      show l'.Linked s' p.link (s.leftAt p'.toNat)
      refine linked_reparent h3 hdr.1 (fun z hz => hl z (by simp [hz])) (fun z hz => ?_) fun z hz => hp z (by simp [hz])
      rw [hr z (by simp [hz]), if_neg]
      rintro rfl
      exact hpr (by simp [hz])
    | node l'' p'' r'' =>
      have hwr : w ∈ (Shape.node l' p' (.node l'' p'' r'')).nodes := by
        rcases parent_of_mem h2 hqm with ⟨he, _⟩ | ⟨v, hv, he⟩
        · have hq2 : q ∈ (Shape.node l'' p'' r'').nodes := hq ▸ popLast_mem l'' p'' r''
          rw [nodup_node] at hdr
          exact absurd (link_injective he ▸ hq2) hdr.2.2.2.1
        · rw [he] at hw; exact link_injective hw ▸ hv
      refine ⟨rfl, hpz, hleft, ?_⟩
      rw [hr p (by simp), if_neg (by rintro rfl; exact hpr hwr), hx]
      have hsub : ∀ z ∈ (Shape.node l' p' (.node l'' p'' r'')).nodes,
          z ∈ (Shape.node l p (.node l' p' (.node l'' p'' r''))).nodes := by
        intro z hz
        rw [nodes_node]
        exact List.mem_append_right _ (List.mem_cons_of_mem _ hz)
      exact ih hq h2 hdr (by simp) (fun z hz => hl z (hsub z hz)) (fun z hz => hr z (hsub z hz))
        (fun z hz => hp z (hsub z hz))

/-- R83, the two-child case, first part: the predecessor `q` of `p` is out of its place, and what is left of the left
subtree hangs below it. -/
theorem spliceOut_spec {s : State} (h : s.memWf = true) {l : Shape} {a : Pos} {r : Shape} {p q : Pos}
    (ht : (Shape.node l a r).Linked s p.link a.link) (hd : (Shape.node l a r).nodes.Nodup)
    (hp : p ∉ (Shape.node l a r).nodes) (hq : (Shape.popLast l a r).2 = q) (hr : r ≠ .leaf)
    (hpa : s.leftAt p.toNat = a.link) :
    ∃ t, spliceOut q.link p.link s = .ok t ∧ t.memWf = true ∧ OnlyLinks s t ∧
      (Shape.popLast l a r).1.Linked t q.link (t.leftAt q.toNat) ∧
      (∀ n, (∀ z ∈ (Shape.node l a r).nodes, n ≠ z.toNat) →
        t.leftAt n = s.leftAt n ∧ t.rightAt n = s.rightAt n ∧ t.parentAt n = s.parentAt n) := by
  have hqm : q ∈ (Shape.node l a r).nodes := hq ▸ popLast_mem ..
  have hqa : q ≠ a := by
    cases r with
    | leaf => exact absurd rfl hr
    | node l' p' r' =>
      have : q ∈ (Shape.node l' p' r').nodes := hq ▸ popLast_mem l' p' r'
      rw [nodup_node] at hd
      rintro rfl
      exact hd.2.2.2.1 this
  have hqp : q ≠ p := by rintro rfl; exact hp hqm
  obtain ⟨w, hwm, hw⟩ : ∃ w ∈ (Shape.node l a r).nodes, s.parentAt q.toNat = w.link := by
    rcases parent_of_mem ht hqm with ⟨he, _⟩ | hh
    · exact absurd (link_injective he).symm hqa
    · exact hh
  have hroot := linked_root_or (linked_children ht hqm).1
  have hwp : w ≠ p := by rintro rfl; exact hp hwm
  have hwf1 := memWf_setRight h (a := w.toNat) (by simp) (s.leftAt q.toNat)
  obtain ⟨s2, hs2, hwf2, hol2, hl2, hr2, hpn2, hp2⟩ :=
    linkParent_spec hwf1 (x := s.leftAt q.toNat) hroot w.link
  have hrest := linked_popLast (s' := s2) hw hq ht hd hr
    (fun z _ => by rw [hl2]; rfl)
    (fun z _ => by rw [hr2, rightAt_setRight h]; simp [toNat_inj])
    (fun z _ => by rw [hp2]; rfl)
  have hwf3 := memWf_setLeft hwf2 (a := q.toNat) (by simp) a.link
  have hwf4 := memWf_setParent hwf3 (a := a.toNat) (by simp) q.link
  obtain ⟨hdr, hqr⟩ := popLast_nodup hd
  rw [hq] at hqr
  refine ⟨(s2.setLeft q.toNat a.link).setParent a.toNat q.link, ?_, hwf4,
    ((OnlyLinks.setRight ..).trans hol2).trans ((OnlyLinks.setLeft ..).trans (.setParent ..)), ?_, ?_⟩
  · have e1 : readParent (s.setRight w.toNat (s.leftAt q.toNat)) q.link = .ok w.link := by simp [hw]
    have e2 : readLeft s2 p.link = .ok a.link := by rw [readLeft_link, hl2, setRight_leftAt, hpa]
    have e3 : readLeft (s2.setLeft q.toNat a.link) p.link = .ok a.link := by
      rw [readLeft_link, leftAt_setLeft hwf2, if_neg (by rw [toNat_inj]; exact hqp.symm), hl2, setRight_leftAt, hpa]
    simp only [spliceOut, readParent_link, readLeft_link, ok_bind, hw, writeRight_link, setRight_leftAt,
      setRight_parentAt, hs2]
    rw [hl2, setRight_leftAt, hpa]
    simp only [writeLeft_link, ok_bind]
    rw [leftAt_setLeft hwf2, if_neg (by rw [toNat_inj]; exact hqp.symm), hl2, setRight_leftAt, hpa]
    simp
  · have hlq : ((s2.setLeft q.toNat a.link).setParent a.toNat q.link).leftAt q.toNat = a.link := by
      rw [setParent_leftAt, leftAt_setLeft hwf2, if_pos rfl]
    rw [hlq]
    refine linked_reparent hrest hdr (fun z hz => ?_) (fun z hz => ?_) fun z hz => ?_
    · rw [setParent_leftAt, leftAt_setLeft hwf2, if_neg]
      rw [toNat_inj]; rintro rfl; exact hqr hz
    · rfl
    · rw [parentAt_setParent hwf3]
      simp [toNat_inj]
  · intro n hn
    have hnl : s.leftAt q.toNat = Config.nil ∨ n ≠ (s.leftAt q.toNat).toNat := by
      rcases hroot with he | ⟨c, he⟩
      · exact .inl he
      · have hc := mem_of_linked_root (he ▸ (linked_children ht hqm).1)
        rw [he, link_toNat]
        exact .inr (hn c (below_subset hqm c (by simp [below, hc])))
    refine ⟨?_, ?_, ?_⟩
    · rw [setParent_leftAt, leftAt_setLeft hwf2, if_neg (hn q hqm), hl2]; rfl
    · rw [setParent_rightAt, setLeft_rightAt, hr2, rightAt_setRight h, if_neg (hn w hwm)]
    · rw [parentAt_setParent hwf3, if_neg (hn a (by simp)), setLeft_parentAt, hpn2 n hnl]; rfl

/-- R83, the two-child case: the predecessor of `p` holds what is left of the left subtree, and the right subtree. -/
theorem graftPredecessor_spec {s : State} (h : s.memWf = true) {l r rl rr : Shape} {a c p : Pos}
    (ht : (Shape.node l a r).Linked s p.link (s.leftAt p.toNat))
    (hu : (Shape.node rl c rr).Linked s p.link (s.rightAt p.toNat))
    (hd : (Shape.node (.node l a r) p (.node rl c rr)).nodes.Nodup) :
    ∃ (q : Pos) (t : State) (y : Link), graftPredecessor p.link s = .ok (q.link, t) ∧ t.memWf = true ∧ OnlyLinks s t ∧
      ((Shape.node l a r).join (.node rl c rr)).Linked t y q.link ∧
      (∀ n, (∀ z ∈ (Shape.node l a r).nodes, n ≠ z.toNat) → (∀ z ∈ (Shape.node rl c rr).nodes, n ≠ z.toNat) →
        t.leftAt n = s.leftAt n ∧ t.rightAt n = s.rightAt n ∧ t.parentAt n = s.parentAt n) := by
  rw [nodup_node] at hd
  obtain ⟨hdt, hdu, hpt, hpu, htu⟩ := hd
  have hla : s.leftAt p.toNat = a.link := ht.1
  have hrc : s.rightAt p.toNat = c.link := hu.1
  rw [hla] at ht
  rw [hrc] at hu
  have hfuel : r.nodes.length < walkBound := by
    have h1 := nodup_length_le hdt
    have h2 : (Shape.node l a r).nodes.length = l.nodes.length + (r.nodes.length + 1) := by simp
    have h3 : walkBound = 4096 + 257 := rfl
    omega
  have hrm := rightmost_spec ht hfuel
  obtain ⟨q, hq⟩ : ∃ q, (Shape.popLast l a r).2 = q := ⟨_, rfl⟩
  rw [hq] at hrm
  have hqm : q ∈ (Shape.node l a r).nodes := hq ▸ popLast_mem ..
  have hqc : q ≠ c := by rintro rfl; exact htu q hqm (by simp)
  have hqp : q ≠ p := by rintro rfl; exact hpt hqm
  obtain ⟨hdr, hqr⟩ := popLast_nodup hdt
  rw [hq] at hqr
  -- the state with the predecessor out of its place
  obtain ⟨s1, hs1, hwf1, hol1, hrest, hframe⟩ : ∃ s1,
      (if q.link = a.link then (Except.ok s : Res State) else spliceOut q.link p.link s) = .ok s1 ∧
      s1.memWf = true ∧ OnlyLinks s s1 ∧
      (Shape.popLast l a r).1.Linked s1 q.link (s1.leftAt q.toNat) ∧
      (∀ n, (∀ z ∈ (Shape.node l a r).nodes, n ≠ z.toNat) →
        s1.leftAt n = s.leftAt n ∧ s1.rightAt n = s.rightAt n ∧ s1.parentAt n = s.parentAt n) := by
    by_cases hqa : q = a
    · have hr : r = .leaf := by
        cases r with
        | leaf => rfl
        | node l' p' r' =>
          have hm : q ∈ (Shape.node l' p' r').nodes := hq ▸ popLast_mem l' p' r'
          rw [nodup_node] at hdt
          exact absurd (hqa ▸ hm) hdt.2.2.2.1
      subst hr
      refine ⟨s, by rw [if_pos (by rw [hqa])], h, .refl s, ?_, fun _ _ => ⟨rfl, rfl, rfl⟩⟩
      subst hqa
      exact ht.2.2.1
    · have hr : r ≠ .leaf := by
        rintro rfl
        exact hqa hq.symm
      obtain ⟨t, h1, h2, h3, h4, h5⟩ := spliceOut_spec h ht hdt hpt hq hr hla
      exact ⟨t, by rw [if_neg (by simpa using hqa), h1], h2, h3, h4, h5⟩
  have hfp := hframe p.toNat fun z hz he => hpt (toNat_inj.mp he ▸ hz)
  have hrp : s1.rightAt p.toNat = c.link := hfp.2.1.trans hrc
  have hwf2 := memWf_setRight hwf1 (a := q.toNat) (by simp) c.link
  have hwf3 := memWf_setParent hwf2 (a := c.toNat) (by simp) q.link
  refine ⟨q, (s1.setRight q.toNat c.link).setParent c.toNat q.link,
    ((s1.setRight q.toNat c.link).setParent c.toNat q.link).parentAt q.toNat, ?_, hwf3,
    (hol1.trans (.setRight ..)).trans (.setParent ..), ?_, ?_⟩
  · simp only [graftPredecessor, readLeft_link, ok_bind, hla, hrm, pure_eq_ok]
    have hrp2 : (s1.setRight q.toNat c.link).rightAt p.toNat = c.link := by
      rw [rightAt_setRight hwf1, if_neg (by rw [toNat_inj]; exact hqp.symm), hrp]
    by_cases hqa : q.link = a.link
    · rw [if_pos hqa] at hs1 ⊢
      cases hs1
      simp only [ok_bind, readRight_link, hrp, writeRight_link, hrp2, linkParent_link]
    · rw [if_neg hqa] at hs1 ⊢
      simp only [hs1, ok_bind, readRight_link, hrp, writeRight_link, hrp2, linkParent_link]
  · show Shape.Linked _ _ _ (.node (Shape.popLast l a r).1 (Shape.popLast l a r).2 (.node rl c rr))
    rw [hq]
    refine ⟨rfl, rfl, ?_, ?_⟩
    · rw [setParent_leftAt, setRight_leftAt]
      refine linked_congr hrest (fun z hz => rfl) (fun z hz => ?_) fun z hz => ?_
      · rw [setParent_rightAt, rightAt_setRight hwf1, if_neg]
        rw [toNat_inj]; rintro rfl; exact hqr hz
      · rw [parentAt_setParent hwf2, if_neg, setRight_parentAt]
        rw [toNat_inj]; rintro rfl; exact htu z (popLast_rest_mem hz) (by simp)
    · rw [setParent_rightAt, rightAt_setRight hwf1, if_pos rfl]
      have hun : ∀ z ∈ (Shape.node rl c rr).nodes, ∀ w ∈ (Shape.node l a r).nodes, z.toNat ≠ w.toNat :=
        fun z hz w hw he => htu w hw (toNat_inj.mp he ▸ hz)
      refine linked_reparent hu hdu (fun z hz => ?_) (fun z hz => ?_) fun z hz => ?_
      · exact (hframe _ (hun z hz)).1
      · rw [setParent_rightAt, rightAt_setRight hwf1, if_neg (hun z hz q hqm)]
        exact (hframe _ (hun z hz)).2.1
      · rw [parentAt_setParent hwf2, setRight_parentAt, (hframe _ (hun z hz)).2.2]
        simp [toNat_inj]
  · intro n hn hn'
    have hf := hframe n hn
    refine ⟨?_, ?_, ?_⟩
    · rw [setParent_leftAt, setRight_leftAt, hf.1]
    · rw [setParent_rightAt, rightAt_setRight hwf1, if_neg (hn q hqm), hf.2.1]
    · rw [parentAt_setParent hwf2, if_neg (hn' c (by simp)), setRight_parentAt, hf.2.2]

/-- R83: what takes the place of `p`, prepared: the join of its subtrees. -/
theorem successor_spec {s : State} (h : s.memWf = true) {l r : Shape} {p : Pos}
    (ht : l.Linked s p.link (s.leftAt p.toNat)) (hu : r.Linked s p.link (s.rightAt p.toNat))
    (hd : (Shape.node l p r).nodes.Nodup) :
    ∃ (q : Link) (t : State) (y : Link), successor p.link s = .ok (q, t) ∧ t.memWf = true ∧ OnlyLinks s t ∧
      (l.join r).Linked t y q ∧
      (∀ n, (∀ z ∈ l.nodes, n ≠ z.toNat) → (∀ z ∈ r.nodes, n ≠ z.toNat) →
        t.leftAt n = s.leftAt n ∧ t.rightAt n = s.rightAt n ∧ t.parentAt n = s.parentAt n) := by
  cases r with
  | leaf =>
    replace hu : s.rightAt p.toNat = Config.nil := hu
    refine ⟨s.leftAt p.toNat, s, p.link, ?_, h, .refl s, ?_, fun _ _ _ => ⟨rfl, rfl, rfl⟩⟩
    · simp [successor, hu]
    · cases l <;> exact ht
  | node rl c rr =>
    have hrc : s.rightAt p.toNat = c.link := hu.1
    cases l with
    | leaf =>
      replace ht : s.leftAt p.toNat = Config.nil := ht
      refine ⟨s.rightAt p.toNat, s, p.link, ?_, h, .refl s, ?_, fun _ _ _ => ⟨rfl, rfl, rfl⟩⟩
      · simp [successor, hrc, ht]
      · exact hu
    | node ll a lr =>
      have hla : s.leftAt p.toNat = a.link := ht.1
      obtain ⟨q, t, y, h1, h2⟩ := graftPredecessor_spec h ht hu hd
      refine ⟨q.link, t, y, ?_, h2⟩
      simp only [successor, readRight_link, readLeft_link, ok_bind, hrc, hla, link_ne_nil, if_false]
      exact h1

/-- R84: what `replaceChild` does under a parent that is a position or a sentinel. -/
theorem replaceChild_spec {s : State} (h : s.memWf = true) {p : Pos} (q : Link)
    (hy : (∃ w : Pos, s.parentAt p.toNat = w.link) ∨
      ∃ b, s.parentAt p.toNat = rootLink b ∧ s.rightAt (rootLink b).toNat = p.link) :
    ∃ t, replaceChild p.link q s = .ok t ∧ t.memWf = true ∧ OnlyLinks s t ∧
      (∀ n, t.parentAt n = s.parentAt n) ∧
      (∀ n, n ≠ (s.parentAt p.toNat).toNat → t.leftAt n = s.leftAt n ∧ t.rightAt n = s.rightAt n) ∧
      (∀ z : Pos, z.link = s.parentAt p.toNat →
        t.rightAt z.toNat = (if s.rightAt z.toNat = p.link then q else s.rightAt z.toNat) ∧
        t.leftAt z.toNat = (if s.rightAt z.toNat = p.link then s.leftAt z.toNat else q)) ∧
      (∀ c, t.rightAt (rootLink c).toNat =
        if rootLink c = s.parentAt p.toNat then q else s.rightAt (rootLink c).toNat) := by
  rcases hy with ⟨w, hw⟩ | ⟨b, hb, hr⟩
  · by_cases hc : s.rightAt w.toNat = p.link
    · refine ⟨s.setRight w.toNat q, ?_, memWf_setRight h (by simp) _, .setRight .., fun _ => rfl, ?_, ?_, ?_⟩
      · simp [replaceChild, hw, hc]
      · intro n hn
        rw [hw, link_toNat] at hn
        exact ⟨rfl, by rw [rightAt_setRight h, if_neg hn]⟩
      · intro z hz
        rw [hw] at hz
        obtain rfl := link_injective hz
        simp [hc, rightAt_setRight h]
      · intro c
        rw [rightAt_setRight h, if_neg (rootLink_ne_pos c w), hw, if_neg (rootLink_ne_link c w)]
    · refine ⟨s.setLeft w.toNat q, ?_, memWf_setLeft h (by simp) _, .setLeft .., fun _ => rfl, ?_, ?_, ?_⟩
      · simp [replaceChild, hw, hc]
      · intro n hn
        rw [hw, link_toNat] at hn
        exact ⟨by rw [leftAt_setLeft h, if_neg hn], rfl⟩
      · intro z hz
        rw [hw] at hz
        obtain rfl := link_injective hz
        simp [hc, leftAt_setLeft h]
      · intro c
        rw [setLeft_rightAt, hw, if_neg (rootLink_ne_link c w)]
  · refine ⟨s.setRight (rootLink b).toNat q, ?_, memWf_setRight h (by simp) _, .setRight .., fun _ => rfl, ?_, ?_, ?_⟩
    · simp [replaceChild, hb, hr]
    · intro n hn
      rw [hb] at hn
      exact ⟨rfl, by rw [rightAt_setRight h, if_neg hn]⟩
    · intro z hz
      rw [hb] at hz
      exact absurd hz.symm (rootLink_ne_link b z)
    · intro c
      rw [rightAt_setRight h, hb]
      by_cases hcb : c = b
      · subst hcb; simp
      · rw [if_neg, if_neg]
        · intro he; exact hcb (rootLink_injective he)
        · rw [rootLink_toNat, rootLink_toNat]
          intro he; exact hcb (BitVec.eq_of_toNat_eq (by omega))

theorem below_eq (p : Pos) (t : Shape) :
    below p t = (childrenOf p t).1.nodes ++ p :: (childrenOf p t).2.nodes := rfl

/-- R83: IDX.DELETE of a node completes on every forest, and takes exactly that node out of its tree. -/
theorem deleteNode_spec {s : State} (h : s.memWf = true) {f : Byte → Shape} (hf : Forest s f) {b : Byte} {p : Pos}
    (hp : p ∈ (f b).nodes) :
    ∃ t, deleteNode p s = .ok t ∧ t.memWf = true ∧ OnlyLinks s t ∧ Forest t (fun c => (f c).remove p) ∧
      t.leftAt p.toNat = s.leftAt p.toNat ∧ t.rightAt p.toNat = s.rightAt p.toNat ∧
      (∀ z : Pos, ¬ IsNode s z → t.leftAt z.toNat = s.leftAt z.toNat ∧ t.rightAt z.toNat = s.rightAt z.toNat) := by
  have hd := hf.nodup b
  obtain ⟨hcl, hcr⟩ := linked_children (hf.linked b) hp
  have hdb := nodup_below hd hp
  have hbel := below_eq p (f b)
  obtain ⟨l, r, hlr⟩ : ∃ l r, childrenOf p (f b) = (l, r) := ⟨_, _, rfl⟩
  rw [hlr] at hcl hcr hbel
  rw [hbel] at hdb
  replace hdb : (Shape.node l p r).nodes.Nodup := hdb
  obtain ⟨q, s1, y, hs1, hwf1, hol1, hj1, hframe⟩ := successor_spec h hcl hcr hdb
  have hd2 := nodup_node.mp hdb
  have hnp : s.parentAt p.toNat ≠ Config.nil := parent_ne_nil (hf.linked b) hp
  have hsub := below_subset hp
  have hout : ∀ z : Pos, z ∉ below p (f b) → (∀ w ∈ l.nodes, z.toNat ≠ w.toNat) ∧ (∀ w ∈ r.nodes, z.toNat ≠ w.toNat) := by
    intro z hz
    rw [hbel] at hz
    simp only [List.mem_append, List.mem_cons, not_or] at hz
    exact ⟨fun w hw he => hz.1 (toNat_inj.mp he ▸ hw), fun w hw he => hz.2.2 (toNat_inj.mp he ▸ hw)⟩
  have hfp := hframe p.toNat (fun z hz he => hd2.2.2.1 (toNat_inj.mp he ▸ hz))
    (fun z hz he => hd2.2.2.2.1 (toNat_inj.mp he ▸ hz))
  have hfr : ∀ c, s1.rightAt (rootLink c).toNat = s.rightAt (rootLink c).toNat := fun c =>
    (hframe _ (fun z _ => rootLink_ne_pos c z) (fun z _ => rootLink_ne_pos c z)).2.1
  have hjn : (l.join r).nodes = l.nodes ++ r.nodes := join_nodes l r
  have hjd : (l.join r).nodes.Nodup := by
    rw [hjn, List.nodup_append]
    exact ⟨hd2.1, hd2.2.1, fun z hz w hw he => hd2.2.2.2.2 z hz (he ▸ hw)⟩
  have hgone : p ∉ (l.join r).nodes := by
    rw [hjn, List.mem_append]; exact fun hh => hh.elim hd2.2.2.1 hd2.2.2.2.1
  have hjb : ∀ z, z ∈ (l.join r).nodes → z ∈ below p (f b) := by
    intro z hz
    rw [hjn, List.mem_append] at hz
    rw [hbel]; simp only [List.mem_append, List.mem_cons]; tauto
  obtain ⟨s2, hs2, hwf2, hol2, hl2, hr2, hn2, hp2⟩ :=
    linkParent_spec hwf1 (x := q) (linked_root_or hj1) (s1.parentAt p.toNat)
  have hqp : p.link ≠ q := by
    intro he
    exact hgone (mem_of_linked_root (he ▸ hj1))
  have hp2p : s2.parentAt p.toNat = s.parentAt p.toNat := by rw [hp2, if_neg hqp, hfp.2.2]
  have hy2 : (∃ w : Pos, s2.parentAt p.toNat = w.link) ∨
      ∃ b, s2.parentAt p.toNat = rootLink b ∧ s2.rightAt (rootLink b).toNat = p.link := by
    rw [hp2p]
    rcases forest_parent_cases hf hp with ⟨h1, h2⟩ | ⟨w, _, h1⟩
    · exact .inr ⟨b, h1, by rw [hr2, hfr, h2]⟩
    · exact .inl ⟨w, h1⟩
  obtain ⟨s3, hs3, hwf3, hol3, hn3, hoff3, hon3, hroot3⟩ := replaceChild_spec hwf2 (p := p) q hy2
  rw [hp2p] at hoff3 hon3 hroot3
  -- the parent of `p` is not at or below `p`
  have hpb : ∀ z ∈ below p (f b), z.link ≠ s.parentAt p.toNat := by
    exact parent_not_below (hf.linked b) hd (fun z _ => (rootLink_ne_link b z).symm) hp
  have hlinks : ∀ z ∈ below p (f b), s3.leftAt z.toNat = s1.leftAt z.toNat ∧ s3.rightAt z.toNat = s1.rightAt z.toNat := by
    intro z hz
    have hne : z.toNat ≠ (s.parentAt p.toNat).toNat := by
      intro he
      apply hpb z hz
      apply BitVec.eq_of_toNat_eq
      rw [link_toNat, he]
    rw [(hoff3 _ hne).1, (hoff3 _ hne).2, hl2, hr2]
    exact ⟨rfl, rfl⟩
  have hparents : ∀ z : Pos, (s3.setParent p.toNat Config.nil).parentAt z.toNat =
      if z = p then Config.nil else if z.link = q then s.parentAt p.toNat else s1.parentAt z.toNat := by
    intro z
    rw [parentAt_setParent hwf3, hn3, hp2, hfp.2.2]
    simp only [toNat_inj]
  have hG : Grafted s (s3.setParent p.toNat Config.nil) f b p q (l.join r) := by
    refine ⟨hp, ?_, hjd, fun z hz => .inl (hjb z hz), ?_, hgone, ?_, ?_, ?_, ?_, ?_⟩
    · refine linked_reparent hj1 hjd (fun z hz => (hlinks z (hjb z hz)).1) (fun z hz => (hlinks z (hjb z hz)).2)
        fun z hz => ?_
      rw [hparents, if_neg]
      rintro rfl; exact hgone hz
    · intro z hz
      rw [hbel, List.mem_append, List.mem_cons] at hz
      rw [hjn, List.mem_append]; tauto
    · rw [hparents, if_pos rfl]
    · intro z hz _
      have hzp : z ≠ p := by rintro rfl; exact hz (self_mem_below _ _)
      rw [hparents, if_neg hzp, if_neg, (hframe _ (hout z hz).1 (hout z hz).2).2.2]
      rintro rfl
      exact hz (hjb z (mem_of_linked_root hj1))
    · intro z hz _ hne
      have hne' : z.toNat ≠ (s.parentAt p.toNat).toNat := by
        intro he
        apply hne
        apply BitVec.eq_of_toNat_eq
        rw [link_toNat, he]
      have := hframe _ (hout z hz).1 (hout z hz).2
      rw [setParent_leftAt, setParent_rightAt, (hoff3 _ hne').1, (hoff3 _ hne').2, hl2, hr2, this.1, this.2.1]
      exact ⟨rfl, rfl⟩
    · intro z hz _ he
      have := hframe _ (hout z hz).1 (hout z hz).2
      have h3 := hon3 z he
      rw [hl2, hr2, this.1, this.2.1] at h3
      exact h3
    · intro c
      rw [setParent_rightAt, hroot3, hr2, hfr]
  have hforest := forest_graft hf hG
  have hremove : (fun c => (f c).remove p) = fun c => graft p (l.join r) (f c) := by
    funext c
    by_cases hc : p ∈ (f c).nodes
    · obtain rfl := hf.disjoint c b p hc hp
      rw [remove_eq_graft hd hp, hlr]
    · rw [remove_of_not_mem hc, graft_of_not_mem hc]
  have hdead : ∀ z : Pos, (z = p ∨ ¬ IsNode s z) →
      (s3.setParent p.toNat Config.nil).leftAt z.toNat = s.leftAt z.toNat ∧
      (s3.setParent p.toNat Config.nil).rightAt z.toNat = s.rightAt z.toNat := by
    intro z hz
    rcases hz with rfl | hz
    · rw [setParent_leftAt, setParent_rightAt, (hlinks z (self_mem_below _ _)).1, (hlinks z (self_mem_below _ _)).2,
        hfp.1, hfp.2.1]
      exact ⟨rfl, rfl⟩
    · have hzb : z ∉ (f b).nodes := fun hm => hz (parent_ne_nil (hf.linked b) hm)
      have hz1 : z ∉ below p (f b) := fun hm => hzb (hsub z hm)
      refine hG.links_else z hz1 (fun hm => hz1 (hjb z hm)) ?_
      intro he
      rcases forest_parent_cases hf hp with ⟨h1, _⟩ | ⟨w, hw, h1⟩
      · rw [h1] at he; exact rootLink_ne_link _ _ he.symm
      · rw [h1] at he; exact hzb (link_injective he ▸ hw)
  refine ⟨s3.setParent p.toNat Config.nil, ?_, memWf_setParent hwf3 (by simp) _,
    ((hol1.trans hol2).trans hol3).trans (.setParent ..), ?_, (hdead p (.inl rfl)).1, (hdead p (.inl rfl)).2,
    fun z hz => hdead z (.inr hz)⟩
  · simp only [deleteNode, if_neg hnp]
    rw [hs1]
    simp only [ok_bind, readParent_link]
    rw [hs2]
    simp only [ok_bind]
    rw [hs3]
    simp
  · rw [hremove]; exact hforest

end Sys2Proof.Laws
end

