-- ==== Sys2Proof/Laws/Search.lean ====
section
/-! SUPPORT. IDX.SEARCH, IDX.REPLACE and IDX.INSERT on every forest (R79 to R82, R85, R120, R122). -/

namespace Sys2Proof.Laws

open Sys2Proof.Machine Sys2Proof.Safety

/-- Links that agree on the positions of all trees, and the same parents, make the same forest. -/
theorem forest_congr {s s' : State} {f : Byte → Shape} (hf : Forest s f)
    (hl : ∀ z : Pos, IsNode s z → s'.leftAt z.toNat = s.leftAt z.toNat)
    (hr : ∀ z : Pos, IsNode s z → s'.rightAt z.toNat = s.rightAt z.toNat)
    (hroot : ∀ b, s'.rightAt (rootLink b).toNat = s.rightAt (rootLink b).toNat)
    (hp : ∀ z : Pos, s'.parentAt z.toNat = s.parentAt z.toNat) : Forest s' f := by
  refine ⟨fun b => ?_, hf.nodup, hf.disjoint, fun p => by rw [hp]; exact hf.node_iff p⟩
  rw [hroot]
  exact linked_congr (hf.linked b) (fun z hz => hl z (parent_ne_nil (hf.linked b) hz))
    (fun z hz => hr z (parent_ne_nil (hf.linked b) hz)) (fun z _ => hp z)

/-! ## IDX.REPLACE (R82) -/

/-- R82: IDX.REPLACE of a node by a position in no tree completes on every forest; the new position takes the place. -/
theorem replaceNode_spec {s : State} (h : s.memWf = true) {f : Byte → Shape} (hf : Forest s f) {b : Byte} {p r : Pos}
    (hp : p ∈ (f b).nodes) (hr : ¬ IsNode s r) :
    ∃ t, replaceNode r p s = .ok t ∧ t.memWf = true ∧ OnlyLinks s t ∧ Forest t (fun c => (f c).substitute p r) ∧
      t.leftAt p.toNat = s.leftAt p.toNat ∧ t.rightAt p.toNat = s.rightAt p.toNat ∧
      (∀ z : Pos, z ≠ r → ¬ IsNode s z →
        t.leftAt z.toNat = s.leftAt z.toNat ∧ t.rightAt z.toNat = s.rightAt z.toNat) := by
  have hd := hf.nodup b
  have hrn : s.parentAt r.toNat = Config.nil := not_not.mp hr
  have hnp : s.parentAt p.toNat ≠ Config.nil := parent_ne_nil (hf.linked b) hp
  have hnotin : ∀ c, r ∉ (f c).nodes := fun c hm => hr (parent_ne_nil (hf.linked c) hm)
  have hrp : r ≠ p := by rintro rfl; exact hr hnp
  obtain ⟨hcl, hcr⟩ := linked_children (hf.linked b) hp
  have hdb := nodup_below hd hp
  have hbel := below_eq p (f b)
  obtain ⟨l, u, hlu⟩ : ∃ l u, childrenOf p (f b) = (l, u) := ⟨_, _, rfl⟩
  rw [hlu] at hcl hcr hbel
  rw [hbel] at hdb
  replace hdb : (Shape.node l p u).nodes.Nodup := hdb
  have hd2 := nodup_node.mp hdb
  have hsub := below_subset hp
  have hmb : ∀ z, z ∈ below p (f b) ↔ z ∈ l.nodes ∨ z = p ∨ z ∈ u.nodes := by
    intro z; rw [hbel]; simp only [List.mem_append, List.mem_cons]
  have hrb : r ∉ below p (f b) := fun hm => hnotin b (hsub r hm)
  have hrl : r ∉ l.nodes := fun hm => hrb ((hmb r).mpr (.inl hm))
  have hru : r ∉ u.nodes := fun hm => hrb ((hmb r).mpr (.inr (.inr hm)))
  have hln : ∀ {n : Pos}, p.toNat = n.toNat ↔ p = n := toNat_inj
  -- the three registers of `r`
  have hwf1 := memWf_setParent h (a := r.toNat) (by simp) (s.parentAt p.toNat)
  have hwf2 := memWf_setLeft hwf1 (a := r.toNat) (by simp) (s.leftAt p.toNat)
  have hwf3 := memWf_setRight hwf2 (a := r.toNat) (by simp) (s.rightAt p.toNat)
  obtain ⟨s3, hs3⟩ : ∃ s3, ((s.setParent r.toNat (s.parentAt p.toNat)).setLeft r.toNat (s.leftAt p.toNat)).setRight
    r.toNat (s.rightAt p.toNat) = s3 := ⟨_, rfl⟩
  have hl3 : ∀ n, s3.leftAt n = if n = r.toNat then s.leftAt p.toNat else s.leftAt n := by
    intro n; rw [← hs3, setRight_leftAt, leftAt_setLeft hwf1]; rfl
  have hr3 : ∀ n, s3.rightAt n = if n = r.toNat then s.rightAt p.toNat else s.rightAt n := by
    intro n; rw [← hs3, rightAt_setRight hwf2]; rfl
  have hp3 : ∀ n, s3.parentAt n = if n = r.toNat then s.parentAt p.toNat else s.parentAt n := by
    intro n; rw [← hs3, setRight_parentAt, setLeft_parentAt, parentAt_setParent h]
  have hol3 : OnlyLinks s s3 := by
    rw [← hs3]; exact ((OnlyLinks.setParent ..).trans (.setLeft ..)).trans (.setRight ..)
  rw [hs3] at hwf3
  obtain ⟨s4, hs4, hwf4, hol4, hl4, hr4, hn4, hp4⟩ :=
    linkParent_spec hwf3 (x := s.leftAt p.toNat) (linked_root_or hcl) r.link
  obtain ⟨s5, hs5, hwf5, hol5, hl5, hr5, hn5, hp5⟩ :=
    linkParent_spec hwf4 (x := s.rightAt p.toNat) (linked_root_or hcr) r.link
  have hleftmem : ∀ z : Pos, z.link = s.leftAt p.toNat → z ∈ l.nodes := fun z hz => mem_of_linked_root (hz ▸ hcl)
  have hrightmem : ∀ z : Pos, z.link = s.rightAt p.toNat → z ∈ u.nodes := fun z hz => mem_of_linked_root (hz ▸ hcr)
  have hL5 : ∀ n, n ≠ r.toNat → s5.leftAt n = s.leftAt n := fun n hn => by rw [hl5, hl4, hl3, if_neg hn]
  have hR5 : ∀ n, n ≠ r.toNat → s5.rightAt n = s.rightAt n := fun n hn => by rw [hr5, hr4, hr3, if_neg hn]
  have hP5 : ∀ z : Pos, s5.parentAt z.toNat =
      if z.link = s.rightAt p.toNat then r.link
      else if z.link = s.leftAt p.toNat then r.link
      else if z = r then s.parentAt p.toNat else s.parentAt z.toNat := by
    intro z
    rw [hp5, hp4, hp3]
    simp only [toNat_inj]
  have hPp : s5.parentAt p.toNat = s.parentAt p.toNat := by
    rw [hP5, if_neg (fun he => hd2.2.2.2.1 (hrightmem p he)), if_neg (fun he => hd2.2.2.1 (hleftmem p he)), if_neg hrp.symm]
  have hrootR : ∀ c, s5.rightAt (rootLink c).toNat = s.rightAt (rootLink c).toNat :=
    fun c => hR5 _ (rootLink_ne_pos c r)
  have hy5 : (∃ w : Pos, s5.parentAt p.toNat = w.link) ∨
      ∃ b, s5.parentAt p.toNat = rootLink b ∧ s5.rightAt (rootLink b).toNat = p.link := by
    rw [hPp]
    rcases forest_parent_cases hf hp with ⟨h1, h2⟩ | ⟨w, _, h1⟩
    · exact .inr ⟨b, h1, by rw [hrootR, h2]⟩
    · exact .inl ⟨w, h1⟩
  obtain ⟨s6, hs6, hwf6, hol6, hn6, hoff6, hon6, hroot6⟩ := replaceChild_spec hwf5 (p := p) r.link hy5
  rw [hPp] at hoff6 hon6 hroot6
  have hpb := parent_not_below (hf.linked b) hd (fun z _ => (rootLink_ne_link b z).symm) hp
  have hne_of : ∀ z : Pos, z.link ≠ s.parentAt p.toNat → z.toNat ≠ (s.parentAt p.toNat).toNat := by
    intro z hz he
    apply hz
    apply BitVec.eq_of_toNat_eq
    rw [link_toNat, he]
  have hrpar : r.link ≠ s.parentAt p.toNat := by
    intro he
    rcases forest_parent_cases hf hp with ⟨h1, _⟩ | ⟨w, hw, h1⟩
    · rw [h1] at he; exact rootLink_ne_link _ _ he.symm
    · rw [h1] at he; exact hnotin b (link_injective he ▸ hw)
  have hlinks6 : ∀ z : Pos, z ≠ r → z.link ≠ s.parentAt p.toNat →
      s6.leftAt z.toNat = s.leftAt z.toNat ∧ s6.rightAt z.toNat = s.rightAt z.toNat := by
    intro z hz hzp
    have hzr : z.toNat ≠ r.toNat := by rwa [Ne, toNat_inj]
    rw [(hoff6 _ (hne_of z hzp)).1, (hoff6 _ (hne_of z hzp)).2, hL5 _ hzr, hR5 _ hzr]
    exact ⟨rfl, rfl⟩
  have hbr : ∀ z ∈ below p (f b), z ≠ r := by rintro z hz rfl; exact hrb hz
  have hparents : ∀ z : Pos, (s6.setParent p.toNat Config.nil).parentAt z.toNat =
      if z = p then Config.nil else s5.parentAt z.toNat := by
    intro z
    rw [parentAt_setParent hwf6, hn6]
    simp only [toNat_inj]
  have hG : Grafted s (s6.setParent p.toNat Config.nil) f b p r.link (.node l r u) := by
    refine ⟨hp, ⟨rfl, ?_, ?_, ?_⟩, ?_, ?_, ?_, ?_, ?_, ?_, ?_, ?_, ?_⟩
    · rw [hparents, if_neg hrp, hP5, if_neg (fun he => hru (hrightmem r he)), if_neg (fun he => hrl (hleftmem r he)),
        if_pos rfl]
    · have : (s6.setParent p.toNat Config.nil).leftAt r.toNat = s.leftAt p.toNat := by
        rw [setParent_leftAt, (hoff6 _ (hne_of r hrpar)).1, hl5, hl4, hl3, if_pos rfl]
      rw [this]
      refine linked_reparent hcl hd2.1 (fun z hz => ?_) (fun z hz => ?_) fun z hz => ?_
      · have hz' := (hmb z).mpr (.inl hz)
        exact (hlinks6 z (hbr z hz') (hpb z hz')).1
      · have hz' := (hmb z).mpr (.inl hz)
        exact (hlinks6 z (hbr z hz') (hpb z hz')).2
      · have hzp : z ≠ p := by rintro rfl; exact hd2.2.2.1 hz
        have hzr : z ≠ r := by rintro rfl; exact hrl hz
        rw [hparents, if_neg hzp, hP5, if_neg (fun he => hd2.2.2.2.2 z hz (hrightmem z he)), if_neg hzr]
    · have : (s6.setParent p.toNat Config.nil).rightAt r.toNat = s.rightAt p.toNat := by
        rw [setParent_rightAt, (hoff6 _ (hne_of r hrpar)).2, hr5, hr4, hr3, if_pos rfl]
      rw [this]
      refine linked_reparent hcr hd2.2.1 (fun z hz => ?_) (fun z hz => ?_) fun z hz => ?_
      · have hz' := (hmb z).mpr (.inr (.inr hz))
        exact (hlinks6 z (hbr z hz') (hpb z hz')).1
      · have hz' := (hmb z).mpr (.inr (.inr hz))
        exact (hlinks6 z (hbr z hz') (hpb z hz')).2
      · have hzp : z ≠ p := by rintro rfl; exact hd2.2.2.2.1 hz
        have hzr : z ≠ r := by rintro rfl; exact hru hz
        rw [hparents, if_neg hzp, hP5, if_neg (c := z.link = s.leftAt p.toNat)
          (fun he => hd2.2.2.2.2 z (hleftmem z he) hz), if_neg hzr]
    · rw [nodup_node]
      exact ⟨hd2.1, hd2.2.1, hrl, hru, hd2.2.2.2.2⟩
    · intro z hz
      simp only [nodes_node, List.mem_append, List.mem_cons] at hz
      rcases hz with hz | rfl | hz
      · exact .inl ((hmb z).mpr (.inl hz))
      · exact .inr hrn
      · exact .inl ((hmb z).mpr (.inr (.inr hz)))
    · intro z hz
      rcases (hmb z).mp hz with hz | hz | hz
      · exact .inr (by simp [hz])
      · exact .inl hz
      · exact .inr (by simp [hz])
    · simp only [nodes_node, List.mem_append, List.mem_cons, not_or]
      exact ⟨hd2.2.2.1, hrp.symm, hd2.2.2.2.1⟩
    · rw [hparents, if_pos rfl]
    · intro z hz hz'
      have h1 : z ∉ l.nodes := fun hm => hz ((hmb z).mpr (.inl hm))
      have h2 : z ∉ u.nodes := fun hm => hz ((hmb z).mpr (.inr (.inr hm)))
      have h3 : z ≠ p := by rintro rfl; exact hz (self_mem_below _ _)
      have h4 : z ≠ r := by rintro rfl; exact hz' (by simp)
      rw [hparents, if_neg h3, hP5, if_neg (fun he => h2 (hrightmem z he)), if_neg (fun he => h1 (hleftmem z he)),
        if_neg h4]
    · intro z hz hz' hne
      exact hlinks6 z (by rintro rfl; exact hz' (by simp)) hne
    · intro z hz hz' he
      have hzr : z.toNat ≠ r.toNat := by
        rw [Ne, toNat_inj]; rintro rfl; exact hz' (by simp)
      have h3 := hon6 z he
      rw [hL5 _ hzr, hR5 _ hzr] at h3
      exact h3
    · intro c
      rw [setParent_rightAt, hroot6, hrootR]
  have hforest := forest_graft hf hG
  have hsubst : (fun c => (f c).substitute p r) = fun c => graft p (.node l r u) (f c) := by
    funext c
    by_cases hc : p ∈ (f c).nodes
    · obtain rfl := hf.disjoint c b p hc hp
      rw [substitute_eq_graft hd hp, hlu]
    · rw [substitute_of_not_mem hc, graft_of_not_mem hc]
  have hself := hlinks6 p hrp.symm (hpb p (self_mem_below _ _))
  refine ⟨s6.setParent p.toNat Config.nil, ?_, memWf_setParent hwf6 (by simp) _,
    ((hol3.trans hol4).trans hol5 |>.trans hol6).trans (.setParent ..), by rw [hsubst]; exact hforest, hself.1, hself.2, ?_⟩
  · simp only [replaceNode, if_neg hnp, if_neg (not_not.mpr hrn), readParent_link, readLeft_link, readRight_link, ok_bind,
      writeParent_link, writeLeft_link, writeRight_link, setParent_leftAt, setLeft_rightAt, setParent_rightAt]
    rw [hs3, hl3, if_neg (by rw [toNat_inj]; exact hrp.symm), hs4]
    simp only [ok_bind]
    rw [hr4, hr3, if_neg (by rw [toNat_inj]; exact hrp.symm), hs5]
    simp only [ok_bind]
    rw [hs6]
    simp
  · intro z hz hn
    refine hlinks6 z hz ?_
    intro he
    rcases forest_parent_cases hf hp with ⟨h1, _⟩ | ⟨w, hw, h1⟩
    · rw [h1] at he; exact rootLink_ne_link _ _ he.symm
    · rw [h1] at he; exact hn (link_injective he ▸ parent_ne_nil (hf.linked b) hw)

end Sys2Proof.Laws
end

