-- ==== Sys2Proof/Laws/Insert.lean ====
section
/-! SUPPORT. The comparator, the search walk and IDX.INSERT (R78 to R81, R85). -/

namespace Sys2Proof.Laws

open Sys2Proof.Machine Sys2Proof.Safety

/-! ## CMP.KEY (R78) -/

/-- R78: lanes below the length agree; at the length the keys differ and CMP is the sign, or all lanes agree. -/
theorem compareFrom_spec (s : State) (r p : Pos) (n i : Nat) :
    i ≤ (compareFrom s r p n i).1 ∧ (compareFrom s r p n i).1 ≤ i + n ∧
    (∀ j, i ≤ j → j < (compareFrom s r p n i).1 → s.textAt (keyAddr r j) = s.textAt (keyAddr p j)) ∧
    (((compareFrom s r p n i).1 = i + n ∧ (compareFrom s r p n i).2 = .zero) ∨
      (s.textAt (keyAddr r (compareFrom s r p n i).1) ≠ s.textAt (keyAddr p (compareFrom s r p n i).1) ∧
        (compareFrom s r p n i).1 < i + n ∧
        (compareFrom s r p n i).2 = signOf (s.textAt (keyAddr r (compareFrom s r p n i).1))
          (s.textAt (keyAddr p (compareFrom s r p n i).1)))) := by
  induction n generalizing i with
  | zero => exact ⟨Nat.le_refl _, Nat.le_refl _, fun j h1 h2 => absurd h2 (Nat.not_lt.mpr h1), .inl ⟨rfl, rfl⟩⟩
  | succ n ih =>
    by_cases h : s.textAt (keyAddr r i) = s.textAt (keyAddr p i)
    · simp only [compareFrom, if_pos h]
      obtain ⟨h1, h2, h3, h4⟩ := ih (i + 1)
      refine ⟨by omega, by omega, fun j hj hj' => ?_, ?_⟩
      · by_cases hji : j = i
        · rw [hji]; exact h
        · exact h3 j (by omega) hj'
      · rcases h4 with ⟨h4, h5⟩ | ⟨h4, h5, h6⟩
        · exact .inl ⟨by omega, h5⟩
        · exact .inr ⟨h4, by omega, h6⟩
    · simp only [compareFrom, if_neg h]
      exact ⟨Nat.le_refl _, by omega, fun j h1 h2 => absurd h2 (Nat.not_lt.mpr h1), .inr ⟨h, by omega, trivial⟩⟩

theorem compareKeys_bounds (s : State) (r p : Pos) : 1 ≤ (compareKeys s r p).1 ∧ (compareKeys s r p).1 ≤ 18 := by
  have h := compareFrom_spec s r p (Config.F - 1) 1
  have hf : Config.F = 18 := rfl
  exact ⟨h.1, by have := h.2.1; show (compareFrom s r p (Config.F - 1) 1).1 ≤ 18; omega⟩

theorem compareKeys_congr {s s' : State} (h : ∀ a, s'.textAt a = s.textAt a) (r p : Pos) :
    compareKeys s' r p = compareKeys s r p := by
  have : ∀ n i, compareFrom s' r p n i = compareFrom s r p n i := by
    intro n
    induction n with
    | zero => intro i; rfl
    | succ n ih => intro i; simp only [compareFrom, h, ih]
  exact this _ _

theorem insertKey_congr {s s' : State} (h : ∀ a, s'.textAt a = s.textAt a) (r : Pos) (t : Shape) :
    t.insertKey s' r = t.insertKey s r := by
  induction t with
  | leaf => rfl
  | node l p u ihl ihr => simp only [Shape.insertKey, compareKeys_congr h, ihl, ihr]

/-! ## IDX.SEARCH (R79, R80) -/

/-- R79: the nodes the walk for `r` visits, in order. -/
def visited (s : State) (r : Pos) : Shape → List Pos
  | .leaf => []
  | .node l p t => p :: (if (compareKeys s r p).1 = Config.F then []
      else if (compareKeys s r p).2 = .neg then visited s r l else visited s r t)

/-- R79: how the walk ends, entering the tree from `y` with sign `c`. -/
def endOf (s : State) (r : Pos) : Link → Cmp → Shape → SearchResult
  | y, c, .leaf => .slot y (if c = .neg then .leftSide else .rightSide)
  | _, _, .node l p t =>
    if (compareKeys s r p).1 = Config.F then .full p
    else if (compareKeys s r p).2 = .neg then endOf s r p.link (compareKeys s r p).2 l
    else endOf s r p.link (compareKeys s r p).2 t

/-- What a walk changes: CMP, MATCH_POS and MATCH_LEN. -/
def OnlyMatch (s t : State) : Prop := t = { s with cmp := t.cmp, matchPos := t.matchPos, matchLen := t.matchLen }

theorem OnlyMatch.trans {s t u : State} (h1 : OnlyMatch s t) (h2 : OnlyMatch t u) : OnlyMatch s u := by
  unfold OnlyMatch at *
  rw [h2, h1]

theorem OnlyMatch.visit (r q : Pos) (s : State) : OnlyMatch s (visitNode r q s) := by
  unfold visitNode; split <;> rfl

theorem OnlyMatch.textAt {s t : State} (h : OnlyMatch s t) (a : Nat) : t.textAt a = s.textAt a := by rw [h]; rfl
theorem OnlyMatch.leftAt {s t : State} (h : OnlyMatch s t) (a : Nat) : t.leftAt a = s.leftAt a := by rw [h]; rfl
theorem OnlyMatch.rightAt {s t : State} (h : OnlyMatch s t) (a : Nat) : t.rightAt a = s.rightAt a := by rw [h]; rfl
theorem OnlyMatch.parentAt {s t : State} (h : OnlyMatch s t) (a : Nat) : t.parentAt a = s.parentAt a := by rw [h]; rfl
theorem OnlyMatch.memWf {s t : State} (h : OnlyMatch s t) : t.memWf = s.memWf := by rw [h]; rfl

theorem linked_onlyMatch {s s' : State} (h : OnlyMatch s s') {t : Shape} {y x : Link} (ht : t.Linked s y x) :
    t.Linked s' y x :=
  linked_congr ht (fun _ _ => h.leftAt _) (fun _ _ => h.rightAt _) (fun _ _ => h.parentAt _)

theorem visited_onlyMatch {s s' : State} (h : OnlyMatch s s') (r : Pos) (t : Shape) : visited s' r t = visited s r t := by
  induction t with
  | leaf => rfl
  | node l p u ihl ihr => simp only [visited, compareKeys_congr h.textAt, ihl, ihr]

theorem endOf_onlyMatch {s s' : State} (h : OnlyMatch s s') (r : Pos) (t : Shape) (y : Link) (c : Cmp) :
    endOf s' r y c t = endOf s r y c t := by
  induction t generalizing y c with
  | leaf => rfl
  | node l p u ihl ihr => simp only [endOf, compareKeys_congr h.textAt, ihl, ihr]

@[simp] theorem visitNode_cmp (r q : Pos) (s : State) : (visitNode r q s).cmp = (compareKeys s r q).2 := by
  unfold visitNode; split <;> rfl

theorem betterMatch_iff {s : State} {r q : Pos} : betterMatch s r q = true ↔
    s.matchLen.toNat < (compareKeys s r q).1 := decide_eq_true_iff

theorem visitNode_matchLen (r q : Pos) (s : State) :
    (visitNode r q s).matchLen.toNat = max s.matchLen.toNat (compareKeys s r q).1 := by
  have h := compareKeys_bounds s r q
  unfold visitNode
  split
  · rename_i hb
    rw [betterMatch_iff] at hb
    show (BitVec.ofNat 5 _).toNat = _
    rw [BitVec.toNat_ofNat, Nat.mod_eq_of_lt (show (compareKeys s r q).1 < 2 ^ 5 by omega)]
    omega
  · rename_i hb
    rw [betterMatch_iff] at hb
    show s.matchLen.toNat = _
    omega

/-- R79: the walk on a tree: it visits `visited`, in order, and ends as `endOf` says. -/
theorem walk_spec (r : Pos) (t : Shape) : ∀ {s : State} {y x : Link} {fuel : Nat}, t.Linked s y x →
    walkLink s y = .ok x → t.nodes.length < fuel → s.matchLen.toNat < 18 →
    walk r fuel y s = .ok (endOf s r y s.cmp t, (visited s r t).foldl (fun s q => visitNode r q s) s) := by
  induction t with
  | leaf =>
    intro s y x fuel h hx hf _
    obtain ⟨fuel, rfl⟩ : ∃ k, fuel = k + 1 := ⟨fuel - 1, by omega⟩
    replace h : x = Config.nil := h
    simp [walk, hx, h, endOf, visited, walkSide]
  | node l p u ihl ihr =>
    intro s y x fuel h hx hf hm
    obtain ⟨fuel, rfl⟩ : ∃ k, fuel = k + 1 := ⟨fuel - 1, by omega⟩
    obtain ⟨rfl, -, h1, h2⟩ := h
    have hb := compareKeys_bounds s r p
    have hf18 : Config.F = 18 := rfl
    have hom := OnlyMatch.visit r p s
    simp only [nodes_node, List.length_append, List.length_cons] at hf
    simp only [walk, hx, ok_bind, link_ne_nil, if_false, ringPosition_link, endOf, visited, betterMatch_iff]
    by_cases hfull : (compareKeys s r p).1 = Config.F
    · rw [if_pos (by omega), if_pos hfull, if_pos hfull]
      rfl
    · rw [if_neg (by omega), if_neg hfull, if_neg hfull]
      have hm' : (visitNode r p s).matchLen.toNat < 18 := by rw [visitNode_matchLen]; omega
      rw [List.foldl_cons]
      by_cases hneg : (compareKeys s r p).2 = .neg
      · rw [if_pos hneg, if_pos hneg]
        have hx' : walkLink (visitNode r p s) p.link = .ok (s.leftAt p.toNat) := by
          simp [walkLink, hneg, hom.leftAt]
        have := ihl (fuel := fuel) (linked_onlyMatch hom h1) hx' (by omega) hm'
        rw [this, endOf_onlyMatch hom, visited_onlyMatch hom, visitNode_cmp]
      · rw [if_neg hneg, if_neg hneg]
        have hx' : walkLink (visitNode r p s) p.link = .ok (s.rightAt p.toNat) := by
          simp [walkLink, hneg, hom.rightAt]
        have := ihr (fuel := fuel) (linked_onlyMatch hom h2) hx' (by omega) hm'
        rw [this, endOf_onlyMatch hom, visited_onlyMatch hom, visitNode_cmp]

theorem onlyMatch_foldl (r : Pos) (l : List Pos) (s : State) :
    OnlyMatch s (l.foldl (fun s q => visitNode r q s) s) := by
  induction l generalizing s with
  | nil => rfl
  | cons q l ih => exact (OnlyMatch.visit r q s).trans (ih _)

theorem matchLen_foldl (r : Pos) (l : List Pos) (s : State) (h : s.matchLen.toNat ≤ 18) :
    (l.foldl (fun s q => visitNode r q s) s).matchLen.toNat ≤ 18 := by
  induction l generalizing s with
  | nil => exact h
  | cons q l ih =>
    refine ih _ ?_
    have := compareKeys_bounds s r q
    rw [visitNode_matchLen]; omega

/-- R79, R80: IDX.SEARCH completes on every forest. -/
theorem searchIndex_spec {s : State} {f : Byte → Shape} (hf : Forest s f) (r : Pos) :
    ∃ t, searchIndex r s = .ok (endOf s r (rootLink (s.textAt r.toNat)) .pos (f (s.textAt r.toNat)), t) ∧
      OnlyMatch s t ∧ t.matchLen.toNat ≤ 18 ∧
      t = (visited s r (f (s.textAt r.toNat))).foldl (fun s q => visitNode r q s) { s with cmp := .pos, matchLen := 0 } := by
  have hom : OnlyMatch s { s with cmp := .pos, matchLen := 0 } := rfl
  have h := walk_spec r (f (s.textAt r.toNat)) (s := { s with cmp := .pos, matchLen := 0 })
    (y := rootLink (s.textAt r.toNat)) (x := s.rightAt (rootLink (s.textAt r.toNat)).toNat) (fuel := walkBound)
    (linked_onlyMatch hom (hf.linked _))
    (by
      show readRight _ _ = _
      rw [readRight_root]; rfl)
    (by
      have h1 := nodup_length_le (hf.nodup (s.textAt r.toNat))
      have h3 : walkBound = 4096 + 257 := rfl
      omega)
    (show (0 : Len).toNat < 18 by decide)
  rw [endOf_onlyMatch hom, visited_onlyMatch hom] at h
  exact ⟨_, h, hom.trans (onlyMatch_foldl ..), matchLen_foldl _ _ _ (show (0 : Len).toNat ≤ 18 by decide), rfl⟩

/-! ## IDX.INSERT (R81) -/

theorem endOf_full {s : State} {r q : Pos} {t : Shape} {y : Link} {c : Cmp} (h : endOf s r y c t = .full q)
    (hd : t.nodes.Nodup) : q ∈ t.nodes ∧ t.insertKey s r = t.substitute q r := by
  induction t generalizing y c with
  | leaf => simp [endOf] at h
  | node l p u ihl ihr =>
    rw [nodup_node] at hd
    obtain ⟨hdl, hdr, hpl, hpr, hlr⟩ := hd
    simp only [endOf] at h
    simp only [Shape.insertKey, Shape.substitute, nodes_node, List.mem_append, List.mem_cons]
    split at h
    · rename_i hc
      cases h
      rw [if_pos hc, if_pos rfl, substitute_of_not_mem hpl, substitute_of_not_mem hpr]
      exact ⟨.inr (.inl rfl), rfl⟩
    · rename_i hc
      rw [if_neg hc]
      split at h
      · rename_i hn
        obtain ⟨h1, h2⟩ := ihl h hdl
        rw [if_pos hn, h2, if_neg (by rintro rfl; exact hpl h1), substitute_of_not_mem (hlr q h1)]
        exact ⟨.inl h1, rfl⟩
      · rename_i hn
        obtain ⟨h1, h2⟩ := ihr h hdr
        rw [if_neg hn, h2, if_neg (by rintro rfl; exact hpr h1), substitute_of_not_mem (fun hm => hlr q hm h1)]
        exact ⟨.inr (.inr h1), rfl⟩

/-- The slot a walk ends at belongs to the holder of the tree or to one of its positions. -/
theorem endOf_slot {s : State} {r : Pos} {t : Shape} {y pl : Link} {c : Cmp} {sd : Side}
    (h : endOf s r y c t = .slot pl sd) :
    (t = .leaf ∧ pl = y ∧ sd = if c = .neg then .leftSide else .rightSide) ∨ ∃ w ∈ t.nodes, pl = w.link := by
  induction t generalizing y c with
  | leaf =>
    simp only [endOf, SearchResult.slot.injEq] at h
    exact .inl ⟨rfl, h.1.symm, h.2.symm⟩
  | node l p u ihl ihr =>
    right
    simp only [endOf] at h
    split at h
    · cases h
    · split at h
      · rcases ihl h with ⟨_, h1, _⟩ | ⟨w, hw, h1⟩
        · exact ⟨p, by simp, h1⟩
        · exact ⟨w, by simp [hw], h1⟩
      · rcases ihr h with ⟨_, h1, _⟩ | ⟨w, hw, h1⟩
        · exact ⟨p, by simp, h1⟩
        · exact ⟨w, by simp [hw], h1⟩

/-- The positions after an insertion at a slot: one more, `r`. -/
theorem insertKey_nodes {s : State} {r : Pos} {t : Shape} {y pl : Link} {c : Cmp} {sd : Side}
    (h : endOf s r y c t = .slot pl sd) : List.Perm (t.insertKey s r).nodes (r :: t.nodes) := by
  induction t generalizing y c with
  | leaf => exact .refl _
  | node l p u ihl ihr =>
    simp only [endOf] at h
    simp only [Shape.insertKey]
    split at h
    · cases h
    · rename_i hc
      rw [if_neg hc]
      split at h
      · rename_i hn
        rw [if_pos hn]
        exact (ihl h).append_right _
      · rename_i hn
        rw [if_neg hn]
        have := (((ihr h).cons p).trans (List.Perm.swap r p _)).append_left l.nodes
        exact this.trans List.perm_middle

/-- R81: a new leaf `r` at the slot the walk for `r` ends at links the tree with `r` inserted. -/
theorem linked_insert {s s' : State} {r : Pos} {pl : Link} {sd : Side} (hrp : s'.parentAt r.toNat = pl)
    (hrl : s'.leftAt r.toNat = Config.nil) (hrr : s'.rightAt r.toNat = Config.nil) (t : Shape) :
    ∀ {y x : Link} {c : Cmp}, endOf s r y c t = .slot pl sd → t.Linked s y x → t.nodes.Nodup →
    (∀ z ∈ t.nodes, s'.parentAt z.toNat = s.parentAt z.toNat) →
    (∀ z ∈ t.nodes, s'.leftAt z.toNat = if z.link = pl ∧ sd = .leftSide then r.link else s.leftAt z.toNat) →
    (∀ z ∈ t.nodes, s'.rightAt z.toNat = if z.link = pl ∧ sd = .rightSide then r.link else s.rightAt z.toNat) →
    (t.insertKey s r).Linked s' y (if t = .leaf then r.link else x) := by
  induction t with
  | leaf =>
    intro y x c he _ _ _ _ _
    simp only [endOf, SearchResult.slot.injEq] at he
    simp only [if_pos]
    exact ⟨rfl, hrp.trans he.1.symm, hrl, hrr⟩
  | node l p u ihl ihr =>
    intro y x c he h hd hp hl hr
    rw [nodup_node] at hd
    obtain ⟨hdl, hdr, hpl, hpr, hlr⟩ := hd
    obtain ⟨rfl, hy, h1, h2⟩ := h
    simp only [nodes_node, List.mem_append, List.mem_cons] at hp hl hr
    simp only [endOf] at he
    simp only [Shape.insertKey, reduceCtorEq, if_false]
    split at he
    · cases he
    rename_i hc
    rw [if_neg hc]
    -- a subtree that the slot does not belong to
    have keep : ∀ (v : Shape) (x : Link), v.Linked s p.link x → (∀ z ∈ v.nodes, z ∈ l.nodes ∨ z = p ∨ z ∈ u.nodes) →
        (∀ z ∈ v.nodes, z.link ≠ pl) → v.Linked s' p.link x := by
      intro v x hv hsub hne
      exact linked_congr hv
        (fun z hz => by rw [hl z (hsub z hz), if_neg (fun hh => hne z hz hh.1)])
        (fun z hz => by rw [hr z (hsub z hz), if_neg (fun hh => hne z hz hh.1)])
        (fun z hz => hp z (hsub z hz))
    split at he
    · rename_i hn
      rw [if_pos hn]
      have hslot := endOf_slot he
      have ih := ihl he h1 hdl (fun z hz => hp z (.inl hz)) (fun z hz => hl z (.inl hz)) (fun z hz => hr z (.inl hz))
      have hnu : ∀ z ∈ u.nodes, z.link ≠ pl := by
        intro z hz he'
        rcases hslot with ⟨_, h3, _⟩ | ⟨w, hw, h3⟩
        · rw [h3] at he'; exact hpr (link_injective he' ▸ hz)
        · rw [h3] at he'; exact hlr w hw (link_injective he' ▸ hz)
      refine ⟨rfl, (hp p (by simp)).trans hy, ?_, ?_⟩
      · have : s'.leftAt p.toNat = if l = .leaf then r.link else s.leftAt p.toNat := by
          rw [hl p (by simp)]
          rcases hslot with ⟨h4, h3, h5⟩ | ⟨w, hw, h3⟩
          · rw [if_pos hn] at h5
            rw [if_pos ⟨h3.symm, h5⟩, if_pos h4]
          · rw [if_neg, if_neg]
            · rintro rfl; simp at hw
            · rintro ⟨h4, _⟩
              rw [h3] at h4; exact hpl (link_injective h4 ▸ hw)
        rw [this]; exact ih
      · have : s'.rightAt p.toNat = s.rightAt p.toNat := by
          rw [hr p (by simp), if_neg]
          rintro ⟨h4, h5⟩
          rcases hslot with ⟨_, h3, h6⟩ | ⟨w, hw, h3⟩
          · rw [if_pos hn] at h6; rw [h6] at h5; cases h5
          · rw [h3] at h4; exact hpl (link_injective h4 ▸ hw)
        rw [this]
        exact keep u _ h2 (fun z hz => .inr (.inr hz)) hnu
    · rename_i hn
      rw [if_neg hn]
      have hslot := endOf_slot he
      have ih := ihr he h2 hdr (fun z hz => hp z (.inr (.inr hz))) (fun z hz => hl z (.inr (.inr hz)))
        (fun z hz => hr z (.inr (.inr hz)))
      have hnl : ∀ z ∈ l.nodes, z.link ≠ pl := by
        intro z hz he'
        rcases hslot with ⟨_, h3, _⟩ | ⟨w, hw, h3⟩
        · rw [h3] at he'; exact hpl (link_injective he' ▸ hz)
        · rw [h3] at he'; exact hlr z hz (link_injective he' ▸ hw)
      refine ⟨rfl, (hp p (by simp)).trans hy, ?_, ?_⟩
      · have : s'.leftAt p.toNat = s.leftAt p.toNat := by
          rw [hl p (by simp), if_neg]
          rintro ⟨h4, h5⟩
          rcases hslot with ⟨_, h3, h6⟩ | ⟨w, hw, h3⟩
          · rw [if_neg hn] at h6; rw [h6] at h5; cases h5
          · rw [h3] at h4; exact hpr (link_injective h4 ▸ hw)
        rw [this]
        exact keep l _ h1 (fun z hz => .inl hz) hnl
      · have : s'.rightAt p.toNat = if u = .leaf then r.link else s.rightAt p.toNat := by
          rw [hr p (by simp)]
          rcases hslot with ⟨h4, h3, h5⟩ | ⟨w, hw, h3⟩
          · rw [if_neg hn] at h5
            rw [if_pos ⟨h3.symm, h5⟩, if_pos h4]
          · rw [if_neg, if_neg]
            · rintro rfl; simp at hw
            · rintro ⟨h4, _⟩
              rw [h3] at h4; exact hpr (link_injective h4 ▸ hw)
        rw [this]; exact ih

/-- What IDX.INSERT changes: the links, CMP, MATCH_POS and MATCH_LEN. -/
def OnlyIndex (s t : State) : Prop :=
  t = { s with left := t.left, right := t.right, parent := t.parent, cmp := t.cmp, matchPos := t.matchPos,
               matchLen := t.matchLen }

theorem OnlyIndex.of_links {s t : State} (h : OnlyLinks s t) : OnlyIndex s t := by
  unfold OnlyLinks at h; unfold OnlyIndex; rw [h]

theorem OnlyIndex.of_match {s t : State} (h : OnlyMatch s t) : OnlyIndex s t := by
  unfold OnlyMatch at h; unfold OnlyIndex; rw [h]

theorem OnlyIndex.trans {s t u : State} (h1 : OnlyIndex s t) (h2 : OnlyIndex t u) : OnlyIndex s u := by
  unfold OnlyIndex at *
  rw [h2, h1]

/-- The forest with `r` inserted in the tree of its leading byte. -/
def insertForest (s : State) (r : Pos) (f : Byte → Shape) : Byte → Shape :=
  fun c => if c = s.textAt r.toNat then (f c).insertKey s r else f c

/-- R81: a new leaf at the slot the walk ended at makes the forest with `r` inserted. -/
theorem forest_insert {s s' : State} {f : Byte → Shape} (hf : Forest s f) {r : Pos} (hr : ¬ IsNode s r) {pl : Link}
    {sd : Side} (he : endOf s r (rootLink (s.textAt r.toNat)) .pos (f (s.textAt r.toNat)) = .slot pl sd)
    (hrp : s'.parentAt r.toNat = pl) (hrl : s'.leftAt r.toNat = Config.nil) (hrr : s'.rightAt r.toNat = Config.nil)
    (hp : ∀ z : Pos, z ≠ r → s'.parentAt z.toNat = s.parentAt z.toNat)
    (hl : ∀ z : Pos, z ≠ r → s'.leftAt z.toNat = if z.link = pl ∧ sd = .leftSide then r.link else s.leftAt z.toNat)
    (hri : ∀ z : Pos, z ≠ r → s'.rightAt z.toNat = if z.link = pl ∧ sd = .rightSide then r.link else s.rightAt z.toNat)
    (hroot : ∀ c, s'.rightAt (rootLink c).toNat =
      if rootLink c = pl then r.link else s.rightAt (rootLink c).toNat) : Forest s' (insertForest s r f) := by
  obtain ⟨b, hb⟩ : ∃ b, s.textAt r.toNat = b := ⟨_, rfl⟩
  rw [hb] at he
  have hnotin : ∀ c, ∀ z ∈ (f c).nodes, z ≠ r := by
    rintro c z hz rfl; exact hr (parent_ne_nil (hf.linked c) hz)
  have hslot := endOf_slot he
  have hperm := insertKey_nodes he
  have hmemb : ∀ z, z ∈ ((f b).insertKey s r).nodes ↔ z = r ∨ z ∈ (f b).nodes := by
    intro z; rw [hperm.mem_iff, List.mem_cons]
  have hfb : insertForest s r f b = (f b).insertKey s r := by simp [insertForest, hb]
  have hfc : ∀ c, c ≠ b → insertForest s r f c = f c := fun c hc => by simp [insertForest, hb, hc]
  have hlink : ∀ c, (insertForest s r f c).Linked s' (rootLink c) (s'.rightAt (rootLink c).toNat) := by
    intro c
    by_cases hc : c = b
    · subst hc
      have key := linked_insert hrp hrl hrr (f c) he (hf.linked c) (hf.nodup c)
        (fun z hz => hp z (hnotin c z hz)) (fun z hz => hl z (hnotin c z hz)) (fun z hz => hri z (hnotin c z hz))
      rw [hfb, hroot]
      have : (if rootLink c = pl then r.link else s.rightAt (rootLink c).toNat) =
          if f c = .leaf then r.link else s.rightAt (rootLink c).toNat := by
        rcases hslot with ⟨h1, h2, _⟩ | ⟨w, hw, h2⟩
        · rw [if_pos h1, if_pos h2.symm]
        · rw [if_neg (by rw [h2]; exact rootLink_ne_link _ _), if_neg (by intro hh; rw [hh] at hw; simp at hw)]
      rw [this]; exact key
    · rw [hfc c hc, hroot, if_neg]
      · have hne : ∀ z ∈ (f c).nodes, z.link ≠ pl := by
          intro z hz he'
          rcases hslot with ⟨_, h2, _⟩ | ⟨w, hw, h2⟩
          · rw [h2] at he'; exact rootLink_ne_link _ _ he'.symm
          · rw [h2] at he'; exact hc (hf.disjoint c b z hz (link_injective he' ▸ hw))
        exact linked_congr (hf.linked c)
          (fun z hz => by rw [hl z (hnotin c z hz), if_neg (fun hh => hne z hz hh.1)])
          (fun z hz => by rw [hri z (hnotin c z hz), if_neg (fun hh => hne z hz hh.1)])
          (fun z hz => hp z (hnotin c z hz))
      · rcases hslot with ⟨_, h2, _⟩ | ⟨w, _, h2⟩
        · rw [h2]; exact fun hh => hc (rootLink_injective hh)
        · rw [h2]; exact rootLink_ne_link _ _
  refine ⟨hlink, fun c => ?_, ?_, fun z => ⟨fun hz => ?_, fun ⟨c, hc⟩ => parent_ne_nil (hlink c) hc⟩⟩
  · by_cases hc : c = b
    · subst hc
      rw [hfb, hperm.nodup_iff, List.nodup_cons]
      exact ⟨fun hm => hnotin c r hm rfl, hf.nodup c⟩
    · rw [hfc c hc]; exact hf.nodup c
  · have aux : ∀ c z, c ≠ b → z ∈ (f c).nodes → z ∉ ((f b).insertKey s r).nodes := by
      intro c z hc hz hz'
      rcases (hmemb z).mp hz' with rfl | hz'
      · exact hnotin c z hz rfl
      · exact hc (hf.disjoint c b z hz hz')
    intro c d z hc hdz
    by_cases h1 : c = b <;> by_cases h2 : d = b
    · rw [h1, h2]
    · rw [hfc d h2] at hdz
      rw [h1, hfb] at hc
      exact absurd hc (aux d z h2 hdz)
    · rw [hfc c h1] at hc
      rw [h2, hfb] at hdz
      exact absurd hdz (aux c z h1 hc)
    · rw [hfc c h1] at hc
      rw [hfc d h2] at hdz
      exact hf.disjoint c d z hc hdz
  · by_cases hzr : z = r
    · exact ⟨b, by rw [hfb, hmemb]; exact .inl hzr⟩
    · rw [hp z hzr] at hz
      obtain ⟨c, hc⟩ := (hf.node_iff z).mp hz
      by_cases hcb : c = b
      · subst hcb
        exact ⟨c, by rw [hfb, hmemb]; exact .inr hc⟩
      · exact ⟨c, by rw [hfc c hcb]; exact hc⟩

/-- R81, R82, R85: IDX.INSERT of a position in no tree completes on every forest. -/
theorem insertNode_spec {s : State} (h : s.memWf = true) {f : Byte → Shape} (hf : Forest s f) {r : Pos}
    (hr : ¬ IsNode s r) :
    ∃ t, insertNode r s = .ok t ∧ t.memWf = true ∧ OnlyIndex s t ∧ t.matchLen.toNat ≤ 18 ∧
      Forest t (insertForest s r f) ∧
      (∀ z : Pos, z ≠ r → ¬ IsNode s z →
        t.leftAt z.toNat = s.leftAt z.toNat ∧ t.rightAt z.toNat = s.rightAt z.toNat) ∧
      (∃ u, OnlyLinks u t ∧ u = (visited s r (f (s.textAt r.toNat))).foldl (fun s q => visitNode r q s)
        { s with left := u.left, right := u.right, parent := u.parent, cmp := .pos, matchLen := 0 }) := by
  have hrn : s.parentAt r.toNat = Config.nil := not_not.mp hr
  obtain ⟨s1, hs1⟩ : ∃ s1, (s.setLeft r.toNat Config.nil).setRight r.toNat Config.nil = s1 := ⟨_, rfl⟩
  have hwfl := memWf_setLeft h (a := r.toNat) (by simp) Config.nil
  have hwf1 : s1.memWf = true := hs1 ▸ memWf_setRight hwfl (a := r.toNat) (by simp) Config.nil
  have hl1 : ∀ n, s1.leftAt n = if n = r.toNat then Config.nil else s.leftAt n := by
    intro n; rw [← hs1, setRight_leftAt, leftAt_setLeft h]
  have hr1 : ∀ n, s1.rightAt n = if n = r.toNat then Config.nil else s.rightAt n := by
    intro n; rw [← hs1, rightAt_setRight hwfl]; rfl
  have hp1 : ∀ n, s1.parentAt n = s.parentAt n := by
    intro n; rw [← hs1]; rfl
  have hol1 : OnlyLinks s s1 := by rw [← hs1]; exact (OnlyLinks.setLeft ..).trans (.setRight ..)
  have htext := hol1.textAt
  have hne : ∀ z : Pos, IsNode s z → z.toNat ≠ r.toNat := by
    intro z hz he; rw [toNat_inj] at he; exact hr (he ▸ hz)
  have hf1 : Forest s1 f := forest_congr hf (fun z hz => by rw [hl1, if_neg (hne z hz)])
    (fun z hz => by rw [hr1, if_neg (hne z hz)]) (fun b => by rw [hr1, if_neg (rootLink_ne_pos b r)])
    (fun z => hp1 z.toNat)
  obtain ⟨s2, hs2, hom2, hm2, hfold⟩ := searchIndex_spec hf1 r
  have hf2 : Forest s2 f := forest_congr hf1 (fun _ _ => hom2.leftAt _) (fun _ _ => hom2.rightAt _)
    (fun _ => hom2.rightAt _) (fun _ => hom2.parentAt _)
  have hwf2 : s2.memWf = true := hom2.memWf ▸ hwf1
  have hr2n : ¬ IsNode s2 r := by
    unfold IsNode; rw [hom2.parentAt, hp1]; exact hr
  have hend : ∀ (t : Shape) (y : Link) (c : Cmp), endOf s2 r y c t = endOf s1 r y c t :=
    fun t y c => endOf_onlyMatch hom2 r t y c
  have htext2 : ∀ a, s2.textAt a = s.textAt a := fun a => (hom2.textAt a).trans (htext a)
  have hvis : ∀ t, visited s1 r t = visited s r t := by
    intro t
    induction t with
    | leaf => rfl
    | node l p u ihl ihr => simp only [visited, compareKeys_congr htext, ihl, ihr]
  have hinsert : insertForest s2 r f = insertForest s r f := by
    funext c
    simp only [insertForest, htext2, insertKey_congr htext2]
  have hlr2 : ∀ z : Pos, z ≠ r → s2.leftAt z.toNat = s.leftAt z.toNat ∧ s2.rightAt z.toNat = s.rightAt z.toNat := by
    intro z hz
    have : z.toNat ≠ r.toNat := by rwa [Ne, toNat_inj]
    rw [hom2.leftAt, hom2.rightAt, hl1, hr1, if_neg this, if_neg this]
    exact ⟨rfl, rfl⟩
  have hu2 : s2 = (visited s r (f (s.textAt r.toNat))).foldl (fun s q => visitNode r q s)
        { s with left := s2.left, right := s2.right, parent := s2.parent, cmp := .pos, matchLen := 0 } := by
    rw [hvis, htext] at hfold
    have : ({ s1 with cmp := .pos, matchLen := 0 } : State) =
        { s with left := s2.left, right := s2.right, parent := s2.parent, cmp := .pos, matchLen := 0 } := by
      have e : s2.left = s1.left ∧ s2.right = s1.right ∧ s2.parent = s1.parent := by
        rw [hom2]; exact ⟨rfl, rfl, rfl⟩
      rw [e.1, e.2.1, e.2.2, hol1]
    rw [this] at hfold
    exact hfold
  have hrun : insertNode r s = (match endOf s1 r (rootLink (s1.textAt r.toNat)) .pos (f (s1.textAt r.toNat)) with
      | .slot p side => spliceLeaf r p side s2
      | .full p => replaceNode r p s2) := by
    simp only [insertNode, if_neg (not_not.mpr hrn), writeLeft_link, writeRight_link, ok_bind]
    rw [hs1, hs2]
    rfl
  rw [hrun]
  cases hcase : endOf s1 r (rootLink (s1.textAt r.toNat)) .pos (f (s1.textAt r.toNat)) with
  | full p =>
    obtain ⟨hpm, hins⟩ := endOf_full hcase (hf.nodup _)
    obtain ⟨t, ht, hwft, holt, hft, -, -, hdead⟩ := replaceNode_spec hwf2 hf2 hpm hr2n
    refine ⟨t, ht, hwft, ((OnlyIndex.of_links hol1).trans (.of_match hom2)).trans (.of_links holt), ?_, ?_, ?_,
      s2, holt, hu2⟩
    · rw [holt]; exact hm2
    · have : (fun c => (f c).substitute p r) = insertForest s r f := by
        funext c
        simp only [insertForest]
        by_cases hc : c = s.textAt r.toNat
        · rw [if_pos hc]
          rw [htext, ← hc] at hins
          rw [← hins, insertKey_congr htext]
        · rw [if_neg hc]
          refine substitute_of_not_mem fun hm => hc ?_
          rw [← htext]
          exact hf.disjoint _ _ p hm hpm
      rw [← this]; exact hft
    · intro z hz hn
      have hn2 : ¬ IsNode s2 z := by unfold IsNode; rw [hom2.parentAt, hp1]; exact hn
      rw [(hdead z hz hn2).1, (hdead z hz hn2).2]
      exact hlr2 z hz
  | slot pl sd =>
    have he2 : endOf s2 r (rootLink (s2.textAt r.toNat)) .pos (f (s2.textAt r.toNat)) = .slot pl sd := by
      rw [hend, hom2.textAt]; exact hcase
    have hslot := endOf_slot he2
    have hrr : s2.leftAt r.toNat = Config.nil ∧ s2.rightAt r.toNat = Config.nil := by
      rw [hom2.leftAt, hom2.rightAt, hl1, hr1, if_pos rfl, if_pos rfl]; exact ⟨rfl, rfl⟩
    -- the write of the child slot
    obtain ⟨s3, hs3, hwf3, hol3, hp3, hl3, hR3, hroot3⟩ : ∃ s3,
        (match sd with | .rightSide => writeRight pl r.link s2 | .leftSide => writeLeft pl r.link s2) = .ok s3 ∧
        s3.memWf = true ∧ OnlyLinks s2 s3 ∧ (∀ n, s3.parentAt n = s2.parentAt n) ∧
        (∀ z : Pos, s3.leftAt z.toNat = if z.link = pl ∧ sd = .leftSide then r.link else s2.leftAt z.toNat) ∧
        (∀ z : Pos, s3.rightAt z.toNat = if z.link = pl ∧ sd = .rightSide then r.link else s2.rightAt z.toNat) ∧
        (∀ c, s3.rightAt (rootLink c).toNat = if rootLink c = pl then r.link else s2.rightAt (rootLink c).toNat) := by
      rcases hslot with ⟨_, h2, h3⟩ | ⟨w, hw, h2⟩
      · rw [if_neg (by decide)] at h3
        subst h2; subst h3
        refine ⟨s2.setRight (rootLink (s2.textAt r.toNat)).toNat r.link, by simp, memWf_setRight hwf2 (by simp) _,
          .setRight .., fun _ => rfl, fun z => ?_, fun z => ?_, fun c => ?_⟩
        · rw [if_neg (by simp)]; rfl
        · rw [rightAt_setRight hwf2, if_neg (rootLink_ne_pos _ z).symm, if_neg]
          rintro ⟨hh, _⟩; exact rootLink_ne_link _ _ hh.symm
        · rw [rightAt_setRight hwf2]
          by_cases hc : c = s2.textAt r.toNat
          · rw [hc, if_pos rfl, if_pos rfl]
          · rw [if_neg, if_neg (fun hh => hc (rootLink_injective hh))]
            rw [rootLink_toNat, rootLink_toNat]
            intro hh; exact hc (BitVec.eq_of_toNat_eq (by omega))
      · subst h2
        cases sd with
        | leftSide =>
          refine ⟨s2.setLeft w.toNat r.link, by simp, memWf_setLeft hwf2 (by simp) _, .setLeft .., fun _ => rfl,
            fun z => ?_, fun z => ?_, fun c => ?_⟩
          · rw [leftAt_setLeft hwf2]; simp [toNat_inj]
          · rw [if_neg (by simp)]; rfl
          · rw [if_neg (rootLink_ne_link _ _)]; rfl
        | rightSide =>
          refine ⟨s2.setRight w.toNat r.link, by simp, memWf_setRight hwf2 (by simp) _, .setRight .., fun _ => rfl,
            fun z => ?_, fun z => ?_, fun c => ?_⟩
          · rw [if_neg (by simp)]; rfl
          · rw [rightAt_setRight hwf2]; simp [toNat_inj]
          · rw [rightAt_setRight hwf2, if_neg (rootLink_ne_pos _ _), if_neg (rootLink_ne_link _ _)]
    have hplr : pl ≠ r.link := by
      rcases hslot with ⟨_, h2, _⟩ | ⟨w, hw, h2⟩
      · rw [h2]; exact rootLink_ne_link _ _
      · rw [h2]; intro hh
        exact hr2n (link_injective hh ▸ parent_ne_nil (hf2.linked _) hw)
    have hwf4 := memWf_setParent hwf3 (a := r.toNat) (by simp) pl
    have hol4 : OnlyLinks s2 (s3.setParent r.toNat pl) := hol3.trans (.setParent ..)
    refine ⟨s3.setParent r.toNat pl, ?_, hwf4,
      ((OnlyIndex.of_links hol1).trans (.of_match hom2)).trans (.of_links hol4), ?_, ?_, ?_, s2, hol4, hu2⟩
    · show spliceLeaf r pl sd s2 = _
      unfold spliceLeaf
      cases sd with
      | leftSide => 
        replace hs3 : writeLeft pl r.link s2 = .ok s3 := hs3
        simp [hs3]
      | rightSide =>
        replace hs3 : writeRight pl r.link s2 = .ok s3 := hs3
        simp [hs3]
    · rw [hol4]; exact hm2
    · rw [← hinsert]
      refine forest_insert hf2 hr2n he2 ?_ ?_ ?_ ?_ ?_ ?_ ?_
      · rw [parentAt_setParent hwf3, if_pos rfl]
      · rw [setParent_leftAt, hl3, if_neg (fun hh => hplr hh.1.symm), hrr.1]
      · rw [setParent_rightAt, hR3, if_neg (fun hh => hplr hh.1.symm), hrr.2]
      · intro z hz
        rw [parentAt_setParent hwf3, if_neg (by rwa [Ne, toNat_inj] at *), hp3]
      · intro z _; exact hl3 z
      · intro z _; exact hR3 z
      · intro c; exact hroot3 c
    · intro z hz hn
      have hzp : z.link ≠ pl := by
        rcases hslot with ⟨_, h2, _⟩ | ⟨w, hw, h2⟩
        · rw [h2]; exact (rootLink_ne_link _ _).symm
        · rw [h2]; intro hh
          have := parent_ne_nil (hf2.linked _) hw
          rw [← link_injective hh, hom2.parentAt, hp1] at this
          exact hn this
      rw [setParent_leftAt, setParent_rightAt, hl3, hR3, if_neg (fun hh => hzp hh.1), if_neg (fun hh => hzp hh.1)]
      exact hlr2 z hz

/-! ## The match state IDX.INSERT leaves (R79 to R81) -/

/-- The match state of `t` is that of `u`. -/
def SameMatch (t u : State) : Prop := t.cmp = u.cmp ∧ t.matchPos = u.matchPos ∧ t.matchLen = u.matchLen

/-- R79: what a visit leaves in the match state depends on TEXT and the match state alone. -/
theorem SameMatch.visit {t u : State} (h : SameMatch t u) (ht : ∀ a, t.textAt a = u.textAt a) (r q : Pos) :
    SameMatch (visitNode r q t) (visitNode r q u) := by
  unfold visitNode betterMatch
  rw [compareKeys_congr ht, h.2.2]
  split
  · exact ⟨rfl, rfl, rfl⟩
  · exact ⟨rfl, h.2.1, rfl⟩

theorem SameMatch.foldl {t u : State} (h : SameMatch t u) (ht : ∀ a, t.textAt a = u.textAt a) (r : Pos) (l : List Pos) :
    SameMatch (l.foldl (fun s q => visitNode r q s) t) (l.foldl (fun s q => visitNode r q s) u) := by
  induction l generalizing t u with
  | nil => exact h
  | cons q l ih =>
    exact ih (h.visit ht r q) fun a => by rw [(OnlyMatch.visit r q t).textAt, (OnlyMatch.visit r q u).textAt, ht]

/-- R81: IDX.INSERT leaves the match state that IDX.SEARCH leaves on the same state. -/
theorem insertNode_search {s t : State} (h : s.memWf = true) {f : Byte → Shape} (hf : Forest s f) {r : Pos}
    (hr : ¬ IsNode s r) (ht : insertNode r s = .ok t) :
    ∃ result u, searchIndex r s = .ok (result, u) ∧ SameMatch t u := by
  obtain ⟨t', ht', -, -, -, -, -, v, hv, hfold⟩ := insertNode_spec h hf hr
  obtain rfl : t = t' := Except.ok.inj (ht.symm.trans ht')
  obtain ⟨u, hu, -, -, hu'⟩ := searchIndex_spec hf r
  refine ⟨_, u, hu, ?_⟩
  have hm : SameMatch v u := by
    rw [hfold, hu']
    exact SameMatch.foldl (t := { s with left := v.left, right := v.right, parent := v.parent, cmp := .pos, matchLen := 0 })
      (u := { s with cmp := .pos, matchLen := 0 }) ⟨rfl, rfl, rfl⟩ (fun _ => rfl) r _
  rw [hv]
  exact hm

/-- R79: on a tree the probe path is the nodes visited. -/
theorem probePath_linked {s : State} (r : Pos) (t : Shape) : ∀ {y x : Link} {c : Cmp} {fuel : Nat}, t.Linked s y x →
    (if c = .neg then s.leftAt y.toNat else s.rightAt y.toNat) = x → t.nodes.length ≤ fuel →
    probePath s r fuel y c = visited s r t := by
  induction t with
  | leaf =>
    intro y x c fuel h hx _
    replace h : x = Config.nil := h
    cases fuel with
    | zero => rfl
    | succ fuel => simp [probePath, hx, h, visited]
  | node l p u ihl ihr =>
    intro y x c fuel h hx hf
    simp only [nodes_node, List.length_append, List.length_cons] at hf
    obtain ⟨fuel, rfl⟩ : ∃ k, fuel = k + 1 := ⟨fuel - 1, by omega⟩
    obtain ⟨rfl, -, h1, h2⟩ := h
    simp only [probePath, hx, link_ne_nil, if_false, ringOf_link, visited]
    congr 1
    split
    · rfl
    split
    · rename_i hn
      exact ihl h1 (by rw [if_pos hn, link_toNat]) (by omega)
    · rename_i hn
      exact ihr h2 (by rw [if_neg hn, link_toNat]) (by omega)

/-- R79, R80: on a forest the probe path of the walk from the root sentinel is the nodes visited. -/
theorem probePath_forest {s : State} {f : Byte → Shape} (hf : Forest s f) (r : Pos) :
    probePath s r 4096 (rootLink (s.textAt r.toNat)) .pos = visited s r (f (s.textAt r.toNat)) := by
  exact probePath_linked r _ (hf.linked _) rfl (nodup_length_le (hf.nodup _))

end Sys2Proof.Laws
end

