-- ==== Sys2Proof/Laws/Frames.lean ====
section
/-! SUPPORT. On every state, forest or not: what the shared operations of the Match Index, the token encoder and the
sequencers leave unchanged when they answer, and that they keep the canonical form. -/

namespace Sys2Proof.Laws

open Sys2Proof.Machine Sys2Proof.Safety

/-- Only links change, and the canonical form is kept. -/
structure LinkStep (s t : State) : Prop where
  only : OnlyLinks s t
  mem_wf : s.memWf = true → t.memWf = true

theorem LinkStep.refl (s : State) : LinkStep s s := ⟨.refl s, id⟩

theorem LinkStep.trans {s t u : State} (h1 : LinkStep s t) (h2 : LinkStep t u) : LinkStep s u :=
  ⟨h1.only.trans h2.only, fun h => h2.mem_wf (h1.mem_wf h)⟩

theorem writeLeft_step {s t : State} {x v : Link} (h : writeLeft x v s = .ok t) : LinkStep s t := by
  obtain ⟨hx, rfl⟩ := writeLeft_eq_ok.mp h
  exact ⟨.setLeft .., fun hw => memWf_setLeft hw hx v⟩

theorem writeRight_step {s t : State} {x v : Link} (h : writeRight x v s = .ok t) : LinkStep s t := by
  obtain ⟨hx, rfl⟩ := writeRight_eq_ok.mp h
  exact ⟨.setRight .., fun hw => memWf_setRight hw hx v⟩

theorem writeParent_step {s t : State} {x v : Link} (h : writeParent x v s = .ok t) : LinkStep s t := by
  obtain ⟨hx, rfl⟩ := writeParent_eq_ok.mp h
  exact ⟨.setParent .., fun hw => memWf_setParent hw hx v⟩

theorem linkParent_step {s t : State} {x v : Link} (h : linkParent x v s = .ok t) : LinkStep s t := by
  rcases linkParent_eq_ok.mp h with ⟨_, rfl⟩ | ⟨_, hx, rfl⟩
  · exact .refl _
  · exact ⟨.setParent .., fun hw => memWf_setParent hw hx v⟩

theorem replaceChild_step {s t : State} {p v : Link} (h : replaceChild p v s = .ok t) : LinkStep s t := by
  simp only [replaceChild, bind_eq_ok] at h
  obtain ⟨y, _, c, _, h⟩ := h
  split at h
  · exact writeRight_step h
  · exact writeLeft_step h

theorem spliceOut_step {s t : State} {q p : Link} (h : spliceOut q p s = .ok t) : LinkStep s t := by
  simp only [spliceOut, bind_eq_ok] at h
  obtain ⟨_, _, _, _, s1, h1, _, _, _, _, s2, h2, _, _, s3, h3, _, _, h4⟩ := h
  exact ((writeRight_step h1).trans (linkParent_step h2)).trans ((writeLeft_step h3).trans (linkParent_step h4))

theorem graftPredecessor_step {s t : State} {p q : Link} (h : graftPredecessor p s = .ok (q, t)) : LinkStep s t := by
  simp only [graftPredecessor, bind_eq_ok] at h
  obtain ⟨_, _, q', _, h⟩ := h
  split at h
  · simp only [pure_eq_ok, bind_eq_ok, Except.ok.injEq, Prod.mk.injEq] at h
    obtain ⟨s0, rfl, _, _, s2, h2, _, _, s3, h3, _, rfl⟩ := h
    exact (writeRight_step h2).trans (linkParent_step h3)
  · simp only [pure_eq_ok, bind_eq_ok, Except.ok.injEq, Prod.mk.injEq] at h
    obtain ⟨s1, h1, _, _, s2, h2, _, _, s3, h3, _, rfl⟩ := h
    exact (spliceOut_step h1).trans ((writeRight_step h2).trans (linkParent_step h3))

theorem successor_step {s t : State} {p q : Link} (h : successor p s = .ok (q, t)) : LinkStep s t := by
  simp only [successor, bind_eq_ok] at h
  obtain ⟨_, _, _, _, h⟩ := h
  split at h
  · cases h; exact .refl _
  · split at h
    · cases h; exact .refl _
    · exact graftPredecessor_step h

/-- R83: IDX.DELETE changes links only. -/
theorem deleteNode_step {s t : State} {p : Pos} (h : deleteNode p s = .ok t) : LinkStep s t := by
  unfold deleteNode at h
  split at h
  · cases h; exact .refl _
  · simp only [bind_eq_ok, Prod.exists] at h
    obtain ⟨q, s1, h1, _, _, s2, h2, s3, h3, h4⟩ := h
    exact ((successor_step h1).trans (linkParent_step h2)).trans ((replaceChild_step h3).trans (writeParent_step h4))

/-- R82: IDX.REPLACE changes links only. -/
theorem replaceNode_step {s t : State} {r p : Pos} (h : replaceNode r p s = .ok t) : LinkStep s t := by
  unfold replaceNode at h
  split at h
  · cases h
  · split at h
    · cases h
    · simp only [bind_eq_ok] at h
      obtain ⟨_, _, s1, h1, _, _, s2, h2, _, _, s3, h3, _, _, s4, h4, _, _, s5, h5, s6, h6, h7⟩ := h
      exact (((writeParent_step h1).trans (writeLeft_step h2)).trans ((writeRight_step h3).trans
        (linkParent_step h4))).trans ((linkParent_step h5).trans ((replaceChild_step h6).trans (writeParent_step h7)))

theorem spliceLeaf_step {s t : State} {r : Pos} {p : Link} {side : Side} (h : spliceLeaf r p side s = .ok t) :
    LinkStep s t := by
  unfold spliceLeaf at h
  cases side with
  | leftSide =>
    simp only [bind_eq_ok] at h
    obtain ⟨s1, h1, h2⟩ := h
    exact (writeLeft_step h1).trans (writeParent_step h2)
  | rightSide =>
    simp only [bind_eq_ok] at h
    obtain ⟨s1, h1, h2⟩ := h
    exact (writeRight_step h1).trans (writeParent_step h2)

/-- R79: the walk changes CMP, MATCH_POS and MATCH_LEN only. -/
theorem walk_onlyMatch {r : Pos} {result : SearchResult} {t : State} : ∀ {fuel : Nat} {p : Link} {s : State},
    walk r fuel p s = .ok (result, t) → OnlyMatch s t := by
  intro fuel
  induction fuel with
  | zero => intro p s h; cases h
  | succ fuel ih =>
    intro p s h
    simp only [walk, bind_eq_ok] at h
    obtain ⟨q, _, h⟩ := h
    split at h
    · cases h; rfl
    · simp only [bind_eq_ok] at h
      obtain ⟨n, _, h⟩ := h
      split at h
      · cases h; exact OnlyMatch.visit ..
      · exact (OnlyMatch.visit ..).trans (ih h)

theorem searchIndex_onlyMatch {r : Pos} {result : SearchResult} {s t : State} (h : searchIndex r s = .ok (result, t)) :
    OnlyMatch s t :=
  OnlyMatch.trans (t := { s with cmp := .pos, matchLen := 0 }) rfl (walk_onlyMatch h)

/-- What IDX.INSERT may change, with the canonical form kept. -/
structure IndexStep (s t : State) : Prop where
  only : OnlyIndex s t
  mem_wf : s.memWf = true → t.memWf = true

theorem IndexStep.refl (s : State) : IndexStep s s := ⟨rfl, id⟩

theorem IndexStep.trans {s t u : State} (h1 : IndexStep s t) (h2 : IndexStep t u) : IndexStep s u :=
  ⟨h1.only.trans h2.only, fun h => h2.mem_wf (h1.mem_wf h)⟩

theorem IndexStep.of_links {s t : State} (h : LinkStep s t) : IndexStep s t := ⟨.of_links h.only, h.mem_wf⟩

theorem IndexStep.of_match {s t : State} (h : OnlyMatch s t) : IndexStep s t :=
  ⟨.of_match h, fun hw => h.memWf.trans hw⟩

/-- R81: IDX.INSERT changes links, CMP, MATCH_POS and MATCH_LEN only. -/
theorem insertNode_step {s t : State} {r : Pos} (h : insertNode r s = .ok t) : IndexStep s t := by
  unfold insertNode at h
  split at h
  · cases h
  · simp only [bind_eq_ok, Prod.exists] at h
    obtain ⟨s1, h1, s2, h2, result, s3, h3, h4⟩ := h
    have h13 := ((IndexStep.of_links (writeLeft_step h1)).trans (.of_links (writeRight_step h2))).trans
      (.of_match (searchIndex_onlyMatch h3))
    cases result with
    | slot p side => exact h13.trans (.of_links (spliceLeaf_step h4))
    | full p => exact h13.trans (.of_links (replaceNode_step h4))

theorem insertBack_step {t : State} : ∀ {n i : Nat} {s : State}, insertBack n i s = .ok t → IndexStep s t := by
  intro n
  induction n with
  | zero => intro i s h; cases h; exact .refl _
  | succ n ih =>
    intro i s h
    simp only [insertBack, bind_eq_ok] at h
    obtain ⟨s1, h1, h2⟩ := h
    exact (insertNode_step h1).trans (ih h2)

/-! ## Token encoder -/

/-- What the token encoder may change, with the canonical form kept. -/
structure TokenStep (s t : State) : Prop where
  only : t = { s with codebuf := t.codebuf, codePtr := t.codePtr, mask := t.mask, out := t.out }
  mem_wf : s.memWf = true → t.memWf = true

theorem TokenStep.refl (s : State) : TokenStep s s := ⟨rfl, id⟩

theorem TokenStep.trans {s t u : State} (h1 : TokenStep s t) (h2 : TokenStep t u) : TokenStep s u :=
  ⟨by rw [h2.only, h1.only], fun h => h2.mem_wf (h1.mem_wf h)⟩

theorem writeCode_step {s t : State} {a : Nat} {v : Byte} (h : writeCode a v s = .ok t) : TokenStep s t := by
  obtain ⟨ha, rfl⟩ := writeCode_eq_ok.mp h
  exact ⟨rfl, fun hw => memWf_setCode hw (exists_codebuf_iff.mpr ha) v⟩

theorem resetGroup_step (s : State) : TokenStep s (resetGroup s) :=
  ⟨rfl, fun hw => memWf_setCode hw (exists_codebuf_iff.mpr (by decide)) 0⟩

theorem packLiteral_step {s t : State} {b : Byte} (h : packLiteral b s = .ok t) : TokenStep s t := by
  simp only [packLiteral, bind_eq_ok, pure_eq_ok, Except.ok.injEq] at h
  obtain ⟨s1, h1, s2, h2, rfl⟩ := h
  exact ((writeCode_step h1).trans (writeCode_step h2)).trans ⟨rfl, id⟩

theorem packReference_step {s t : State} {pos : Pos} {len : Nat} (h : packReference pos len s = .ok t) :
    TokenStep s t := by
  unfold packReference at h
  split at h
  · simp only [bind_eq_ok, pure_eq_ok, Except.ok.injEq] at h
    obtain ⟨s1, h1, s2, h2, rfl⟩ := h
    exact ((writeCode_step h1).trans (writeCode_step h2)).trans ⟨rfl, id⟩
  · cases h

theorem closeToken_step {s t : State} (h : closeToken s = .ok t) : TokenStep s t := by
  unfold closeToken at h
  have h0 : TokenStep s { s with mask := shiftMask s.mask } := ⟨rfl, id⟩
  dsimp only at h
  split at h
  · simp only [bind_eq_ok, pure_eq_ok, Except.ok.injEq] at h
    obtain ⟨bs, _, rfl⟩ := h
    exact (h0.trans (u := appendAll bs { s with mask := shiftMask s.mask }) ⟨rfl, id⟩).trans (resetGroup_step _)
  · cases h; exact h0

theorem flushGroup_step {s t : State} (h : flushGroup s = .ok t) : TokenStep s t := by
  unfold flushGroup at h
  split at h
  · simp only [bind_eq_ok, pure_eq_ok, Except.ok.injEq] at h
    obtain ⟨bs, _, rfl⟩ := h
    exact ⟨rfl, id⟩
  · cases h; exact .refl _

/-! ## Window -/

theorem memWf_emitByte {s : State} (h : s.memWf = true) (c : Byte) : (emitByte c s).memWf = true :=
  memWf_windowSet (s := appendOut c s) h _ c

theorem memWf_copyBytes (pos : Nat) : ∀ (n k : Nat) {s : State}, s.memWf = true → (copyBytes pos n k s).memWf = true := by
  intro n
  induction n with
  | zero => intro k s h; exact h
  | succ n ih => intro k s h; exact ih _ (memWf_emitByte h _)

theorem memWf_loadLookahead : ∀ (n : Nat) {s : State}, s.memWf = true → (loadLookahead n s).memWf = true := by
  intro n
  induction n with
  | zero => intro s h; exact h
  | succ n ih =>
    intro s h
    unfold loadLookahead
    split
    · split
      · rename_i b s' he
        have hw : s'.memWf = true := by
          unfold inNext at he
          split at he <;> cases he
          exact h
        exact ih (memWf_windowSet (s := s') hw (s.rCur.toNat + s.len.toNat) b)
      · exact h
    · exact h

end Sys2Proof.Laws
end

