-- ==== Sys2Proof/Laws/PerInstr.lean ====
section
/-! SUPPORT. Statements made per instruction: the number of bytes of its encoding. -/

namespace Sys2Proof.Laws.EncodedSize

/-- The bytes an instruction takes: one for a control byte, a literal, a command or an operation number, two for a
reference token (R54 to R56), and the operand bytes of an operation (log 3). -/
def size : Instr → Nat
  | .ctrl _ => 1
  | .lit _ => 1
  | .ref _ _ => 2
  | .winFill => 1
  | .winGet _ => 3
  | .winSet _ _ => 4
  | .winKeyb _ _ => 4
  | .idxClear => 1
  | .cmpKey _ _ => 5
  | .idxSearch _ => 3
  | .idxInsert _ => 3
  | .idxReplace _ _ => 5
  | .idxDelete _ => 3
  | .tokReset => 1
  | .tokLit _ => 2
  | .tokRef _ _ => 3
  | .tokNext => 1
  | .tokFlush => 1
  | .encStart => 1
  | .encLoad => 1
  | .encPreinsert => 1
  | .encStep => 1
  | .encAdvance => 1
  | .encDrain => 1
  | .encFinish => 1
  | .decStart => 1
  | .decCtrl => 1
  | .decLit => 1
  | .decRef => 1
  | .decStop => 1
  | .compress => 1
  | .decompress => 1
  | .cmdNone => 1
  | .cmdIgnored => 1

/-- An instruction has exactly the bytes of its size, and never more than five. -/
def Statement (i : Instr) : Prop := (encode i).length = size i ∧ size i ≤ 5

theorem ctrl (k : Byte) : Statement (.ctrl k) := ⟨rfl, Nat.le_of_ble_eq_true rfl⟩
theorem lit (b : Byte) : Statement (.lit b) := ⟨rfl, Nat.le_of_ble_eq_true rfl⟩
theorem ref (pos : Pos) (len : Nat) : Statement (.ref pos len) := ⟨rfl, Nat.le_of_ble_eq_true rfl⟩
theorem winFill : Statement (.winFill) := ⟨rfl, Nat.le_of_ble_eq_true rfl⟩
theorem winGet (pos : Nat) : Statement (.winGet pos) := ⟨rfl, Nat.le_of_ble_eq_true rfl⟩
theorem winSet (pos : Nat) (b : Byte) : Statement (.winSet pos b) := ⟨rfl, Nat.le_of_ble_eq_true rfl⟩
theorem winKeyb (p : Pos) (j : Nat) : Statement (.winKeyb p j) := ⟨rfl, Nat.le_of_ble_eq_true rfl⟩
theorem idxClear : Statement (.idxClear) := ⟨rfl, Nat.le_of_ble_eq_true rfl⟩
theorem cmpKey (r : Pos) (p : Pos) : Statement (.cmpKey r p) := ⟨rfl, Nat.le_of_ble_eq_true rfl⟩
theorem idxSearch (r : Pos) : Statement (.idxSearch r) := ⟨rfl, Nat.le_of_ble_eq_true rfl⟩
theorem idxInsert (r : Pos) : Statement (.idxInsert r) := ⟨rfl, Nat.le_of_ble_eq_true rfl⟩
theorem idxReplace (r : Pos) (p : Pos) : Statement (.idxReplace r p) := ⟨rfl, Nat.le_of_ble_eq_true rfl⟩
theorem idxDelete (p : Pos) : Statement (.idxDelete p) := ⟨rfl, Nat.le_of_ble_eq_true rfl⟩
theorem tokReset : Statement (.tokReset) := ⟨rfl, Nat.le_of_ble_eq_true rfl⟩
theorem tokLit (b : Byte) : Statement (.tokLit b) := ⟨rfl, Nat.le_of_ble_eq_true rfl⟩
theorem tokRef (pos : Pos) (len : Nat) : Statement (.tokRef pos len) := ⟨rfl, Nat.le_of_ble_eq_true rfl⟩
theorem tokNext : Statement (.tokNext) := ⟨rfl, Nat.le_of_ble_eq_true rfl⟩
theorem tokFlush : Statement (.tokFlush) := ⟨rfl, Nat.le_of_ble_eq_true rfl⟩
theorem encStart : Statement (.encStart) := ⟨rfl, Nat.le_of_ble_eq_true rfl⟩
theorem encLoad : Statement (.encLoad) := ⟨rfl, Nat.le_of_ble_eq_true rfl⟩
theorem encPreinsert : Statement (.encPreinsert) := ⟨rfl, Nat.le_of_ble_eq_true rfl⟩
theorem encStep : Statement (.encStep) := ⟨rfl, Nat.le_of_ble_eq_true rfl⟩
theorem encAdvance : Statement (.encAdvance) := ⟨rfl, Nat.le_of_ble_eq_true rfl⟩
theorem encDrain : Statement (.encDrain) := ⟨rfl, Nat.le_of_ble_eq_true rfl⟩
theorem encFinish : Statement (.encFinish) := ⟨rfl, Nat.le_of_ble_eq_true rfl⟩
theorem decStart : Statement (.decStart) := ⟨rfl, Nat.le_of_ble_eq_true rfl⟩
theorem decCtrl : Statement (.decCtrl) := ⟨rfl, Nat.le_of_ble_eq_true rfl⟩
theorem decLit : Statement (.decLit) := ⟨rfl, Nat.le_of_ble_eq_true rfl⟩
theorem decRef : Statement (.decRef) := ⟨rfl, Nat.le_of_ble_eq_true rfl⟩
theorem decStop : Statement (.decStop) := ⟨rfl, Nat.le_of_ble_eq_true rfl⟩
theorem compress : Statement (.compress) := ⟨rfl, Nat.le_of_ble_eq_true rfl⟩
theorem decompress : Statement (.decompress) := ⟨rfl, Nat.le_of_ble_eq_true rfl⟩
theorem cmdNone : Statement (.cmdNone) := ⟨rfl, Nat.le_of_ble_eq_true rfl⟩
theorem cmdIgnored : Statement (.cmdIgnored) := ⟨rfl, Nat.le_of_ble_eq_true rfl⟩

end Sys2Proof.Laws.EncodedSize
end

