-- ==== Sys2Proof/Tests/Slice0.lean ====
section
/-! SUPPORT. The model's own tests. Expected values are worked out from the rules, or are those of
spec/95_test_vectors.md (V-FMT, V-WIN, V-CMP, V-IDX, V-TOK, V-ENC, V-DEC, V-HOST), named at each test. -/

namespace Sys2Proof.Tests

open Sys2Proof.Machine Sys2Proof.Safety

/-! ## Helpers -/

/-- What `q` reads in the state after `i`, if there is one. -/
def after {α : Type} (i : Instr) (s : State) (q : State → α) : Option α :=
  match exec i s with
  | .next t => some (q t)
  | .fault _ => none
  | .refused _ => none

/-- Why `i` is refused, if it is. -/
def why (i : Instr) (s : State) : Option Refusal :=
  match exec i s with
  | .next _ => none
  | .fault _ => none
  | .refused r => some r

/-- What `q` reads in the state after one step, if there is one. -/
def afterStep {α : Type} (s : State) (q : State → α) : Option α :=
  match step s with
  | .next t => some (q t)
  | .fault _ => none
  | .refused _ => none

/-- `LEFT[x]`, `RIGHT[x]`, `PARENT[x]`. -/
def links (x : Pos) (s : State) : Link × Link × Link :=
  (s.leftAt x.toNat, s.rightAt x.toNat, s.parentAt x.toNat)

/-- The seven keys of V-IDX, in their places. -/
def keyed : State :=
  { State.reset with text := [(0x100, 0x6B), (0x101, 0x4D), (0x200, 0x6B), (0x201, 0x46), (0x300, 0x6B), (0x301, 0x54),
      (0x400, 0x6B), (0x401, 0x43), (0x500, 0x6B), (0x501, 0x48), (0x600, 0x6B), (0x601, 0x47), (0x700, 0x6B),
      (0x701, 0x54)] }

/-- The links of V-IDX after step 6. -/
def grown : State :=
  { keyed with
    left := [(0x100, 0x200), (0x200, 0x400), (0x500, 0x600)]
    right := [(0x100, 0x300), (0x200, 0x500), (4204, 0x100)]
    parent := [(0x100, 4204), (0x200, 0x100), (0x300, 0x100), (0x400, 0x200), (0x500, 0x200), (0x600, 0x500)] }

/-- The links of V-IDX after step 7, the dead entries of 0x200 left out. -/
def pruned : State :=
  { keyed with
    left := [(0x100, 0x400), (0x500, 0x600)]
    right := [(0x100, 0x300), (0x400, 0x500), (4204, 0x100)]
    parent := [(0x100, 4204), (0x300, 0x100), (0x400, 0x100), (0x500, 0x400), (0x600, 0x500)] }

/-! ## Well-formedness: one ill-formed term for each check -/

/-- R56: a length is 3..18. -/
theorem test_ill_reference_length : (Instr.ref 0 2).ill = some (.lengthNotCoded 2) := by decide
/-- R89: a length is 3..18. -/
theorem test_ill_packed_length : (Instr.tokRef 0 19).ill = some (.lengthNotCoded 19) := by decide
/-- Log 3: an address has two bytes. -/
theorem test_ill_get_address : (Instr.winGet 65536).ill = some (.addressTooWide 65536) := by decide
/-- Log 3: an address has two bytes. -/
theorem test_ill_set_address : (Instr.winSet 65536 0).ill = some (.addressTooWide 65536) := by decide
/-- R74: a key has bytes 0..17. -/
theorem test_ill_key_index : (Instr.winKeyb 0 18).ill = some (.keyIndexBeyond 18) := by decide
/-- R56, R74, R89, log 3: the ends of the ranges. -/
theorem test_well_formed_bounds : (Instr.ref 4095 18).wellFormed = true ∧ (Instr.tokRef 0 3).wellFormed = true ∧
    (Instr.winGet 65535).wellFormed = true ∧ (Instr.winKeyb 4095 17).wellFormed = true := by decide

/-! ## Decoding: words written out from the spec's encodings -/

/-- R54, R55: a control byte and a literal are themselves. -/
theorem test_decode_control_literal : decode .control [0x01] = .ok (.ctrl 0x01, []) ∧
    decode .literal [0x7A] = .ok (.lit 0x7A, []) := by decide

/-- R56, R57: `pos = {b1[7:4], b0[7:0]}`, `n = b1[3:0] + 3`; S4 and V-ENC-8. -/
theorem test_decode_reference : decode .reference [0xEE, 0xFF, 0x01] = .ok (.ref 4078 18, [0x01]) ∧
    decode .reference [0xDC, 0xF0] = .ok (.ref 4060 3, []) ∧
    decode .reference [0x34, 0xA2] = .ok (.ref 0xA34 5, []) ∧
    decode .reference [0x34] = .error .truncated := by decide

/-- R64: the numbers of the operations without operands. -/
theorem test_decode_operation_numbers :
    [0x00, 0x04, 0x0A, 0x0D, 0x0E, 0x0F, 0x10, 0x11, 0x12, 0x13, 0x14, 0x15, 0x16, 0x17, 0x18, 0x19, 0x1A].map
      (fun b : Byte => (decode .operation [b]).toOption.map Prod.fst) =
    [Instr.winFill, .idxClear, .tokReset, .tokNext, .tokFlush, .encStart, .encLoad, .encPreinsert, .encStep, .encAdvance,
      .encDrain, .encFinish, .decStart, .decCtrl, .decLit, .decRef, .decStop].map some := by decide

/-- R64 with the operand layout of log 3: addresses low byte first. -/
theorem test_decode_operation_operands :
    decode .operation [0x01, 0x34, 0x12] = .ok (.winGet 0x1234, []) ∧
    decode .operation [0x02, 0x03, 0x00, 0x41] = .ok (.winSet 3 0x41, []) ∧
    decode .operation [0x03, 0xFF, 0x0F, 0x11] = .ok (.winKeyb 4095 17, []) ∧
    decode .operation [0x05, 0x00, 0x02, 0x00, 0x01] = .ok (.cmpKey 0x200 0x100, []) ∧
    decode .operation [0x06, 0x00, 0x01] = .ok (.idxSearch 0x100, []) ∧
    decode .operation [0x07, 0x00, 0x01, 0x0D] = .ok (.idxInsert 0x100, [0x0D]) ∧
    decode .operation [0x08, 0x00, 0x07, 0x00, 0x03] = .ok (.idxReplace 0x700 0x300, []) ∧
    decode .operation [0x09, 0x00, 0x02] = .ok (.idxDelete 0x200, []) ∧
    decode .operation [0x0B, 0x41] = .ok (.tokLit 0x41, []) ∧
    decode .operation [0x0C, 0xEE, 0xFF] = .ok (.tokRef 4078 18, []) := by decide

/-- R64: numbers 0x1B to 0x1F are unassigned; operands out of range are rejected by name. -/
theorem test_decode_rejects : decode .operation [0x1B] = .error (.unassignedOperation 0x1B) ∧
    decode .operation [0x1F] = .error (.unassignedOperation 0x1F) ∧
    decode .operation [0x07, 0x00, 0x10] = .error (.positionBeyondRing 4096) ∧
    decode .operation [0x03, 0x00, 0x00, 0x12] = .error (.keyIndexBeyond 0x12) ∧
    decode .operation [0x0B] = .error .truncated ∧ decode .command [0x04] = .error (.commandTooWide 0x04) := by decide

/-- R112: the codes of the command port. -/
theorem test_decode_commands : [0, 1, 2, 3].map (fun b : Byte => (decode .command [b]).toOption.map Prod.fst) =
    [Instr.cmdNone, .compress, .decompress, .cmdIgnored].map some := by decide

/-- The opcode table's numbering: the second byte of REF is bits 15..8; 5-bit rows, 2-bit rows. -/
theorem test_table_words : decodeTableWord 16 0xFFEE = some (.ref 4078 18) ∧ decodeTableWord 5 0x13 = some .encAdvance ∧
    decodeTableWord 2 0b01 = some .compress ∧ decodeTableWord 2 0b10 = some .decompress ∧
    decodeTableWord 8 0x41 = some (.lit 0x41) ∧ decodeTableWord 5 0x1B = none := by decide

/-- V-FMT: TOK.REF(4078, 18) gives EE FF, TOK.REF(0, 3) gives 00 00, TOK.REF(4095, 18) gives FF FF (R89). -/
theorem test_encode_reference : encode (.ref 4078 18) = [0xEE, 0xFF] ∧ encode (.ref 0 3) = [0x00, 0x00] ∧
    encode (.ref 4095 18) = [0xFF, 0xFF] := by decide

/-! ## Window Buffer -/

/-- V-WIN-1. -/
theorem test_fill : after .winFill keyed (fun t => (t.textAt 0, t.textAt 0x100, t.textAt 4112)) =
    some (0x20, 0x20, 0x20) := by decide

/-- V-WIN-7: WIN.GET(8191) reads ring position 4095. -/
theorem test_get_wraps : after (.winGet 8191) { State.reset with text := [(4095, 0x44)] } (·.ret) =
    some (.byte 0x44) := by decide

/-- V-WIN-3, V-WIN-4: position 16 is mirrored, 17 is not. -/
theorem test_set_mirror : after (.winSet 16 0x42) State.reset (·.text) = some [(16, 0x42), (4112, 0x42)] ∧
    after (.winSet 17 0x43) State.reset (·.text) = some [(17, 0x43)] := by decide

/-- V-WIN-6: WIN.SET(4096) writes ring position 0 and its mirror byte; writing FILLER lists nothing. -/
theorem test_set_wraps : after (.winSet 4096 0x45) State.reset (·.text) = some [(0, 0x45), (4096, 0x45)] ∧
    after (.winSet 0 0x20) { State.reset with text := [(0, 0x45), (4096, 0x45)] } (·.text) = some [] := by decide

/-- V-WIN-8: WIN.KEYB(4095, 17) reads TEXT[4112]. -/
theorem test_keyb : after (.winKeyb 4095 17) { State.reset with text := [(4112, 0x42)] } (·.ret) =
    some (.byte 0x42) := by decide
/-- R11, U2: TEXT ends at 4112. -/
theorem test_keyb_beyond : why (.winKeyb 4095 18) State.reset = some (.noEntry .text 4113) := by decide

/-! ## Match Index -/

/-- V-CMP-1, V-CMP-3. -/
theorem test_compare : after (.cmpKey 0x200 0x100) keyed (·.ret) = some (.prefixLength 1 .neg) ∧
    after (.cmpKey 0x700 0x300) keyed (·.ret) = some (.prefixLength 18 .zero) := by decide

/-- V-CMP-6: bytes compare as unsigned numbers. -/
theorem test_compare_unsigned : after (.cmpKey 0xA00 0xB00)
    { State.reset with text := [(0xA00, 0x6B), (0xA01, 0x80), (0xB00, 0x6B), (0xB01, 0x7F)] } (·.cmp) =
    some .pos := by decide

/-- R75. -/
theorem test_clear : after .idxClear grown (fun t => (t.right, t.parent, t.left)) =
    some ([(0x100, 0x300), (0x200, 0x500)], [], grown.left) := by decide

/-- R79 on the trees of V-IDX step 6: 0x700 meets 0x100 (POS), then 0x300 with an equal key. -/
theorem test_search : after (.idxSearch 0x700) grown (fun t => (t.ret, t.matchPos, t.matchLen)) =
    some (.search (.full 0x300), 0x300, 18) := by decide +kernel

/-- V-IDX step 1: the first insert into an empty tree. -/
theorem test_insert_root : after (.idxInsert 0x100) keyed (fun t => (t.rightAt 4204, links 0x100 t, t.matchLen)) =
    some (0x100, (4096, 4096, 4204), 0) := by decide +kernel

/-- V-IDX, the walk after step 6: 0x780 becomes the right child of 0x600 with MATCH_LEN 17. -/
theorem test_insert_first_longest :
    after (.idxInsert 0x780) { grown with text := keyed.text ++ [(0x780, 0x6B), (0x781, 0x47), (0x791, 0x21)] }
      (fun t => (links 0x600 t, links 0x780 t, t.matchLen, t.matchPos)) =
    some ((4096, 0x780, 0x500), (4096, 4096, 0x600), 17, 0x600) := by decide +kernel
/-- R85, D24. -/
theorem test_insert_refused : why (.idxInsert 0x200) grown = some (.alreadyInTree 0x200) := by decide

/-- R82, V-IDX step 9: 0x700 takes the place of 0x300. -/
theorem test_replace : after (.idxReplace 0x700 0x300) grown (fun t => (links 0x100 t, links 0x700 t, t.parentAt 0x300)) =
    some ((0x200, 0x700, 4204), (4096, 4096, 0x100), 4096) := by decide
/-- R82, D24. -/
theorem test_replace_refused : why (.idxReplace 0x700 0x701) grown = some (.notInTree 0x701) := by decide

/-- V-IDX step 7: the predecessor is the left child. -/
theorem test_delete_left_child : after (.idxDelete 0x200) grown
    (fun t => (links 0x100 t, links 0x400 t, links 0x500 t, t.parentAt 0x200)) =
    some ((0x400, 0x300, 4204), (4096, 0x500, 0x100), (0x600, 4096, 0x400), 4096) := by decide +kernel

/-- V-IDX step 8: the predecessor is spliced out. -/
theorem test_delete_splice : after (.idxDelete 0x100) pruned
    (fun t => (t.rightAt 4204, links 0x500 t, links 0x400 t, links 0x600 t, t.parentAt 0x300)) =
    some (0x500, (0x400, 0x300, 4204), (4096, 0x600, 0x500), (4096, 4096, 0x400), 0x500) := by decide +kernel

/-! ## Token encoder -/

/-- V-TOK-1. -/
theorem test_tok_reset : after .tokReset { State.reset with codebuf := [(0, 1), (1, 0x41)], codePtr := 2, mask := 2 }
    (fun t => (t.codebuf, t.codePtr, t.mask)) = some ([(1, 0x41)], 1, 1) := by decide

/-- V-TOK-2. -/
theorem test_tok_lit : after (.tokLit 0x41) State.reset (fun t => (t.codebuf, t.codePtr)) =
    some ([(0, 0x01), (1, 0x41)], 2) := by decide

/-- V-TOK-3. -/
theorem test_tok_ref : after (.tokRef 4078 18) { State.reset with codebuf := [(0, 1), (1, 0x41)], codePtr := 2, mask := 2 }
    (fun t => (t.codebuf, t.codePtr)) = some ([(0, 0x01), (1, 0x41), (2, 0xEE), (3, 0xFF)], 4) := by decide
/-- R89. -/
theorem test_tok_ref_refused : why (.tokRef 0 2) State.reset = some (.lengthNotCoded 2) := by decide

/-- V-TOK-6, with two token bytes: the eighth token sends the group. -/
theorem test_tok_next_full :
    after .tokNext { State.reset with codebuf := [(0, 0xFF), (1, 0x61), (2, 0x62)], codePtr := 3, mask := 0x80 }
      (fun t => (t.out, t.codePtr, t.mask, t.codeAt 0)) = some ([0xFF, 0x61, 0x62], 1, 1, 0) := by decide
/-- R90. -/
theorem test_tok_next : after .tokNext { State.reset with mask := 0x40 } (fun t => (t.mask, t.out)) =
    some (0x80, []) := by decide

/-- V-TOK-8, V-TOK-7. -/
theorem test_tok_flush : after .tokFlush { State.reset with codebuf := [(0, 1), (1, 0x69)], codePtr := 2, mask := 2 }
    (·.out) = some [0x01, 0x69] ∧ after .tokFlush State.reset (·.out) = some [] := by decide

/-! ## Encoder -/

/-- R93. -/
theorem test_enc_start : after .encStart { grown with rCur := 7, len := 3, out := [1], ip := 9, inp := [5] }
    (fun t => (t.text, t.rightAt 4204, t.parentAt 0x100, t.rCur)) = some ([], 4096, 4096, 4078) := by decide
/-- R93. -/
theorem test_enc_start_streams : after .encStart { grown with len := 3, out := [1], ip := 9, inp := [5] }
    (fun t => (t.len, t.out, t.ip, t.phase)) = some (0, [], 0, .eLoad) := by decide

/-- R94, IN = "AB". -/
theorem test_enc_load : after .encLoad { State.reset with inp := [0x41, 0x42] }
    (fun t => (t.text, t.len, t.ip, t.phase)) = some ([(4078, 0x41), (4079, 0x42)], 2, 2, .ePre) := by decide

/-- R101: empty input ends the run. -/
theorem test_enc_load_empty : after .encLoad { State.reset with busy := true, mode := .enc } (fun t => (t.phase, t.busy, t.done, t.mode)) =
    some (.idle, false, true, .idle) := by decide

/-- R95: an input of three spaces (V-ENC-8): only 4060 survives, and 4078 finds it with MATCH_LEN 18. -/
theorem test_enc_preinsert : after .encPreinsert State.reset
    (fun t => (t.matchPos, t.matchLen, t.parentAt 4060, t.rightAt 4129)) = some (4060, 18, 4096, 4078) := by decide +kernel

/-- R96: `MATCH_LEN = 18`, `MATCH_POS = 4078`, `LEN = 18` gives REF 4078, 18; with `LEN = 2` a literal. -/
theorem test_enc_step : after .encStep { State.reset with matchLen := 18, matchPos := 4078, len := 18 }
    (fun t => (t.codebuf, t.last, t.mask, t.phase)) = some ([(1, 0xEE), (2, 0xFF)], 18, 2, .eAdv) ∧
    after .encStep { State.reset with matchLen := 18, matchPos := 4078, len := 2, text := [(4078, 0x41)] }
      (fun t => (t.codebuf, t.last, t.matchLen)) = some ([(0, 1), (1, 0x41)], 1, 1) := by decide

/-- R97: the byte goes to S and its mirror, both cursors advance, the new R is inserted. -/
theorem test_enc_advance : after .encAdvance { State.reset with inp := [0x41] }
    (fun t => (t.textAt 4096, t.sCur, t.rCur, t.iCnt, t.parentAt 4079)) = some (0x41, 1, 4079, 1, 4129) := by decide +kernel
/-- R9, R97. -/
theorem test_enc_advance_refused : why .encAdvance State.reset = some .inputExhausted := by decide

/-- R98: with `LEN = 1` no insert. -/
theorem test_enc_drain_last : after .encDrain { State.reset with len := 1 }
    (fun t => (t.len, t.sCur, t.rCur, t.parentAt 4079)) = some (0, 1, 4079, 4096) := by decide
/-- R98. -/
theorem test_enc_drain_refused : why .encDrain State.reset = some .lenZero := by decide

/-- R100, IN = "A". -/
theorem test_enc_finish : after .encFinish { State.reset with codebuf := [(0, 1), (1, 0x41)], codePtr := 2, mask := 2 }
    (fun t => (t.out, t.done, t.phase)) = some ([0x01, 0x41], true, .idle) := by decide

/-! ## Decoder -/

/-- R103. -/
theorem test_dec_start : after .decStart { keyed with rCur := 1, flags := 5, out := [1] }
    (fun t => (t.text, t.rCur, t.flags, t.out, t.phase)) = some ([], 4078, 0, [], .dBit) := by decide

/-- R104: input `01 41 …`: the load gives 0xFF01 and D_LIT; the shift of it gives 0x7F80 and D_REF. -/
theorem test_dec_ctrl : after .decCtrl { State.reset with inp := [0x01] } (fun t => (t.flags, t.ip, t.phase)) =
    some (0xFF01, 1, .dLit) ∧
    after .decCtrl { State.reset with flags := 0xFF01 } (fun t => (t.flags, t.ip, t.phase)) =
    some (0x7F80, 0, .dRef) := by decide
/-- R104, R62 (a). -/
theorem test_dec_ctrl_stop : after .decCtrl { State.reset with flags := 0x01FF } (fun t => (t.phase, t.done)) =
    some (.idle, true) := by decide

/-- R105. -/
theorem test_dec_lit : after .decLit { State.reset with inp := [0x41] } (fun t => (t.out, t.text, t.rCur, t.ip, t.phase)) =
    some ([0x41], [(4078, 0x41)], 4079, 1, .dBit) := by decide

/-- R106, R62: token `EE F0` with 'A' at 4078 and R = 4079 repeats it; a missing byte1 drops byte0. -/
theorem test_dec_ref : after .decRef { State.reset with inp := [0xEE, 0xF0], rCur := 4079, text := [(4078, 0x41)] }
    (fun t => (t.out, t.rCur, t.ip)) = some ([0x41, 0x41, 0x41], 4082, 2) := by decide
/-- R106, R62 (d). -/
theorem test_dec_ref_truncated : after .decRef { State.reset with inp := [0xEE] } (fun t => (t.out, t.ip, t.phase, t.done)) =
    some ([], 1, .idle, true) := by decide
/-- R108. -/
theorem test_dec_stop : after .decStop { State.reset with busy := true, mode := .dec, out := [7] }
    (fun t => (t.busy, t.done, t.mode, t.phase, t.out)) = some (false, true, .idle, .idle, [7]) := by decide

/-- The tokens as instructions: R54 with R104, R55 with R105, R56 with R106. -/
theorem test_tokens : after (.ctrl 0x02) State.reset (fun t => (t.flags, t.phase)) = some (0xFF02, .dRef) ∧
    after (.lit 0x7A) { State.reset with rCur := 4095 } (fun t => (t.out, t.rCur)) = some ([0x7A], 0) ∧
    after (.ref 4095 3) { State.reset with text := [(0, 0x42), (4096, 0x42)] } (·.out) = some [0x20, 0x42, 0x20] := by
  decide

/-! ## Host interface and steps -/

/-- R113, R114, R116. -/
theorem test_commands : after .compress State.reset (fun t => (t.mode, t.busy, t.phase)) = some (.enc, true, .eInit) ∧
    after .decompress State.reset (fun t => (t.mode, t.busy, t.phase)) = some (.dec, true, .dInit) ∧
    after .compress { State.reset with phase := .dBit } (fun t => (t.mode, t.phase)) = some (.idle, .dBit) ∧
    after .cmdNone grown id = some grown ∧ after .cmdIgnored grown id = some grown := by decide

/-- R112: the command on the port is consumed by the step; an issued operation is performed before it. -/
theorem test_step_command : afterStep { State.reset with cmd := 1 } (fun t => (t.cmd, t.phase)) = some (0, .eInit) ∧
    afterStep { State.reset with cmd := 1, ops := [0x0B, 0x41] } (fun t => (t.cmd, t.codePtr, t.ops)) =
      some (1, 2, []) := by decide

/-- R99. -/
theorem test_step_exit : afterStep { State.reset with phase := .eAdv } (·.phase) = some .eFin ∧
    afterStep { State.reset with phase := .eAdv, len := 1 } (·.phase) = some .eStep := by decide

/-- R115: the status words. -/
theorem test_status : hostStatus { State.reset with done := true } = 2 ∧ hostStatus { State.reset with busy := true } = 1 ∧
    hostMode { State.reset with mode := .dec } = 2 := by decide

/-- The very next step runs a placed word. -/
theorem test_placed_word : afterStep (State.reset.withFetchWord 16 0xF0EE) (fun t => (t.out, t.ip)) =
    some ([0x20, 0x20, 0x20], 2) ∧
    afterStep (State.reset.withFetchWord 5 0x12) (·.phase) = some .eAdv := by decide

/-- The laws hold of the reset state: its memories list nothing. -/
theorem test_reset_memory : State.reset.memWf = true ∧ grown.memWf = true ∧ pruned.memWf = true := by decide

/-! ## Witnesses: a concrete state and operands that meet the hypotheses of each statement -/

/-- `i` completes at `s`. -/
def completes (i : Instr) (s : State) : Bool :=
  match exec i s with
  | .next _ => true
  | .fault _ => false
  | .refused _ => false

theorem exists_next {i : Instr} {s : State} (h : completes i s = true) : ∃ t, exec i s = .next t := by
  unfold completes at h
  split at h
  · exact ⟨_, ‹_›⟩
  · cases h
  · cases h

/-- After `k` steps from the host's command the block is idle again. -/
def endsAfter (k : Nat) (c : BitVec 2) (input : List Byte) (s : State) : Option State :=
  match Sys2Proof.core.run k (s.hostPresent c input) with
  | .next t => if t.phase = .idle ∧ t.cmd = 0 then some t else none
  | .fault _ => none
  | .refused _ => none

theorem ends_of_endsAfter {k : Nat} {c : BitVec 2} {input : List Byte} {s t : State} (h : endsAfter k c input s = some t) :
    Ends c input s t := by
  unfold endsAfter at h
  split at h
  · split at h
    · cases h
      exact ⟨k, ‹_›, by tauto, by tauto⟩
    · cases h
  · cases h
  · cases h

theorem exists_ends {k : Nat} {c : BitVec 2} {input : List Byte} {s : State} (h : (endsAfter k c input s).isSome = true) :
    ∃ t, Ends c input s t := by
  obtain ⟨t, ht⟩ := Option.isSome_iff_exists.mp h
  exact ⟨t, ends_of_endsAfter ht⟩

/-- One node: ring position 5, root of the tree of byte 0x20. -/
def oneNode : State := { State.reset with right := [(4129, 5)], parent := [(5, 4129)] }

/-- The trees of `oneNode`. -/
def oneForest (b : Byte) : Shape := if b = 0x20 then .node .leaf 5 .leaf else .leaf

theorem oneNode_right (a : Nat) : oneNode.rightAt a = if a = 4129 then 5 else Config.nil := rfl
theorem oneNode_parent (a : Nat) : oneNode.parentAt a = if a = 5 then 4129 else Config.nil := rfl

theorem witness_empty_forest : Forest State.reset (fun _ => .leaf) :=
  ⟨fun _ => rfl, fun _ => List.nodup_nil, fun _ _ _ h => absurd h List.not_mem_nil,
    fun _ => ⟨fun h => absurd rfl h, fun ⟨_, h⟩ => absurd h List.not_mem_nil⟩⟩

theorem oneForest_mem {b : Byte} {p : Pos} : p ∈ (oneForest b).nodes ↔ b = 0x20 ∧ p = 5 := by
  unfold oneForest
  split
  · simp [Shape.nodes, *]
  · exact ⟨fun h => absurd h List.not_mem_nil, fun h => absurd h.1 ‹_›⟩

theorem witness_forest : Forest oneNode oneForest := by
  refine ⟨fun b => ?_, fun b => ?_, fun b c p h1 h2 => ?_, fun p => ?_⟩
  · unfold oneForest
    split
    · subst_vars
      exact ⟨rfl, rfl, rfl, rfl⟩
    · show oneNode.rightAt _ = _
      rw [oneNode_right, Laws.rootLink_toNat, if_neg]
      intro h
      have : b.toNat = 32 := by omega
      exact absurd (BitVec.eq_of_toNat_eq (y := 0x20#8) this) ‹_›
  · unfold oneForest
    split <;> simp [Shape.nodes]
  · rw [oneForest_mem] at h1 h2
    rw [h1.1, h2.1]
  · simp only [oneForest_mem]
    rw [oneNode_parent]
    constructor
    · intro h
      refine ⟨0x20, rfl, BitVec.eq_of_toNat_eq ?_⟩
      by_contra hp
      rw [if_neg (by simpa using hp)] at h
      exact h rfl
    · rintro ⟨b, -, rfl⟩
      decide

theorem witness_search_trees : SearchTrees oneNode := by
  refine ⟨oneForest, witness_forest, fun b => ⟨fun p h => ?_, ?_⟩⟩
  · rw [oneForest_mem] at h
    rw [h.1, h.2]
    rfl
  · unfold oneForest
    split <;> simp [Shape.nodes]

theorem witness_empty_search_trees : SearchTrees State.reset :=
  ⟨_, witness_empty_forest, fun _ => ⟨fun _ h => absurd h List.not_mem_nil, List.Pairwise.nil⟩⟩

theorem oneNode_memWf : oneNode.memWf = true := by decide
theorem oneNode_five : IsNode oneNode 5 := by unfold IsNode; decide
theorem oneNode_seven : ¬ IsNode oneNode 7 := by unfold IsNode; decide
theorem reset_not_node (p : Pos) : ¬ IsNode State.reset p := fun h => h rfl

theorem witness_control : Control State.reset := ⟨rfl, by decide, by decide⟩
theorem witness_idle : Idle State.reset := ⟨rfl, rfl, rfl, rfl, witness_control⟩
theorem witness_run_law : RunLaw State.reset := ⟨rfl, rfl, witness_control, trivial⟩
theorem witness_mirror : Mirror State.reset := fun _ _ => rfl
theorem witness_members : Members State.reset := fun p h => absurd h (reset_not_node p)

/-- StepPerformsTheOperationOfPhase. -/
theorem witness_phase_steps : ∀ p : Phase, ∃ s : State, s.ops = [] ∧ s.cmd = 0 ∧ s.phase = p :=
  fun p => ⟨{ State.reset with phase := p }, rfl, rfl, rfl⟩

/-- AdvancePhaseDoesOneOfFourThings: a state for each of the four. -/
theorem witness_advance_phase :
    (∃ s : State, s.phase = .eAdv ∧ s.ops = [] ∧ s.cmd = 0 ∧ s.iCnt.toNat < s.last.toNat ∧ s.ip < s.inp.length ∧
      (afterStep s id).isSome = true) ∧
    (∃ s : State, s.phase = .eAdv ∧ s.ops = [] ∧ s.cmd = 0 ∧ s.iCnt.toNat < s.last.toNat ∧ s.inp.length ≤ s.ip) ∧
    (∃ s : State, s.phase = .eAdv ∧ s.ops = [] ∧ s.cmd = 0 ∧ s.last.toNat ≤ s.iCnt.toNat ∧ 0 < s.len.toNat) ∧
    (∃ s : State, s.phase = .eAdv ∧ s.ops = [] ∧ s.cmd = 0 ∧ s.last.toNat ≤ s.iCnt.toNat ∧ s.len.toNat = 0) :=
  ⟨⟨{ State.reset with phase := .eAdv, last := 1, inp := [0x41] }, by decide +kernel⟩,
    ⟨{ State.reset with phase := .eAdv, last := 1 }, by decide⟩,
    ⟨{ State.reset with phase := .eAdv, last := 1, iCnt := 1, len := 1 }, by decide⟩,
    ⟨{ State.reset with phase := .eAdv }, by decide⟩⟩

/-- StepRunsTheDecodedInstruction: a state for each source. -/
theorem witness_decoded_steps :
    (∃ (s : State) (i : Instr) (rest : List Byte), i.source = .operation ∧ i.wellFormed = true ∧ s.ops = encode i ++ rest ∧
      s.ops ≠ [] ∧ decode .operation s.ops = .ok (i, rest)) ∧
    (∀ c : BitVec 2, ∃ s : State, s.ops = [] ∧ s.cmd = c) ∧
    (∃ s : State, s.ops = [] ∧ s.cmd = 0 ∧ s.phase = .dBit ∧ (s.flags >>> 1).getLsbD 8 = false ∧
      decode .control (s.inp.drop s.ip) = .ok (.ctrl 1, [])) ∧
    (∃ s : State, s.ops = [] ∧ s.cmd = 0 ∧ s.phase = .dLit ∧ decode .literal (s.inp.drop s.ip) = .ok (.lit 1, [])) ∧
    (∃ s : State, s.ops = [] ∧ s.cmd = 0 ∧ s.phase = .dRef ∧
      decode .reference (s.inp.drop s.ip) = .ok (.ref 4095 18, [])) :=
  ⟨⟨{ State.reset with ops := [0x01, 0xFF, 0xFF, 0x0D] }, .winGet 65535, [0x0D], by decide⟩,
    fun c => ⟨{ State.reset with cmd := c }, rfl, rfl⟩,
    ⟨{ State.reset with phase := .dBit, inp := [1] }, by decide⟩,
    ⟨{ State.reset with phase := .dLit, inp := [1] }, by decide⟩,
    ⟨{ State.reset with phase := .dRef, inp := [0xFF, 0xFF] }, by decide⟩⟩

/-- DecodeInvertsEncode and EncodeInvertsDecode. -/
theorem witness_encodings : (Instr.tokRef 4095 18).wellFormed = true ∧
    decode .operation [0x0C, 0xFF, 0xFF, 0x41] = .ok (.tokRef 4095 18, [0x41]) := by decide

/-- KeyByteReadsALinearAddress at the end of TEXT; MirrorMakesLinearReadsRingReads. -/
theorem witness_linear_addresses : (4095 : Pos).toNat + 17 = 4112 ∧ 4112 < (4095 : Pos).toNat + 18 ∧
    Mirror State.reset ∧ (∃ t, exec (.winSet 16 0x41) State.reset = .next t) ∧
    (∃ t, exec .winFill State.reset = .next t) :=
  ⟨by decide, by decide, witness_mirror, ⟨_, rfl⟩, ⟨_, rfl⟩⟩

/-- CompareReturnsPrefixAndSign at both ends of the length. -/
theorem witness_compare : (compareKeys keyed 0x700 0x300).1 = 18 ∧ (compareKeys keyed 0x200 0x100).1 = 1 := by decide

/-- `oneNode` with byte 1 of the key of position 7 set to `b`. -/
def oneNodeNear (b : Byte) : State := { oneNode with text := [(8, b)] }

/-- A forest is a property of the links, which `oneNodeNear` leaves as they are. -/
theorem oneNodeNear_trees (b : Byte) : TreeLaw (oneNodeNear b) :=
  ⟨_, Laws.forest_congr witness_forest (fun _ _ => rfl) (fun _ _ => rfl) (fun _ => rfl) (fun _ => rfl)⟩

theorem oneNodeNear_search_trees (b : Byte) : SearchTrees (oneNodeNear b) := by
  refine ⟨oneForest, Laws.forest_congr witness_forest (fun _ _ => rfl) (fun _ _ => rfl) (fun _ => rfl) (fun _ => rfl),
    fun c => ⟨fun p h => ?_, ?_⟩⟩
  · rw [oneForest_mem] at h
    rw [h.1, h.2]
    rfl
  · unfold oneForest
    split <;> simp [Shape.nodes]

/-- SearchReportsTheFirstLongestMatch: a path of one node that ends at its absent right slot, and one that ends at its
absent left slot. -/
theorem witness_search_slot :
    (TreeLaw (oneNodeNear 0x21) ∧ probePath (oneNodeNear 0x21) 7 4096 (rootLink ((oneNodeNear 0x21).textAt 7)) .pos = [5] ∧
      after (.idxSearch 7) (oneNodeNear 0x21) (·.ret) = some (.search (.slot 5 .rightSide))) ∧
    (TreeLaw (oneNodeNear 0x1F) ∧ probePath (oneNodeNear 0x1F) 7 4096 (rootLink ((oneNodeNear 0x1F).textAt 7)) .pos = [5] ∧
      after (.idxSearch 7) (oneNodeNear 0x1F) (·.ret) = some (.search (.slot 5 .leftSide))) :=
  ⟨⟨oneNodeNear_trees _, by decide +kernel, by decide +kernel⟩, ⟨oneNodeNear_trees _, by decide +kernel, by decide +kernel⟩⟩

/-- InsertRefinesInsertionIntoATree and InsertReportsAValidMatch: no path, a path that ends at an absent slot, and one
that ends at a full match. -/
theorem witness_insert_paths :
    (State.reset.memWf = true ∧ SearchTrees State.reset ∧ ¬ IsNode State.reset 7 ∧
      probePath State.reset 7 4096 (rootLink (State.reset.textAt 7)) .pos = []) ∧
    ((oneNodeNear 0x21).memWf = true ∧ SearchTrees (oneNodeNear 0x21) ∧ ¬ IsNode (oneNodeNear 0x21) 7 ∧
      probePath (oneNodeNear 0x21) 7 4096 (rootLink ((oneNodeNear 0x21).textAt 7)) .pos = [5] ∧
      after (.idxInsert 7) (oneNodeNear 0x21) (fun t => (t.matchPos, t.matchLen, t.cmp)) = some (5, 1, .pos)) ∧
    (oneNode.memWf = true ∧ SearchTrees oneNode ∧ ¬ IsNode oneNode 7 ∧
      probePath oneNode 7 4096 (rootLink (oneNode.textAt 7)) .pos = [5] ∧
      after (.idxInsert 7) oneNode (fun t => (t.matchPos, t.matchLen, t.cmp)) = some (5, 18, .zero)) :=
  ⟨⟨rfl, witness_empty_search_trees, reset_not_node 7, by decide +kernel⟩,
    ⟨by decide, oneNodeNear_search_trees 0x21, oneNode_seven, by decide +kernel, by decide +kernel⟩,
    ⟨oneNode_memWf, witness_search_trees, oneNode_seven, by decide +kernel, by decide +kernel⟩⟩

/-- SearchReportsTheFirstLongestMatch: an empty path and one with a full match. -/
theorem witness_search : (TreeLaw State.reset ∧ probePath State.reset 7 4096 (rootLink (State.reset.textAt 7)) .pos = []) ∧
    (TreeLaw oneNode ∧ probePath oneNode 7 4096 (rootLink (oneNode.textAt 7)) .pos = [5]) :=
  ⟨⟨⟨_, witness_empty_forest⟩, by decide +kernel⟩, ⟨⟨_, witness_forest⟩, by decide +kernel⟩⟩

/-- CallsThatBreakAConditionAreRefused. -/
theorem witness_refused_calls : IsNode oneNode 5 ∧ (¬ IsNode oneNode 7 ∧ ¬ IsNode oneNode 8) ∧
    (State.reset.memWf = true ∧ TreeLaw State.reset ∧ State.reset.inp.length ≤ State.reset.ip) ∧ State.reset.len = 0 :=
  ⟨oneNode_five, ⟨oneNode_seven, by unfold IsNode; decide⟩, ⟨rfl, ⟨_, witness_empty_forest⟩, Nat.le_refl _⟩, rfl⟩

/-- InsertIntoAnEmptyTreeMakesTheRoot. -/
theorem witness_insert_empty : keyed.memWf = true ∧ ¬ IsNode keyed 0x100 ∧
    keyed.rightAt (4097 + (keyed.textAt (0x100 : Pos).toNat).setWidth 13 : Link).toNat = Config.nil :=
  ⟨by decide, by unfold IsNode; decide, by decide⟩

/-- InsertRefinesInsertionIntoATree, InsertKeepsTheSearchOrder and InsertReportsAValidMatch, with a match of 18. -/
theorem witness_insert : oneNode.memWf = true ∧ Forest oneNode oneForest ∧ SearchTrees oneNode ∧ ¬ IsNode oneNode 7 ∧
    (∃ t, exec (.idxInsert 7) oneNode = .next t) ∧ after (.idxInsert 7) oneNode (·.matchLen) = some 18 :=
  ⟨oneNode_memWf, witness_forest, witness_search_trees, oneNode_seven, exists_next (by decide +kernel), by decide +kernel⟩

/-- ReplaceTakesThePlaceOfTheNode, DeleteRefinesRemovalFromATree and DeleteAndReplaceKeepTheSearchOrder. -/
theorem witness_replace_delete : oneNode.memWf = true ∧ Forest oneNode oneForest ∧ SearchTrees oneNode ∧
    IsNode oneNode 5 ∧ ¬ IsNode oneNode 7 ∧
    (∀ i < 18, oneNode.textAt ((7 : Pos).toNat + i) = oneNode.textAt ((5 : Pos).toNat + i)) ∧
    (∃ t, exec (.idxReplace 7 5) oneNode = .next t) ∧ (∃ t, exec (.idxDelete 5) oneNode = .next t) :=
  ⟨oneNode_memWf, witness_forest, witness_search_trees, oneNode_five, oneNode_seven, fun _ _ => rfl,
    exists_next (by decide +kernel), exists_next (by decide +kernel)⟩

/-- LiteralIsPacked, ReferenceIsPacked, FullGroupGoesToTheOutput and PartialGroupIsFlushed at the ends of CODEPTR. -/
theorem witness_code_pointer (n : Len) : ∃ s : State, s.memWf = true ∧ s.codePtr = n ∧ s.mask.toNat * 2 % 256 = 0 :=
  ⟨{ State.reset with codePtr := n, mask := 0x80 }, rfl, rfl, show (0x80#8).toNat * 2 % 256 = 0 by decide⟩
theorem witness_mask_moves : State.reset.memWf = true ∧ State.reset.mask.toNat * 2 % 256 ≠ 0 := by decide

/-- GroupLawIsKept: the empty group and a group of seven literals. -/
theorem witness_group_law : HoldsGroup State.reset [] ∧
    HoldsGroup { State.reset with mask := 0x80, codePtr := 8, codebuf := [(0, 0x7F)] } (List.replicate 7 true) :=
  ⟨⟨rfl, rfl, rfl⟩, ⟨rfl, rfl, rfl⟩⟩

/-- LoadFillsTheLookahead: no input, and more input than room. -/
theorem witness_load : (0 : Nat) = min (18 - State.reset.len.toNat) (State.reset.inp.length - State.reset.ip) ∧
    (∃ s : State, s.memWf = true ∧ 18 = min (18 - s.len.toNat) (s.inp.length - s.ip)) :=
  ⟨rfl, ⟨{ State.reset with inp := List.replicate 19 0 }, by decide⟩⟩

/-- PreinsertIsNineteenInserts. -/
theorem witness_preinsert : State.reset.memWf = true ∧ TreeLaw State.reset ∧
    ∀ i ≤ 18, ¬ IsNode State.reset (State.reset.rCur - BitVec.ofNat 12 i) :=
  ⟨rfl, ⟨_, witness_empty_forest⟩, fun _ _ => reset_not_node _⟩

/-- StepTurnsTheMatchIntoAToken on both sides of THRESHOLD. -/
theorem witness_step (n : Len) (h : n.toNat ≤ 18) : ∃ s : State, s.memWf = true ∧ GroupLaw s ∧ s.matchLen.toNat ≤ 18 ∧
    n.toNat = min s.matchLen.toNat s.len.toNat :=
  ⟨{ State.reset with matchLen := n, len := n }, rfl, ⟨[], by decide, rfl, rfl, rfl⟩, h, (Nat.min_self _).symm⟩

/-- AdvanceDeletesWritesAndInserts and DrainDeletesAndInserts. -/
theorem witness_advance_drain (n : Len) : ∃ s : State, s.memWf = true ∧ TreeLaw s ∧ Members s ∧ Cursors s ∧
    s.inp[s.ip]? = some 0x41 ∧ s.len = n ∧ s.iCnt.toNat = 30 :=
  ⟨{ State.reset with inp := [0x41], len := n, iCnt := 30 }, rfl,
    ⟨fun _ => .leaf, fun _ => rfl, fun _ => List.nodup_nil, fun _ _ _ h => absurd h List.not_mem_nil,
      fun _ => ⟨fun h => absurd rfl h, fun ⟨_, h⟩ => absurd h List.not_mem_nil⟩⟩,
    fun _ h => absurd rfl h, rfl, rfl, rfl, rfl⟩

/-- ControlBitSelectsTheTokenKind, LiteralIsCopied and ReferenceIsCopiedByteByByte: FLAGS in use and used up, and streams
of two, one and no byte. -/
theorem witness_decoder : ((0xFF01#16) >>> 1).getLsbD 8 = true ∧ ((0x01FE#16) >>> 1).getLsbD 8 = false ∧
    (∃ s : State, s.memWf = true ∧ s.inp[s.ip]? = some 0xEE ∧ s.inp[s.ip + 1]? = some 0xF0) ∧
    (∃ s : State, s.inp[s.ip]? = some 0xEE ∧ s.inp.length ≤ s.ip + 1) ∧ State.reset.inp.length ≤ State.reset.ip :=
  ⟨by decide, by decide, ⟨{ State.reset with inp := [0xEE, 0xF0] }, by decide⟩,
    ⟨{ State.reset with inp := [0xEE] }, by decide⟩, Nat.le_refl _⟩

/-- OverlappingCopyRepeats: `d = 1`, `d = n - 1`, `d = n`, `d = 0`. -/
theorem witness_overlap : State.reset.memWf = true ∧ (State.reset.rCur - 4077).toNat = 1 ∧
    (State.reset.rCur - 4061).toNat = 17 ∧ (State.reset.rCur - 4060).toNat = 18 ∧
    (State.reset.rCur - 4078).toNat = 0 ∧ (∃ t, exec (.ref 4077 18) State.reset = .next t) :=
  ⟨rfl, by decide, by decide, by decide, by decide, exists_next (by decide +kernel)⟩

/-- CommandsStartARunOnlyWhenIdle. -/
theorem witness_commands : State.reset.phase = .idle ∧ (∃ s : State, s.phase ≠ .idle) :=
  ⟨rfl, ⟨{ State.reset with phase := .dBit }, by decide⟩⟩

/-- EveryStepKeepsTheMemoryForm, EveryStepKeepsTheMirror, EveryStepKeepsTheStatusCombinations and
EveryStepOfARunCompletes, at the reset state with a command on the port. -/
theorem witness_every_step : ∃ s t : State, s.memWf = true ∧ Mirror s ∧ s.ops = [] ∧ Control s ∧ RunLaw s ∧
    step s = .next t ∧ t.phase = .eInit :=
  ⟨{ State.reset with cmd := 1 }, _, rfl, fun _ _ => rfl, rfl, ⟨rfl, by decide, by decide⟩,
    ⟨rfl, rfl, ⟨rfl, by decide, by decide⟩, trivial⟩, rfl, rfl⟩

/-- The state of a COMPRESS run after ENC.START, from reset. -/
def started : State := { State.reset with mode := .enc, busy := true, phase := .eLoad }

/-- EncodeStepsKeepTheCursorsApart, EncodeStepsKeepTheRingContents and EncodeStepsKeepTheSearchOrder. -/
theorem witness_encode_steps : started.memWf = true ∧ started.ops = [] ∧ phaseMode started.phase = .enc ∧
    started.phase ≠ .eInit ∧ Cursors started ∧ EncoderRing started ∧ RunLaw started ∧ SearchTrees started ∧
    (∃ t, step started = .next t) := by
  have hring : RingHolds started [] := ⟨fun k h => absurd h (Nat.not_lt_zero k), fun _ _ _ => rfl⟩
  have hforest : Forest started (fun _ => .leaf) :=
    ⟨fun _ => rfl, fun _ => List.nodup_nil, fun _ _ _ h => absurd h List.not_mem_nil,
      fun _ => ⟨fun h => absurd rfl h, fun ⟨_, h⟩ => absurd h List.not_mem_nil⟩⟩
  exact ⟨rfl, rfl, rfl, by decide, rfl, ⟨hring, rfl, rfl, rfl, rfl⟩,
    ⟨rfl, rfl, ⟨rfl, by decide, by decide⟩, ⟨[], by decide, rfl, rfl, rfl⟩, ⟨fun _ => rfl, fun _ => rfl⟩, rfl, rfl, rfl⟩,
    ⟨_, hforest, fun _ => ⟨fun _ h => absurd h List.not_mem_nil, List.Pairwise.nil⟩⟩, ⟨_, rfl⟩⟩

/-- DecodeStepsKeepTheRingContents. -/
theorem witness_decode_steps : ∃ s t : State, s.memWf = true ∧ s.ops = [] ∧ phaseMode s.phase = .dec ∧ s.phase ≠ .dInit ∧
    DecoderRing s ∧ step s = .next t :=
  ⟨{ State.reset with phase := .dLit, inp := [0x41] }, _, rfl, rfl, rfl, by decide,
    ⟨⟨fun k h => absurd h (Nat.not_lt_zero k), fun _ _ _ => rfl⟩, rfl⟩, rfl⟩

/-- EmptyInputGivesEmptyOutput, DecompressComputesTheRule, DecompressOutputIsBounded, CompressTerminates and
CompressExpandsByAtMostOneEighth: a run of each command that ends, on an empty input and on one that is not. -/
theorem witness_runs : Idle State.reset ∧ (∃ t, Ends 1 [] State.reset t) ∧ (∃ t, Ends 2 [] State.reset t) ∧
    (∃ t, Ends 1 [0x41] State.reset t) ∧ (∃ t, Ends 2 [0x01, 0x41] State.reset t) :=
  ⟨witness_idle, exists_ends (k := 3) (by decide), exists_ends (k := 3) (by decide),
    exists_ends (k := 8) (by decide +kernel), exists_ends (k := 6) (by decide +kernel)⟩

/-- DecompressInvertsCompress: a COMPRESS run and the DECOMPRESS run on its output. -/
theorem witness_round_trip : ∃ t u, Ends 1 [0x41] State.reset t ∧ Ends 2 t.out t u := by
  have h : ((endsAfter 8 1 [0x41] State.reset).bind fun t => endsAfter 6 2 t.out t).isSome = true := by decide +kernel
  obtain ⟨u, hu⟩ := Option.isSome_iff_exists.mp h
  obtain ⟨t, ht, hu⟩ := Option.bind_eq_some_iff.mp hu
  exact ⟨t, u, ends_of_endsAfter ht, ends_of_endsAfter hu⟩

/-- CompressDependsOnItsInputOnly: two idle states that differ in memories and registers. -/
theorem witness_two_runs : Idle State.reset ∧ Idle { grown with rCur := 3, matchPos := 9 } ∧
    (∃ t, Ends 1 [0x41] State.reset t) ∧ (∃ t, Ends 1 [0x41] { grown with rCur := 3, matchPos := 9 } t) :=
  ⟨witness_idle, ⟨rfl, rfl, rfl, by decide, ⟨rfl, by decide, by decide⟩⟩, exists_ends (k := 8) (by decide +kernel),
    exists_ends (k := 8) (by decide +kernel)⟩

end Sys2Proof.Tests
end

section
/-! What a step starts from and what each meaning does to the memories: the canonical form of the five memories is kept
by every instruction (R35, R37), and with it by every step. -/

namespace Sys2Proof.Proofs

open Sys2Proof.Machine Sys2Proof.Laws

variable {s s' t : State}

/-! ## What a step can do -/

/-- A step that answers performed the instruction `fetch` gave it, or passed the exit test of the advance loop (R99). -/
theorem step_eq_next :
    step s = .next t ↔ (∃ i s', fetch s = .run i s' ∧ exec i s' = .next t) ∨ fetch s = .pass t := by
  unfold step
  cases fetch s <;> simp

/-- Only the two ports change before an instruction is performed: the issued bytes (log 3) and the command (log 5). -/
def OnlyPorts (s s' : State) : Prop := s' = { s with cmd := s'.cmd, ops := s'.ops }

theorem fetchAdvance_run {i : Instr} (h : fetchAdvance s = .run i s') : s' = s := by
  unfold fetchAdvance at h
  split at h
  · split at h <;> cases h <;> rfl
  · split at h <;> cases h

theorem fetchAdvance_pass (h : fetchAdvance s = .pass t) : ∃ p, t = setPhase p s := by
  unfold fetchAdvance at h
  split at h
  · split at h <;> cases h
  · split at h <;> cases h <;> exact ⟨_, rfl⟩

theorem fetchPhase_run {i : Instr} (h : fetchPhase s = .run i s') : s' = s := by
  cases hp : s.phase <;> simp only [fetchPhase, hp] at h
  case eAdv => exact fetchAdvance_run h
  all_goals cases h; rfl

theorem fetchPhase_pass (h : fetchPhase s = .pass t) : ∃ p, t = setPhase p s := by
  cases hp : s.phase <;> simp only [fetchPhase, hp, reduceCtorEq] at h
  case eAdv => exact fetchAdvance_pass h

theorem fetchIssued_run {i : Instr} (h : fetchIssued s = .run i s') : OnlyPorts s s' := by
  unfold fetchIssued at h
  split at h <;> cases h
  rfl

theorem fetchIssued_ne_pass : fetchIssued s ≠ .pass t := by
  unfold fetchIssued
  split <;> exact Fetched.noConfusion

theorem fetchCommand_run {i : Instr} (h : fetchCommand s = .run i s') : OnlyPorts s s' := by
  unfold fetchCommand at h
  split at h <;> cases h
  rfl

theorem fetchCommand_ne_pass : fetchCommand s ≠ .pass t := by
  unfold fetchCommand
  split <;> exact Fetched.noConfusion

/-- An instruction is performed on the state the step began in, but for the port it was taken from. -/
theorem fetch_run {i : Instr} (h : fetch s = .run i s') : OnlyPorts s s' := by
  unfold fetch at h
  split at h
  · exact fetchIssued_run h
  · split at h
    · exact fetchCommand_run h
    · cases fetchPhase_run h; rfl

/-- A step without an instruction moves PHASE only. -/
theorem fetch_pass (h : fetch s = .pass t) : ∃ p, t = setPhase p s := by
  unfold fetch at h
  split at h
  · exact absurd h fetchIssued_ne_pass
  · split at h
    · exact absurd h fetchCommand_ne_pass
    · exact fetchPhase_pass h

/-- R9: `IN.next()` answers the byte at the cursor and moves the cursor only. -/
theorem inNext_eq_some {b : Byte} :
    inNext s = some (b, s') ↔ s.inp[s.ip]? = some b ∧ { s with ip := s.ip + 1 } = s' := by
  unfold inNext
  cases s.inp[s.ip]? <;> simp

/-! ## The decoder keeps the form -/

theorem memWf_inNext {b : Byte} (hw : s.memWf = true) (h : inNext s = some (b, s')) : s'.memWf = true := by
  obtain ⟨_, rfl⟩ := inNext_eq_some.mp h
  exact hw

theorem memWf_literalToken (hw : s.memWf = true) (b : Byte) : (literalToken b s).memWf = true := memWf_emitByte hw b

theorem memWf_referenceToken (hw : s.memWf = true) (pos : Pos) (len : Nat) :
    (referenceToken pos len s).memWf = true := memWf_copyBytes pos.toNat len 0 hw

theorem memWf_execRef {pos : Pos} {len : Nat} (hw : s.memWf = true) (h : execRef pos len s = .next t) :
    t.memWf = true := by
  unfold execRef at h
  split at h <;> cases h
  exact memWf_referenceToken hw pos len

theorem memWf_startDecoder (hw : s.memWf = true) : (startDecoder s).memWf = true := memWf_fillWindow (s := s) hw

theorem memWf_execDecCtrl (hw : s.memWf = true) (h : execDecCtrl s = .next t) : t.memWf = true := by
  simp only [execDecCtrl] at h
  split at h
  · cases h; exact hw
  · split at h
    · cases h; exact hw
    next _ s1 hc =>
      cases h
      have hw1 : s1.memWf = true := memWf_inNext (s := { s with flags := shiftFlags s.flags }) hw hc
      exact hw1

theorem memWf_execDecLit (hw : s.memWf = true) (h : execDecLit s = .next t) : t.memWf = true := by
  unfold execDecLit at h
  split at h
  · cases h; exact hw
  next _ _ hc => cases h; exact memWf_literalToken (memWf_inNext hw hc) _

theorem memWf_execDecRef (hw : s.memWf = true) (h : execDecRef s = .next t) : t.memWf = true := by
  unfold execDecRef at h
  split at h
  · cases h; exact hw
  next _ _ h0 =>
    have hw0 := memWf_inNext hw h0
    split at h
    · cases h; exact hw0
    next _ _ h1 => cases h; exact memWf_referenceToken (memWf_inNext hw0 h1) _ _

/-! ## The encoder keeps the form -/

theorem memWf_startEncoder (hw : s.memWf = true) : (startEncoder s).memWf = true :=
  (resetGroup_step _).mem_wf (memWf_clearIndex (memWf_fillWindow hw))

theorem memWf_execEncLoad (hw : s.memWf = true) (h : execEncLoad s = .next t) : t.memWf = true := by
  have hl : (loadLookahead Config.F s).memWf = true := memWf_loadLookahead _ hw
  simp only [execEncLoad] at h
  split at h <;> cases h <;> exact hl

theorem memWf_execEncPreinsert (hw : s.memWf = true) (h : execEncPreinsert s = .next t) : t.memWf = true := by
  simp only [execEncPreinsert, outcome_eq_next, bind_eq_ok, pure_eq_ok, Except.ok.injEq] at h
  obtain ⟨s1, h1, s2, h2, rfl⟩ := h
  exact (insertNode_step h2).mem_wf ((insertBack_step h1).mem_wf hw)

theorem memWf_packToken (hw : s.memWf = true) (h : packToken s = .ok t) : t.memWf = true := by
  unfold packToken at h
  split at h
  · exact (packLiteral_step h).mem_wf hw
  · exact (packReference_step h).mem_wf hw

theorem memWf_stepEncoder (hw : s.memWf = true) (h : stepEncoder s = .ok t) : t.memWf = true := by
  simp only [stepEncoder, bind_eq_ok, pure_eq_ok, Except.ok.injEq] at h
  obtain ⟨s1, h1, s2, h2, rfl⟩ := h
  exact (closeToken_step h2).mem_wf (memWf_packToken (s := clampMatch s) hw h1)

theorem memWf_advanceEncoder (hw : s.memWf = true) (h : advanceEncoder s = .ok t) : t.memWf = true := by
  simp only [advanceEncoder, bind_eq_ok] at h
  obtain ⟨s1, h1, h⟩ := h
  split at h
  · cases h
  next c s2 hc =>
    simp only [bind_eq_ok, pure_eq_ok, Except.ok.injEq] at h
    obtain ⟨s3, h3, rfl⟩ := h
    have hw2 : s2.memWf = true := memWf_inNext ((deleteNode_step h1).mem_wf hw) hc
    exact (insertNode_step h3).mem_wf (memWf_windowSet hw2 _ c)

theorem memWf_drainEncoder (hw : s.memWf = true) (h : drainEncoder s = .ok t) : t.memWf = true := by
  unfold drainEncoder at h
  split at h
  · cases h
  · simp only [bind_eq_ok] at h
    obtain ⟨s1, h1, h⟩ := h
    have hw1 : s1.memWf = true := (deleteNode_step h1).mem_wf hw
    split at h
    · cases h; exact hw1
    · exact (insertNode_step h).mem_wf hw1

theorem memWf_finishEncoder (hw : s.memWf = true) (h : finishEncoder s = .ok t) : t.memWf = true := by
  simp only [finishEncoder, bind_eq_ok, pure_eq_ok, Except.ok.injEq] at h
  obtain ⟨s1, h1, rfl⟩ := h
  exact (flushGroup_step h1).mem_wf hw

/-! ## Every instruction keeps the form -/

theorem memWf_execWinKeyb {p : Pos} {j : Nat} (hw : s.memWf = true) (h : execWinKeyb p j s = .next t) :
    t.memWf = true := by
  simp only [execWinKeyb, outcome_eq_next, bind_eq_ok, pure_eq_ok, Except.ok.injEq] at h
  obtain ⟨b, _, rfl⟩ := h
  exact hw

theorem memWf_execIdxSearch {r : Pos} (hw : s.memWf = true) (h : execIdxSearch r s = .next t) : t.memWf = true := by
  simp only [execIdxSearch, outcome_eq_next, bind_eq_ok, pure_eq_ok, Except.ok.injEq, Prod.exists] at h
  obtain ⟨result, s1, h1, rfl⟩ := h
  exact (searchIndex_onlyMatch h1).memWf.trans hw

theorem memWf_startRun (hw : s.memWf = true) (m : Mode) (p : Phase) : (startRun m p s).memWf = true := by
  unfold startRun
  split <;> exact hw

/-- Every instruction keeps the canonical form: a meaning writes existing entries only, or empties or filters a memory. -/
theorem exec_memWf {i : Instr} (hw : s.memWf = true) (h : exec i s = .next t) : t.memWf = true := by
  cases i with
  | ctrl k => cases h; exact hw
  | lit b => cases h; exact memWf_literalToken hw b
  | ref pos len => exact memWf_execRef hw h
  | winFill => cases h; exact memWf_fillWindow hw
  | winGet pos => cases h; exact hw
  | winSet pos b => cases h; exact memWf_windowSet hw pos b
  | winKeyb p j => exact memWf_execWinKeyb hw h
  | idxClear => cases h; exact memWf_clearIndex hw
  | cmpKey r p => cases h; exact hw
  | idxSearch r => exact memWf_execIdxSearch hw h
  | idxInsert r => exact (insertNode_step (outcome_eq_next.mp h)).mem_wf hw
  | idxReplace r p => exact (replaceNode_step (outcome_eq_next.mp h)).mem_wf hw
  | idxDelete p => exact (deleteNode_step (outcome_eq_next.mp h)).mem_wf hw
  | tokReset => cases h; exact (resetGroup_step s).mem_wf hw
  | tokLit b => exact (packLiteral_step (outcome_eq_next.mp h)).mem_wf hw
  | tokRef pos len => exact (packReference_step (outcome_eq_next.mp h)).mem_wf hw
  | tokNext => exact (closeToken_step (outcome_eq_next.mp h)).mem_wf hw
  | tokFlush => exact (flushGroup_step (outcome_eq_next.mp h)).mem_wf hw
  | encStart => cases h; exact memWf_startEncoder hw
  | encLoad => exact memWf_execEncLoad hw h
  | encPreinsert => exact memWf_execEncPreinsert hw h
  | encStep => exact memWf_stepEncoder hw (outcome_eq_next.mp h)
  | encAdvance => exact memWf_advanceEncoder hw (outcome_eq_next.mp h)
  | encDrain => exact memWf_drainEncoder hw (outcome_eq_next.mp h)
  | encFinish => exact memWf_finishEncoder hw (outcome_eq_next.mp h)
  | decStart => cases h; exact memWf_startDecoder hw
  | decCtrl => exact memWf_execDecCtrl hw h
  | decLit => exact memWf_execDecLit hw h
  | decRef => exact memWf_execDecRef hw h
  | decStop => cases h; exact hw
  | compress => cases h; exact memWf_startRun hw .enc .eInit
  | decompress => cases h; exact memWf_startRun hw .dec .dInit
  | cmdNone => cases h; exact hw
  | cmdIgnored => cases h; exact hw

/-! ## Every step keeps the form -/

theorem OnlyPorts.memWf (h : OnlyPorts s s') : s'.memWf = s.memWf := by rw [h]; rfl

/-- R35, R37: the canonical form is an invariant of the machine. -/
theorem step_memWf (hw : s.memWf = true) (h : step s = .next t) : t.memWf = true := by
  rcases step_eq_next.mp h with ⟨i, s', hf, he⟩ | hp
  · exact exec_memWf ((fetch_run hf).memWf.trans hw) he
  · obtain ⟨p, rfl⟩ := fetch_pass hp
    exact hw

/-- Settles O45: a step performs one instruction, each of which keeps the form, on a state that differs in the ports
only, or it moves PHASE. -/
theorem everyStepKeepsTheMemoryForm : Obligations.EveryStepKeepsTheMemoryForm := fun _ _ hw h => step_memWf hw h

end Sys2Proof.Proofs
end

section
/-! Encodings: the fields of the two bytes of a reference token (R57, R58), the encoder and the decoder as inverses of
each other (R54 to R58, R64, R112; operand layout of operations: log 3), and the step as exec of what was decoded at the
place it fetches from (R65, R104 to R106). -/

namespace Sys2Proof.Proofs

open Sys2Proof.Machine Sys2Proof.Laws

/-! ## The fields of a reference token -/

/-- R58: `b0` holds `pos[7:0]`. -/
theorem refByte0_eq (pos : Pos) : refByte0 pos = pos.extractLsb' 0 8 := by
  ext i hi
  interval_cases i <;> simp [refByte0]

/-- R58: `b1` holds `pos[11:8]` above the four bits of `len - 3`; `len - 3` leaves the upper field alone, since
it is below 16. -/
theorem refByte1_eq (pos : Pos) {len : Nat} (h : len ≤ 18) :
    refByte1 pos len = pos.extractLsb' 8 4 ++ BitVec.ofNat 4 (len - 3) := by
  have field : BitVec.ofNat 8 (len - 3) = (BitVec.ofNat 4 (len - 3)).setWidth 8 :=
    BitVec.eq_of_toNat_eq (by simp only [BitVec.toNat_ofNat, BitVec.toNat_setWidth]; omega)
  rw [refByte1, Config.threshold, field]
  apply BitVec.eq_of_getLsbD_eq
  intro i hi
  rw [BitVec.getLsbD_append]
  interval_cases i <;> simp

/-- R57: the position is the upper field of `b1` above `b0`. -/
theorem refPos_eq (b0 b1 : Byte) : refPos b0 b1 = b1.extractLsb' 4 4 ++ b0 := by
  apply BitVec.eq_of_getLsbD_eq
  intro i hi
  rw [BitVec.getLsbD_append]
  interval_cases i <;> simp [refPos]

/-- R57: the length is the lower field of `b1`, plus 3. -/
theorem refLen_eq (b1 : Byte) : refLen b1 = (b1.extractLsb' 0 4).toNat + 3 :=
  congrArg (· + 3) (Nat.and_two_pow_sub_one_eq_mod b1.toNat 4)

/-- R56: what two bytes assemble to is a length that a token carries. -/
theorem codedLen_refLen (b1 : Byte) : codedLen (refLen b1) := by
  have := (b1.extractLsb' 0 4).isLt
  rw [codedLen, refLen_eq, Config.threshold, Config.F]
  omega

theorem refPos_refBytes (pos : Pos) {len : Nat} (h : len ≤ 18) :
    refPos (refByte0 pos) (refByte1 pos len) = pos := by
  rw [refPos_eq, refByte1_eq pos h, refByte0_eq, BitVec.extractLsb'_append_eq_left]
  exact BitVec.extractLsb'_append_extractLsb' (w := 4) (len := 8)

theorem refLen_refByte1 (pos : Pos) {len : Nat} (h : codedLen len) : refLen (refByte1 pos len) = len := by
  obtain ⟨low, high⟩ : 3 ≤ len ∧ len ≤ 18 := h
  rw [refLen_eq, refByte1_eq pos high, BitVec.extractLsb'_append_eq_right, BitVec.toNat_ofNat]
  omega

theorem refByte0_refPos (b0 b1 : Byte) : refByte0 (refPos b0 b1) = b0 := by
  rw [refByte0_eq, refPos_eq]
  exact BitVec.extractLsb'_append_eq_right

theorem refByte1_refPos (b0 b1 : Byte) : refByte1 (refPos b0 b1) (refLen b1) = b1 := by
  rw [refByte1_eq _ (codedLen_refLen b1).2, refPos_eq, refLen_eq, Nat.add_sub_cancel, BitVec.ofNat_toNat,
    BitVec.setWidth_eq]
  have upper : (b1.extractLsb' 4 4 ++ b0 : Pos).extractLsb' 8 4 = b1.extractLsb' 4 4 :=
    BitVec.extractLsb'_append_eq_left
  rw [upper]
  exact BitVec.extractLsb'_append_extractLsb' (w := 4) (len := 4)

/-- Settles O9: the field equations of the two bytes, and the fields put together again. -/
theorem referenceFieldsPackAndAssemble : Obligations.ReferenceFieldsPackAndAssemble :=
  fun pos _ low high =>
    ⟨refByte0_eq pos, refByte1_eq pos high, refPos_refBytes pos high, refLen_refByte1 pos ⟨low, high⟩⟩

/-! ## Operands -/

section
variable {k : Byte → List Byte → Except DecodeError (Instr × List Byte)}

@[simp] theorem withByte_cons (b : Byte) (rest : List Byte) : withByte (b :: rest) k = k b rest := rfl

theorem withByte_eq_ok {bytes : List Byte} {r : Instr × List Byte} :
    withByte bytes k = .ok r ↔ ∃ b rest, bytes = b :: rest ∧ k b rest = .ok r := by
  cases bytes <;> simp [withByte]

end

theorem addressBytes_toNat (lo hi : Byte) : addressBytes (lo.toNat + 256 * hi.toNat) = [lo, hi] := by
  have low : BitVec.ofNat 8 (lo.toNat + 256 * hi.toNat) = lo := BitVec.eq_of_toNat_eq (by simp; omega)
  have high : BitVec.ofNat 8 ((lo.toNat + 256 * hi.toNat) / 256) = hi := BitVec.eq_of_toNat_eq (by simp; omega)
  rw [addressBytes, low, high]

section
variable {k : Nat → List Byte → Except DecodeError (Instr × List Byte)}

theorem withAddress_addressBytes {n : Nat} (h : n < 65536) (rest : List Byte) :
    withAddress (addressBytes n ++ rest) k = k n rest := by
  have value : (BitVec.ofNat 8 n).toNat + 256 * (BitVec.ofNat 8 (n / 256)).toNat = n := by
    simp only [BitVec.toNat_ofNat]; omega
  exact congrArg (k · rest) value

theorem withAddress_eq_ok {bytes : List Byte} {r : Instr × List Byte} :
    withAddress bytes k = .ok r ↔ ∃ n rest, n < 65536 ∧ bytes = addressBytes n ++ rest ∧ k n rest = .ok r := by
  constructor
  · intro h
    match bytes with
    | [] | [_] => cases h
    | lo :: hi :: rest =>
      exact ⟨lo.toNat + 256 * hi.toNat, rest, by omega, by rw [addressBytes_toNat]; rfl, h⟩
  · rintro ⟨n, rest, hn, rfl, h⟩
    rwa [withAddress_addressBytes hn]

end

section
variable {k : Pos → List Byte → Except DecodeError (Instr × List Byte)}

@[simp] theorem withPos_addressBytes (p : Pos) (rest : List Byte) :
    withPos (addressBytes p.toNat ++ rest) k = k p rest := by
  rw [withPos, withAddress_addressBytes (by omega), BitVec.ofNat_toNat, BitVec.setWidth_eq]
  exact if_pos p.isLt

theorem withPos_eq_ok {bytes : List Byte} {r : Instr × List Byte} :
    withPos bytes k = .ok r ↔ ∃ p rest, bytes = addressBytes p.toNat ++ rest ∧ k p rest = .ok r := by
  constructor
  · intro h
    obtain ⟨n, rest, -, rfl, hk⟩ := withAddress_eq_ok.mp h
    split at hk
    · next hn =>
      have value : (BitVec.ofNat 12 n).toNat = n := Nat.mod_eq_of_lt hn
      exact ⟨BitVec.ofNat 12 n, rest, by rw [value], hk⟩
    · cases hk
  · rintro ⟨p, rest, rfl, h⟩
    rwa [withPos_addressBytes]

end

/-! ## The checks on operands -/

@[simp] theorem wellFormed_ref {pos : Pos} {len : Nat} : (Instr.ref pos len).wellFormed = true ↔ codedLen len := by
  simp [Instr.wellFormed, Instr.ill]

@[simp] theorem wellFormed_tokRef {pos : Pos} {len : Nat} :
    (Instr.tokRef pos len).wellFormed = true ↔ codedLen len := by
  simp [Instr.wellFormed, Instr.ill]

@[simp] theorem wellFormed_winGet {n : Nat} : (Instr.winGet n).wellFormed = true ↔ n < 65536 := by
  simp [Instr.wellFormed, Instr.ill]

@[simp] theorem wellFormed_winSet {n : Nat} {b : Byte} : (Instr.winSet n b).wellFormed = true ↔ n < 65536 := by
  simp [Instr.wellFormed, Instr.ill]

@[simp] theorem wellFormed_winKeyb {p : Pos} {j : Nat} : (Instr.winKeyb p j).wellFormed = true ↔ j < Config.F := by
  simp [Instr.wellFormed, Instr.ill]

/-! ## Decoding after encoding -/

@[simp] theorem decode_operation_cons (b : Byte) (bytes : List Byte) :
    decode .operation (b :: bytes) = decodeOperation b bytes := rfl

/-- Only operands can be lost: each is read back by the law of its layout, in the range well-formedness gives. -/
theorem decode_encode (i : Instr) (rest : List Byte) (h : i.wellFormed = true) :
    decode i.source (encode i ++ rest) = .ok (i, rest) := by
  cases i with
  | ref pos len =>
    have hl := wellFormed_ref.mp h
    show Except.ok (Instr.ref (refPos _ _) (refLen _), rest) = _
    rw [refPos_refBytes pos hl.2, refLen_refByte1 pos hl]
  | tokRef pos len =>
    have hl := wellFormed_tokRef.mp h
    show Except.ok (Instr.tokRef (refPos _ _) (refLen _), rest) = _
    rw [refPos_refBytes pos hl.2, refLen_refByte1 pos hl]
  | winGet n | winSet n _ =>
    have hn : n < 65536 := by simpa using h
    simp [Instr.source, encode, decodeOperation, withAddress_addressBytes hn]
  | winKeyb p j =>
    have hj := wellFormed_winKeyb.mp h
    have value : j % 256 = j := Nat.mod_eq_of_lt (hj.trans (by decide))
    simp [Instr.source, encode, decodeOperation, value, hj]
  | cmpKey _ _ | idxReplace _ _ | idxSearch _ | idxInsert _ | idxDelete _ =>
    simp [Instr.source, encode, decodeOperation]
  | _ => rfl

/-- Settles O7, by cases on the instruction. -/
theorem decodeInvertsEncode : Obligations.DecodeInvertsEncode := decode_encode

/-! ## Encoding after decoding -/

/-- The first byte of an encoding is the one the decoder matched on by its number. -/
theorem cons_eq_cons_of_toNat {b c : Byte} (h : b.toNat = c.toNat) (l : List Byte) : c :: l = b :: l :=
  congrArg (· :: l) (BitVec.eq_of_toNat_eq h.symm)

/-- One case per operation number. An operand reader that answers split its bytes into an operand and the rest, so the
bytes are the encoding; the checks it made are those of well-formedness. -/
theorem encode_of_decodeOperation {b : Byte} {bytes rest : List Byte} {i : Instr}
    (h : decodeOperation b bytes = .ok (i, rest)) :
    i.source = .operation ∧ i.wellFormed = true ∧ encode i ++ rest = b :: bytes := by
  unfold decodeOperation at h
  split at h
  all_goals
    rename_i hb
    simp only [withByte_eq_ok, withAddress_eq_ok, withPos_eq_ok, Except.ok.injEq, Prod.mk.injEq, reduceCtorEq] at h
  case h_2 => -- WIN.GET
    obtain ⟨n, t, hn, rfl, rfl, rfl⟩ := h
    exact ⟨rfl, wellFormed_winGet.mpr hn, cons_eq_cons_of_toNat hb _⟩
  case h_3 => -- WIN.SET
    obtain ⟨n, t, hn, rfl, v, t, rfl, rfl, rfl⟩ := h
    exact ⟨rfl, wellFormed_winSet.mpr hn, cons_eq_cons_of_toNat hb _⟩
  case h_4 => -- WIN.KEYB
    obtain ⟨p, t, rfl, j, t, rfl, h⟩ := h
    split at h
    · next hj =>
      cases h
      refine ⟨rfl, wellFormed_winKeyb.mpr hj, ?_⟩
      rw [encode, BitVec.ofNat_toNat, BitVec.setWidth_eq]
      exact cons_eq_cons_of_toNat hb _
    · cases h
  case h_6 | h_9 => -- CMP.KEY, IDX.REPLACE
    obtain ⟨r, t, rfl, p, t, rfl, rfl, rfl⟩ := h
    exact ⟨rfl, rfl, cons_eq_cons_of_toNat hb _⟩
  case h_7 | h_8 | h_10 => -- IDX.SEARCH, IDX.INSERT, IDX.DELETE
    obtain ⟨p, t, rfl, rfl, rfl⟩ := h
    exact ⟨rfl, rfl, cons_eq_cons_of_toNat hb _⟩
  case h_12 => -- TOK.LIT
    obtain ⟨v, t, rfl, rfl, rfl⟩ := h
    exact ⟨rfl, rfl, cons_eq_cons_of_toNat hb _⟩
  case h_13 => -- TOK.REF
    obtain ⟨b0, t, rfl, b1, t, rfl, rfl, rfl⟩ := h
    refine ⟨rfl, wellFormed_tokRef.mpr (codedLen_refLen b1), ?_⟩
    rw [encode, refByte0_refPos, refByte1_refPos]
    exact cons_eq_cons_of_toNat hb _
  all_goals -- the operations without operands
    obtain ⟨rfl, rfl⟩ := h
    exact ⟨rfl, rfl, cons_eq_cons_of_toNat hb _⟩

theorem encode_of_decodeCommand {b : Byte} {bytes rest : List Byte} {i : Instr}
    (h : decodeCommand b bytes = .ok (i, rest)) :
    i.source = .command ∧ i.wellFormed = true ∧ encode i ++ rest = b :: bytes := by
  unfold decodeCommand at h
  split at h <;> cases h
  all_goals
    next hb => exact ⟨rfl, rfl, cons_eq_cons_of_toNat hb _⟩

theorem encode_of_decode {src : Source} {bytes rest : List Byte} {i : Instr} (h : decode src bytes = .ok (i, rest)) :
    i.source = src ∧ i.wellFormed = true ∧ encode i ++ rest = bytes := by
  cases src <;> obtain ⟨b, t, rfl, h⟩ := withByte_eq_ok.mp h
  case control | literal =>
    cases h
    exact ⟨rfl, rfl, rfl⟩
  case reference =>
    obtain ⟨b1, t, rfl, h⟩ := withByte_eq_ok.mp h
    cases h
    refine ⟨rfl, wellFormed_ref.mpr (codedLen_refLen b1), ?_⟩
    rw [encode, refByte0_refPos, refByte1_refPos]
    rfl
  case operation => exact encode_of_decodeOperation h
  case command => exact encode_of_decodeCommand h

/-- Settles O8, by cases on the source and, for operations and commands, on the number decoded. -/
theorem encodeInvertsDecode : Obligations.EncodeInvertsDecode := fun _ _ _ _ => encode_of_decode

/-- Settles O6: each word is evaluated. -/
theorem writtenWordsDecode : Obligations.WrittenWordsDecode := by
  refine ⟨?_, ?_, ?_, ?_, ?_, ?_, ?_, ?_, ?_, ?_, ?_⟩ <;> decide

/-! ## Steps -/

section
variable {s s' : State} {i : Instr} {rest : List Byte}

theorem step_of_run (h : fetch s = .run i s') : step s = exec i s' := by rw [step, h]

theorem fetch_eq_fetchPhase (ho : s.ops = []) (hc : s.cmd = 0) : fetch s = fetchPhase s := by
  simp [fetch, ho, hc]

/-- R65: the operation PHASE names is performed when nothing is issued and no command is on the port. -/
theorem step_of_phase (ho : s.ops = []) (hc : s.cmd = 0) (h : fetchPhase s = .run i s) : step s = exec i s :=
  step_of_run ((fetch_eq_fetchPhase ho hc).trans h)

/-- Log 3: issued operations go before anything else. -/
theorem step_of_ops (h : decode .operation s.ops = .ok (i, rest)) : step s = exec i { s with ops := rest } := by
  have ho : s.ops ≠ [] := fun ho => by rw [ho] at h; cases h
  apply step_of_run
  rw [fetch, if_pos ho, fetchIssued, h]

/-- Log 5: a command on the port, when nothing is issued. -/
theorem step_of_cmd (ho : s.ops = []) (hc : s.cmd ≠ 0) (h : decode .command [s.cmd.setWidth 8] = .ok (i, rest)) :
    step s = exec i { s with cmd := 0 } := by
  apply step_of_run
  rw [fetch, if_neg (not_not_intro ho), if_pos hc, fetchCommand, h]

/-- R9: the byte at the cursor is the first of the bytes from there on. -/
theorem inNext_of_drop {b : Byte} (h : s.inp.drop s.ip = b :: rest) : inNext s = some (b, { s with ip := s.ip + 1 }) := by
  rw [inNext_eq_some, ← List.head?_drop, h]
  exact ⟨rfl, rfl⟩

theorem execDecCtrl_of_drop {b : Byte} (hf : (s.flags >>> 1).getLsbD 8 = false) (h : s.inp.drop s.ip = b :: rest) :
    execDecCtrl s = .next (controlToken b { s with flags := s.flags >>> 1, ip := s.ip + 1 }) := by
  have hn := inNext_of_drop (s := { s with flags := shiftFlags s.flags }) h
  rw [shiftFlags] at hn
  simp only [execDecCtrl, bitsRemain, shiftFlags, hf, hn, Bool.false_eq_true, if_false]

theorem execDecLit_of_drop {b : Byte} (h : s.inp.drop s.ip = b :: rest) :
    execDecLit s = .next (literalToken b { s with ip := s.ip + 1 }) := by
  rw [execDecLit, inNext_of_drop h]

theorem execDecRef_of_drop {b0 b1 : Byte} (h : s.inp.drop s.ip = b0 :: b1 :: rest) :
    execDecRef s = .next (referenceToken (refPos b0 b1) (refLen b1) { s with ip := s.ip + 2 }) := by
  have h1 : s.inp.drop (s.ip + 1) = b1 :: rest := by rw [← List.tail_drop, h]; rfl
  rw [execDecRef, inNext_of_drop h]
  simp only [inNext_of_drop (s := { s with ip := s.ip + 1 }) h1]

theorem execRef_refLen (pos : Pos) (b1 : Byte) : execRef pos (refLen b1) s = .next (referenceToken pos (refLen b1) s) :=
  if_pos (codedLen_refLen b1)

end

/-- Settles O3: the operation of each phase; in PHASE IDLE it is CMD.NONE, which changes nothing. -/
theorem stepPerformsTheOperationOfPhase : Obligations.StepPerformsTheOperationOfPhase := by
  intro s ho hc
  have run {p : Phase} {i : Instr} (hf : s.phase = p → fetchPhase s = .run i s) (hp : s.phase = p) :
      step s = exec i s :=
    step_of_phase ho hc (hf hp)
  refine ⟨run (i := .cmdNone) ?_, run ?_, run ?_, run ?_, run ?_, run ?_, run ?_, run ?_, run ?_, run ?_⟩ <;>
    intro hp <;> rw [fetchPhase, hp]

/-- Settles O5: in the decoder's phases the fetched operation, which reads IN itself, does what the token decoded at IP
does. -/
theorem stepRunsTheDecodedInstruction : Obligations.StepRunsTheDecodedInstruction := by
  refine ⟨fun s i rest hsrc hwf hops => ?_, fun s i rest _ => step_of_ops, fun s ho => ?_, fun s i rest ho hc => ?_⟩
  · apply step_of_ops
    rw [hops, ← hsrc, decode_encode i rest hwf]
  · refine ⟨?_, ?_, ?_⟩ <;> intro hc <;>
      exact step_of_cmd (rest := []) ho (by rw [hc]; decide) (by rw [hc]; rfl)
  · refine ⟨fun hp hf h => ?_, fun hp h => ?_, fun hp h => ?_⟩
    · rw [step_of_phase (i := .decCtrl) ho hc (by rw [fetchPhase, hp])]
      obtain ⟨b, t, hd, h⟩ := withByte_eq_ok.mp h
      cases h
      exact execDecCtrl_of_drop hf hd
    · rw [step_of_phase (i := .decLit) ho hc (by rw [fetchPhase, hp])]
      obtain ⟨b, t, hd, h⟩ := withByte_eq_ok.mp h
      cases h
      exact execDecLit_of_drop hd
    · rw [step_of_phase (i := .decRef) ho hc (by rw [fetchPhase, hp])]
      obtain ⟨b0, t, hd, h⟩ := withByte_eq_ok.mp h
      obtain ⟨b1, t, rfl, h⟩ := withByte_eq_ok.mp h
      cases h
      exact (execDecRef_of_drop hd).trans (execRef_refLen _ b1).symm

end Sys2Proof.Proofs
end

section
/-! The Window Buffer (R70 to R74): what the operations write and read, and the mirror that makes a linear read equal the
ring read. -/

namespace Sys2Proof.Proofs

open Sys2Proof.Machine Sys2Proof.Laws Sys2Proof.Safety

variable {s : State}

/-! ## Ring writes and key reads -/

/-- R72: a ring write changes TEXT only. -/
theorem windowSet_frame (s : State) (pos : Nat) (b : Byte) :
    windowSet pos b s = { s with text := (windowSet pos b s).text } := by
  unfold windowSet
  split <;> rfl

/-- R74: the key of every ring position lies inside TEXT. -/
theorem keyAddr_le (p : Pos) {i : Nat} (hi : i < 18) : keyAddr p i ≤ 4112 := by
  have hp := p.isLt
  rw [keyAddr]
  omega

theorem keyByte_of_le {p : Pos} {i : Nat} (h : keyAddr p i ≤ 4112) : keyByte s p i = .ok (s.textAt (keyAddr p i)) :=
  if_pos (exists_text_iff.mpr (Nat.lt_succ_of_le h))

theorem keyByte_of_gt {p : Pos} {i : Nat} (h : 4112 < keyAddr p i) :
    keyByte s p i = .error (noEntry .text (keyAddr p i)) :=
  if_neg fun he => Nat.not_lt.mpr h (exists_text_iff.mp he)

theorem exec_winKeyb (s : State) (p : Pos) (i : Nat) :
    exec (.winKeyb p i) s = outcome (keyByte s p i >>= fun b => pure { s with ret := .byte b }) := rfl

/-! ## The mirror (R73) -/

theorem mirror_fillWindow (s : State) : Mirror (fillWindow s) := fun _ _ => rfl

/-- R73: a ring write keeps the mirror: for `a` below `F - 1`, the bytes at `a` and at `a + N` are written together, by a
write whose ring address is `a`, or neither is. -/
theorem mirror_windowSet (hw : s.memWf = true) (hm : Mirror s) (pos : Nat) (b : Byte) : Mirror (windowSet pos b s) := by
  intro a ha
  have hr := ringAddr_lt pos
  rw [windowSet_textAt hw, windowSet_textAt hw, hm a ha]
  refine if_congr ?_ rfl rfl
  simp only [Config.F, Config.N] at ha hr ⊢
  omega

/-- R73: below N a linear address is a ring address; from N on it is the mirror of one. -/
theorem textAt_mod_of_mirror (hm : Mirror s) {a : Nat} (ha : a ≤ 4112) : s.textAt a = s.textAt (a % 4096) := by
  rcases Nat.lt_or_ge a 4096 with h | h
  · rw [Nat.mod_eq_of_lt h]
  · have hmod : a % 4096 = a - 4096 := by omega
    calc s.textAt a = s.textAt (a - 4096 + Config.N) := by rw [Config.N, Nat.sub_add_cancel h]
      _ = s.textAt (a - 4096) := hm _ (by rw [Config.F]; omega)
      _ = s.textAt (a % 4096) := by rw [hmod]

/-! ## The operations -/

/-- Settles O14: the mirror after WIN.FILL and WIN.SET, and the split of the linear addresses at N. -/
theorem mirrorMakesLinearReadsRingReads : Obligations.MirrorMakesLinearReadsRingReads := by
  refine ⟨fun s t h => ?_, fun s t pos b hw hm h => ?_, fun s p i hm hi => ?_⟩
  · cases h
    exact mirror_fillWindow s
  · cases h
    exact mirror_windowSet hw hm pos b
  · exact textAt_mod_of_mirror hm (keyAddr_le p hi)

/-- Settles O12: what a ring write changes in TEXT, and that it changes nothing else. -/
theorem setWritesRingAndMirror : Obligations.SetWritesRingAndMirror := fun s pos b hw =>
  ⟨windowSet pos b s, rfl, windowSet_frame s pos b, windowSet_textAt hw pos b⟩

/-- Settles O10: after the fill nothing is listed, and an unlisted byte reads as FILLER. -/
theorem fillWritesFillerEverywhere : Obligations.FillWritesFillerEverywhere := fun s =>
  ⟨fillWindow s, rfl, rfl, fun a _ => fillWindow_textAt s a⟩

/-- Settles O11: `ringAddr` is the address modulo N. -/
theorem getReadsAtARingPosition : Obligations.GetReadsAtARingPosition := fun _ _ => rfl

/-- Settles O13: the byte is read where TEXT has the address, and refused past its end. -/
theorem keyByteReadsALinearAddress : Obligations.KeyByteReadsALinearAddress := by
  refine fun s p i => ⟨keyAddr_le p, fun h => ?_, fun h => ?_⟩
  · rw [exec_winKeyb, keyByte_of_le h]
    rfl
  · rw [exec_winKeyb, keyByte_of_gt h]
    rfl

end Sys2Proof.Proofs
end

section
/-! The comparator and the search walk (R78 to R80): what CMP.KEY returns, where the walk of IDX.SEARCH ends, and the
match state it leaves, read off the list of the nodes it visits. -/

namespace Sys2Proof.Proofs

open Sys2Proof.Machine Sys2Proof.Laws Sys2Proof.Safety

/-! ## CMP.KEY -/

section
variable (s : State) (r p : Pos)

/-- R78: the two keys agree on the bytes below the length that the comparator returns, byte 0 aside. -/
theorem compareKeys_agree {j : Nat} (h1 : 1 ≤ j) (hj : j < (compareKeys s r p).1) :
    s.textAt (keyAddr r j) = s.textAt (keyAddr p j) := by
  obtain ⟨-, -, agree, -⟩ := compareFrom_spec s r p (Config.F - 1) 1
  exact agree j h1 hj

/-- R78: a length of F comes with ZERO; a lower length is the index of a byte that differs, and CMP the sign there. -/
theorem compareKeys_end :
    ((compareKeys s r p).1 = 18 ∧ (compareKeys s r p).2 = .zero) ∨
    ((compareKeys s r p).1 < 18 ∧
      s.textAt (keyAddr r (compareKeys s r p).1) ≠ s.textAt (keyAddr p (compareKeys s r p).1) ∧
      (compareKeys s r p).2 =
        signOf (s.textAt (keyAddr r (compareKeys s r p).1)) (s.textAt (keyAddr p (compareKeys s r p).1))) := by
  obtain ⟨-, -, -, full | ⟨differ, low, sign⟩⟩ := compareFrom_spec s r p (Config.F - 1) 1
  · exact .inl full
  · exact .inr ⟨low, differ, sign⟩

end

/-- Settles O16: the bounds of the comparator's length, the bytes that agree below it, and what stands at it. -/
theorem compareReturnsPrefixAndSign : Obligations.CompareReturnsPrefixAndSign := by
  intro s r p
  obtain ⟨low, high⟩ := compareKeys_bounds s r p
  refine ⟨_, _, rfl, low, high, fun j h1 hj => compareKeys_agree s r p h1 hj, fun h => ?_, fun h => ?_⟩
  · rcases compareKeys_end s r p with ⟨-, zero⟩ | ⟨hlt, -⟩
    · exact zero
    · omega
  · rcases compareKeys_end s r p with ⟨full, -⟩ | ⟨-, differ, sign⟩
    · omega
    · exact ⟨differ, sign⟩

/-! ## Where the walk ends -/

section
variable {s : State} {r : Pos}

theorem mem_of_mem_visited {t : Shape} {q : Pos} (h : q ∈ visited s r t) : q ∈ t.nodes := by
  induction t with
  | leaf => exact h
  | node l p u ihl ihr =>
    simp only [visited, List.mem_cons] at h
    rw [nodes_node, List.mem_append, List.mem_cons]
    rcases h with rfl | h
    · exact .inr (.inl rfl)
    · split at h
      · cases h
      · split at h
        · exact .inl (ihl h)
        · exact .inr (.inr (ihr h))

/-- R79: the walk goes no further than a node with an equal key. -/
theorem visited_after_full {t : Shape} {q : Pos} {before after : List Pos} (h : visited s r t = before ++ q :: after)
    (hq : (compareKeys s r q).1 = Config.F) : after = [] := by
  induction t generalizing before with
  | leaf => simp [visited] at h
  | node l p u ihl ihr =>
    rw [visited] at h
    cases before with
    | nil =>
      obtain ⟨rfl, hrest⟩ := List.cons.inj h
      rw [if_pos hq] at hrest
      exact hrest.symm
    | cons a before =>
      replace h := (List.cons.inj h).2
      split at h
      · simp at h
      · split at h
        · exact ihl h
        · exact ihr h

/-- The child slot of `y` that the walk looks at with sign `c` (R79). -/
def childSlot (s : State) (y : Link) (c : Cmp) : Link := if c = .neg then s.leftAt y.toNat else s.rightAt y.toNat

/-- The side of that slot. -/
def sideOf (c : Cmp) : Side := if c = .neg then .leftSide else .rightSide

/-- Where a walk that started at `y` stands after the nodes of `path`. -/
def lastLink (y : Link) (path : List Pos) : Link := (path.getLast?.map Pos.link).getD y

/-- The sign a walk that started with `c` has after the nodes of `path`. -/
def lastSign (s : State) (r : Pos) (c : Cmp) (path : List Pos) : Cmp :=
  (path.getLast?.map fun q => (compareKeys s r q).2).getD c

@[simp] theorem lastLink_nil (y : Link) : lastLink y [] = y := rfl

@[simp] theorem lastSign_nil (c : Cmp) : lastSign s r c [] = c := rfl

@[simp] theorem lastLink_cons (y : Link) (q : Pos) (path : List Pos) :
    lastLink y (q :: path) = lastLink q.link path := by
  simp [lastLink, List.getLast?_cons, Option.getD_map]

@[simp] theorem lastSign_cons (c : Cmp) (q : Pos) (path : List Pos) :
    lastSign s r c (q :: path) = lastSign s r (compareKeys s r q).2 path := by
  rw [lastSign, lastSign, List.getLast?_cons, Option.getD_map (fun q => (compareKeys s r q).2)]
  rfl

/-- R79: `result` is how a walk ends that started at `y` with sign `c` and visited the nodes of `path`: at the last of
them, of equal key, or, when none has an equal key, at the absent child slot it looks at after them. -/
def WalkEnd (s : State) (r : Pos) (y : Link) (c : Cmp) (path : List Pos) : SearchResult → Prop
  | .full p => path.getLast? = some p ∧ (compareKeys s r p).1 = 18
  | .slot p side => p = lastLink y path ∧ side = sideOf (lastSign s r c path) ∧
      (∀ q ∈ path, (compareKeys s r q).1 < 18) ∧ childSlot s p (lastSign s r c path) = Config.nil

/-- A walk that passed `p` ends as the walk from `p` does. -/
theorem WalkEnd.cons {p : Pos} {path : List Pos} {result : SearchResult} {y : Link} {c : Cmp}
    (low : (compareKeys s r p).1 < 18) (h : WalkEnd s r p.link (compareKeys s r p).2 path result) :
    WalkEnd s r y c (p :: path) result := by
  cases result with
  | full q =>
    obtain ⟨last, full⟩ := h
    exact ⟨by rw [List.getLast?_cons, last]; rfl, full⟩
  | slot q side =>
    obtain ⟨hq, hside, lows, absent⟩ := h
    rw [WalkEnd, lastLink_cons, lastSign_cons]
    exact ⟨hq, hside, List.forall_mem_cons.mpr ⟨low, lows⟩, absent⟩

/-- R79: the walk on a tree. -/
theorem walkEnd_endOf (t : Shape) : ∀ {y : Link} {c : Cmp}, t.Linked s y (childSlot s y c) →
    WalkEnd s r y c (visited s r t) (endOf s r y c t) := by
  induction t with
  | leaf => exact fun h => ⟨rfl, rfl, fun q hq => absurd hq List.not_mem_nil, h⟩
  | node l p u ihl ihr =>
    intro y c ⟨_, _, hl, hu⟩
    rw [endOf, visited]
    by_cases full : (compareKeys s r p).1 = Config.F
    · rw [if_pos full, if_pos full]
      exact ⟨rfl, full⟩
    · rw [if_neg full, if_neg full]
      refine WalkEnd.cons (Nat.lt_of_le_of_ne (compareKeys_bounds s r p).2 full) ?_
      by_cases neg : (compareKeys s r p).2 = .neg
      · rw [if_pos neg, if_pos neg]
        exact ihl (by rwa [childSlot, if_pos neg, link_toNat])
      · rw [if_neg neg, if_neg neg]
        exact ihr (by rwa [childSlot, if_neg neg, link_toNat])

/-! ## The match state a walk leaves -/

theorem visitNode_matchPos (q : Pos) :
    (visitNode r q s).matchPos = if s.matchLen.toNat < (compareKeys s r q).1 then q else s.matchPos := by
  simp only [← betterMatch_iff]
  unfold visitNode
  split <;> rfl

/-- The state in which a walk begins (R79). -/
def startWalk (s : State) : State := { s with cmp := .pos, matchLen := 0 }

/-- The walk for `r` visits the nodes of `path`, from a state `u` on. -/
abbrev visitAll (r : Pos) (path : List Pos) (u : State) : State := path.foldl (fun s q => visitNode r q s) u

theorem visitAll_cmp (path : List Pos) : ∀ u : State, (∀ a, u.textAt a = s.textAt a) →
    (visitAll r path u).cmp = lastSign s r u.cmp path := by
  induction path with
  | nil => exact fun u _ => rfl
  | cons q path ih =>
    intro u hu
    rw [lastSign_cons, ← compareKeys_congr hu, ← visitNode_cmp]
    exact ih _ fun a => ((OnlyMatch.visit r q u).textAt a).trans (hu a)

/-- R80: MATCH_LEN never falls during a walk. -/
theorem matchLen_le_visitAll (path : List Pos) (u : State) : u.matchLen.toNat ≤ (visitAll r path u).matchLen.toNat := by
  induction path generalizing u with
  | nil => exact Nat.le_refl _
  | cons q path ih =>
    calc u.matchLen.toNat ≤ (visitNode r q u).matchLen.toNat := by rw [visitNode_matchLen]; exact Nat.le_max_left ..
      _ ≤ _ := ih _

theorem compareKeys_le_visitAll (path : List Pos) : ∀ u : State, (∀ a, u.textAt a = s.textAt a) →
    ∀ q ∈ path, (compareKeys s r q).1 ≤ (visitAll r path u).matchLen.toNat := by
  induction path with
  | nil => exact fun u _ q hq => absurd hq List.not_mem_nil
  | cons p path ih =>
    intro u hu
    refine List.forall_mem_cons.mpr ⟨?_, ih _ fun a => ((OnlyMatch.visit r p u).textAt a).trans (hu a)⟩
    calc (compareKeys s r p).1 ≤ (visitNode r p u).matchLen.toNat := by
          rw [visitNode_matchLen, compareKeys_congr hu]; exact Nat.le_max_right ..
      _ ≤ _ := matchLen_le_visitAll path _

/-- R80: `t` reports a node of `path`, the first of those with the length it reports. -/
def ReportsFirst (s : State) (r : Pos) (path : List Pos) (t : State) : Prop :=
  ∃ before after, path = before ++ t.matchPos :: after ∧ (compareKeys s r t.matchPos).1 = t.matchLen.toNat ∧
    ∀ q ∈ before, (compareKeys s r q).1 < t.matchLen.toNat

/-- R80: a walk leaves the match state as it was, or MATCH_LEN is higher and MATCH_POS the first node to attain it. -/
theorem visitAll_match (path : List Pos) : ∀ u : State, (∀ a, u.textAt a = s.textAt a) →
    ((visitAll r path u).matchLen = u.matchLen ∧ (visitAll r path u).matchPos = u.matchPos) ∨
    (u.matchLen.toNat < (visitAll r path u).matchLen.toNat ∧ ReportsFirst s r path (visitAll r path u)) := by
  induction path with
  | nil => exact fun u _ => .inl ⟨rfl, rfl⟩
  | cons q path ih =>
    intro u hu
    have hlen := visitNode_matchLen r q u
    have hpos := visitNode_matchPos (s := u) (r := r) q
    rw [compareKeys_congr hu] at hlen hpos
    rcases ih (visitNode r q u) fun a => ((OnlyMatch.visit r q u).textAt a).trans (hu a) with
      ⟨sameLen, samePos⟩ | ⟨higher, before, after, hpath, attained, lower⟩
    · by_cases better : u.matchLen.toNat < (compareKeys s r q).1
      · rw [if_pos better] at hpos
        rw [Nat.max_eq_right (Nat.le_of_lt better)] at hlen
        refine .inr ⟨?_, [], path, ?_, ?_, fun q hq => absurd hq List.not_mem_nil⟩
        · rwa [visitAll, List.foldl_cons, sameLen, hlen]
        · rw [visitAll, List.foldl_cons, samePos, hpos]; rfl
        · rw [visitAll, List.foldl_cons, samePos, sameLen, hpos, hlen]
      · rw [if_neg better] at hpos
        rw [Nat.max_eq_left (Nat.not_lt.mp better)] at hlen
        exact .inl ⟨sameLen.trans (BitVec.eq_of_toNat_eq hlen), samePos.trans hpos⟩
    · rw [hlen] at higher
      refine .inr ⟨Nat.lt_of_le_of_lt (Nat.le_max_left ..) higher, q :: before, after, congrArg (q :: ·) hpath,
        attained, ?_⟩
      exact List.forall_mem_cons.mpr ⟨Nat.lt_of_le_of_lt (Nat.le_max_right ..) higher, lower⟩

/-- R80: the match state `t` after a walk that began in `s` and visited the nodes of `path`: MATCH_LEN is the greatest
length the comparator returned on the path, MATCH_POS its first node that attained it, CMP the sign at its last node. -/
structure MatchOf (s : State) (r : Pos) (path : List Pos) (t : State) : Prop where
  no_node : path = [] → t.matchLen = 0 ∧ t.matchPos = s.matchPos ∧ t.cmp = .pos
  first : path ≠ [] → 1 ≤ t.matchLen.toNat ∧ ReportsFirst s r path t
  longest : ∀ q ∈ path, (compareKeys s r q).1 ≤ t.matchLen.toNat
  sign : t.cmp = lastSign s r .pos path

theorem matchOf_visitAll (path : List Pos) : MatchOf s r path (visitAll r path (startWalk s)) := by
  have longest := compareKeys_le_visitAll (s := s) (r := r) path (startWalk s) fun _ => rfl
  refine ⟨?_, fun hne => ?_, longest, visitAll_cmp path _ fun _ => rfl⟩
  · rintro rfl
    exact ⟨rfl, rfl, rfl⟩
  · obtain ⟨q, hq⟩ := List.exists_mem_of_ne_nil path hne
    have atLeastOne := (compareKeys_bounds s r q).1.trans (longest q hq)
    rcases visitAll_match (s := s) (r := r) path (startWalk s) fun _ => rfl with
      ⟨sameLen, -⟩ | ⟨-, first⟩
    · rw [sameLen] at atLeastOne
      exact absurd atLeastOne (show ¬ 1 ≤ (0 : Len).toNat by decide)
    · exact ⟨atLeastOne, first⟩

theorem MatchOf.cmp_getLast {path : List Pos} {t : State} (h : MatchOf s r path t) {q : Pos}
    (hq : path.getLast? = some q) : t.cmp = (compareKeys s r q).2 := by
  rw [h.sign, lastSign, hq]
  rfl

theorem MatchOf.attained {path : List Pos} {t : State} (h : MatchOf s r path t) (hlen : 1 ≤ t.matchLen.toNat) :
    t.matchPos ∈ path ∧ (compareKeys s r t.matchPos).1 = t.matchLen.toNat := by
  have hne : path ≠ [] := by
    intro hp
    rw [(h.no_node hp).1] at hlen
    exact absurd hlen (by decide)
  obtain ⟨-, before, after, hpath, hattained, -⟩ := h.first hne
  exact ⟨by rw [hpath]; simp, hattained⟩

/-- R79, R80: MATCH_LEN is F exactly after a walk that ended at a node of equal key, and MATCH_POS is then that node. -/
theorem MatchOf.full_iff {t : State} {shape : Shape} (h : MatchOf s r (visited s r shape) t) {y : Link} {c : Cmp}
    {result : SearchResult} (hend : WalkEnd s r y c (visited s r shape) result) (z : Pos) :
    t.matchLen = 18 ∧ z = t.matchPos ↔ result = .full z := by
  cases result with
  | full p =>
    obtain ⟨last, full⟩ := hend
    have hp : p ∈ visited s r shape := List.mem_of_getLast? last
    obtain ⟨-, before, after, hpath, attained, -⟩ := h.first (List.ne_nil_of_mem hp)
    have hlen : t.matchLen.toNat = 18 := by
      have := h.longest p hp
      have := (compareKeys_bounds s r t.matchPos).2
      omega
    have hafter := visited_after_full hpath (attained.trans hlen)
    have hpos : p = t.matchPos := by
      rw [hpath, hafter, List.getLast?_concat] at last
      exact (Option.some.inj last).symm
    rw [hpos, SearchResult.full.injEq]
    exact ⟨fun hz => hz.2.symm, fun hz => ⟨BitVec.eq_of_toNat_eq hlen, hz.symm⟩⟩
  | slot p side =>
    obtain ⟨-, -, low, -⟩ := hend
    refine ⟨fun ⟨hlen, _⟩ => ?_, fun hz => SearchResult.noConfusion hz⟩
    have hnat : t.matchLen.toNat = 18 := congrArg BitVec.toNat hlen
    obtain ⟨hmem, attained⟩ := h.attained (by omega)
    have := low _ hmem
    omega

/-- R79, R80: IDX.SEARCH completes on a forest, with the match state of the nodes visited. -/
theorem searchIndex_match {f : Byte → Shape} (hf : Forest s f) (r : Pos) :
    ∃ t, searchIndex r s = .ok (endOf s r (rootLink (s.textAt r.toNat)) .pos (f (s.textAt r.toNat)), t) ∧
      MatchOf s r (visited s r (f (s.textAt r.toNat))) t := by
  obtain ⟨t, ht, -, -, rfl⟩ := searchIndex_spec hf r
  exact ⟨_, ht, matchOf_visitAll _⟩

/-- R79: the walk of IDX.SEARCH on a forest. -/
theorem walkEnd_forest {f : Byte → Shape} (hf : Forest s f) (r : Pos) :
    WalkEnd s r (rootLink (s.textAt r.toNat)) .pos (visited s r (f (s.textAt r.toNat)))
      (endOf s r (rootLink (s.textAt r.toNat)) .pos (f (s.textAt r.toNat))) :=
  walkEnd_endOf _ (hf.linked _)

end

/-- R79: IDX.SEARCH takes the match state of the walk, and the model's own register how it ended (log 4). -/
theorem exec_idxSearch {s t : State} {r : Pos} {result : SearchResult} (h : searchIndex r s = .ok (result, t)) :
    exec (.idxSearch r) s =
      .next { s with cmp := t.cmp, matchPos := t.matchPos, matchLen := t.matchLen, ret := .search result } := by
  have only := searchIndex_onlyMatch h
  show outcome (searchIndex r s >>= _) = _
  rw [h]
  exact congrArg (fun t : State => Host.Outcome.next { t with ret := .search result }) only

/-- Settles O17: the probe path is the nodes visited; the match state and the end of the walk are read off them. -/
theorem searchReportsTheFirstLongestMatch : Obligations.SearchReportsTheFirstLongestMatch := by
  rintro s r path ⟨f, hf⟩ rfl
  rw [probePath_forest hf]
  obtain ⟨t, ht, hmatch⟩ := searchIndex_match hf r
  have hend := walkEnd_forest hf r
  refine ⟨_, _, exec_idxSearch ht, rfl, hmatch.no_node, hmatch.first, hmatch.longest,
    fun q hq => hmatch.cmp_getLast hq, ?_⟩
  generalize endOf s r (rootLink (s.textAt r.toNat)) .pos (f (s.textAt r.toNat)) = result at hend
  cases result with
  | full p => exact hend
  | slot p side =>
    obtain ⟨hp, hside, low, absent⟩ := hend
    rw [← hmatch.sign] at hside absent
    refine ⟨?_, low, fun (neg : t.cmp = .neg) => ?_, fun (neg : t.cmp ≠ .neg) => ?_⟩
    · rw [hp, lastLink]
      cases hlast : (visited s r (f (s.textAt r.toNat))).getLast? with
      | none => exact .inl ⟨List.getLast?_eq_none_iff.mp hlast, rfl⟩
      | some q => exact .inr ⟨q, rfl, rfl⟩
    · exact ⟨by rw [hside, sideOf, if_pos neg], by rwa [childSlot, if_pos neg] at absent⟩
    · exact ⟨by rw [hside, sideOf, if_neg neg], by rwa [childSlot, if_neg neg] at absent⟩

end Sys2Proof.Proofs
end

section
/-! IDX.INSERT (R81, R85): the positions of the trees after it, the match it reports, and the first insert into an empty
tree. -/

namespace Sys2Proof.Proofs

open Sys2Proof.Machine Sys2Proof.Laws Sys2Proof.Safety

variable {s t : State} {f : Byte → Shape} {r : Pos}

theorem exec_idxInsert (h : insertNode r s = .ok t) : exec (.idxInsert r) s = .next t := outcome_eq_next.mpr h

/-! ## The positions after an insertion -/

/-- R81, R82: an insertion adds `r` to a tree and takes the node out at which the walk for `r` ended, if any. -/
theorem mem_insertKey {shape : Shape} (hd : shape.nodes.Nodup) (y : Link) (c : Cmp) (z : Pos) :
    z ∈ (shape.insertKey s r).nodes ↔ z = r ∨ (z ∈ shape.nodes ∧ endOf s r y c shape ≠ .full z) := by
  cases hend : endOf s r y c shape with
  | slot p side =>
    rw [(insertKey_nodes hend).mem_iff, List.mem_cons]
    simp
  | full q =>
    obtain ⟨hq, hins⟩ := endOf_full hend hd
    rw [hins, substitute_nodes, List.mem_map, Ne, SearchResult.full.injEq]
    constructor
    · rintro ⟨x, hx, rfl⟩
      by_cases hxq : x = q
      · exact .inl (if_pos hxq)
      · rw [if_neg hxq]
        exact .inr ⟨hx, Ne.symm hxq⟩
    · rintro (rfl | ⟨hz, hzq⟩)
      · exact ⟨q, hq, if_pos rfl⟩
      · exact ⟨z, hz, if_neg (Ne.symm hzq)⟩

theorem isNode_insertForest (hf : Forest s f) (ht : Forest t (insertForest s r f)) (z : Pos) :
    IsNode t z ↔ z = r ∨
      (IsNode s z ∧ endOf s r (rootLink (s.textAt r.toNat)) .pos (f (s.textAt r.toNat)) ≠ .full z) := by
  have hmem := mem_insertKey (s := s) (r := r) (hf.nodup (s.textAt r.toNat)) (rootLink (s.textAt r.toNat)) .pos z
  have here : insertForest s r f (s.textAt r.toNat) = (f (s.textAt r.toNat)).insertKey s r := if_pos rfl
  have elsewhere : ∀ c, c ≠ s.textAt r.toNat → insertForest s r f c = f c := fun c hc => if_neg hc
  rw [IsNode, ht.node_iff z, IsNode, hf.node_iff z]
  constructor
  · rintro ⟨c, hz⟩
    by_cases hc : c = s.textAt r.toNat
    · rw [hc, here, hmem] at hz
      exact hz.imp_right fun ⟨hz, hne⟩ => ⟨⟨_, hz⟩, hne⟩
    · rw [elsewhere c hc] at hz
      exact .inr ⟨⟨c, hz⟩, fun hfull => hc (hf.disjoint _ _ z hz (endOf_full hfull (hf.nodup _)).1)⟩
  · rintro (rfl | ⟨⟨c, hz⟩, hne⟩)
    · exact ⟨s.textAt z.toNat, by rw [here, hmem]; exact .inl rfl⟩
    · by_cases hc : c = s.textAt r.toNat
      · exact ⟨s.textAt r.toNat, by rw [here, hmem, ← hc]; exact .inr ⟨hz, by rwa [hc]⟩⟩
      · exact ⟨c, by rwa [elsewhere c hc]⟩

/-! ## The match state after an insertion -/

theorem MatchOf.of_sameMatch {u : State} {path : List Pos} (h : MatchOf s r path u) (hm : SameMatch t u) :
    MatchOf s r path t := by
  obtain ⟨hcmp, hpos, hlen⟩ := hm
  constructor
  · rw [hcmp, hpos, hlen]; exact h.no_node
  · rw [ReportsFirst, hpos, hlen]; exact h.first
  · rw [hlen]; exact h.longest
  · rw [hcmp]; exact h.sign

section
variable (hw : s.memWf = true) (hf : Forest s f) (hr : ¬ IsNode s r)
include hw hf hr

/-- R80, R81: the match state after IDX.INSERT is that of the nodes visited. -/
theorem insertNode_match (h : insertNode r s = .ok t) : MatchOf s r (visited s r (f (s.textAt r.toNat))) t := by
  obtain ⟨result, u, hu, same⟩ := insertNode_search hw hf hr h
  obtain ⟨u', hu', hmatch⟩ := searchIndex_match hf r
  cases hu.symm.trans hu'
  exact hmatch.of_sameMatch same

/-- R81, R82: the nodes after IDX.INSERT are `r` and those before, without the one it replaced at a full match. -/
theorem insertNode_isNode (h : insertNode r s = .ok t) (z : Pos) :
    IsNode t z ↔ z = r ∨ (IsNode s z ∧ ¬ (t.matchLen = 18 ∧ z = t.matchPos)) := by
  obtain ⟨t', ht', -, -, -, hforest, -⟩ := insertNode_spec hw hf hr
  cases h.symm.trans ht'
  rw [(insertNode_match hw hf hr h).full_iff (walkEnd_forest hf r)]
  exact isNode_insertForest hf hforest z

end

/-- Settles O20: the trees are those of the insertion into a shape, the match state is that of IDX.SEARCH, and the nodes
follow from where the walk ended. -/
theorem insertRefinesInsertionIntoATree : Obligations.InsertRefinesInsertionIntoATree := by
  intro s f r hw hf hr
  obtain ⟨t, ht, hwt, only, -, hforest, dead, -⟩ := insertNode_spec hw hf hr
  obtain ⟨result, u, hu, same⟩ := insertNode_search hw hf hr ht
  exact ⟨t, exec_idxInsert ht, hwt, only, hforest, ⟨_, exec_idxSearch hu, same⟩, insertNode_isNode hw hf hr ht, dead⟩

/-- R80, R124: on search trees the match agrees with the key of `r` on as many bytes as it reports, and no more: byte 0
is that of the tree, the others are those the comparator saw. -/
theorem match_agrees {b : Byte} {shape : Shape} {q : Pos} (sorted : shape.Sorted s b) (hq : q ∈ shape.nodes)
    (hb : s.textAt r.toNat = b) :
    (∀ i < (compareKeys s r q).1, s.textAt (keyAddr q i) = s.textAt (keyAddr r i)) ∧
    ((compareKeys s r q).1 < 18 →
      s.textAt (keyAddr q (compareKeys s r q).1) ≠ s.textAt (keyAddr r (compareKeys s r q).1)) := by
  constructor
  · intro i hi
    rcases Nat.eq_zero_or_pos i with rfl | hpos
    · exact (sorted.head q hq).trans hb.symm
    · exact (compareKeys_agree s r q hpos hi).symm
  · intro hlt
    rcases compareKeys_end s r q with ⟨full, -⟩ | ⟨-, differ, -⟩
    · omega
    · exact Ne.symm differ

/-- Settles O22: the match is a node of the probe path, so a node of the tree of `r`, whose keys share byte 0. -/
theorem insertReportsAValidMatch : Obligations.InsertReportsAValidMatch := by
  rintro s r path hw ⟨f, hf, sorted⟩ hr rfl
  rw [probePath_forest hf]
  obtain ⟨t, ht, -, -, le, -⟩ := insertNode_spec hw hf hr
  have hmatch := insertNode_match hw hf hr ht
  refine ⟨t, exec_idxInsert ht, le, hmatch.no_node, hmatch.first, hmatch.longest, fun q hq => hmatch.cmp_getLast hq,
    fun hlen => ?_⟩
  obtain ⟨hmem, attained⟩ := hmatch.attained hlen
  have hnode : IsNode s t.matchPos := (hf.node_iff _).mpr ⟨_, mem_of_mem_visited hmem⟩
  have hne : t.matchPos ≠ r := fun he => hr (he ▸ hnode)
  have hkeys := match_agrees (sorted _) (mem_of_mem_visited hmem) rfl
  rw [attained] at hkeys
  refine ⟨hnode, hne, hkeys.1, hkeys.2, fun full => ?_⟩
  rw [insertNode_isNode hw hf hr ht]
  rintro (he | ⟨-, hkept⟩)
  · exact hne he
  · exact hkept ⟨full, rfl⟩

/-! ## The first insert into a tree -/

/-- R79: a walk from the sentinel of an empty tree ends there at once. -/
theorem searchIndex_empty (h : s.rightAt (rootLink (s.textAt r.toNat)).toNat = Config.nil) :
    searchIndex r s = .ok (.slot (rootLink (s.textAt r.toNat)) .rightSide, startWalk s) := by
  have hlink : walkLink (startWalk s) (rootLink (s.textAt r.toNat)) = .ok Config.nil := by
    rw [← h]
    exact readRight_root _ _
  exact walk_spec r .leaf (s := startWalk s) (fuel := walkBound) rfl hlink (by decide)
    (show (0 : Len).toNat < 18 by decide)

/-- The state in which `r` is a leaf under no parent (R81). -/
def asLeaf (r : Pos) (s : State) : State := (s.setLeft r.toNat Config.nil).setRight r.toNat Config.nil

theorem asLeaf_memWf (hw : s.memWf = true) (r : Pos) : (asLeaf r s).memWf = true :=
  memWf_setRight (memWf_setLeft hw (exists_left_pos r) _) (exists_right_pos r) _

theorem asLeaf_leftAt (hw : s.memWf = true) (r : Pos) (a : Nat) :
    (asLeaf r s).leftAt a = if a = r.toNat then Config.nil else s.leftAt a := leftAt_setLeft hw _ _ a

theorem asLeaf_rightAt (hw : s.memWf = true) (r : Pos) (a : Nat) :
    (asLeaf r s).rightAt a = if a = r.toNat then Config.nil else s.rightAt a :=
  rightAt_setRight (memWf_setLeft hw (exists_left_pos r) _) _ _ a

/-- R81: the first insert into a tree makes `r` a leaf, resets the match state, and hangs `r` under the sentinel. -/
theorem insertNode_empty (hw : s.memWf = true) (hr : ¬ IsNode s r)
    (h : s.rightAt (rootLink (s.textAt r.toNat)).toNat = Config.nil) :
    insertNode r s = .ok (((startWalk (asLeaf r s)).setRight (rootLink (s.textAt r.toNat)).toNat
      r.link).setParent r.toNat (rootLink (s.textAt r.toNat))) := by
  have hleaf : (asLeaf r s).rightAt (rootLink ((asLeaf r s).textAt r.toNat)).toNat = Config.nil := by
    rw [asLeaf_rightAt hw, if_neg (rootLink_ne_pos _ r)]
    exact h
  have hsearch := searchIndex_empty hleaf
  refine (if_neg hr).trans ?_
  simp only [writeLeft_link, writeRight_link, ok_bind]
  rw [← asLeaf, hsearch]
  simp only [ok_bind, spliceLeaf, writeRight_root, writeParent_link]
  rfl

/-- Settles O19: the walk ends at the sentinel, so three link entries of `r` and one of the sentinel are written. -/
theorem insertIntoAnEmptyTreeMakesTheRoot : Obligations.InsertIntoAnEmptyTreeMakesTheRoot := by
  rintro s r root hw hr rfl hempty
  have hwleaf := asLeaf_memWf hw r
  refine ⟨_, exec_idxInsert (insertNode_empty hw hr hempty), rfl, fun a => ?_, asLeaf_leftAt hw r, fun a => ?_⟩
  · rw [setParent_rightAt, rightAt_setRight (s := startWalk (asLeaf r s)) hwleaf]
    exact if_congr Iff.rfl rfl (asLeaf_rightAt hw r a)
  · exact parentAt_setParent (s := (startWalk (asLeaf r s)).setRight _ _)
      (memWf_setRight hwleaf (exists_right_root _) _) _ _ a

end Sys2Proof.Proofs
end

section
/-! IDX.CLEAR and IDX.DELETE (R75, R83), and the calls that are refused (R82, R85, R97, R98, log 9). -/

namespace Sys2Proof.Proofs

open Sys2Proof.Machine Sys2Proof.Laws Sys2Proof.Safety

variable {s t : State} {f : Byte → Shape} {p r : Pos}

/-! ## IDX.CLEAR -/

/-- Settles O15: root entries lie above the node entries of RIGHT, which alone are kept. -/
theorem clearEmptiesEveryTree : Obligations.ClearEmptiesEveryTree := by
  refine fun s => ⟨clearIndex s, rfl, rfl, fun b => ?_, fun p => rfl, fun p => ?_⟩
  · rw [clearIndex_rightAt, Config.N, if_neg (by omega)]
  · exact (clearIndex_rightAt s _).trans (if_pos p.isLt)

/-! ## IDX.DELETE -/

theorem exec_idxDelete (h : deleteNode p s = .ok t) : exec (.idxDelete p) s = .next t := outcome_eq_next.mpr h

theorem deleteNode_of_not_node (h : ¬ IsNode s p) : deleteNode p s = .ok s := if_pos (not_not.mp h)

theorem isNode_remove (hf : Forest s f) (ht : Forest t fun b => (f b).remove p) (z : Pos) :
    IsNode t z ↔ IsNode s z ∧ z ≠ p := by
  have hmem : ∀ b, z ∈ ((f b).remove p).nodes ↔ z ≠ p ∧ z ∈ (f b).nodes := fun b => by
    rw [remove_nodes (hf.nodup b), (hf.nodup b).mem_erase_iff]
  rw [IsNode, ht.node_iff z, IsNode, hf.node_iff z]
  simp only [hmem, exists_and_left]
  exact and_comm

/-- Settles O24: on a node the trees are those of the removal from a shape, which takes exactly `p` out of the order. -/
theorem deleteRefinesRemovalFromATree : Obligations.DeleteRefinesRemovalFromATree := by
  refine fun s p => ⟨fun hp => exec_idxDelete (deleteNode_of_not_node hp), fun f hw hf hp => ?_⟩
  obtain ⟨b, hb⟩ := (hf.node_iff p).mp hp
  obtain ⟨t, ht, hwt, only, hforest, left, right, dead⟩ := deleteNode_spec hw hf hb
  refine ⟨t, exec_idxDelete ht, hwt, only, hforest, isNode_remove hf hforest, ?_⟩
  rintro z (rfl | hz)
  · exact ⟨left, right⟩
  · exact dead z hz

/-! ## Refused calls -/

theorem deleteNode_completes (hw : s.memWf = true) (h : TreeLaw s) (p : Pos) : ∃ t, deleteNode p s = .ok t := by
  obtain ⟨f, hf⟩ := h
  by_cases hp : IsNode s p
  · obtain ⟨b, hb⟩ := (hf.node_iff p).mp hp
    obtain ⟨t, ht, -⟩ := deleteNode_spec hw hf hb
    exact ⟨t, ht⟩
  · exact ⟨s, deleteNode_of_not_node hp⟩

/-- R9: there is no byte to read at or past the end of the input. -/
theorem inNext_of_exhausted (h : s.inp.length ≤ s.ip) : inNext s = none := by
  rw [inNext, List.getElem?_eq_none h]

/-- R97: the deletion before it leaves IN and IP as they are, so ENC.ADVANCE finds no byte. -/
theorem advanceEncoder_exhausted (hw : s.memWf = true) (h : TreeLaw s) (hip : s.inp.length ≤ s.ip) :
    advanceEncoder s = .error (.refused .inputExhausted) := by
  obtain ⟨t, ht⟩ := deleteNode_completes hw h s.sCur
  have hnone : inNext t = none := inNext_of_exhausted (by rw [(deleteNode_step ht).only]; exact hip)
  rw [advanceEncoder, ht, ok_bind, hnone]

theorem replaceNode_by_node (h : IsNode s r) : replaceNode r p s = .error (.refused (.alreadyInTree r)) := if_pos h

theorem replaceNode_of_not_node (hr : ¬ IsNode s r) (hp : ¬ IsNode s p) :
    replaceNode r p s = .error (.refused (.notInTree p)) :=
  (if_neg hr).trans (if_pos (not_not.mp hp))

theorem insertNode_of_node (h : IsNode s r) : insertNode r s = .error (.refused (.alreadyInTree r)) := if_pos h

/-- Settles O18: each meaning is that of its operation, which stops at the condition. -/
theorem callsThatBreakAConditionAreRefused : Obligations.CallsThatBreakAConditionAreRefused := by
  refine fun s r p => ⟨fun h => ?_, fun h => ?_, fun hr hp => ?_, fun hw h hip => ?_, fun h => ?_⟩
  · exact congrArg outcome (insertNode_of_node h)
  · exact congrArg outcome (replaceNode_by_node h)
  · exact congrArg outcome (replaceNode_of_not_node hr hp)
  · exact congrArg outcome (advanceEncoder_exhausted hw h hip)
  · exact congrArg outcome (if_pos h)

end Sys2Proof.Proofs
end

section
/-! IDX.REPLACE, entry by entry (R82, R84). -/

namespace Sys2Proof.Proofs

open Sys2Proof.Machine Sys2Proof.Laws Sys2Proof.Safety

variable {s t : State} {f : Byte → Shape} {p r : Pos}

/-! ## The links around a node -/

/-- A node of a tree under the holder of the tree is its root. -/
theorem root_of_parent {shape : Shape} {y x : Link} (h : shape.Linked s y x) (hp : p ∈ shape.nodes)
    (hpy : s.parentAt p.toNat = y) (hy : ∀ v ∈ shape.nodes, v.link ≠ y) : x = p.link := by
  rcases parent_of_mem h hp with ⟨hx, -⟩ | ⟨v, hv, he⟩
  · exact hx
  · exact absurd (he.symm.trans hpy) (hy v hv)

/-- R84: exactly one child slot of the parent of `p`, where that is a position, holds `p`. -/
theorem parent_slot {shape : Shape} {w : Pos} (hw : s.parentAt p.toNat = w.link) : ∀ {y x : Link}, shape.Linked s y x →
    shape.nodes.Nodup → p ∈ shape.nodes → w.link ≠ y → (s.leftAt w.toNat = p.link ↔ s.rightAt w.toNat ≠ p.link) := by
  induction shape with
  | leaf => exact fun _ _ hp => absurd hp List.not_mem_nil
  | node l a u ihl ihu =>
    intro y x ⟨_, ha, hl, hu⟩ hd hp hy
    obtain ⟨hdl, hdu, hal, hau, hlu⟩ := nodup_node.mp hd
    have hap : a ≠ p := by
      rintro rfl
      exact hy (hw.symm.trans ha)
    by_cases hpl : p ∈ l.nodes
    · by_cases hwa : w = a
      · subst hwa
        have hleft := root_of_parent hl hpl hw fun v hv he => hal (link_injective he ▸ hv)
        exact iff_of_true hleft fun hright => hlu p hpl (mem_of_linked_root (hright ▸ hu))
      · exact ihl hl hdl hpl (by simpa using hwa)
    · have hpu := mem_right hp hap hpl
      by_cases hwa : w = a
      · subst hwa
        have hright := root_of_parent hu hpu hw fun v hv he => hau (link_injective he ▸ hv)
        exact iff_of_false (fun hleft => hpl (mem_of_linked_root (hleft ▸ hl))) (not_not.mpr hright)
      · exact ihu hu hdu hpu (by simpa using hwa)

section
variable (hf : Forest s f)
include hf

theorem forest_parent_slot (hp : IsNode s p) {z : Pos} (hz : z.link = s.parentAt p.toNat) :
    s.leftAt z.toNat = p.link ↔ s.rightAt z.toNat ≠ p.link := by
  obtain ⟨b, hb⟩ := (hf.node_iff p).mp hp
  exact parent_slot hz.symm (hf.linked b) (hf.nodup b) hb (rootLink_ne_link b z).symm

theorem forest_root_slot (hp : IsNode s p) {b : Byte} (hb : rootLink b = s.parentAt p.toNat) :
    s.rightAt (rootLink b).toNat = p.link := by
  obtain ⟨c, hc⟩ := (hf.node_iff p).mp hp
  rcases forest_parent_cases hf hc with ⟨hroot, hslot⟩ | ⟨w, -, hw⟩
  · rw [hb, hroot]; exact hslot
  · exact absurd (hb.trans hw) (rootLink_ne_link b w)

/-- R120: the parent of a node is a sentinel or a node. -/
theorem forest_parent_ne (hp : IsNode s p) (hr : ¬ IsNode s r) : r.link ≠ s.parentAt p.toNat := by
  obtain ⟨b, hb⟩ := (hf.node_iff p).mp hp
  rcases forest_parent_cases hf hb with ⟨hroot, -⟩ | ⟨w, hw, he⟩
  · rw [hroot]; exact (rootLink_ne_link b r).symm
  · rw [he]
    exact fun h => hr ((hf.node_iff r).mpr ⟨b, link_injective h ▸ hw⟩)

theorem forest_not_own_child (hp : IsNode s p) : p.link ≠ s.leftAt p.toNat ∧ p.link ≠ s.rightAt p.toNat := by
  obtain ⟨b, hb⟩ := (hf.node_iff p).mp hp
  obtain ⟨hl, hu⟩ := linked_children (hf.linked b) hb
  obtain ⟨-, -, hpl, hpu, -⟩ := nodup_node.mp (nodup_below (hf.nodup b) hb)
  refine ⟨fun he => hpl ?_, fun he => hpu ?_⟩
  · rw [← he] at hl
    exact mem_of_linked_root hl
  · rw [← he] at hu
    exact mem_of_linked_root hu

end

/-! ## The operations of IDX.REPLACE -/

theorem toNat_eq_toNat_iff {z : Pos} {y : Link} : z.toNat = y.toNat ↔ z.link = y := by
  rw [← link_toNat]
  exact ⟨BitVec.eq_of_toNat_eq, congrArg _⟩

/-- R46: SetParent changes the PARENT entry of the position it names, if it names one. -/
theorem linkParent_entries (hw : s.memWf = true) {x v : Link} (h : linkParent x v s = .ok t) :
    t.memWf = true ∧ (∀ a, t.leftAt a = s.leftAt a) ∧ (∀ a, t.rightAt a = s.rightAt a) ∧
    ∀ z : Pos, t.parentAt z.toNat = if z.link = x then v else s.parentAt z.toNat := by
  refine ⟨(linkParent_step h).mem_wf hw, ?_⟩
  rcases linkParent_eq_ok.mp h with ⟨rfl, rfl⟩ | ⟨-, -, rfl⟩
  · exact ⟨fun _ => rfl, fun _ => rfl, fun z => (if_neg (link_ne_nil z)).symm⟩
  · exact ⟨fun _ => rfl, fun _ => rfl, fun z => (parentAt_setParent hw ..).trans (if_congr toNat_eq_toNat_iff rfl rfl)⟩

/-- R84: the child slot of `PARENT[p]` that takes `v` is RIGHT where that holds `p`, else LEFT. -/
theorem replaceChild_entries (hw : s.memWf = true) {v : Link} (h : replaceChild p.link v s = .ok t) :
    t.memWf = true ∧ (∀ a, t.parentAt a = s.parentAt a) ∧
    (∀ a, t.rightAt a =
      if a = (s.parentAt p.toNat).toNat ∧ s.rightAt (s.parentAt p.toNat).toNat = p.link then v else s.rightAt a) ∧
    (∀ a, t.leftAt a =
      if a = (s.parentAt p.toNat).toNat ∧ s.rightAt (s.parentAt p.toNat).toNat ≠ p.link then v else s.leftAt a) := by
  refine ⟨(replaceChild_step h).mem_wf hw, ?_⟩
  simp only [replaceChild, readParent_link, ok_bind, bind_eq_ok, readRight_eq_ok] at h
  obtain ⟨c, ⟨-, rfl⟩, h⟩ := h
  by_cases hright : s.rightAt (s.parentAt p.toNat).toNat = p.link
  · rw [if_pos hright] at h
    obtain ⟨-, rfl⟩ := writeRight_eq_ok.mp h
    simp only [hright, ne_eq, not_true, and_false, and_true, if_false]
    exact ⟨fun _ => rfl, rightAt_setRight hw _ _, fun _ => rfl⟩
  · rw [if_neg hright] at h
    obtain ⟨-, rfl⟩ := writeLeft_eq_ok.mp h
    simp only [hright, ne_eq, not_false_eq_true, and_false, and_true, if_false]
    exact ⟨fun _ => rfl, fun _ => rfl, leftAt_setLeft hw _ _⟩

/-- The state in which `r` has the links of `p` (R82, the first three lines). -/
def copyLinks (r p : Pos) (s : State) : State :=
  ((s.setParent r.toNat (s.parentAt p.toNat)).setLeft r.toNat (s.leftAt p.toNat)).setRight r.toNat (s.rightAt p.toNat)

/-- R82, the first three lines: of the links only those of `r` change. -/
theorem copyLinks_entries (hw : s.memWf = true) (r p : Pos) :
    (copyLinks r p s).memWf = true ∧
    (∀ a, (copyLinks r p s).parentAt a = if a = r.toNat then s.parentAt p.toNat else s.parentAt a) ∧
    (∀ a, (copyLinks r p s).leftAt a = if a = r.toNat then s.leftAt p.toNat else s.leftAt a) ∧
    (∀ a, (copyLinks r p s).rightAt a = if a = r.toNat then s.rightAt p.toNat else s.rightAt a) := by
  have hw1 := memWf_setParent hw (exists_parent_pos r) (s.parentAt p.toNat)
  have hw2 := memWf_setLeft hw1 (exists_left_pos r) (s.leftAt p.toNat)
  exact ⟨memWf_setRight hw2 (exists_right_pos r) _, parentAt_setParent hw _ _, leftAt_setLeft hw1 _ _,
    rightAt_setRight hw2 _ _⟩

/-- R82, line by line: `r` takes the links of `p`, then the children of `p`, then its slot; `p` is in no tree. -/
theorem replaceNode_lines (hr : ¬ IsNode s r) (hp : IsNode s p) (h : replaceNode r p s = .ok t) :
    ∃ s1 s2 s3, linkParent ((copyLinks r p s).leftAt p.toNat) r.link (copyLinks r p s) = .ok s1 ∧
      linkParent (s1.rightAt p.toNat) r.link s1 = .ok s2 ∧ replaceChild p.link r.link s2 = .ok s3 ∧
      t = s3.setParent p.toNat Config.nil := by
  have h := ((if_neg hr).trans (if_neg hp)).symm.trans h
  simp only [readParent_link, readLeft_link, readRight_link, writeParent_link, writeLeft_link, writeRight_link,
    ok_bind, bind_eq_ok, Except.ok.injEq] at h
  obtain ⟨s1, h1, s2, h2, s3, h3, ht⟩ := h
  exact ⟨s1, s2, s3, h1, h2, h3, ht.symm⟩

/-- R82, the first five lines: `r` has the links of `p`, and the children of `p` have `r` as their parent. -/
theorem adoptChildren_entries {s1 s2 : State} (hw : s.memWf = true) (hpr : p ≠ r)
    (h1 : linkParent ((copyLinks r p s).leftAt p.toNat) r.link (copyLinks r p s) = .ok s1)
    (h2 : linkParent (s1.rightAt p.toNat) r.link s1 = .ok s2) :
    s2.memWf = true ∧
    (∀ z : Pos, s2.parentAt z.toNat = if z.link = s.leftAt p.toNat ∨ z.link = s.rightAt p.toNat then r.link
      else if z = r then s.parentAt p.toNat else s.parentAt z.toNat) ∧
    (∀ a, s2.leftAt a = if a = r.toNat then s.leftAt p.toNat else s.leftAt a) ∧
    (∀ a, s2.rightAt a = if a = r.toNat then s.rightAt p.toNat else s.rightAt a) := by
  have hpr' : p.toNat ≠ r.toNat := fun he => hpr (toNat_inj.mp he)
  obtain ⟨hw0, hp0, hl0, hr0⟩ := copyLinks_entries hw r p
  rw [hl0, if_neg hpr'] at h1
  obtain ⟨hw1, hl1, hr1, hp1⟩ := linkParent_entries hw0 h1
  rw [hr1, hr0, if_neg hpr'] at h2
  obtain ⟨hw2, hl2, hr2, hp2⟩ := linkParent_entries hw1 h2
  refine ⟨hw2, fun z => ?_, fun a => by rw [hl2, hl1, hl0], fun a => by rw [hr2, hr1, hr0]⟩
  rw [hp2, hp1, hp0]
  refine Eq.trans ?_ (if_congr or_comm rfl rfl)
  simp only [ite_or, toNat_inj]

/-- R82: `t` is `s` with `r` in the place of `p`, entry by entry. -/
structure Replaced (s : State) (r p : Pos) (t : State) : Prop where
  parent : ∀ z : Pos, t.parentAt z.toNat =
    if z = p then Config.nil
    else if z.link = s.leftAt p.toNat ∨ z.link = s.rightAt p.toNat then r.link
    else if z = r then s.parentAt p.toNat else s.parentAt z.toNat
  left : ∀ z : Pos, t.leftAt z.toNat =
    if z = r then s.leftAt p.toNat
    else if z.link = s.parentAt p.toNat ∧ s.leftAt z.toNat = p.link then r.link else s.leftAt z.toNat
  right : ∀ z : Pos, t.rightAt z.toNat =
    if z = r then s.rightAt p.toNat
    else if z.link = s.parentAt p.toNat ∧ s.rightAt z.toNat = p.link then r.link else s.rightAt z.toNat
  root : ∀ b, t.rightAt (rootLink b).toNat =
    if rootLink b = s.parentAt p.toNat then r.link else s.rightAt (rootLink b).toNat

/-- R82, R84: on a forest IDX.REPLACE puts `r` in the place of `p`: the parent of `p` is neither a child of `p` nor `r`,
so its child slots are as before when the slot that holds `p` is sought. -/
theorem replaceNode_replaced (hw : s.memWf = true) (hf : Forest s f) (hp : IsNode s p) (hr : ¬ IsNode s r)
    (h : replaceNode r p s = .ok t) : Replaced s r p t := by
  have hpr : p ≠ r := by
    rintro rfl
    exact hr hp
  obtain ⟨s1, s2, s3, h1, h2, h3, rfl⟩ := replaceNode_lines hr hp h
  obtain ⟨hw2, hp2, hl2, hr2⟩ := adoptChildren_entries hw hpr h1 h2
  obtain ⟨hw3, hp3, hr3, hl3⟩ := replaceChild_entries hw2 h3
  obtain ⟨notLeft, notRight⟩ := forest_not_own_child hf hp
  have hry := forest_parent_ne hf hp hr
  have hpp : s2.parentAt p.toNat = s.parentAt p.toNat := by
    rw [hp2, if_neg (not_or.mpr ⟨notLeft, notRight⟩), if_neg hpr]
  have hslot : s2.rightAt (s.parentAt p.toNat).toNat = s.rightAt (s.parentAt p.toNat).toNat := by
    rw [hr2, if_neg fun he => hry (toNat_eq_toNat_iff.mp he.symm)]
  rw [hpp, hslot] at hr3 hl3
  refine ⟨fun z => ?_, fun z => ?_, fun z => ?_, fun b => ?_⟩
  · rw [parentAt_setParent hw3, hp3, hp2]
    exact if_congr toNat_inj rfl rfl
  · rw [setParent_leftAt, hl3, hl2]
    simp only [toNat_inj, toNat_eq_toNat_iff]
    by_cases hzr : z = r
    · rw [hzr, if_neg fun h => hry h.1, if_pos rfl, if_pos rfl]
    · rw [if_neg hzr, if_neg hzr]
      refine if_congr (and_congr_right fun hz => ?_) rfl rfl
      rw [← hz, link_toNat]
      exact (forest_parent_slot hf hp hz).symm
  · rw [setParent_rightAt, hr3, hr2]
    simp only [toNat_inj, toNat_eq_toNat_iff]
    by_cases hzr : z = r
    · rw [hzr, if_neg fun h => hry h.1, if_pos rfl, if_pos rfl]
    · rw [if_neg hzr, if_neg hzr]
      refine if_congr (and_congr_right fun hz => ?_) rfl rfl
      rw [← hz, link_toNat]
  · rw [setParent_rightAt, hr3, hr2, if_neg (rootLink_ne_pos b r)]
    refine if_congr ⟨fun h => BitVec.eq_of_toNat_eq h.1, fun hb => ⟨congrArg _ hb, ?_⟩⟩ rfl rfl
    rw [← hb]
    exact forest_root_slot hf hp hb

/-- Settles O23: the entries from the lines of the rule, the trees from the substitution in a shape. -/
theorem replaceTakesThePlaceOfTheNode : Obligations.ReplaceTakesThePlaceOfTheNode := by
  intro s f r p hw hf hp hr
  obtain ⟨b, hb⟩ := (hf.node_iff p).mp hp
  obtain ⟨t, ht, -, only, hforest, -⟩ := replaceNode_spec hw hf hb hr
  obtain ⟨parent, left, right, root⟩ := replaceNode_replaced hw hf hp hr ht
  exact ⟨t, outcome_eq_next.mpr ht, only, parent, left, right, root, hforest⟩

end Sys2Proof.Proofs
end

section
/-! The token encoder (R87 to R92): what the operations write to the group buffer, where they are refused, and the law
of the group held between operations. -/

namespace Sys2Proof.Proofs

open Sys2Proof.Machine Sys2Proof.Laws Sys2Proof.Safety

variable {s t : State} {b : Byte} {pos : Pos} {len : Nat} {kinds : List Bool} {kind : Bool}

/-! ## The group buffer (R15) -/

theorem codeAt_setCode (hw : s.memWf = true) (a : Nat) (v : Byte) (x : Nat) :
    (s.setCode a v).codeAt x = if x = a then v else s.codeAt x :=
  setCode_codeAt (memWf_iff.mp hw).2.2.2.2.1 a v x

theorem writeCode_of_lt {a : Nat} (h : a < 17) (v : Byte) : writeCode a v s = .ok (s.setCode a v) :=
  writeCode_eq_ok.mpr ⟨h, rfl⟩

theorem writeCode_of_ge {a : Nat} (h : 17 ≤ a) (v : Byte) : writeCode a v s = .error (noEntry .codebuf a) :=
  if_neg fun he => Nat.not_lt.mpr h (exists_codebuf_iff.mp he)

theorem groupBytes_of_le (h : s.codePtr.toNat ≤ 17) :
    groupBytes s = .ok ((List.range s.codePtr.toNat).map s.codeAt) := if_pos h

theorem groupBytes_of_gt (h : 17 < s.codePtr.toNat) : groupBytes s = .error (noEntry .codebuf 17) :=
  if_neg (Nat.not_le.mpr h)

/-! ## TOK.RESET (R87) -/

theorem resetGroup_codeAt (hw : s.memWf = true) (a : Nat) :
    (resetGroup s).codeAt a = if a = 0 then 0 else s.codeAt a := codeAt_setCode hw 0 0 a

/-- Settles O26: of CODEBUF only the control byte is written. -/
theorem tokenResetEmptiesTheGroup : Obligations.TokenResetEmptiesTheGroup := fun s hw =>
  ⟨resetGroup s, rfl, rfl, resetGroup_codeAt hw⟩

/-! ## TOK.LIT (R88) -/

theorem packLiteral_of_le (h : s.codePtr.toNat ≤ 16) : packLiteral b s =
    .ok { (s.setCode 0 (s.codeAt 0 ||| s.mask)).setCode s.codePtr.toNat b with codePtr := s.codePtr + 1 } := by
  rw [packLiteral, writeCode_of_lt (by decide), ok_bind, setCode_codePtr, writeCode_of_lt (by omega)]
  rfl

theorem packLiteral_of_gt (h : 16 < s.codePtr.toNat) :
    packLiteral b s = .error (noEntry .codebuf s.codePtr.toNat) := by
  rw [packLiteral, writeCode_of_lt (by decide), ok_bind, setCode_codePtr, writeCode_of_ge h, error_bind]

/-- Settles O27: the control byte is written before the byte of the token, so the later write shows at CODEPTR. -/
theorem literalIsPacked : Obligations.LiteralIsPacked := by
  refine fun s b hw => ⟨fun h => ⟨_, congrArg outcome (packLiteral_of_le h), rfl, fun a => ?_⟩, fun h => ?_⟩
  · have hw0 : (s.setCode 0 (s.codeAt 0 ||| s.mask)).memWf = true :=
      memWf_setCode hw (exists_codebuf_iff.mpr (by decide)) _
    exact (codeAt_setCode hw0 _ b a).trans (if_congr Iff.rfl rfl (codeAt_setCode hw 0 _ a))
  · exact congrArg outcome (packLiteral_of_gt h)

/-! ## TOK.REF (R89) -/

/-- R58: `b0` is the position modulo 256. -/
theorem refByte0_eq_ofNat (pos : Pos) : refByte0 pos = BitVec.ofNat 8 (pos.toNat % 256) := by
  apply BitVec.eq_of_toNat_eq
  rw [refByte0_eq, BitVec.extractLsb'_toNat, BitVec.toNat_ofNat, Nat.shiftRight_zero, Nat.mod_mod]

/-- R58: `b1` is the quotient of the position by 256 in the upper four bits and `len - 3` in the lower. -/
theorem refByte1_eq_ofNat (pos : Pos) (h : len ≤ 18) :
    refByte1 pos len = BitVec.ofNat 8 (pos.toNat / 256 * 16 + (len - 3)) := by
  have hpos := pos.isLt
  have low : len - 3 < 2 ^ 4 := by omega
  apply BitVec.eq_of_toNat_eq
  rw [refByte1_eq pos h, BitVec.toNat_append, BitVec.extractLsb'_toNat, BitVec.toNat_ofNat, BitVec.toNat_ofNat,
    Nat.mod_eq_of_lt low, ← Nat.shiftLeft_add_eq_or_of_lt low, Nat.shiftLeft_eq, Nat.shiftRight_eq_div_pow]
  omega

theorem packReference_of_le (hl : codedLen len) (h : s.codePtr.toNat ≤ 15) : packReference pos len s =
    .ok { (s.setCode s.codePtr.toNat (refByte0 pos)).setCode (s.codePtr.toNat + 1) (refByte1 pos len) with
          codePtr := s.codePtr + 2 } := by
  rw [packReference, if_pos hl, writeCode_of_lt (by omega), ok_bind, setCode_codePtr, writeCode_of_lt (by omega)]
  rfl

/-- Which of the two writes finds no entry depends on CODEPTR: at 16 the second, above the first. -/
theorem packReference_of_gt (hl : codedLen len) (h : 15 < s.codePtr.toNat) :
    ∃ a, 17 ≤ a ∧ packReference pos len s = .error (noEntry .codebuf a) := by
  rw [packReference, if_pos hl]
  rcases Nat.lt_or_ge s.codePtr.toNat 17 with hlt | hge
  · refine ⟨s.codePtr.toNat + 1, by omega, ?_⟩
    rw [writeCode_of_lt hlt, ok_bind, setCode_codePtr, writeCode_of_ge (by omega), error_bind]
  · exact ⟨s.codePtr.toNat, hge, by rw [writeCode_of_ge hge, error_bind]⟩

theorem packReference_of_not_coded (h : ¬ codedLen len) :
    packReference pos len s = .error (.refused (.lengthNotCoded len)) := if_neg h

/-- Settles O28: the two writes are at different addresses, so their order does not show. -/
theorem referenceIsPacked : Obligations.ReferenceIsPacked := by
  refine fun s pos len hw =>
    ⟨fun low high h => ⟨_, congrArg outcome (packReference_of_le ⟨low, high⟩ h), rfl, fun a => ?_⟩,
      fun low high h => ?_, fun h => congrArg outcome (packReference_of_not_coded ?_)⟩
  · have hw0 : (s.setCode s.codePtr.toNat (refByte0 pos)).memWf = true :=
      memWf_setCode hw (exists_codebuf_iff.mpr (by omega)) _
    refine (codeAt_setCode hw0 _ _ a).trans ?_
    rw [codeAt_setCode hw, refByte0_eq_ofNat, refByte1_eq_ofNat pos high]
    exact ite_ite_comm _ _ _ _ fun he => by omega
  · obtain ⟨a, ha, hr⟩ := packReference_of_gt (pos := pos) ⟨low, high⟩ h
    exact ⟨a, ha, congrArg outcome hr⟩
  · rw [codedLen, Config.threshold, Config.F]
    omega

/-! ## TOK.NEXT (R90) -/

/-- R90: MASK shifted left loses its top bit. -/
theorem shiftMask_eq_zero_iff {m : Byte} : shiftMask m = 0 ↔ m.toNat * 2 % 256 = 0 := by
  rw [← BitVec.toNat_inj, shiftMask, BitVec.toNat_shiftLeft, Nat.shiftLeft_eq]
  rfl

theorem closeToken_of_room (h : shiftMask s.mask ≠ 0) : closeToken s = .ok { s with mask := shiftMask s.mask } :=
  if_neg h

theorem closeToken_of_full (h : shiftMask s.mask = 0) (hp : s.codePtr.toNat ≤ 17) :
    closeToken s = .ok (resetGroup (appendAll ((List.range s.codePtr.toNat).map s.codeAt) s)) := by
  have hb : groupBytes { s with mask := shiftMask s.mask } = .ok ((List.range s.codePtr.toNat).map s.codeAt) :=
    groupBytes_of_le hp
  refine (if_pos h).trans ?_
  rw [hb]
  rfl

theorem closeToken_of_gt (h : shiftMask s.mask = 0) (hp : 17 < s.codePtr.toNat) :
    closeToken s = .error (noEntry .codebuf 17) := by
  have hb : groupBytes { s with mask := shiftMask s.mask } = .error (noEntry .codebuf 17) := groupBytes_of_gt hp
  refine (if_pos h).trans ?_
  rw [hb]
  rfl

/-- Settles O29: MASK shifted left is 0 exactly after the eighth slot, and the group goes out before it is reset. -/
theorem fullGroupGoesToTheOutput : Obligations.FullGroupGoesToTheOutput := by
  refine fun s hw => ⟨fun h => ?_, fun h hp => ?_, fun h hp => ?_⟩
  · exact congrArg outcome (closeToken_of_room (mt shiftMask_eq_zero_iff.mp h))
  · exact ⟨_, congrArg outcome (closeToken_of_full (shiftMask_eq_zero_iff.mpr h) hp), rfl, rfl, resetGroup_codeAt hw⟩
  · exact congrArg outcome (closeToken_of_gt (shiftMask_eq_zero_iff.mpr h) hp)

/-! ## TOK.FLUSH (R91) -/

theorem flushGroup_of_le (h : 1 < s.codePtr.toNat) (hp : s.codePtr.toNat ≤ 17) :
    flushGroup s = .ok (appendAll ((List.range s.codePtr.toNat).map s.codeAt) s) := by
  rw [flushGroup, if_pos h, groupBytes_of_le hp]
  rfl

theorem flushGroup_of_empty (h : s.codePtr.toNat ≤ 1) : flushGroup s = .ok s := if_neg (Nat.not_lt.mpr h)

theorem flushGroup_of_gt (hp : 17 < s.codePtr.toNat) : flushGroup s = .error (noEntry .codebuf 17) := by
  rw [flushGroup, if_pos (by omega), groupBytes_of_gt hp, error_bind]

/-- Settles O30: the three ranges of CODEPTR. -/
theorem partialGroupIsFlushed : Obligations.PartialGroupIsFlushed := fun _ =>
  ⟨fun h hp => congrArg outcome (flushGroup_of_le h hp), fun h => congrArg outcome (flushGroup_of_empty h),
    fun hp => congrArg outcome (flushGroup_of_gt hp)⟩

/-! ## The kinds of the tokens held (R92) -/

theorem kindBytes_append (kinds : List Bool) (kind : Bool) :
    kindBytes (kinds ++ [kind]) = kindBytes kinds + if kind then 1 else 2 := by
  induction kinds with
  | nil => simp [kindBytes]
  | cons k ks ih => simp only [List.cons_append, kindBytes, ih, Nat.add_assoc]

theorem kindBits_append (kinds : List Bool) (kind : Bool) :
    kindBits (kinds ++ [kind]) = kindBits kinds + 2 ^ kinds.length * kind.toNat := by
  induction kinds with
  | nil => simp [kindBits]
  | cons k ks ih =>
    simp only [List.cons_append, kindBits, ih, List.length_cons]
    ring

theorem kindBytes_le (kinds : List Bool) : kindBytes kinds ≤ 2 * kinds.length := by
  induction kinds with
  | nil => exact Nat.le_refl 0
  | cons k ks ih =>
    simp only [kindBytes, List.length_cons]
    split <;> omega

theorem kindBits_lt (kinds : List Bool) : kindBits kinds < 2 ^ kinds.length := by
  induction kinds with
  | nil => exact Nat.zero_lt_one
  | cons k ks ih =>
    have hk := k.toNat_le
    simp only [kindBits, List.length_cons, Nat.pow_succ]
    omega

/-! ## The group law (R92) -/

theorem codePtr_le_of_holdsGroup (h : HoldsGroup s kinds) : s.codePtr.toNat ≤ 1 + 2 * kinds.length := by
  have := kindBytes_le kinds
  rw [h.codePtr_eq]
  omega

theorem codePtr_pos_of_holdsGroup (h : HoldsGroup s kinds) : 0 < s.codePtr.toNat := by
  rw [h.codePtr_eq]
  omega

theorem holdsGroup_resetGroup (hw : s.memWf = true) : HoldsGroup (resetGroup s) [] :=
  ⟨rfl, rfl, by rw [resetGroup_codeAt hw]; rfl⟩

/-- R21: the bit of slot `n` of the eight. -/
theorem one_shiftLeft_toNat {n : Nat} (h : n ≤ 7) : (1 <<< n : Byte).toNat = 2 ^ n :=
  BitVec.toNat_twoPow_of_lt (Nat.lt_succ_of_le h)

/-- R92: the bit of MASK for the next slot is above the control bits of the tokens held. -/
theorem control_or_mask_of_holdsGroup (h : HoldsGroup s kinds) (hl : kinds.length ≤ 7) :
    (s.codeAt 0 ||| s.mask).toNat = kindBits (kinds ++ [true]) := by
  rw [BitVec.toNat_or, h.control_eq, h.mask_eq, one_shiftLeft_toNat hl, kindBits_append, Nat.lor_comm, Nat.add_comm]
  simpa using (Nat.two_pow_add_eq_or_of_lt (kindBits_lt kinds) 1).symm

/-- R92: CODEPTR does not overflow when the bytes of one more token are counted. -/
theorem codePtr_add_of_holdsGroup (h : HoldsGroup s kinds) (hl : kinds.length ≤ 7) {n : Len}
    (hn : n.toNat = if kind then 1 else 2) : (s.codePtr + n).toNat = 1 + kindBytes (kinds ++ [kind]) := by
  have hle := codePtr_le_of_holdsGroup h
  have hn2 : n.toNat ≤ 2 := by
    rw [hn]
    split <;> decide
  rw [BitVec.toNat_add, Nat.mod_eq_of_lt (by omega), kindBytes_append, h.codePtr_eq, hn, Nat.add_assoc]

/-- R92: the group holds `kinds` once the slot of its last token is closed: MASK still is the bit of that slot. -/
def HoldsPacked (s : State) (kinds : List Bool) : Prop := HoldsGroup { s with mask := shiftMask s.mask } kinds

theorem shiftMask_one_shiftLeft (n : Nat) : shiftMask (1 <<< n) = 1 <<< (n + 1) :=
  (BitVec.shiftLeft_add 1#8 n 1).symm

theorem holdsPacked_append (h : HoldsGroup s kinds) (hmask : t.mask = s.mask)
    (hptr : t.codePtr.toNat = 1 + kindBytes (kinds ++ [kind]))
    (hcontrol : (t.codeAt 0).toNat = kindBits (kinds ++ [kind])) : HoldsPacked t (kinds ++ [kind]) where
  mask_eq := by
    rw [hmask, h.mask_eq, List.length_append]
    exact shiftMask_one_shiftLeft kinds.length
  codePtr_eq := hptr
  control_eq := hcontrol

theorem tokLit_holdsPacked (hw : s.memWf = true) (h : HoldsGroup s kinds) (hl : kinds.length ≤ 7) (b : Byte) :
    ∃ t, exec (.tokLit b) s = .next t ∧ HoldsPacked t (kinds ++ [true]) := by
  have hle := codePtr_le_of_holdsGroup h
  have hpos := codePtr_pos_of_holdsGroup h
  obtain ⟨t, ht, only, hcode⟩ := (literalIsPacked s b hw).1 (by omega)
  refine ⟨t, ht, holdsPacked_append h (by rw [only]) ?_ ?_⟩
  · rw [only]
    exact codePtr_add_of_holdsGroup h hl rfl
  · rw [hcode, if_neg (by omega), if_pos rfl]
    exact control_or_mask_of_holdsGroup h hl

theorem tokRef_holdsPacked (hw : s.memWf = true) (h : HoldsGroup s kinds) (hl : kinds.length ≤ 7) (pos : Pos)
    (low : 3 ≤ len) (high : len ≤ 18) :
    ∃ t, exec (.tokRef pos len) s = .next t ∧ HoldsPacked t (kinds ++ [false]) := by
  have hle := codePtr_le_of_holdsGroup h
  have hpos := codePtr_pos_of_holdsGroup h
  obtain ⟨t, ht, only, hcode⟩ := (referenceIsPacked s pos len hw).1 low high (by omega)
  refine ⟨t, ht, holdsPacked_append h (by rw [only]) ?_ ?_⟩
  · rw [only]
    exact codePtr_add_of_holdsGroup h hl rfl
  · rw [hcode, if_neg (by omega), if_neg (by omega), h.control_eq, kindBits_append]
    rfl

/-- R92: TOK.NEXT after the eighth token empties the group, and before that leaves the token added. -/
theorem tokNext_holdsGroup (hw : s.memWf = true) (hl : kinds.length ≤ 7) (h : HoldsPacked s (kinds ++ [kind])) :
    ∃ t, exec .tokNext s = .next t ∧ HoldsGroup t (if kinds.length = 7 then [] else kinds ++ [kind]) := by
  have hmask : shiftMask s.mask = 1 <<< (kinds.length + 1) := h.mask_eq.trans (by rw [List.length_append]; rfl)
  have hptr : s.codePtr.toNat ≤ 1 + 2 * (kinds ++ [kind]).length :=
    codePtr_le_of_holdsGroup (s := { s with mask := shiftMask s.mask }) h
  rw [List.length_append, List.length_singleton] at hptr
  split
  case isTrue hfull =>
    exact ⟨_, congrArg outcome (closeToken_of_full (by rw [hmask, hfull]; rfl) (by omega)), holdsGroup_resetGroup hw⟩
  case isFalse hroom =>
    have hne : shiftMask s.mask ≠ 0 := by
      intro h0
      have := one_shiftLeft_toNat (n := kinds.length + 1) (by omega)
      rw [← hmask, h0] at this
      exact absurd this (Nat.two_pow_pos _).ne
    exact ⟨_, congrArg outcome (closeToken_of_room hne), h⟩

/-- R92: a token packed and its slot closed: the canonical form is kept by both operations. -/
theorem pack_and_close {i : Instr} (hw : s.memWf = true) (hl : kinds.length ≤ 7)
    (h : ∃ t, exec i s = .next t ∧ HoldsPacked t (kinds ++ [kind])) :
    ∃ t u, exec i s = .next t ∧ exec .tokNext t = .next u ∧ u.memWf = true ∧
      HoldsGroup u (if kinds.length = 7 then [] else kinds ++ [kind]) := by
  obtain ⟨t, ht, hpacked⟩ := h
  have hwt := exec_memWf hw ht
  obtain ⟨u, hu, hgroup⟩ := tokNext_holdsGroup hwt hl hpacked
  exact ⟨t, u, ht, hu, exec_memWf hwt hu, hgroup⟩

/-- Settles O31: a token is packed in a group with room for it, and TOK.NEXT then closes its slot. -/
theorem groupLawIsKept : Obligations.GroupLawIsKept := by
  refine fun s hw => ⟨fun t h => ?_, fun ⟨kinds, hl, h⟩ => ?_, fun kinds b hl h => ?_,
    fun kinds pos len hl h low high => ?_⟩
  · cases h
    exact holdsGroup_resetGroup hw
  · have hle := codePtr_le_of_holdsGroup h
    exact ⟨codePtr_pos_of_holdsGroup h, by omega⟩
  · exact pack_and_close hw hl (tokLit_holdsPacked hw h hl b)
  · exact pack_and_close hw hl (tokRef_holdsPacked hw h hl pos low high)

end Sys2Proof.Proofs
end

section
/-! The encoder sequencer where it holds no tree: ENC.START (R93), ENC.LOAD (R94) and the end of a run (R100, R108). -/

namespace Sys2Proof.Proofs

open Sys2Proof.Machine Sys2Proof.Laws Sys2Proof.Safety

variable {s t : State}

/-! ## ENC.START (R93) -/

theorem emptyIndex_clearIndex (s : State) : EmptyIndex (clearIndex s) where
  roots b := by
    rw [clearIndex_rightAt, if_neg]
    rw [rootLink_toNat, Config.N]
    omega
  parents _ := rfl

/-- The links after ENC.START are those after IDX.CLEAR. -/
theorem emptyIndex_startEncoder (s : State) : EmptyIndex (startEncoder s) :=
  ⟨(emptyIndex_clearIndex s).roots, fun _ => rfl⟩

/-- Settles O32: the window is filled, the index cleared and the group reset, and each touches its own memory only. -/
theorem encoderStartInitialises : Obligations.EncoderStartInitialises := fun s hw =>
  ⟨startEncoder s, rfl, rfl, fun _ _ => rfl, resetGroup_codeAt (memWf_clearIndex (memWf_fillWindow hw)) 0,
    emptyIndex_startEncoder s⟩

/-! ## ENC.LOAD (R94) -/

/-- R94: one byte of the input goes to the end of the lookahead. -/
def loadByte (b : Byte) (s : State) : State :=
  { windowSet (s.rCur.toNat + s.len.toNat) b { s with ip := s.ip + 1 } with len := s.len + 1 }

/-- A load changes TEXT, LEN and IP. -/
theorem loadByte_frame (b : Byte) (s : State) :
    loadByte b s = { s with text := (loadByte b s).text, len := s.len + 1, ip := s.ip + 1 } :=
  congrArg (fun u : State => { u with len := s.len + 1 })
    (windowSet_frame { s with ip := s.ip + 1 } (s.rCur.toNat + s.len.toNat) b)

theorem loadByte_rCur (b : Byte) (s : State) : (loadByte b s).rCur = s.rCur := by rw [loadByte_frame]

theorem loadByte_inp (b : Byte) (s : State) : (loadByte b s).inp = s.inp := by rw [loadByte_frame]

theorem loadByte_ip (b : Byte) (s : State) : (loadByte b s).ip = s.ip + 1 := by rw [loadByte_frame]

theorem loadByte_len (b : Byte) (room : s.len.toNat < 18) : (loadByte b s).len.toNat = s.len.toNat + 1 :=
  BitVec.toNat_add_of_lt (Nat.lt_trans (Nat.succ_lt_succ room) (by decide))

theorem loadByte_memWf (hw : s.memWf = true) (b : Byte) : (loadByte b s).memWf = true :=
  memWf_windowSet (s := { s with ip := s.ip + 1 }) hw _ b

theorem loadByte_textAt (hw : s.memWf = true) (b : Byte) (a : Nat) : (loadByte b s).textAt a =
    if a = ringAddr (s.rCur.toNat + s.len.toNat) ∨ (ringAddr (s.rCur.toNat + s.len.toNat) < Config.F - 1 ∧
      a = ringAddr (s.rCur.toNat + s.len.toNat) + Config.N) then b else s.textAt a :=
  windowSet_textAt (s := { s with ip := s.ip + 1 }) hw _ b a

/-- A load leaves the other ring bytes and their mirror as they are. -/
theorem loadByte_textAt_of_ne (hw : s.memWf = true) (b : Byte) {a : Nat} (ha : a < 4096)
    (hne : a ≠ (s.rCur.toNat + s.len.toNat) % 4096) :
    (loadByte b s).textAt a = s.textAt a ∧ (loadByte b s).textAt (a + 4096) = s.textAt (a + 4096) := by
  have hr := ringAddr_lt (s.rCur.toNat + s.len.toNat)
  rw [loadByte_textAt hw, loadByte_textAt hw]
  change a ≠ ringAddr _ at hne
  simp only [Config.N] at hr ⊢
  exact ⟨if_neg (by omega), if_neg (by omega)⟩

theorem loadLookahead_succ (n : Nat) {b : Byte} (room : s.len.toNat < 18) (hb : s.inp[s.ip]? = some b) :
    loadLookahead (n + 1) s = loadLookahead n (loadByte b s) := by
  have hn : inNext s = some (b, { s with ip := s.ip + 1 }) := inNext_eq_some.mpr ⟨hb, rfl⟩
  refine (if_pos room).trans ?_
  rw [hn]
  rfl

/-- R94: loading stops at a full lookahead and at the end of the input. -/
theorem loadLookahead_stop (n : Nat) (h : 18 ≤ s.len.toNat ∨ s.inp.length ≤ s.ip) : loadLookahead n s = s := by
  cases n with
  | zero => rfl
  | succ n =>
    rw [loadLookahead]
    rcases h with full | ended
    · exact if_neg (Nat.not_lt.mpr full)
    · rw [inNext_of_exhausted ended]
      exact ite_self s

/-- R94: `t` is `s` with `k` more bytes of the input in the lookahead: IN byte `IP + j` at ring position
`R + LEN + j`. -/
structure Loaded (s : State) (k : Nat) (t : State) : Prop where
  only : t = { s with text := t.text, len := t.len, ip := s.ip + k }
  len_eq : t.len.toNat = s.len.toNat + k
  bytes : ∀ j < k, s.inp[s.ip + j]? = some (t.textAt ((s.rCur.toNat + s.len.toNat + j) % 4096))
  others : ∀ a < 4096, (∀ j < k, a ≠ (s.rCur.toNat + s.len.toNat + j) % 4096) →
    t.textAt a = s.textAt a ∧ t.textAt (a + 4096) = s.textAt (a + 4096)
  mirror : Mirror s → Mirror t

theorem Loaded.refl (s : State) : Loaded s 0 s :=
  ⟨rfl, rfl, fun _ hj => absurd hj (Nat.not_lt_zero _), fun _ _ _ => ⟨rfl, rfl⟩, id⟩

/-- The byte loaded first is not overwritten: fewer than N bytes are loaded after it. -/
theorem Loaded.cons {b : Byte} {k : Nat} (hw : s.memWf = true) (room : s.len.toNat + k < 18)
    (hb : s.inp[s.ip]? = some b) (h : Loaded (loadByte b s) k t) : Loaded s (k + 1) t := by
  obtain ⟨only, len_eq, bytes, others, mirror⟩ := h
  rw [loadByte_len b (by omega)] at len_eq bytes others
  rw [loadByte_rCur] at bytes others
  rw [loadByte_inp, loadByte_ip] at bytes
  have later (j : Nat) : s.rCur.toNat + (s.len.toNat + 1) + j = s.rCur.toNat + s.len.toNat + (j + 1) := by omega
  simp only [later] at bytes others
  refine ⟨?_, by omega, fun j hj => ?_, fun a ha hne => ?_, fun hm => ?_⟩
  · rw [only, loadByte_frame, Nat.add_assoc, Nat.add_comm 1 k]
  · cases j with
    | zero =>
      have kept := others _ (Nat.mod_lt _ (by decide)) (fun j hj => show
        (s.rCur.toNat + s.len.toNat) % 4096 ≠ (s.rCur.toNat + s.len.toNat + (j + 1)) % 4096 by omega)
      rw [Nat.add_zero, Nat.add_zero, hb, kept.1, loadByte_textAt hw, if_pos (.inl rfl)]
    | succ j =>
      rw [← bytes j (by omega), Nat.add_assoc, Nat.add_comm 1 j]
  · have first := loadByte_textAt_of_ne hw b ha (hne 0 (by omega))
    have rest := others a ha fun j hj => hne (j + 1) (by omega)
    exact ⟨rest.1.trans first.1, rest.2.trans first.2⟩
  · exact mirror (mirror_windowSet (s := { s with ip := s.ip + 1 }) hw hm _ b)

/-- R94: how many bytes ENC.LOAD moves: the smaller of the room in the lookahead and the input left. -/
def loadCount (s : State) : Nat := min (18 - s.len.toNat) (s.inp.length - s.ip)

theorem loadLookahead_loaded (n : Nat) : ∀ {s : State}, s.memWf = true → loadCount s ≤ n →
    Loaded s (loadCount s) (loadLookahead n s) := by
  induction n with
  | zero =>
    intro s _ hn
    rw [Nat.le_zero.mp hn]
    exact .refl s
  | succ n ih =>
    intro s hw hn
    by_cases more : s.len.toNat < 18 ∧ s.ip < s.inp.length
    · obtain ⟨room, left⟩ := more
      have hb := List.getElem?_eq_getElem left
      have count : loadCount s = loadCount (loadByte s.inp[s.ip] s) + 1 := by
        rw [loadCount, loadCount, loadByte_len _ room, loadByte_inp, loadByte_ip]
        omega
      have hroom : s.len.toNat + loadCount (loadByte s.inp[s.ip] s) < 18 := by
        have : loadCount s ≤ 18 - s.len.toNat := Nat.min_le_left ..
        omega
      rw [loadLookahead_succ n room hb, count]
      exact .cons hw hroom hb (ih (loadByte_memWf hw _) (by omega))
    · have zero : loadCount s = 0 := by
        rw [loadCount]
        omega
      rw [loadLookahead_stop _ (by omega), zero]
      exact .refl s

theorem execEncLoad_loaded (hw : s.memWf = true) :
    ∃ t, Loaded s (loadCount s) t ∧ exec .encLoad s = .next (if t.len = 0 then endRun t else setPhase .ePre t) :=
  ⟨_, loadLookahead_loaded 18 hw (Nat.le_trans (Nat.min_le_left ..) (Nat.sub_le ..)), rfl⟩

/-- Settles O33: the bytes are loaded one by one, and then only the end of the run or PHASE is written. -/
theorem loadFillsTheLookahead : Obligations.LoadFillsTheLookahead := by
  rintro s n hw rfl
  obtain ⟨t, ⟨only, len_eq, bytes, others, mirror⟩, ht⟩ := execEncLoad_loaded hw
  have hip : t.ip = s.ip + loadCount s := by rw [only]
  by_cases empty : t.len = 0
  · rw [if_pos empty] at ht
    refine ⟨_, ht, len_eq, hip, bytes, others, mirror, fun _ => ?_, absurd empty⟩
    rw [only]
    rfl
  · rw [if_neg empty] at ht
    refine ⟨_, ht, len_eq, hip, bytes, others, mirror, fun h => absurd h empty, fun _ => ?_⟩
    rw [only]
    rfl

/-! ## The end of a run (R100, R108) -/

/-- R91, R100: what ENC.FINISH appends to OUT: the group held, when it holds a token. -/
theorem finishEncoder_of_le (h : s.codePtr.toNat ≤ 17) : finishEncoder s = .ok (endRun
    { s with out := if 1 < s.codePtr.toNat then s.out ++ (List.range s.codePtr.toNat).map s.codeAt else s.out }) := by
  rw [finishEncoder]
  split
  case isTrue held => rw [flushGroup_of_le held h]; rfl
  case isFalse empty => rw [flushGroup_of_empty (Nat.not_lt.mp empty)]; rfl

/-- Settles O38: the flush writes OUT only, and the end of the run the status only. -/
theorem finishAndStopEndTheRun : Obligations.FinishAndStopEndTheRun := fun _ =>
  ⟨fun h => congrArg outcome (finishEncoder_of_le h), rfl⟩

end Sys2Proof.Proofs
end

section
/-! The Match Index operations read and write TEXT, the links and the match registers only: on a state that agrees in
these they answer the same, and leave everything else as it is there. -/

namespace Sys2Proof.Proofs

open Sys2Proof.Machine Sys2Proof.Laws Sys2Proof.Safety

variable {s t : State} {r p : Pos} {x y q v : Link} {side : Side} {result : SearchResult}

/-- `s'` with TEXT, the links and the match registers of `s`. -/
def withIndex (s' s : State) : State :=
  { s' with text := s.text, left := s.left, right := s.right, parent := s.parent, cmp := s.cmp,
            matchPos := s.matchPos, matchLen := s.matchLen }

variable (s' : State)

/-! ## Link accesses -/

theorem writeLeft_withIndex (h : writeLeft x v s = .ok t) : writeLeft x v (withIndex s' s) = .ok (withIndex s' t) := by
  obtain ⟨he, rfl⟩ := writeLeft_eq_ok.mp h
  exact writeLeft_eq_ok.mpr ⟨he, rfl⟩

theorem writeRight_withIndex (h : writeRight x v s = .ok t) :
    writeRight x v (withIndex s' s) = .ok (withIndex s' t) := by
  obtain ⟨he, rfl⟩ := writeRight_eq_ok.mp h
  exact writeRight_eq_ok.mpr ⟨he, rfl⟩

theorem writeParent_withIndex (h : writeParent x v s = .ok t) :
    writeParent x v (withIndex s' s) = .ok (withIndex s' t) := by
  obtain ⟨he, rfl⟩ := writeParent_eq_ok.mp h
  exact writeParent_eq_ok.mpr ⟨he, rfl⟩

theorem linkParent_withIndex (h : linkParent x v s = .ok t) :
    linkParent x v (withIndex s' s) = .ok (withIndex s' t) := by
  rcases linkParent_eq_ok.mp h with ⟨hx, rfl⟩ | ⟨hx, he, rfl⟩
  · exact linkParent_eq_ok.mpr (.inl ⟨hx, rfl⟩)
  · exact linkParent_eq_ok.mpr (.inr ⟨hx, he, rfl⟩)

theorem replaceChild_withIndex (h : replaceChild x v s = .ok t) :
    replaceChild x v (withIndex s' s) = .ok (withIndex s' t) := by
  simp only [replaceChild, bind_eq_ok] at h ⊢
  obtain ⟨y, hy, c, hc, h⟩ := h
  refine ⟨y, hy, c, hc, ?_⟩
  split at h
  · exact (if_pos ‹_›).trans (writeRight_withIndex s' h)
  · exact (if_neg ‹_›).trans (writeLeft_withIndex s' h)

/-! ## IDX.DELETE (R83) -/

theorem rightmost_withIndex (s : State) (fuel : Nat) (x : Link) :
    rightmost (withIndex s' s) fuel x = rightmost s fuel x := by
  induction fuel generalizing x with
  | zero => rfl
  | succ fuel ih =>
    simp only [rightmost, ih]
    rfl

theorem spliceOut_withIndex (h : spliceOut q x s = .ok t) : spliceOut q x (withIndex s' s) = .ok (withIndex s' t) := by
  simp only [spliceOut, bind_eq_ok] at h ⊢
  obtain ⟨y, hy, l, hl, s1, h1, l1, hl1, y1, hy1, s2, h2, l2, hl2, s3, h3, l3, hl3, h⟩ := h
  exact ⟨y, hy, l, hl, _, writeRight_withIndex s' h1, l1, hl1, y1, hy1, _, linkParent_withIndex s' h2, l2, hl2, _,
    writeLeft_withIndex s' h3, l3, hl3, linkParent_withIndex s' h⟩

theorem graftPredecessor_withIndex (h : graftPredecessor x s = .ok (q, t)) :
    graftPredecessor x (withIndex s' s) = .ok (q, withIndex s' t) := by
  simp only [graftPredecessor, bind_eq_ok] at h ⊢
  obtain ⟨l, hl, w, hw, h⟩ := h
  refine ⟨l, hl, w, (rightmost_withIndex s' s _ _).trans hw, ?_⟩
  split at h
  · refine (if_pos ‹_›).trans ?_
    simp only [pure_eq_ok, bind_eq_ok, Except.ok.injEq, Prod.mk.injEq] at h ⊢
    obtain ⟨_, rfl, c, hc, s2, h2, d, hd, s3, h3, rfl, rfl⟩ := h
    exact ⟨_, rfl, c, hc, _, writeRight_withIndex s' h2, d, hd, _, linkParent_withIndex s' h3, rfl, rfl⟩
  · refine (if_neg ‹_›).trans ?_
    simp only [pure_eq_ok, bind_eq_ok, Except.ok.injEq, Prod.mk.injEq] at h ⊢
    obtain ⟨s1, h1, c, hc, s2, h2, d, hd, s3, h3, rfl, rfl⟩ := h
    exact ⟨_, spliceOut_withIndex s' h1, c, hc, _, writeRight_withIndex s' h2, d, hd, _, linkParent_withIndex s' h3,
      rfl, rfl⟩

theorem successor_withIndex (h : successor x s = .ok (q, t)) :
    successor x (withIndex s' s) = .ok (q, withIndex s' t) := by
  simp only [successor, bind_eq_ok] at h ⊢
  obtain ⟨a, ha, b, hb, h⟩ := h
  refine ⟨a, ha, b, hb, ?_⟩
  split at h
  · cases h; exact if_pos ‹_›
  · refine (if_neg ‹_›).trans ?_
    split at h
    · cases h; exact if_pos ‹_›
    · exact (if_neg ‹_›).trans (graftPredecessor_withIndex s' h)

theorem deleteNode_withIndex (h : deleteNode p s = .ok t) : deleteNode p (withIndex s' s) = .ok (withIndex s' t) := by
  unfold deleteNode at h
  split at h
  · cases h; exact if_pos ‹_›
  · refine (if_neg ‹_›).trans ?_
    simp only [bind_eq_ok, Prod.exists] at h ⊢
    obtain ⟨q, s1, h1, y, hy, s2, h2, s3, h3, h⟩ := h
    exact ⟨q, _, successor_withIndex s' h1, y, hy, _, linkParent_withIndex s' h2, _, replaceChild_withIndex s' h3,
      writeParent_withIndex s' h⟩

/-! ## IDX.INSERT (R79, R81, R82) -/

theorem compareKeys_withIndex (s : State) (r p : Pos) : compareKeys (withIndex s' s) r p = compareKeys s r p :=
  compareKeys_congr (fun _ => rfl) r p

theorem betterMatch_withIndex (s : State) (r p : Pos) : betterMatch (withIndex s' s) r p = betterMatch s r p := by
  rw [betterMatch, compareKeys_withIndex]
  rfl

theorem visitNode_withIndex (s : State) (r p : Pos) :
    visitNode r p (withIndex s' s) = withIndex s' (visitNode r p s) := by
  simp only [visitNode, betterMatch_withIndex, compareKeys_withIndex]
  split <;> rfl

theorem walk_withIndex {fuel : Nat} : ∀ {x : Link} {s : State}, walk r fuel x s = .ok (result, t) →
    walk r fuel x (withIndex s' s) = .ok (result, withIndex s' t) := by
  induction fuel with
  | zero => intro x s h; cases h
  | succ fuel ih =>
    intro x s h
    simp only [walk, bind_eq_ok] at h ⊢
    obtain ⟨q, hq, h⟩ := h
    refine ⟨q, hq, ?_⟩
    split at h
    · cases h; exact if_pos ‹_›
    · refine (if_neg ‹_›).trans ?_
      simp only [bind_eq_ok, betterMatch_withIndex, compareKeys_withIndex, visitNode_withIndex] at h ⊢
      obtain ⟨n, hn, h⟩ := h
      refine ⟨n, hn, ?_⟩
      split at h
      · cases h; exact if_pos ‹_›
      · exact (if_neg ‹_›).trans (ih h)

theorem searchIndex_withIndex (h : searchIndex r s = .ok (result, t)) :
    searchIndex r (withIndex s' s) = .ok (result, withIndex s' t) :=
  walk_withIndex s' h

theorem replaceNode_withIndex (h : replaceNode r p s = .ok t) :
    replaceNode r p (withIndex s' s) = .ok (withIndex s' t) := by
  unfold replaceNode at h
  split at h
  · cases h
  · split at h
    · cases h
    · refine (if_neg ‹_›).trans ((if_neg ‹_›).trans ?_)
      simp only [bind_eq_ok] at h ⊢
      obtain ⟨a, ha, s1, h1, b, hb, s2, h2, c, hc, s3, h3, d, hd, s4, h4, e, he, s5, h5, s6, h6, h⟩ := h
      exact ⟨a, ha, _, writeParent_withIndex s' h1, b, hb, _, writeLeft_withIndex s' h2, c, hc, _,
        writeRight_withIndex s' h3, d, hd, _, linkParent_withIndex s' h4, e, he, _, linkParent_withIndex s' h5, _,
        replaceChild_withIndex s' h6, writeParent_withIndex s' h⟩

theorem spliceLeaf_withIndex (h : spliceLeaf r x side s = .ok t) :
    spliceLeaf r x side (withIndex s' s) = .ok (withIndex s' t) := by
  cases side with
  | leftSide =>
    simp only [spliceLeaf, bind_eq_ok] at h ⊢
    obtain ⟨s1, h1, h⟩ := h
    exact ⟨_, writeLeft_withIndex s' h1, writeParent_withIndex s' h⟩
  | rightSide =>
    simp only [spliceLeaf, bind_eq_ok] at h ⊢
    obtain ⟨s1, h1, h⟩ := h
    exact ⟨_, writeRight_withIndex s' h1, writeParent_withIndex s' h⟩

theorem insertNode_withIndex (h : insertNode r s = .ok t) : insertNode r (withIndex s' s) = .ok (withIndex s' t) := by
  unfold insertNode at h
  split at h
  · cases h
  · refine (if_neg ‹_›).trans ?_
    simp only [bind_eq_ok, Prod.exists] at h ⊢
    obtain ⟨s1, h1, s2, h2, result, s3, h3, h⟩ := h
    refine ⟨_, writeLeft_withIndex s' h1, _, writeRight_withIndex s' h2, result, _, searchIndex_withIndex s' h3, ?_⟩
    cases result with
    | slot x side => exact spliceLeaf_withIndex s' h
    | full p => exact replaceNode_withIndex s' h

end Sys2Proof.Proofs
end

section
/-! The encoder sequencer where it moves the window: ENC.ADVANCE (R97), ENC.DRAIN (R98) and the advance loop (R99). -/

namespace Sys2Proof.Proofs

open Sys2Proof.Machine Sys2Proof.Laws Sys2Proof.Safety

variable {s t u v : State} {c : Byte} {r p : Pos}

/-! ## The trees through one operation (R120, R123) -/

/-- The links of `t` are those of `s`. -/
def SameLinks (s t : State) : Prop := t.left = s.left ∧ t.right = s.right ∧ t.parent = s.parent

/-- The trees are those of the links: every other piece of state is free. -/
theorem treeLaw_of_sameLinks (h : TreeLaw s) (same : SameLinks s t) : TreeLaw t := by
  obtain ⟨f, hf⟩ := h
  obtain ⟨hl, hr, hp⟩ := same
  have left (a : Nat) : t.leftAt a = s.leftAt a := by rw [State.leftAt, hl]; rfl
  have right (a : Nat) : t.rightAt a = s.rightAt a := by rw [State.rightAt, hr]; rfl
  have parent (a : Nat) : t.parentAt a = s.parentAt a := by rw [State.parentAt, hp]; rfl
  exact ⟨f, forest_congr hf (fun _ _ => left _) (fun _ _ => right _) (fun _ => right _) (fun _ => parent _)⟩

theorem SameLinks.isNode_iff (same : SameLinks s t) (z : Pos) : IsNode t z ↔ IsNode s z := by
  obtain ⟨-, -, hp⟩ := same
  rw [IsNode, IsNode, State.parentAt, hp]
  rfl

theorem treeLaw_of_emptyIndex (h : EmptyIndex s) : TreeLaw s :=
  ⟨fun _ => .leaf, h.roots, fun _ => List.nodup_nil, fun _ _ _ hp => absurd hp List.not_mem_nil,
    fun p => iff_of_false (not_not_intro (h.parents p)) fun ⟨_, hp⟩ => absurd hp List.not_mem_nil⟩

/-- R83: IDX.DELETE completes on trees, node or not, and afterwards `p` is no node and the others are as before. -/
theorem deleteNode_treeLaw (hw : s.memWf = true) (h : TreeLaw s) (p : Pos) :
    ∃ t, deleteNode p s = .ok t ∧ TreeLaw t ∧ ∀ z, IsNode t z → IsNode s z ∧ z ≠ p := by
  obtain ⟨f, hf⟩ := h
  by_cases hp : IsNode s p
  · obtain ⟨b, hb⟩ := (hf.node_iff p).mp hp
    obtain ⟨t, ht, -, -, hforest, -⟩ := deleteNode_spec hw hf hb
    exact ⟨t, ht, ⟨_, hforest⟩, fun z => (isNode_remove hf hforest z).mp⟩
  · exact ⟨s, deleteNode_of_not_node hp, ⟨f, hf⟩, fun z hz => ⟨hz, fun he => hp (he ▸ hz)⟩⟩

/-- R81: IDX.INSERT of a position in no tree completes on trees; the position is a node afterwards, and no other has
become one. -/
theorem insertNode_treeLaw (hw : s.memWf = true) (h : TreeLaw s) (hr : ¬ IsNode s r) :
    ∃ t, insertNode r s = .ok t ∧ t.matchLen.toNat ≤ 18 ∧ TreeLaw t ∧ IsNode t r ∧
      ∀ z, IsNode t z → z = r ∨ IsNode s z := by
  obtain ⟨f, hf⟩ := h
  obtain ⟨t, ht, -, -, hlen, hforest, -⟩ := insertNode_spec hw hf hr
  have nodes := insertNode_isNode hw hf hr ht
  exact ⟨t, ht, hlen, ⟨_, hforest⟩, (nodes r).mpr (.inl rfl), fun z hz => ((nodes z).mp hz).imp_right And.left⟩

/-! ## The window (R120, R123, R125) -/

/-- The links form trees, the nodes lie between the cursors, and the cursors are `N - F` apart. -/
structure WindowLaw (s : State) : Prop where
  trees : TreeLaw s
  members : Members s
  cursors : Cursors s

theorem WindowLaw.of_same (h : WindowLaw s) (same : SameLinks s t) (hS : t.sCur = s.sCur) (hR : t.rCur = s.rCur) :
    WindowLaw t where
  trees := treeLaw_of_sameLinks h.trees same
  members z hz := by
    rw [hS]
    exact h.members z ((same.isNode_iff z).mp hz)
  cursors := by rw [Cursors, hS, hR, h.cursors]

/-- R125: the position after `R` is `N - F + 1` positions from `S`. -/
theorem next_sub_of_cursors (hc : Cursors s) : s.rCur + 1 - s.sCur = 4079 := by
  rw [hc, Config.startR, BitVec.add_assoc, BitVec.add_comm s.sCur, BitVec.add_sub_cancel]
  rfl

/-- R123: the position the window moves on to is no node. -/
theorem WindowLaw.next_not_node (h : WindowLaw s) : ¬ IsNode s (s.rCur + 1) := by
  intro hn
  have inside := h.members _ hn
  rw [next_sub_of_cursors h.cursors] at inside
  exact absurd inside (by decide)

/-- R97, R98: on the links IDX.DELETE of `S` leaves, and with both cursors one on, the nodes are in the window again. -/
theorem WindowLaw.slide (h : WindowLaw s) (ht : TreeLaw t) (nodes : ∀ z, IsNode t z → IsNode s z ∧ z ≠ s.sCur)
    (same : SameLinks t u) (hS : u.sCur = s.sCur + 1) (hR : u.rCur = s.rCur + 1) :
    WindowLaw u ∧ ¬ IsNode u u.rCur where
  left := {
    trees := treeLaw_of_sameLinks ht same
    members := fun z hz => by
      obtain ⟨old, hne⟩ := nodes z ((same.isNode_iff z).mp hz)
      have inside := h.members z old
      rw [hS]
      simp only [Config.N, Config.F] at inside ⊢
      bv_omega
    cursors := by rw [Cursors, hS, hR, h.cursors, BitVec.add_assoc, BitVec.add_comm _ 1, ← BitVec.add_assoc] }
  right := by
    rw [hR, same.isNode_iff]
    exact fun hn => h.next_not_node (nodes _ hn).1

/-- R97, R98: IDX.INSERT of `R` keeps the nodes in the window. -/
theorem WindowLaw.insert (hw : s.memWf = true) (h : WindowLaw s) (hr : ¬ IsNode s s.rCur) :
    ∃ t, insertNode s.rCur s = .ok t ∧ t.matchLen.toNat ≤ 18 ∧ WindowLaw t := by
  obtain ⟨t, ht, hlen, trees, -, nodes⟩ := insertNode_treeLaw hw h.trees hr
  have only := (insertNode_step ht).only
  have hS : t.sCur = s.sCur := by rw [only]
  have hR : t.rCur = s.rCur := by rw [only]
  refine ⟨t, ht, hlen, trees, fun z hz => ?_, by rw [Cursors, hS, hR, h.cursors]⟩
  rw [hS]
  rcases nodes z hz with rfl | old
  · have apart : s.rCur - s.sCur = Config.startR := by rw [h.cursors, BitVec.add_comm, BitVec.add_sub_cancel]
    rw [apart]
    decide
  · exact h.members z old

/-! ## The count of advance steps (R25, log 13) -/

theorem nextCount_toNat {i : Len} (h : i.toNat < 31) : (nextCount i).toNat = i.toNat + 1 := by
  rw [nextCount, if_pos (by omega)]
  exact BitVec.toNat_add_of_lt (Nat.succ_lt_succ h)

/-! ## ENC.ADVANCE (R97, R155) -/

/-- R97: `S` deleted in `t`: the byte `c` is written there and both cursors move on. -/
def windowMoved (c : Byte) (t : State) : State :=
  advanceR (advanceS (windowSet t.sCur.toNat c { t with ip := t.ip + 1 }))

theorem windowMoved_eq (c : Byte) (t : State) : windowMoved c t =
    { windowSet t.sCur.toNat c { t with ip := t.ip + 1 } with sCur := t.sCur + 1, rCur := t.rCur + 1 } := by
  rw [windowMoved, windowSet_frame]
  rfl

theorem windowMoved_frame (c : Byte) (t : State) : windowMoved c t =
    { t with text := (windowMoved c t).text, ip := t.ip + 1, sCur := t.sCur + 1, rCur := t.rCur + 1 } := by
  rw [windowMoved_eq, windowSet_frame]

/-- R97: ENC.ADVANCE is its lines in order. -/
theorem advanceEncoder_eq_ok : advanceEncoder s = .ok u ↔ ∃ t c v, deleteNode s.sCur s = .ok t ∧
    t.inp[t.ip]? = some c ∧ insertNode (windowMoved c t).rCur (windowMoved c t) = .ok v ∧
    { v with iCnt := nextCount v.iCnt } = u := by
  simp only [advanceEncoder, bind_eq_ok]
  constructor
  · rintro ⟨t, hd, h⟩
    split at h
    · cases h
    next c _ hn =>
      obtain ⟨hb, rfl⟩ := inNext_eq_some.mp hn
      obtain ⟨v, hi, hv⟩ := bind_eq_ok.mp h
      exact ⟨t, c, v, hd, hb, hi, Except.ok.inj hv⟩
  · rintro ⟨t, c, v, hd, hb, hi, rfl⟩
    refine ⟨t, hd, ?_⟩
    rw [inNext_eq_some.mpr ⟨hb, rfl⟩]
    exact bind_eq_ok.mpr ⟨v, hi, rfl⟩

/-- R97: what ENC.ADVANCE changes. -/
theorem advanceEncoder_frame (h : advanceEncoder s = .ok t) : t =
    { s with text := t.text, left := t.left, right := t.right, parent := t.parent, cmp := t.cmp,
             matchPos := t.matchPos, matchLen := t.matchLen, ip := s.ip + 1, sCur := s.sCur + 1,
             rCur := s.rCur + 1, iCnt := nextCount s.iCnt } := by
  obtain ⟨s1, c, v, hd, -, hi, rfl⟩ := advanceEncoder_eq_ok.mp h
  rw [(insertNode_step hi).only, windowMoved_frame, (deleteNode_step hd).only]

/-- R97: on trees with nodes in the window only, ENC.ADVANCE completes while input remains, and keeps them so. -/
theorem WindowLaw.advance_lines (hw : s.memWf = true) (h : WindowLaw s) (hb : s.inp[s.ip]? = some c) :
    ∃ t v, deleteNode s.sCur s = .ok t ∧ insertNode (windowMoved c t).rCur (windowMoved c t) = .ok v ∧
      advanceEncoder s = .ok { v with iCnt := nextCount v.iCnt } ∧ v.matchLen.toNat ≤ 18 ∧ WindowLaw v := by
  obtain ⟨t, ht, trees, nodes⟩ := deleteNode_treeLaw hw h.trees s.sCur
  obtain ⟨only, hwt⟩ := deleteNode_step ht
  have hbt : t.inp[t.ip]? = some c := by rw [only]; exact hb
  have same : SameLinks t (windowMoved c t) := by rw [windowMoved_frame]; exact ⟨rfl, rfl, rfl⟩
  have hS : (windowMoved c t).sCur = s.sCur + 1 := by rw [windowMoved_frame, only]
  have hR : (windowMoved c t).rCur = s.rCur + 1 := by rw [windowMoved_frame, only]
  have hwm : (windowMoved c t).memWf = true := memWf_windowSet (s := { t with ip := t.ip + 1 }) (hwt hw) _ c
  obtain ⟨moved, free⟩ := h.slide trees nodes same hS hR
  obtain ⟨v, hv, hlen, window⟩ := moved.insert hwm free
  exact ⟨t, v, ht, hv, advanceEncoder_eq_ok.mpr ⟨t, c, v, ht, hbt, hv, rfl⟩, hlen, window⟩

theorem WindowLaw.advance (hw : s.memWf = true) (h : WindowLaw s) (hb : s.inp[s.ip]? = some c) :
    ∃ u, advanceEncoder s = .ok u ∧ u.matchLen.toNat ≤ 18 ∧ WindowLaw u := by
  obtain ⟨t, v, -, -, hadv, hlen, window⟩ := h.advance_lines hw hb
  exact ⟨_, hadv, hlen, window.of_same ⟨rfl, rfl, rfl⟩ rfl rfl⟩

/-- Settles O36: the next `R` lies outside the window, so it is no node when it is inserted. -/
theorem advanceDeletesWritesAndInserts : Obligations.AdvanceDeletesWritesAndInserts := by
  intro s c hw trees members cursors hb
  obtain ⟨t, v, ht, hv, hadv, -, -⟩ := WindowLaw.advance_lines hw ⟨trees, members, cursors⟩ hb
  have only := (deleteNode_step ht).only
  have hS : t.sCur = s.sCur := by rw [only]
  have hR : t.rCur = s.rCur := by rw [only]
  have hip : t.ip = s.ip := by rw [only]
  have count : v.iCnt = s.iCnt := by rw [(insertNode_step hv).only, windowMoved_frame, only]
  have moved : windowMoved c t = { windowSet s.sCur.toNat c { t with ip := s.ip + 1 } with
      sCur := s.sCur + 1, rCur := s.rCur + 1 } := by
    rw [windowMoved_eq, hS, hR, hip]
  rw [moved] at hv
  refine ⟨t, _, v, exec_idxDelete ht, rfl, exec_idxInsert hv, _, congrArg outcome hadv, rfl, fun hi => ?_⟩
  rw [← count] at hi ⊢
  exact nextCount_toNat hi

/-! ## ENC.DRAIN (R98) -/

/-- R98: `S` deleted in `t`: both cursors move on and LEN is lowered. -/
def windowDrained (t : State) : State := { t with sCur := t.sCur + 1, rCur := t.rCur + 1, len := t.len - 1 }

/-- R98: ENC.DRAIN is its lines in order. -/
theorem drainEncoder_eq_ok : drainEncoder s = .ok u ↔ s.len ≠ 0 ∧ ∃ t,
    deleteNode s.sCur { s with iCnt := nextCount s.iCnt } = .ok t ∧
    ((windowDrained t).len = 0 ∧ windowDrained t = u ∨
      (windowDrained t).len ≠ 0 ∧ insertNode (windowDrained t).rCur (windowDrained t) = .ok u) := by
  unfold drainEncoder
  split
  case isTrue hlen => exact iff_of_false (fun h => by cases h) fun ⟨hne, _⟩ => hne hlen
  case isFalse hlen =>
    rw [bind_eq_ok, and_iff_right hlen]
    refine exists_congr fun t => and_congr_right fun _ => ?_
    change (if (windowDrained t).len = 0 then .ok (windowDrained t)
      else insertNode (windowDrained t).rCur (windowDrained t)) = .ok u ↔ _
    split
    case isTrue last =>
      rw [Except.ok.injEq, and_iff_right last, or_iff_left fun more => more.1 last]
    case isFalse more =>
      rw [and_iff_right (show (windowDrained t).len ≠ 0 from more), or_iff_right fun last => more last.1]

/-- R98: what ENC.DRAIN changes. -/
theorem drainEncoder_frame (h : drainEncoder s = .ok t) : t =
    { s with left := t.left, right := t.right, parent := t.parent, cmp := t.cmp, matchPos := t.matchPos,
             matchLen := t.matchLen, len := s.len - 1, sCur := s.sCur + 1, rCur := s.rCur + 1,
             iCnt := nextCount s.iCnt } := by
  obtain ⟨-, s1, hd, ⟨-, rfl⟩ | ⟨-, hi⟩⟩ := drainEncoder_eq_ok.mp h
  · rw [windowDrained, (deleteNode_step hd).only]
  · rw [(insertNode_step hi).only, windowDrained, (deleteNode_step hd).only]

/-- R98: the step is counted before IDX.DELETE, which neither reads nor writes the count. -/
theorem deleteNode_counted (h : deleteNode p s = .ok t) (n : Len) :
    deleteNode p { s with iCnt := n } = .ok { t with iCnt := n } := by
  have only : withIndex { s with iCnt := n } t = { t with iCnt := n } := by
    rw [(deleteNode_step h).only]
    rfl
  rw [← only]
  exact deleteNode_withIndex { s with iCnt := n } h

theorem insertNode_counted (h : insertNode r s = .ok t) (n : Len) :
    insertNode r { s with iCnt := n } = .ok { t with iCnt := n } := by
  have only : withIndex { s with iCnt := n } t = { t with iCnt := n } := by
    rw [(insertNode_step h).only]
    rfl
  rw [← only]
  exact insertNode_withIndex { s with iCnt := n } h

section
variable (hlen : s.len ≠ 0) (hd : deleteNode s.sCur s = .ok t)
include hlen hd

theorem drainEncoder_of_last (last : (windowDrained t).len = 0) :
    drainEncoder s = .ok { windowDrained t with iCnt := nextCount s.iCnt } :=
  drainEncoder_eq_ok.mpr ⟨hlen, _, deleteNode_counted hd _, .inl ⟨last, rfl⟩⟩

theorem drainEncoder_of_insert (more : (windowDrained t).len ≠ 0)
    (hi : insertNode (windowDrained t).rCur (windowDrained t) = .ok v) :
    drainEncoder s = .ok { v with iCnt := nextCount s.iCnt } :=
  drainEncoder_eq_ok.mpr ⟨hlen, _, deleteNode_counted hd _, .inr ⟨more, insertNode_counted hi _⟩⟩

end

/-- R98: on trees with nodes in the window only, IDX.DELETE of `S` completes, and the next `R` is no node. -/
theorem WindowLaw.drained (hw : s.memWf = true) (h : WindowLaw s) :
    ∃ t, deleteNode s.sCur s = .ok t ∧ (windowDrained t).memWf = true ∧ WindowLaw (windowDrained t) ∧
      ¬ IsNode (windowDrained t) (windowDrained t).rCur := by
  obtain ⟨t, ht, trees, nodes⟩ := deleteNode_treeLaw hw h.trees s.sCur
  obtain ⟨only, hwt⟩ := deleteNode_step ht
  exact ⟨t, ht, hwt hw, h.slide trees nodes ⟨rfl, rfl, rfl⟩ (by rw [windowDrained, only]) (by rw [windowDrained, only])⟩

/-- R98: ENC.DRAIN completes while the lookahead holds a byte, and keeps the nodes in the window. -/
theorem WindowLaw.drain (hw : s.memWf = true) (h : WindowLaw s) (hlen : s.len ≠ 0) (hm : s.matchLen.toNat ≤ 18) :
    ∃ u, drainEncoder s = .ok u ∧ u.matchLen.toNat ≤ 18 ∧ WindowLaw u := by
  obtain ⟨t, hd, hwt, window, free⟩ := h.drained hw
  by_cases last : (windowDrained t).len = 0
  · have same : t.matchLen = s.matchLen := by rw [(deleteNode_step hd).only]
    exact ⟨_, drainEncoder_of_last hlen hd last, by rwa [← same] at hm, window.of_same ⟨rfl, rfl, rfl⟩ rfl rfl⟩
  · obtain ⟨v, hi, hv, window⟩ := window.insert hwt free
    exact ⟨_, drainEncoder_of_insert hlen hd last hi, hv, window.of_same ⟨rfl, rfl, rfl⟩ rfl rfl⟩

/-- Settles O37: LEN is 1 exactly when nothing is left in the lookahead to insert. -/
theorem drainDeletesAndInserts : Obligations.DrainDeletesAndInserts := by
  intro s hw trees members cursors hpos
  have hlen : s.len ≠ 0 := fun h0 => by rw [h0] at hpos; exact absurd hpos (by decide)
  obtain ⟨t, hd, hwt, window, free⟩ := WindowLaw.drained hw ⟨trees, members, cursors⟩
  have drained : windowDrained t = { t with sCur := s.sCur + 1, rCur := s.rCur + 1, len := s.len - 1 } := by
    rw [windowDrained, (deleteNode_step hd).only]
  refine ⟨t, exec_idxDelete hd, fun last => ?_, fun more => ?_⟩
  · have zero : (windowDrained t).len = 0 := by rw [drained, last]; rfl
    refine ⟨_, congrArg outcome (drainEncoder_of_last hlen hd zero), ?_, nextCount_toNat⟩
    rw [drained, last]
    rfl
  · have rest : (windowDrained t).len ≠ 0 := by
      rw [drained]
      exact sub_ne_zero.mpr more
    obtain ⟨v, hi, -, -⟩ := window.insert hwt free
    refine ⟨v, _, ?_, congrArg outcome (drainEncoder_of_insert hlen hd rest hi), rfl, nextCount_toNat⟩
    rw [drained] at hi
    exact exec_idxInsert hi

/-! ## The advance loop (R99) -/

theorem fetchAdvance_of_input (more : s.iCnt.toNat < s.last.toNat) (left : s.ip < s.inp.length) :
    fetchAdvance s = .run .encAdvance s :=
  (if_pos more).trans (if_pos (decide_eq_true left))

theorem fetchAdvance_of_exhausted (more : s.iCnt.toNat < s.last.toNat) (ended : s.inp.length ≤ s.ip) :
    fetchAdvance s = .run .encDrain s :=
  (if_pos more).trans (if_neg fun h => Nat.not_lt.mpr ended (of_decide_eq_true h))

/-- R99: the exit test. -/
theorem fetchAdvance_of_done (done : s.last.toNat ≤ s.iCnt.toNat) :
    fetchAdvance s = .pass (setPhase (if s.len = 0 then .eFin else .eStep) s) := by
  refine (if_neg (Nat.not_lt.mpr done)).trans ?_
  split <;> rfl

/-- R99: a step that only moves PHASE. -/
theorem step_of_pass (ho : s.ops = []) (hc : s.cmd = 0) (h : fetchPhase s = .pass t) : step s = .next t := by
  rw [step, fetch_eq_fetchPhase ho hc, h]

theorem fetchPhase_of_eAdv (hp : s.phase = .eAdv) : fetchPhase s = fetchAdvance s := by rw [fetchPhase, hp]

section
variable (ho : s.ops = []) (hc : s.cmd = 0) (hp : s.phase = .eAdv)
include ho hc hp

theorem step_advance (more : s.iCnt.toNat < s.last.toNat) (left : s.ip < s.inp.length) :
    step s = outcome (advanceEncoder s) :=
  step_of_phase ho hc ((fetchPhase_of_eAdv hp).trans (fetchAdvance_of_input more left))

theorem step_drain (more : s.iCnt.toNat < s.last.toNat) (ended : s.inp.length ≤ s.ip) :
    step s = outcome (drainEncoder s) :=
  step_of_phase ho hc ((fetchPhase_of_eAdv hp).trans (fetchAdvance_of_exhausted more ended))

theorem step_exit (done : s.last.toNat ≤ s.iCnt.toNat) :
    step s = .next (setPhase (if s.len = 0 then .eFin else .eStep) s) :=
  step_of_pass ho hc ((fetchPhase_of_eAdv hp).trans (fetchAdvance_of_done done))

end

/-- Settles O4: neither operation of the loop writes PHASE. -/
theorem advancePhaseDoesOneOfFourThings : Obligations.AdvancePhaseDoesOneOfFourThings := by
  refine fun s ho hc hp => ⟨step_advance ho hc hp, step_drain ho hc hp, fun t more ht => ?_, fun done held => ?_,
    fun done empty => ?_⟩
  · rcases Nat.lt_or_ge s.ip s.inp.length with left | ended
    · rw [step_advance ho hc hp more left, outcome_eq_next] at ht
      rw [advanceEncoder_frame ht, hp]
    · rw [step_drain ho hc hp more ended, outcome_eq_next] at ht
      rw [drainEncoder_frame ht, hp]
  · rw [step_exit ho hc hp done, if_neg]
    · rfl
    · intro h0
      rw [h0] at held
      exact absurd held (by decide)
  · rw [step_exit ho hc hp done, if_pos (BitVec.eq_of_toNat_eq empty)]
    rfl

end Sys2Proof.Proofs
end

section
/-! ENC.PREINSERT (R95): nineteen insertions in a row. -/

namespace Sys2Proof.Proofs

open Sys2Proof.Machine Sys2Proof.Laws Sys2Proof.Safety

variable {s t : State}

/-! ## The positions inserted -/

/-- R95: the position of insertion `k`: `R-1`, `R-2`, …, `R-F`, and last `R` itself. -/
def preinsertPos (r : Pos) (k : Nat) : Pos := r - BitVec.ofNat 12 ((k + 1) % 19)

theorem preinsertPos_of_lt (r : Pos) {k : Nat} (hk : k < 18) : preinsertPos r k = r - BitVec.ofNat 12 (k + 1) := by
  rw [preinsertPos, Nat.mod_eq_of_lt (Nat.succ_lt_succ hk)]

theorem preinsertPos_last (r : Pos) : preinsertPos r 18 = r := BitVec.sub_zero r

theorem preinsertPos_injective (r : Pos) {j k : Nat} (hj : j < 19) (hk : k < 19)
    (h : preinsertPos r j = preinsertPos r k) : j = k := by
  have hmod := congrArg BitVec.toNat (sub_right_injective h)
  rw [BitVec.toNat_ofNat, BitVec.toNat_ofNat] at hmod
  omega

theorem exists_preinsertPos (r : Pos) (k : Nat) : ∃ i ≤ 18, preinsertPos r k = r - BitVec.ofNat 12 i :=
  ⟨(k + 1) % 19, Nat.lt_succ_iff.mp (Nat.mod_lt _ (by decide)), rfl⟩

/-! ## The states between the insertions -/

/-- The state IDX.INSERT of `r` answers, where it answers one. -/
def insertedOr (r : Pos) (s : State) : State := (insertNode r s).toOption.getD s

/-- R95: the state after `k` insertions. -/
def preinserted (s : State) : Nat → State
  | 0 => s
  | k + 1 => insertedOr (preinsertPos s.rCur k) (preinserted s k)

/-- R95: `u` is `s` after `k` of the insertions: trees, in which the positions inserted are the only new nodes. -/
structure Preinserted (s : State) (k : Nat) (u : State) : Prop where
  mem_wf : u.memWf = true
  only : OnlyIndex s u
  trees : TreeLaw u
  nodes : ∀ z, IsNode u z → IsNode s z ∨ ∃ j < k, z = preinsertPos s.rCur j

/-- R95: a position inserted later is no node yet, so its insertion completes. -/
theorem Preinserted.next {k : Nat} {u : State} (h : Preinserted s k u) (hk : k < 19)
    (free : ∀ i ≤ 18, ¬ IsNode s (s.rCur - BitVec.ofNat 12 i)) :
    ∃ t, insertNode (preinsertPos s.rCur k) u = .ok t ∧ t.matchLen.toNat ≤ 18 ∧ IsNode t (preinsertPos s.rCur k) ∧
      Preinserted s (k + 1) t := by
  have fresh : ¬ IsNode u (preinsertPos s.rCur k) := by
    intro hn
    rcases h.nodes _ hn with old | ⟨j, hj, he⟩
    · obtain ⟨i, hi, he⟩ := exists_preinsertPos s.rCur k
      exact free i hi (he ▸ old)
    · exact absurd (preinsertPos_injective _ hk (by omega) he) (by omega)
  obtain ⟨t, ht, hlen, trees, node, nodes⟩ := insertNode_treeLaw h.mem_wf h.trees fresh
  obtain ⟨only, hwt⟩ := insertNode_step ht
  refine ⟨t, ht, hlen, node, hwt h.mem_wf, h.only.trans only, trees, fun z hz => ?_⟩
  rcases nodes z hz with rfl | hz
  · exact .inr ⟨k, Nat.lt_succ_self k, rfl⟩
  · exact (h.nodes z hz).imp_right fun ⟨j, hj, he⟩ => ⟨j, Nat.lt_succ_of_lt hj, he⟩

section
variable (hw : s.memWf = true) (trees : TreeLaw s) (free : ∀ i ≤ 18, ¬ IsNode s (s.rCur - BitVec.ofNat 12 i))
include hw trees free

theorem preinserted_spec {k : Nat} (hk : k ≤ 19) : Preinserted s k (preinserted s k) := by
  induction k with
  | zero => exact ⟨hw, rfl, trees, fun _ => .inl⟩
  | succ k ih =>
    obtain ⟨t, ht, -, -, h⟩ := (ih (Nat.le_of_succ_le hk)).next hk free
    rwa [preinserted, insertedOr, ht]

theorem insertNode_preinserted {k : Nat} (hk : k < 19) :
    insertNode (preinsertPos s.rCur k) (preinserted s k) = .ok (preinserted s (k + 1)) := by
  obtain ⟨t, ht, -⟩ := (preinserted_spec hw trees free (Nat.le_of_lt hk)).next hk free
  rw [preinserted, insertedOr, ht]
  rfl

theorem preinserted_rCur {k : Nat} (hk : k ≤ 19) : (preinserted s k).rCur = s.rCur := by
  rw [(preinserted_spec hw trees free hk).only]

/-- R95: the loop of ENC.PREINSERT from insertion `k` on. -/
theorem insertBack_preinserted (n : Nat) : ∀ {k : Nat}, k + n ≤ 18 →
    insertBack n (k + 1) (preinserted s k) = .ok (preinserted s (k + n)) := by
  induction n with
  | zero => exact fun _ => rfl
  | succ n ih =>
    intro k hk
    have hi := insertNode_preinserted hw trees free (k := k) (by omega)
    rw [preinsertPos_of_lt _ (by omega)] at hi
    rw [insertBack, backPos, preinserted_rCur hw trees free (by omega), hi, ok_bind, ih (by omega)]
    exact congrArg (fun m => Except.ok (preinserted s m)) (Nat.add_right_comm k 1 n)

theorem execEncPreinsert_preinserted : exec .encPreinsert s = .next (setPhase .eStep (preinserted s 19)) := by
  have loop : insertBack Config.F 1 s = .ok (preinserted s 18) :=
    insertBack_preinserted hw trees free 18 (k := 0) (Nat.le_refl 18)
  have last := insertNode_preinserted hw trees free (k := 18) (by decide)
  rw [preinsertPos_last] at last
  show outcome (insertBack Config.F 1 s >>= _) = _
  rw [loop, ok_bind, preinserted_rCur hw trees free (by decide), last]
  rfl

/-- R95: the match state and the nodes ENC.PREINSERT leaves. -/
theorem preinserted_last : (preinserted s 19).matchLen.toNat ≤ 18 ∧ IsNode (preinserted s 19) s.rCur ∧
    ∀ z, IsNode (preinserted s 19) z → IsNode s z ∨ ∃ i ≤ 18, z = s.rCur - BitVec.ofNat 12 i := by
  have before := preinserted_spec hw trees free (k := 18) (by decide)
  obtain ⟨t, ht, hlen, node, after⟩ := before.next (by decide) free
  have same : preinserted s 19 = t := by
    have := insertNode_preinserted hw trees free (k := 18) (by decide)
    exact Except.ok.inj (this.symm.trans ht)
  rw [preinsertPos_last] at node
  rw [same]
  refine ⟨hlen, node, fun z hz => (after.nodes z hz).imp_right fun ⟨j, _, he⟩ => ?_⟩
  rw [he]
  exact exists_preinsertPos s.rCur j

end

/-- Settles O34: by induction over the insertions, each of a position that is no node yet. -/
theorem preinsertIsNineteenInserts : Obligations.PreinsertIsNineteenInserts := by
  intro s hw trees free
  obtain ⟨-, node, nodes⟩ := preinserted_last hw trees free
  have spec := preinserted_spec hw trees free (Nat.le_refl 19)
  refine ⟨preinserted s, rfl, fun i hi => ?_, ?_, execEncPreinsert_preinserted hw trees free, spec.only, spec.trees,
    node, nodes⟩
  · rw [← preinsertPos_of_lt _ hi]
    exact exec_idxInsert (insertNode_preinserted hw trees free (by omega))
  · have last := insertNode_preinserted hw trees free (k := 18) (by decide)
    rw [preinsertPos_last] at last
    exact exec_idxInsert last

end Sys2Proof.Proofs
end

section
/-! ENC.STEP (R96): the match becomes a token, and its slot is closed. -/

namespace Sys2Proof.Proofs

open Sys2Proof.Machine Sys2Proof.Laws Sys2Proof.Safety

variable {s s1 t u : State} {kinds : List Bool} {kind : Bool} {i : Instr} {m : Nat}

/-! ## The token (R96, steps 1 to 3) -/

/-- R51, R96: the clamp takes the smaller of the match and the lookahead. -/
theorem minLen_toNat (a b : Len) : (minLen a b).toNat = min a.toNat b.toNat := by
  unfold minLen
  split <;> omega

section
variable (hm : m = min s.matchLen.toNat s.len.toNat)
include hm

theorem clampMatch_matchLen : (clampMatch s).matchLen.toNat = m := (minLen_toNat s.matchLen s.len).trans hm.symm

theorem clampMatch_eq : clampMatch s = { s with matchLen := BitVec.ofNat 5 m } := by
  rw [← clampMatch_matchLen hm, BitVec.ofNat_toNat, BitVec.setWidth_eq]
  rfl

theorem packToken_of_short (short : m ≤ 2) :
    packToken (clampMatch s) = packLiteral (s.textAt s.rCur.toNat) { s with matchLen := 1 } := by
  have ring : windowGet s s.rCur.toNat = s.textAt s.rCur.toNat :=
    congrArg s.textAt (Nat.mod_eq_of_lt s.rCur.isLt)
  rw [← ring]
  exact if_pos ((clampMatch_matchLen hm).trans_le short)

theorem packToken_of_long (long : 2 < m) :
    packToken (clampMatch s) = packReference s.matchPos m { s with matchLen := BitVec.ofNat 5 m } := by
  have clamp := clampMatch_matchLen hm
  refine (if_neg (Nat.not_le.mpr (long.trans_eq clamp.symm))).trans ?_
  rw [clamp, clampMatch_eq hm]

end

/-! ## ENC.STEP -/

/-- R96: ENC.STEP of `s` packs token `i` in `s1`, which is `s` with the length of the token for the match, closes the
slot, and sets the advance count. -/
structure StepsBy (i : Instr) (s s1 t u : State) : Prop where
  packed : exec i s1 = .next t
  closed : exec .tokNext t = .next u
  stepped : exec .encStep s = .next { u with last := s1.matchLen, iCnt := 0, phase := .eAdv }
  only : TokenStep s1 u
  group : GroupLaw u

/-- R92, R96: one token more is held, or with the eighth the group goes out. -/
theorem stepsBy_of_pack {pack : Res State} (hp : packToken (clampMatch s) = pack) (hi : exec i s1 = outcome pack)
    (only : ∀ t, pack = .ok t → TokenStep s1 t) (hw : s1.memWf = true) (hl : kinds.length ≤ 7)
    (h : ∃ t, exec i s1 = .next t ∧ HoldsPacked t (kinds ++ [kind])) : ∃ t u, StepsBy i s s1 t u := by
  obtain ⟨t, u, ht, hu, -, holds⟩ := pack_and_close hw hl h
  have pack_ok : pack = .ok t := outcome_eq_next.mp (hi.symm.trans ht)
  have close_ok : closeToken t = .ok u := outcome_eq_next.mp hu
  have step := (only t pack_ok).trans (closeToken_step close_ok)
  have len : u.matchLen = s1.matchLen := by rw [step.only]
  refine ⟨t, u, ht, hu, ?_, step, _, ?_, holds⟩
  · show outcome (stepEncoder s) = _
    rw [stepEncoder, hp, pack_ok, ok_bind, close_ok, ← len]
    rfl
  · split
    · exact Nat.zero_le 7
    · rw [List.length_append, List.length_singleton]
      omega

/-- R92: the group law says nothing of the match. -/
theorem holdsGroup_matchLen (h : HoldsGroup s kinds) (n : Len) : HoldsGroup { s with matchLen := n } kinds :=
  ⟨h.mask_eq, h.codePtr_eq, h.control_eq⟩

section
variable (hw : s.memWf = true) (group : GroupLaw s) (hm : m = min s.matchLen.toNat s.len.toNat)
include hw group hm

theorem stepsBy_literal (short : m ≤ 2) :
    ∃ t u, StepsBy (.tokLit (s.textAt s.rCur.toNat)) s { s with matchLen := 1 } t u := by
  obtain ⟨kinds, hl, holds⟩ := group
  exact stepsBy_of_pack (packToken_of_short hm short) rfl (fun _ => packLiteral_step) hw hl
    (tokLit_holdsPacked (s := { s with matchLen := 1 }) hw (holdsGroup_matchLen holds 1) hl _)

theorem stepsBy_reference (hlen : s.matchLen.toNat ≤ 18) (long : 2 < m) :
    ∃ t u, StepsBy (.tokRef s.matchPos m) s { s with matchLen := BitVec.ofNat 5 m } t u := by
  obtain ⟨kinds, hl, holds⟩ := group
  exact stepsBy_of_pack (packToken_of_long hm long) rfl (fun _ => packReference_step) hw hl
    (tokRef_holdsPacked (s := { s with matchLen := BitVec.ofNat 5 m }) hw (holdsGroup_matchLen holds _) hl _ long
      (hm.trans_le ((Nat.min_le_left ..).trans hlen)))

end

/-- Settles O35: by the length of the clamped match. -/
theorem stepTurnsTheMatchIntoAToken : Obligations.StepTurnsTheMatchIntoAToken := by
  refine fun s m hw group hlen hm => ⟨fun short => ?_, fun long => ?_⟩
  · obtain ⟨t, u, h⟩ := stepsBy_literal hw group hm short
    exact ⟨t, u, h.packed, h.closed, h.stepped⟩
  · obtain ⟨t, u, h⟩ := stepsBy_reference hw group hm hlen long
    exact ⟨t, u, h.packed, h.closed, h.stepped⟩

/-- R96: ENC.STEP completes; the advance count is at least 1, and no more than the lookahead where there is one. -/
theorem execEncStep_completes (hw : s.memWf = true) (group : GroupLaw s) (hlen : s.matchLen.toNat ≤ 18) :
    ∃ (n : Len) (u : State), exec .encStep s = .next { u with last := n, iCnt := 0, phase := .eAdv } ∧
      TokenStep { s with matchLen := n } u ∧ GroupLaw u ∧ 1 ≤ n.toNat ∧ n.toNat ≤ 18 ∧
      n.toNat ≤ max 1 s.len.toNat := by
  generalize hm : min s.matchLen.toNat s.len.toNat = m
  rcases Nat.lt_or_ge 2 m with long | short
  · obtain ⟨t, u, h⟩ := stepsBy_reference hw group hm.symm hlen long
    have toNat : (BitVec.ofNat 5 m).toNat = m := Nat.mod_eq_of_lt (by omega)
    exact ⟨BitVec.ofNat 5 m, u, h.stepped, h.only, h.group, by omega, by omega, by omega⟩
  · obtain ⟨t, u, h⟩ := stepsBy_literal hw group hm.symm short
    exact ⟨1, u, h.stepped, h.only, h.group, Nat.le_refl 1, by decide, Nat.le_max_left ..⟩

end Sys2Proof.Proofs
end

section
/-! A COMPRESS run (R102, R134, R163): every step of it completes, keeps the laws of the run, and leaves less to do. -/

namespace Sys2Proof.Proofs

open Sys2Proof.Machine Sys2Proof.Laws Sys2Proof.Safety

variable {s t u : State} {c : Byte}

/-! ## The laws of a state that agrees with another -/

/-- The group held in `t` is that of `s`. -/
def SameGroup (s t : State) : Prop := t.mask = s.mask ∧ t.codePtr = s.codePtr ∧ t.codebuf = s.codebuf

theorem groupLaw_of_sameGroup (h : GroupLaw s) (same : SameGroup s t) : GroupLaw t := by
  obtain ⟨kinds, hl, mask_eq, codePtr_eq, control_eq⟩ := h
  obtain ⟨hmask, hptr, hcode⟩ := same
  have control : t.codeAt 0 = s.codeAt 0 := by rw [State.codeAt, hcode]; rfl
  exact ⟨kinds, hl, hmask.trans mask_eq, by rw [hptr, codePtr_eq], by rw [control, control_eq]⟩

theorem emptyIndex_of_sameLinks (h : EmptyIndex s) (same : SameLinks s t) : EmptyIndex t := by
  obtain ⟨-, hr, hp⟩ := same
  refine ⟨fun b => ?_, fun p => ?_⟩
  · rw [State.rightAt, hr]; exact h.roots b
  · rw [State.parentAt, hp]; exact h.parents p

/-- The ports of `t` and its status are those of `s`. -/
def SameControl (s t : State) : Prop :=
  t.ops = s.ops ∧ t.cmd = s.cmd ∧ t.mode = s.mode ∧ t.busy = s.busy ∧ t.done = s.done

theorem ne_idle_of_enc {p : Phase} (h : phaseMode p = .enc) : p ≠ .idle := by
  rintro rfl
  cases h

theorem control_of_sameControl (h : Control s) (hs : phaseMode s.phase = .enc) (ht : phaseMode t.phase = .enc)
    (same : SameControl s t) : Control t := by
  obtain ⟨-, -, hmode, hbusy, hdone⟩ := same
  refine ⟨?_, ?_, ?_⟩
  · rw [hmode, h.mode_eq, hs, ht]
  · rw [hbusy]
    exact iff_of_true (h.busy_iff.mpr (ne_idle_of_enc hs)) (ne_idle_of_enc ht)
  · rw [hbusy, hdone]
    exact h.not_both

theorem control_endRun (s : State) : Control (endRun s) :=
  ⟨rfl, iff_of_false Bool.false_ne_true (not_not_intro rfl), fun h => Bool.false_ne_true h.1⟩

/-! ## The law of each phase -/

theorem encoderLaw_eLoad (hp : s.phase = .eLoad) : EncoderLaw s ↔
    GroupLaw s ∧ EmptyIndex s ∧ s.sCur = 0 ∧ Cursors s ∧ s.len = 0 := by
  rw [EncoderLaw, hp]

theorem encoderLaw_ePre (hp : s.phase = .ePre) : EncoderLaw s ↔
    GroupLaw s ∧ EmptyIndex s ∧ s.sCur = 0 ∧ Cursors s ∧ 1 ≤ s.len.toNat ∧ s.len.toNat ≤ 18 := by
  rw [EncoderLaw, hp]
  rfl

theorem encoderLaw_eStep (hp : s.phase = .eStep) : EncoderLaw s ↔
    GroupLaw s ∧ WindowLaw s ∧ 1 ≤ s.len.toNat ∧ s.len.toNat ≤ 18 ∧ s.matchLen.toNat ≤ 18 := by
  rw [EncoderLaw, hp]
  exact ⟨fun ⟨group, trees, members, cursors, h⟩ => ⟨group, ⟨trees, members, cursors⟩, h⟩,
    fun ⟨group, window, h⟩ => ⟨group, window.trees, window.members, window.cursors, h⟩⟩

theorem encoderLaw_eAdv (hp : s.phase = .eAdv) : EncoderLaw s ↔
    GroupLaw s ∧ WindowLaw s ∧ s.len.toNat ≤ 18 ∧ s.matchLen.toNat ≤ 18 ∧ s.iCnt.toNat ≤ s.last.toNat ∧
      s.last.toNat ≤ s.iCnt.toNat + s.len.toNat := by
  rw [EncoderLaw, hp]
  exact ⟨fun ⟨group, trees, members, cursors, h⟩ => ⟨group, ⟨trees, members, cursors⟩, h⟩,
    fun ⟨group, window, h⟩ => ⟨group, window.trees, window.members, window.cursors, h⟩⟩

theorem encoderLaw_eFin (hp : s.phase = .eFin) : EncoderLaw s ↔ GroupLaw s := by rw [EncoderLaw, hp]

/-! ## Progress -/

/-- A state of a COMPRESS run from ENC.START on, its end included. -/
structure Compressing (s : State) : Prop where
  law : RunLaw s
  no_cmd : s.cmd = 0
  phase : phaseMode s.phase = .enc ∨ (s.phase = .idle ∧ s.done = true)

/-- The bytes of the input that no step of the advance loop has moved past: in the lookahead, or not read. -/
def pending (s : State) : Nat := s.len.toNat + (s.inp.length - s.ip)

/-- What is left to do in a COMPRESS run: a step of the advance loop lowers `pending`, each other step moves PHASE
on. -/
def encodeWork (s : State) : Nat :=
  match s.phase with
  | .eInit => 3 * s.inp.length + 5
  | .eLoad => 3 * pending s + 4
  | .ePre => 3 * pending s + 3
  | .eStep => 3 * pending s + 2
  | .eAdv => 3 * pending s + if s.iCnt.toNat < s.last.toNat then 1 else 3
  | .eFin => 1
  | .idle => 0
  | .dInit => 0
  | .dBit => 0
  | .dLit => 0
  | .dRef => 0

/-- The next step of a COMPRESS run completes and leaves less to do. -/
def Proceeds (s : State) : Prop := ∃ t, step s = .next t ∧ Compressing t ∧ encodeWork t < encodeWork s

/-- R94: the bytes ENC.LOAD moves were pending before and are pending after. -/
theorem Loaded.pending_eq (h : Loaded s (loadCount s) t) : pending t = pending s := by
  have hinp : t.inp = s.inp := by rw [h.only]
  have hip : t.ip = s.ip + loadCount s := by rw [h.only]
  rw [pending, pending, hinp, hip, h.len_eq, loadCount]
  omega

theorem Loaded.len_le (h : Loaded s (loadCount s) t) (hlen : s.len.toNat ≤ 18) : t.len.toNat ≤ 18 := by
  rw [h.len_eq, loadCount]
  omega

/-- R95, R123: on the empty index the nodes ENC.PREINSERT makes are the last of the window, `R-F` to `R`. -/
theorem windowLaw_preinserted (hw : s.memWf = true) (empty : EmptyIndex s) (cursors : Cursors s) :
    WindowLaw (preinserted s 19) := by
  have trees := treeLaw_of_emptyIndex empty
  have free : ∀ i ≤ 18, ¬ IsNode s (s.rCur - BitVec.ofNat 12 i) := fun _ _ => not_not_intro (empty.parents _)
  obtain ⟨-, -, nodes⟩ := preinserted_last hw trees free
  have spec := preinserted_spec hw trees free (Nat.le_refl 19)
  have hR : (preinserted s 19).rCur = s.rCur := by rw [spec.only]
  have hS : (preinserted s 19).sCur = s.sCur := by rw [spec.only]
  refine ⟨spec.trees, fun z hz => ?_, by rw [Cursors, hR, hS, cursors]⟩
  obtain ⟨i, hi, rfl⟩ := (nodes z hz).resolve_left (not_not_intro (empty.parents z))
  rw [hS, cursors]
  simp only [Config.startR, Config.N, Config.F]
  bv_omega

/-- R97, R98: what a step of the advance loop may change; it moves both cursors and counts itself. -/
def OnlyMoved (s t : State) : Prop :=
  t = { s with text := t.text, left := t.left, right := t.right, parent := t.parent, cmp := t.cmp,
               matchPos := t.matchPos, matchLen := t.matchLen, len := t.len, ip := t.ip, sCur := s.sCur + 1,
               rCur := s.rCur + 1, iCnt := nextCount s.iCnt }

section
variable (h : Compressing s)
include h

theorem Compressing.of_same (hs : phaseMode s.phase = .enc) (hw : t.memWf = true) (ht : phaseMode t.phase = .enc)
    (same : SameControl s t) (law : EncoderLaw t) : Compressing t where
  law := ⟨same.1.trans h.law.no_ops, hw, control_of_sameControl h.law.control hs ht same, law⟩
  no_cmd := same.2.1.trans h.no_cmd
  phase := .inl ht

/-- R65: a step of the run performs the operation PHASE names. -/
theorem Compressing.step_eq {i : Instr} (hf : fetchPhase s = .run i s) : step s = exec i s :=
  step_of_phase h.law.no_ops h.no_cmd hf

/-- R93: ENC.START. -/
theorem Compressing.start (hp : s.phase = .eInit) : Proceeds s := by
  have hw := memWf_startEncoder h.law.mem_wf
  have reset := holdsGroup_resetGroup (memWf_clearIndex (memWf_fillWindow h.law.mem_wf))
  have group : GroupLaw (startEncoder s) := groupLaw_of_sameGroup ⟨[], by decide, reset⟩ ⟨rfl, rfl, rfl⟩
  refine ⟨startEncoder s, h.step_eq (i := .encStart) (by rw [fetchPhase, hp]),
    h.of_same (by rw [hp]; rfl) hw rfl ⟨rfl, rfl, rfl, rfl, rfl⟩
      ((encoderLaw_eLoad rfl).mpr ⟨group, emptyIndex_startEncoder s, rfl, rfl, rfl⟩), ?_⟩
  rw [encodeWork, encodeWork, hp]
  show 3 * (0 + (s.inp.length - 0)) + 4 < 3 * s.inp.length + 5
  omega

/-- R100, R101: the end of the run. -/
theorem Compressing.ended (hu : u.memWf = true) (ports : u.ops = s.ops ∧ u.cmd = s.cmd) :
    Compressing (endRun u) where
  law := ⟨ports.1.trans h.law.no_ops, hu, control_endRun u, trivial⟩
  no_cmd := ports.2.trans h.no_cmd
  phase := .inr ⟨rfl, rfl⟩

/-- R94: ENC.LOAD. -/
theorem Compressing.load (hp : s.phase = .eLoad) : Proceeds s := by
  obtain ⟨group, empty, hS, cursors, hlen⟩ := (encoderLaw_eLoad hp).mp h.law.encoder
  obtain ⟨t, loaded, ht⟩ := execEncLoad_loaded h.law.mem_wf
  have hwt := exec_memWf h.law.mem_wf ht
  have full := loaded.len_le (by rw [hlen]; decide)
  have samePending := loaded.pending_eq
  have work : encodeWork s = 3 * pending s + 4 := by rw [encodeWork, hp]
  obtain ⟨text, len, rfl⟩ : ∃ text len, t = { s with text := text, len := len, ip := s.ip + loadCount s } :=
    ⟨_, _, loaded.only⟩
  have step := (h.step_eq (i := .encLoad) (by rw [fetchPhase, hp])).trans ht
  by_cases ended : len = 0
  · rw [if_pos ended] at step hwt
    refine ⟨_, step, h.ended hwt ⟨rfl, rfl⟩, ?_⟩
    rw [work]
    exact Nat.succ_pos _
  · rw [if_neg ended] at step hwt
    have held : 1 ≤ len.toNat := Nat.one_le_iff_ne_zero.mpr fun h0 => ended (BitVec.eq_of_toNat_eq h0)
    refine ⟨_, step, h.of_same (by rw [hp]; rfl) hwt rfl ⟨rfl, rfl, rfl, rfl, rfl⟩ ((encoderLaw_ePre rfl).mpr
      ⟨groupLaw_of_sameGroup group ⟨rfl, rfl, rfl⟩, emptyIndex_of_sameLinks empty ⟨rfl, rfl, rfl⟩, hS, cursors, held,
        full⟩), ?_⟩
    rw [work, ← samePending]
    exact Nat.lt_succ_self _

/-- R95: ENC.PREINSERT, on the empty index. -/
theorem Compressing.preinsert (hp : s.phase = .ePre) : Proceeds s := by
  have hw := h.law.mem_wf
  obtain ⟨group, empty, hS, cursors, low, high⟩ := (encoderLaw_ePre hp).mp h.law.encoder
  have trees := treeLaw_of_emptyIndex empty
  have free : ∀ i ≤ 18, ¬ IsNode s (s.rCur - BitVec.ofNat 12 i) := fun _ _ => not_not_intro (empty.parents _)
  have step := (h.step_eq (i := .encPreinsert) (by rw [fetchPhase, hp])).trans
    (execEncPreinsert_preinserted hw trees free)
  obtain ⟨hlen, -, -⟩ := preinserted_last hw trees free
  have spec := preinserted_spec hw trees free (Nat.le_refl 19)
  have window := windowLaw_preinserted hw empty cursors
  generalize preinserted s 19 = u at step hlen spec window
  have hwu := spec.mem_wf
  obtain ⟨left, right, parent, cmp, matchPos, matchLen, rfl⟩ : ∃ left right parent cmp matchPos matchLen,
      u = { s with left := left, right := right, parent := parent, cmp := cmp, matchPos := matchPos,
                   matchLen := matchLen } := ⟨_, _, _, _, _, _, spec.only⟩
  refine ⟨_, step, h.of_same (by rw [hp]; rfl) hwu rfl ⟨rfl, rfl, rfl, rfl, rfl⟩ ((encoderLaw_eStep rfl).mpr
    ⟨groupLaw_of_sameGroup group ⟨rfl, rfl, rfl⟩, window.of_same ⟨rfl, rfl, rfl⟩ rfl rfl, low, high, hlen⟩), ?_⟩
  rw [encodeWork, encodeWork, hp]
  exact Nat.lt_succ_self _

/-- R96: ENC.STEP. -/
theorem Compressing.token (hp : s.phase = .eStep) : Proceeds s := by
  obtain ⟨group, window, low, high, hlen⟩ := (encoderLaw_eStep hp).mp h.law.encoder
  obtain ⟨n, u, hu, only, group', count, ncount, le⟩ := execEncStep_completes h.law.mem_wf group hlen
  have step := (h.step_eq (i := .encStep) (by rw [fetchPhase, hp])).trans hu
  have hwu := only.mem_wf h.law.mem_wf
  obtain ⟨codebuf, codePtr, mask, out, rfl⟩ : ∃ codebuf codePtr mask out,
      u = { s with matchLen := n, codebuf := codebuf, codePtr := codePtr, mask := mask, out := out } :=
    ⟨_, _, _, _, only.only⟩
  refine ⟨_, step, h.of_same (by rw [hp]; rfl) hwu rfl ⟨rfl, rfl, rfl, rfl, rfl⟩ ((encoderLaw_eAdv rfl).mpr
    ⟨groupLaw_of_sameGroup group' ⟨rfl, rfl, rfl⟩, window.of_same ⟨rfl, rfl, rfl⟩ rfl rfl, high, ncount, Nat.zero_le _,
      ?_⟩), ?_⟩
  · show n.toNat ≤ 0 + s.len.toNat
    omega
  · rw [encodeWork, encodeWork, hp]
    show 3 * pending s + (if 0 < n.toNat then 1 else 3) < 3 * pending s + 2
    rw [if_pos (show 0 < n.toNat from count)]
    omega

/-- R99: the exit test. -/
theorem Compressing.exit (hp : s.phase = .eAdv) (done : s.last.toNat ≤ s.iCnt.toNat) : Proceeds s := by
  obtain ⟨group, window, high, hlen, -, -⟩ := (encoderLaw_eAdv hp).mp h.law.encoder
  have step := step_exit h.law.no_ops h.no_cmd hp done
  have work : encodeWork s = 3 * pending s + 3 := by rw [encodeWork, hp]; simp [Nat.not_lt.mpr done]
  by_cases ended : s.len = 0
  · rw [if_pos ended] at step
    refine ⟨_, step, h.of_same (by rw [hp]; rfl) h.law.mem_wf rfl ⟨rfl, rfl, rfl, rfl, rfl⟩
      ((encoderLaw_eFin rfl).mpr (groupLaw_of_sameGroup group ⟨rfl, rfl, rfl⟩)), ?_⟩
    rw [work]
    show 1 < _
    omega
  · rw [if_neg ended] at step
    have held : 1 ≤ s.len.toNat := Nat.one_le_iff_ne_zero.mpr fun h0 => ended (BitVec.eq_of_toNat_eq h0)
    refine ⟨_, step, h.of_same (by rw [hp]; rfl) h.law.mem_wf rfl ⟨rfl, rfl, rfl, rfl, rfl⟩
      ((encoderLaw_eStep rfl).mpr ⟨groupLaw_of_sameGroup group ⟨rfl, rfl, rfl⟩,
        window.of_same ⟨rfl, rfl, rfl⟩ rfl rfl, held, high, hlen⟩), ?_⟩
    rw [work]
    exact Nat.lt_succ_self _

/-- R97, R98: a step of the advance loop counts itself and leaves fewer bytes pending. -/
theorem Compressing.moved (hp : s.phase = .eAdv) (more : s.iCnt.toNat < s.last.toNat) (ht : step s = .next t)
    (only : OnlyMoved s t) (window : WindowLaw t) (hlen : t.matchLen.toNat ≤ 18) (le : t.len.toNat ≤ s.len.toNat)
    (ge : s.len.toNat ≤ t.len.toNat + 1) (less : pending t < pending s) : Proceeds s := by
  obtain ⟨held, -, high, -, -, enough⟩ := (encoderLaw_eAdv hp).mp h.law.encoder
  have hpt : t.phase = .eAdv := by rw [only, hp]
  have control : SameControl s t := by rw [only]; exact ⟨rfl, rfl, rfl, rfl, rfl⟩
  have group : SameGroup s t := by rw [only]; exact ⟨rfl, rfl, rfl⟩
  have last : t.last = s.last := by rw [only]
  have counted : t.iCnt.toNat = s.iCnt.toNat + 1 := by
    have : t.iCnt = nextCount s.iCnt := by rw [only]
    rw [this, nextCount_toNat (by omega)]
  refine ⟨t, ht, h.of_same (by rw [hp]; rfl) (step_memWf h.law.mem_wf ht) (by rw [hpt]; rfl) control
    ((encoderLaw_eAdv hpt).mpr ⟨groupLaw_of_sameGroup held group, window, le.trans high, hlen, ?_, ?_⟩), ?_⟩
  · rw [counted, last]
    exact more
  · rw [counted, last]
    omega
  · have exits : (if t.iCnt.toNat < t.last.toNat then 1 else 3) ≤ 3 := by split <;> decide
    calc encodeWork t = 3 * pending t + if t.iCnt.toNat < t.last.toNat then 1 else 3 := by rw [encodeWork, hpt]
      _ < 3 * pending s + 1 := by omega
      _ = encodeWork s := by rw [encodeWork, hp]; simp [more]

/-- R97: ENC.ADVANCE. -/
theorem Compressing.advance (hp : s.phase = .eAdv) (more : s.iCnt.toNat < s.last.toNat) (left : s.ip < s.inp.length) :
    Proceeds s := by
  obtain ⟨-, window, -⟩ := (encoderLaw_eAdv hp).mp h.law.encoder
  obtain ⟨t, ht, hlen, window⟩ := window.advance h.law.mem_wf (List.getElem?_eq_getElem left)
  have only := advanceEncoder_frame ht
  have moved : OnlyMoved s t := by rw [only]; rfl
  have len : t.len = s.len := by rw [only]
  have read : t.inp.length - t.ip = s.inp.length - (s.ip + 1) := by rw [only]
  refine h.moved hp more ((step_advance h.law.no_ops h.no_cmd hp more left).trans (congrArg outcome ht)) moved window
    hlen (by rw [len]) (by rw [len]; omega) ?_
  rw [pending, pending, read, len]
  omega

/-- R98: ENC.DRAIN. There is a byte to drain, since no more steps are taken than LEN allows. -/
theorem Compressing.drain (hp : s.phase = .eAdv) (more : s.iCnt.toNat < s.last.toNat) (ended : s.inp.length ≤ s.ip) :
    Proceeds s := by
  obtain ⟨-, window, -, hlen, -, enough⟩ := (encoderLaw_eAdv hp).mp h.law.encoder
  have held : 1 ≤ s.len.toNat := by omega
  have hne : s.len ≠ 0 := fun h0 => absurd (congrArg BitVec.toNat h0) (Nat.one_le_iff_ne_zero.mp held)
  obtain ⟨t, ht, hlen, window⟩ := window.drain h.law.mem_wf hne hlen
  have only := drainEncoder_frame ht
  have moved : OnlyMoved s t := by rw [only]; rfl
  have len : t.len.toNat = s.len.toNat - 1 := by
    have : t.len = s.len - 1 := by rw [only]
    rw [this]
    exact BitVec.toNat_sub_of_le held
  have read : t.inp.length - t.ip = s.inp.length - s.ip := by rw [only]
  refine h.moved hp more ((step_drain h.law.no_ops h.no_cmd hp more ended).trans (congrArg outcome ht)) moved window
    hlen (by omega) (by omega) ?_
  rw [pending, pending, read, len]
  omega

/-- R100: ENC.FINISH. -/
theorem Compressing.finish (hp : s.phase = .eFin) : Proceeds s := by
  have group := (encoderLaw_eFin hp).mp h.law.encoder
  have ptr := ((groupLawIsKept s h.law.mem_wf).2.1 group).2
  have ht : exec .encFinish s = _ := congrArg outcome (finishEncoder_of_le (by omega))
  refine ⟨_, (h.step_eq (i := .encFinish) (by rw [fetchPhase, hp])).trans ht, h.ended h.law.mem_wf ⟨rfl, rfl⟩, ?_⟩
  rw [encodeWork, encodeWork, hp]
  exact Nat.zero_lt_one

/-- R134, R163: every step of a COMPRESS run before its end. -/
theorem Compressing.proceeds (hne : s.phase ≠ .idle) : Proceeds s := by
  have enc : phaseMode s.phase = .enc := h.phase.resolve_right fun ended => hne ended.1
  cases hp : s.phase with
  | idle => exact absurd hp hne
  | eInit => exact h.start hp
  | eLoad => exact h.load hp
  | ePre => exact h.preinsert hp
  | eStep => exact h.token hp
  | eAdv =>
    rcases Nat.lt_or_ge s.iCnt.toNat s.last.toNat with more | done
    · rcases Nat.lt_or_ge s.ip s.inp.length with left | ended
      · exact h.advance hp more left
      · exact h.drain hp more ended
    · exact h.exit hp done
  | eFin => exact h.finish hp
  | dInit | dBit | dLit | dRef => rw [hp] at enc; cases enc

/-- R112: after its end the block waits, and changes nothing. -/
theorem Compressing.preserved (ht : step s = .next t) : Compressing t := by
  by_cases hp : s.phase = .idle
  · have stay := (stepPerformsTheOperationOfPhase s h.law.no_ops h.no_cmd).1 hp
    cases stay.symm.trans ht
    exact h
  · obtain ⟨t', ht', next, -⟩ := h.proceeds hp
    cases ht'.symm.trans ht
    exact next

end

/-! ## Runs -/

theorem run_succ_eq_next {M : Host.Core} {k : Nat} {s t : M.State} :
    M.run (k + 1) s = .next t ↔ ∃ u, M.step s = .next u ∧ M.run k u = .next t := by
  rw [Host.Core.run]
  cases M.step s <;> simp

/-- A law every step keeps holds wherever a run answers a state. -/
theorem run_keeps {P : State → Prop} (keep : ∀ s t, P s → step s = .next t → P t) (k : Nat) :
    ∀ {s t : State}, P s → core.run k s = .next t → P t := by
  induction k with
  | zero =>
    intro s t hs h
    cases h
    exact hs
  | succ k ih =>
    intro s t hs h
    obtain ⟨u, hu, h⟩ := run_succ_eq_next.mp h
    exact ih (keep s u hs hu) h

/-- R134: the work left falls with every step, so the run ends. -/
theorem Compressing.ends (n : Nat) : ∀ {s : State}, Compressing s → encodeWork s ≤ n →
    ∃ k t, core.run k s = .next t ∧ t.phase = .idle ∧ t.cmd = 0 := by
  induction n with
  | zero =>
    intro s h hn
    by_cases hp : s.phase = .idle
    · exact ⟨0, s, rfl, hp, h.no_cmd⟩
    · obtain ⟨t, -, -, less⟩ := h.proceeds hp
      omega
  | succ n ih =>
    intro s h hn
    by_cases hp : s.phase = .idle
    · exact ⟨0, s, rfl, hp, h.no_cmd⟩
    · obtain ⟨t, ht, next, less⟩ := h.proceeds hp
      obtain ⟨k, u, hk, hu⟩ := ih next (by omega)
      exact ⟨k + 1, u, run_succ_eq_next.mpr ⟨t, ht, hk⟩, hu⟩

/-- The first state of a COMPRESS run of `input` (R113): the command is consumed. -/
def compressStart (input : List Byte) (s : State) : State :=
  { s with inp := input, mode := .enc, busy := true, done := false, phase := .eInit }

/-- R112, R113: presented to an idle block, COMPRESS starts a run. -/
theorem step_hostPresent_compress (h : Idle s) (input : List Byte) :
    step (s.hostPresent 1 input) = .next (compressStart input s) := by
  have hbusy : s.busy = false := by
    rw [← Bool.not_eq_true, h.control.busy_iff]
    exact not_not_intro h.phase_eq
  have presented : s.hostPresent 1 input = { s with cmd := 1, inp := input } := by
    rw [State.hostPresent, hbusy]
    rfl
  have consumed : { compressStart input s with cmd := 0 } = compressStart input s := by
    rw [← h.no_cmd]
    rfl
  rw [presented, ← consumed]
  exact (step_of_cmd (s := { s with cmd := 1, inp := input }) (i := .compress) (rest := []) h.no_ops
    (show (1 : BitVec 2) ≠ 0 by decide) rfl).trans (congrArg Host.Outcome.next (if_pos h.phase_eq))

theorem compressing_compressStart (h : Idle s) (input : List Byte) : Compressing (compressStart input s) where
  law := ⟨h.no_ops, h.mem_wf, ⟨rfl, iff_of_true rfl Phase.noConfusion, fun ⟨_, hd⟩ => Bool.false_ne_true hd⟩, trivial⟩
  no_cmd := h.no_cmd
  phase := .inl rfl

/-- A COMPRESS run ends only after its first step, in a state of the run. -/
theorem compressing_of_ends {input : List Byte} (h : Idle s) (ht : Ends 1 input s t) : Compressing t := by
  obtain ⟨k, hk, -, hcmd⟩ := ht
  cases k with
  | zero =>
    have presented : (s.hostPresent 1 input).cmd = 1 := by
      unfold State.hostPresent
      split <;> rfl
    cases hk
    rw [presented] at hcmd
    exact absurd hcmd (by decide)
  | succ k =>
    obtain ⟨u, hu, hk⟩ := run_succ_eq_next.mp hk
    cases (step_hostPresent_compress h input).symm.trans hu
    exact run_keeps (fun _ _ => Compressing.preserved) k (compressing_compressStart h input) hk

/-- Settles O56: the run keeps its laws and leaves less to do with every step until PHASE is IDLE. -/
theorem compressTerminates : Obligations.CompressTerminates := by
  refine fun s input h => ⟨?_, fun t ht => ?_⟩
  · obtain ⟨k, t, hk, hend⟩ := Compressing.ends _ (compressing_compressStart h input) (Nat.le_refl _)
    exact ⟨t, k + 1, run_succ_eq_next.mpr ⟨_, step_hostPresent_compress h input, hk⟩, hend⟩
  · have ended := compressing_of_ends h ht
    obtain ⟨k, -, hp, hcmd⟩ := ht
    have done : t.done = true := ended.phase.elim (fun enc => absurd hp (ne_idle_of_enc enc)) And.right
    exact ⟨done, hp, ended.law.no_ops, hcmd, ended.law.mem_wf, ended.law.control⟩

end Sys2Proof.Proofs
end

section
/-! The decoder's operations (R103 to R107): what a token does to OUT and to the ring, where a fetch finds the input
exhausted, and the bytes of an overlapping copy. -/

namespace Sys2Proof.Proofs

open Sys2Proof.Machine Sys2Proof.Laws Sys2Proof.Safety

variable {s : State} {rest : List Byte}

/-! ## One byte to OUT and into the ring (R105) -/

/-- The ring as R109 has it: 4096 bytes, without the mirror (R110). -/
def ringOfText (s : State) : Pos → Byte := fun q => s.textAt q.toNat

theorem windowGet_eq_ringOfText (s : State) (a : Nat) : windowGet s a = ringOfText s (BitVec.ofNat 12 a) :=
  congrArg s.textAt (BitVec.toNat_ofNat a 12).symm

theorem ringAddr_pos (p : Pos) : ringAddr p.toNat = p.toNat := Nat.mod_eq_of_lt p.isLt

theorem emitByte_frame (c : Byte) (s : State) :
    emitByte c s = { s with text := (emitByte c s).text, out := s.out ++ [c], rCur := s.rCur + 1 } :=
  congrArg advanceR (windowSet_frame (appendOut c s) s.rCur.toNat c)

theorem emitByte_out (c : Byte) (s : State) : (emitByte c s).out = s.out ++ [c] := by rw [emitByte_frame]

theorem emitByte_rCur (c : Byte) (s : State) : (emitByte c s).rCur = s.rCur + 1 := by rw [emitByte_frame]

theorem emitByte_textAt (hw : s.memWf = true) (c : Byte) (a : Nat) : (emitByte c s).textAt a =
    if a = s.rCur.toNat ∨ (s.rCur.toNat < 17 ∧ a = s.rCur.toNat + 4096) then c else s.textAt a := by
  have written := windowSet_textAt (s := appendOut c s) hw s.rCur.toNat c a
  rw [ringAddr_pos] at written
  exact written

/-- Seen without the mirror, a ring write is the write of one byte. -/
theorem ringOfText_emitByte (hw : s.memWf = true) (c : Byte) :
    ringOfText (emitByte c s) = ringSet (ringOfText s) s.rCur c := by
  funext q
  have hq := q.isLt
  have at_q : (q.toNat = s.rCur.toNat ∨ (s.rCur.toNat < 17 ∧ q.toNat = s.rCur.toNat + 4096)) ↔ q = s.rCur := by
    rw [← toNat_inj]
    omega
  exact (emitByte_textAt hw c _).trans (if_congr at_q rfl rfl)

/-! ## A copy (R106) -/

theorem pos_add_one_add (x : Pos) (i : Nat) : x + 1 + BitVec.ofNat 12 i = x + BitVec.ofNat 12 (i + 1) := by
  rw [BitVec.add_assoc, BitVec.add_comm 1, BitVec.ofNat_add]
  rfl

theorem copyBytes_frame (pos n : Nat) : ∀ (k : Nat) (s : State), copyBytes pos n k s =
    { s with text := (copyBytes pos n k s).text, out := (copyBytes pos n k s).out,
             rCur := s.rCur + BitVec.ofNat 12 n } := by
  induction n with
  | zero => intro k s; rw [BitVec.add_zero]; rfl
  | succ n ih =>
    intro k s
    rw [copyBytes, ih, emitByte_frame, pos_add_one_add]

/-- The last byte of a copy is read and written when the others have been. -/
theorem copyBytes_succ (pos n : Nat) : ∀ (k : Nat) (s : State), copyBytes pos (n + 1) k s =
    emitByte (windowGet (copyBytes pos n k s) (pos + (k + n))) (copyBytes pos n k s) := by
  induction n with
  | zero => intro k s; rfl
  | succ n ih =>
    intro k s
    rw [copyBytes, ih, Nat.add_right_comm k 1 n]
    rfl

/-- R106, R109: a copy appends the bytes that the copy over a ring gives, and leaves the ring it leaves. -/
theorem copyBytes_eq_ringCopy (pos n : Nat) : ∀ (k : Nat) {s : State}, s.memWf = true →
    (copyBytes pos n k s).out = s.out ++ (ringCopy (ringOfText s) (BitVec.ofNat 12 (pos + k)) s.rCur n).1 ∧
    ringOfText (copyBytes pos n k s) = (ringCopy (ringOfText s) (BitVec.ofNat 12 (pos + k)) s.rCur n).2 := by
  induction n with
  | zero => intro k s _; exact ⟨(List.append_nil _).symm, rfl⟩
  | succ n ih =>
    intro k s hw
    have later := ih (k + 1) (memWf_emitByte hw (windowGet s (pos + k)))
    rw [ringOfText_emitByte hw, emitByte_out, emitByte_rCur, windowGet_eq_ringOfText, List.append_assoc,
      ← Nat.add_assoc, BitVec.ofNat_add (x := pos + k)] at later
    rw [copyBytes, windowGet_eq_ringOfText]
    exact later

/-! ## The tokens -/

theorem literalToken_frame (c : Byte) (s : State) : literalToken c s =
    { s with text := (literalToken c s).text, out := s.out ++ [c], rCur := s.rCur + 1, phase := .dBit } :=
  congrArg (setPhase .dBit) (emitByte_frame c s)

theorem referenceToken_frame (pos : Pos) (n : Nat) (s : State) : referenceToken pos n s =
    { s with text := (referenceToken pos n s).text, out := (referenceToken pos n s).out,
             rCur := s.rCur + BitVec.ofNat 12 n, phase := .dBit } :=
  congrArg (setPhase .dBit) (copyBytes_frame pos.toNat n 0 s)

theorem ringOfText_literalToken (hw : s.memWf = true) (c : Byte) :
    ringOfText (literalToken c s) = ringSet (ringOfText s) s.rCur c := ringOfText_emitByte hw c

/-- R106, R109: the effect of a reference token on OUT and on the ring. -/
theorem referenceToken_eq_ringCopy (hw : s.memWf = true) (pos : Pos) (n : Nat) :
    (referenceToken pos n s).out = s.out ++ (ringCopy (ringOfText s) pos s.rCur n).1 ∧
    ringOfText (referenceToken pos n s) = (ringCopy (ringOfText s) pos s.rCur n).2 := by
  have copied := copyBytes_eq_ringCopy pos.toNat n 0 hw
  rw [Nat.add_zero, BitVec.ofNat_toNat, BitVec.setWidth_eq] at copied
  exact copied

theorem execRef_of_coded {n : Nat} (low : 3 ≤ n) (high : n ≤ 18) (pos : Pos) (s : State) :
    exec (.ref pos n) s = .next (referenceToken pos n s) := if_pos ⟨low, high⟩

/-- R57: the position of a reference token as a number. -/
theorem refPos_eq_ofNat (b0 b1 : Byte) : refPos b0 b1 = BitVec.ofNat 12 (b0.toNat + b1.toNat / 16 * 256) := by
  have h0 := b0.isLt
  have h1 := b1.isLt
  apply BitVec.eq_of_toNat_eq
  rw [refPos_eq, BitVec.toNat_append, ← Nat.shiftLeft_add_eq_or_of_lt h0, BitVec.extractLsb'_toNat, BitVec.toNat_ofNat,
    Nat.shiftLeft_eq, Nat.shiftRight_eq_div_pow]
  omega

theorem refLen_eq_mod (b1 : Byte) : refLen b1 = b1.toNat % 16 + 3 := by
  rw [refLen_eq, BitVec.extractLsb'_toNat, Nat.shiftRight_zero]

/-! ## The control register (R104) -/

theorem tokenPhase_loadFlags (c : Byte) : tokenPhase (loadFlags c) = if c.getLsbD 0 then .dLit else .dRef := by
  simp [tokenPhase, loadFlags]

theorem controlToken_eq (c : Byte) (s : State) : controlToken c s =
    { s with flags := 0xFF00 ||| c.setWidth 16, phase := if c.getLsbD 0 then .dLit else .dRef } := by
  rw [controlToken, tokenPhase_loadFlags]
  rfl

/-! ## Fetches from the input (R9, R62) -/

theorem inNext_of_drop_nil (h : s.inp.drop s.ip = []) : inNext s = none :=
  inNext_of_exhausted (List.drop_eq_nil_iff.mp h)

theorem drop_of_getElem? {c : Byte} {i : Nat} (h : s.inp[i]? = some c) : s.inp.drop i = c :: s.inp.drop (i + 1) := by
  obtain ⟨hi, rfl⟩ := List.getElem?_eq_some_iff.mp h
  exact List.drop_eq_getElem_cons hi

theorem drop_one_of_drop {c : Byte} (h : s.inp.drop s.ip = c :: rest) : s.inp.drop (s.ip + 1) = rest := by
  rw [← List.tail_drop, h]
  rfl

theorem drop_two_of_drop {b0 b1 : Byte} (h : s.inp.drop s.ip = b0 :: b1 :: rest) : s.inp.drop (s.ip + 2) = rest := by
  rw [← List.drop_drop, h]
  rfl

theorem execDecCtrl_of_bit (hf : (s.flags >>> 1).getLsbD 8 = true) : execDecCtrl s =
    .next { s with flags := s.flags >>> 1, phase := tokenPhase (s.flags >>> 1) } := if_pos hf

theorem execDecCtrl_of_drop_nil (hf : (s.flags >>> 1).getLsbD 8 = false) (h : s.inp.drop s.ip = []) : execDecCtrl s =
    .next (endRun { s with flags := s.flags >>> 1 }) := by
  have hn := inNext_of_drop_nil (s := { s with flags := s.flags >>> 1 }) h
  refine (if_neg (ne_true_of_eq_false hf)).trans ?_
  rw [shiftFlags, hn]

theorem execDecLit_of_drop_nil (h : s.inp.drop s.ip = []) : execDecLit s = .next (endRun s) := by
  rw [execDecLit, inNext_of_drop_nil h]

theorem execDecRef_of_drop_nil (h : s.inp.drop s.ip = []) : execDecRef s = .next (endRun s) := by
  rw [execDecRef, inNext_of_drop_nil h]

/-- R62 (d): byte 0 of a reference is consumed, byte 1 is not there. -/
theorem execDecRef_of_drop_one {b0 : Byte} (h : s.inp.drop s.ip = [b0]) :
    execDecRef s = .next (endRun { s with ip := s.ip + 1 }) := by
  have h1 := drop_one_of_drop h
  rw [execDecRef, inNext_of_drop h]
  simp only [inNext_of_drop_nil (s := { s with ip := s.ip + 1 }) h1]

/-! ## Overlap (R107) -/

theorem ringSet_self (ring : Pos → Byte) (p : Pos) : ringSet ring p (ring p) = ring := by
  funext q
  rw [ringSet]
  split
  · subst q; rfl
  · rfl

/-- R107: after the first byte of a copy from `d` positions behind the cursor, byte `k` of the rest of the repetition
stands where the rest of the copy looks for it: one period on, at the cursor, stands the byte just written. -/
theorem ringSet_periodic (ring : Pos → Byte) {src dst : Pos} {d : Nat} (hd : d = (dst - src).toNat) (k : Nat) :
    ringSet ring dst (ring src) (src + 1 + BitVec.ofNat 12 (k % d)) = ring (src + BitVec.ofNat 12 ((k + 1) % d)) := by
  have behind : dst = src + BitVec.ofNat 12 d := by
    rw [hd, BitVec.ofNat_toNat, BitVec.setWidth_eq, BitVec.add_comm, BitVec.sub_add_cancel]
  have hlt : d < 4096 := hd ▸ (dst - src).isLt
  rcases Nat.eq_zero_or_pos d with rfl | pos
  · rw [behind, BitVec.add_zero, ringSet_self, Nat.mod_zero, Nat.mod_zero, pos_add_one_add]
  · have hk := Nat.mod_lt k pos
    rw [pos_add_one_add]
    rcases Nat.lt_or_eq_of_le (show k % d + 1 ≤ d from hk) with inside | wraps
    · have hmod : (k + 1) % d = k % d + 1 := by
        rw [← Nat.mod_add_mod, Nat.mod_eq_of_lt inside]
      have other : src + BitVec.ofNat 12 (k % d + 1) ≠ dst := by
        rw [behind, Ne, BitVec.add_right_inj, ← toNat_inj, BitVec.toNat_ofNat, BitVec.toNat_ofNat]
        omega
      rw [hmod, ringSet, if_neg other]
    · have hmod : (k + 1) % d = 0 := by
        rw [← Nat.mod_add_mod, wraps, Nat.mod_self]
      rw [hmod, wraps, ← behind, ringSet, if_pos rfl, BitVec.add_zero]

/-- R107: a copy from `d` positions behind the cursor gives the bytes there, the first `d` of them over and over; from
the cursor itself (`d = 0`, and `k % 0 = k`) the bytes as they were. -/
theorem ringCopy_bytes (n : Nat) : ∀ (ring : Pos → Byte) {src dst : Pos} {d : Nat}, d = (dst - src).toNat →
    (ringCopy ring src dst n).1 = (List.range n).map fun k => ring (src + BitVec.ofNat 12 (k % d)) := by
  induction n with
  | zero => intros; rfl
  | succ n ih =>
    intro ring src dst d hd
    have hd' : d = (dst + 1 - (src + 1)).toNat := by rw [add_sub_add_right_eq_sub, hd]
    rw [ringCopy, ih _ hd', List.range_succ_eq_map, List.map_cons, List.map_map, Nat.zero_mod, BitVec.add_zero]
    refine congrArg (_ :: ·) ?_
    exact List.map_congr_left fun k _ => ringSet_periodic ring hd k

theorem ringOfText_add (s : State) (pos : Pos) (i : Nat) :
    ringOfText s (pos + BitVec.ofNat 12 i) = s.textAt ((pos.toNat + i) % 4096) := by
  rw [ringOfText, BitVec.toNat_add, BitVec.toNat_ofNat, Nat.add_mod_mod]

/-! ## The operations -/

/-- Settles O41: a literal is one byte written and read past, and DEC.LIT has a byte to read or not. -/
theorem literalIsCopied : Obligations.LiteralIsCopied := fun s hw =>
  ⟨fun c => ⟨literalToken c s, rfl, literalToken_frame c s, emitByte_textAt hw c⟩,
    fun _ hc => execDecLit_of_drop (drop_of_getElem? hc),
    fun ended => execDecLit_of_drop_nil (List.drop_eq_nil_of_le ended)⟩

/-- Settles O42: the states between the bytes are those of the shorter copies, and DEC.REF finds two bytes, one, or
none. -/
theorem referenceIsCopiedByteByByte : Obligations.ReferenceIsCopiedByteByByte := by
  refine fun s => ⟨fun pos n low high => ?_, fun pos n bad => ?_, fun b0 b1 h0 h1 => ?_, fun b0 h0 ended => ?_,
    fun ended => execDecRef_of_drop_nil (List.drop_eq_nil_of_le ended)⟩
  · refine ⟨fun k => copyBytes pos.toNat k 0 s, rfl, fun k _ => ?_, execRef_of_coded low high pos s⟩
    have last := copyBytes_succ pos.toNat k 0 s
    rw [Nat.zero_add] at last
    exact last
  · exact if_neg fun coded => by
      obtain ⟨low, high⟩ : 3 ≤ n ∧ n ≤ 18 := coded
      omega
  · have both : s.inp.drop s.ip = b0 :: b1 :: s.inp.drop (s.ip + 2) := by
      rw [drop_of_getElem? h0, drop_of_getElem? h1]
    rw [← refPos_eq_ofNat, ← refLen_eq_mod]
    exact (execDecRef_of_drop both).trans (execRef_refLen _ b1).symm
  · refine execDecRef_of_drop_one (b0 := b0) ?_
    rw [drop_of_getElem? h0, List.drop_eq_nil_of_le ended]

/-- Settles O43: byte `k` is read at `k mod d` past the source, which for `k < n <= d` and for `d = 0` is `k`. -/
theorem overlappingCopyRepeats : Obligations.OverlappingCopyRepeats := by
  intro s t pos n d hw low high hd h
  cases (execRef_of_coded low high pos s).symm.trans h
  have out : (referenceToken pos n s).out =
      s.out ++ (List.range n).map fun k => s.textAt ((pos.toNat + k % d) % 4096) := by
    rw [(referenceToken_eq_ringCopy hw pos n).1, ringCopy_bytes n _ hd]
    simp only [ringOfText_add]
  refine ⟨fun _ _ => out, fun verbatim => ?_⟩
  rw [out]
  congr 1
  refine List.map_congr_left fun k hk => ?_
  have hmod : k % d = k := by
    rcases verbatim with rfl | far
    · exact Nat.mod_zero k
    · exact Nat.mod_eq_of_lt (Nat.lt_of_lt_of_le (List.mem_range.mp hk) far)
  rw [hmod]

/-- Settles O39: the window is filled, and an unlisted byte reads as FILLER. -/
theorem decoderStartInitialises : Obligations.DecoderStartInitialises := fun s =>
  ⟨startDecoder s, rfl, rfl, fun a _ => fillWindow_textAt s a⟩

/-- Settles O40: an unconsumed bit, no byte, or a byte to load; the load is that of the control byte as a token. -/
theorem controlBitSelectsTheTokenKind : Obligations.ControlBitSelectsTheTokenKind := by
  refine fun s => ⟨execDecCtrl_of_bit, fun hf ended => execDecCtrl_of_drop_nil hf (List.drop_eq_nil_of_le ended),
    fun c hf hc => ?_, fun c => congrArg _ (controlToken_eq c s)⟩
  exact (execDecCtrl_of_drop hf (drop_of_getElem? hc)).trans (congrArg _ (controlToken_eq c _))

end Sys2Proof.Proofs
end

section
/-! A DECOMPRESS run (R109): every step of it completes, leaves less to do, and leaves the output the run will have as
it is; and how long that output can be. -/

namespace Sys2Proof.Proofs

open Sys2Proof.Machine Sys2Proof.Laws Sys2Proof.Safety

variable {s t : State} {rest : List Byte} {c : Byte}

/-! ## The control bits FLAGS holds (R104) -/

/-- R104: the control bits not yet consumed: while the shift leaves a 1 in bit 8, bit 0 is the next of them. -/
def heldBits (f : BitVec 16) : List Bool :=
  if bitsRemain (shiftFlags f) then (shiftFlags f).getLsbD 0 :: heldBits (shiftFlags f) else []
termination_by f.toNat
decreasing_by
  rename_i remain
  have pos : 0 < f.toNat := by
    refine Nat.pos_of_ne_zero fun zero => ?_
    rw [BitVec.eq_of_toNat_eq (y := 0) zero] at remain
    exact absurd remain (by decide)
  rw [shiftFlags, BitVec.toNat_ushiftRight, Nat.shiftRight_eq_div_pow]
  omega

theorem heldBits_of_remain {f : BitVec 16} (h : (f >>> 1).getLsbD 8 = true) :
    heldBits f = (f >>> 1).getLsbD 0 :: heldBits (f >>> 1) := by
  rw [heldBits]
  exact if_pos h

theorem heldBits_of_used_up {f : BitVec 16} (h : (f >>> 1).getLsbD 8 = false) : heldBits f = [] := by
  rw [heldBits]
  exact if_neg (ne_true_of_eq_false h)

theorem heldBits_loadFlags (c : Byte) : (loadFlags c).getLsbD 0 :: heldBits (loadFlags c) = controlBits c := by
  iterate 7 rw [heldBits_of_remain (by simp [loadFlags])]
  rw [heldBits_of_used_up (by simp [loadFlags])]
  simp [loadFlags, controlBits, List.range_succ]

/-! ## The output of the run (R109) -/

/-- R109: what the loop still gives from `s` on, with the control bits `bits` not yet consumed. -/
def decodeRest (s : State) (bits : List Bool) : List Byte :=
  decodeStream (ringOfText s) s.rCur bits (s.inp.drop s.ip)

/-- OUT as it will be at the end of the run: OUT now, and what the loop of R109 gives from here on. -/
def finalOut (s : State) : List Byte :=
  match s.phase with
  | .dInit => decompress s.inp
  | .dBit => s.out ++ decodeRest s (heldBits s.flags)
  | .dLit => s.out ++ decodeRest s (true :: heldBits s.flags)
  | .dRef => s.out ++ decodeRest s (false :: heldBits s.flags)
  | .idle | .eInit | .eLoad | .ePre | .eStep | .eAdv | .eFin => s.out

theorem finalOut_dBit (hp : s.phase = .dBit) : finalOut s = s.out ++ decodeRest s (heldBits s.flags) := by
  rw [finalOut, hp]

theorem finalOut_dLit (hp : s.phase = .dLit) : finalOut s = s.out ++ decodeRest s (true :: heldBits s.flags) := by
  rw [finalOut, hp]

theorem finalOut_dRef (hp : s.phase = .dRef) : finalOut s = s.out ++ decodeRest s (false :: heldBits s.flags) := by
  rw [finalOut, hp]

theorem finalOut_endRun (s : State) : finalOut (endRun s) = s.out := rfl

/-- R104: once bit 0 has selected the kind of the token, it is the next control bit. -/
theorem finalOut_tokenPhase (hp : s.phase = tokenPhase s.flags) :
    finalOut s = s.out ++ decodeRest s (s.flags.getLsbD 0 :: heldBits s.flags) := by
  rw [tokenPhase] at hp
  cases bit : s.flags.getLsbD 0 <;> rw [bit] at hp
  · exact finalOut_dRef hp
  · exact finalOut_dLit hp

/-- R103: DEC.START sets up what the loop starts with. -/
theorem finalOut_startDecoder (s : State) : finalOut (startDecoder s) = decompress s.inp := by
  have none : heldBits 0 = [] := heldBits_of_used_up (by decide)
  rw [finalOut_dBit rfl]
  show [] ++ decodeStream (fun _ => Config.filler) Config.startR (heldBits 0) s.inp = _
  rw [none]
  rfl

/-- R104: an unconsumed bit is taken. -/
theorem finalOut_of_bit (hf : (s.flags >>> 1).getLsbD 8 = true) :
    finalOut { s with flags := s.flags >>> 1, phase := tokenPhase (s.flags >>> 1) } =
      s.out ++ decodeRest s (heldBits s.flags) := by
  rw [finalOut_tokenPhase rfl, heldBits_of_remain hf]
  rfl

/-- R104: a control byte is taken. -/
theorem finalOut_controlToken (hf : (s.flags >>> 1).getLsbD 8 = false) (h : s.inp.drop s.ip = c :: rest) :
    finalOut (controlToken c { s with flags := s.flags >>> 1, ip := s.ip + 1 }) =
      s.out ++ decodeRest s (heldBits s.flags) := by
  have later := drop_one_of_drop h
  rw [finalOut_tokenPhase rfl, heldBits_of_used_up hf]
  show s.out ++ decodeStream (ringOfText s) s.rCur ((loadFlags c).getLsbD 0 :: heldBits (loadFlags c))
    (s.inp.drop (s.ip + 1)) = _
  rw [heldBits_loadFlags, later, decodeRest, h, decodeStream]

/-- R105: a literal is taken. -/
theorem finalOut_literalToken (hw : s.memWf = true) (h : s.inp.drop s.ip = c :: rest) :
    finalOut (literalToken c { s with ip := s.ip + 1 }) = s.out ++ decodeRest s (true :: heldBits s.flags) := by
  have later := drop_one_of_drop h
  have ring := ringOfText_literalToken (s := { s with ip := s.ip + 1 }) hw c
  rw [finalOut_dBit rfl, decodeRest, ring, literalToken_frame]
  show (s.out ++ [c]) ++ decodeStream (ringSet (ringOfText s) s.rCur c) (s.rCur + 1) (heldBits s.flags)
    (s.inp.drop (s.ip + 1)) = _
  rw [later, decodeRest, h, decodeStream, List.append_assoc, List.singleton_append]

/-- R106: a reference is taken. -/
theorem finalOut_referenceToken {b0 b1 : Byte} (hw : s.memWf = true) (h : s.inp.drop s.ip = b0 :: b1 :: rest) :
    finalOut (referenceToken (refPos b0 b1) (refLen b1) { s with ip := s.ip + 2 }) =
      s.out ++ decodeRest s (false :: heldBits s.flags) := by
  have later := drop_two_of_drop h
  obtain ⟨out, ring⟩ :=
    referenceToken_eq_ringCopy (s := { s with ip := s.ip + 2 }) hw (refPos b0 b1) (refLen b1)
  rw [finalOut_dBit rfl, decodeRest, ring, out, referenceToken_frame]
  show (s.out ++ (ringCopy (ringOfText s) (refPos b0 b1) s.rCur (refLen b1)).1) ++
    decodeStream (ringCopy (ringOfText s) (refPos b0 b1) s.rCur (refLen b1)).2 (s.rCur + BitVec.ofNat 12 (refLen b1))
      (heldBits s.flags) (s.inp.drop (s.ip + 2)) = _
  rw [later, decodeRest, h, decodeStream, List.append_assoc]

/-! ## Progress -/

/-- A state of a DECOMPRESS run, its end included. -/
structure Decompressing (s : State) : Prop where
  no_ops : s.ops = []
  no_cmd : s.cmd = 0
  mem_wf : s.memWf = true
  control : Control s
  phase : phaseMode s.phase = .dec ∨ (s.phase = .idle ∧ s.done = true)

/-- What is left to do in a DECOMPRESS run: a step reads a byte of the input, or it takes a control bit for a token that
reads one, or it ends the run. -/
def decodeWork (s : State) : Nat :=
  match s.phase with
  | .dInit => 2 * s.inp.length + 3
  | .dBit => 2 * (s.inp.drop s.ip).length + 2
  | .dLit | .dRef => 2 * (s.inp.drop s.ip).length + 1
  | .idle | .eInit | .eLoad | .ePre | .eStep | .eAdv | .eFin => 0

/-- The next step of a DECOMPRESS run completes, leaves less to do, and leaves the output to come as it is. -/
def DecodesOn (s : State) : Prop :=
  ∃ t, step s = .next t ∧ Decompressing t ∧ finalOut t = finalOut s ∧ decodeWork t < decodeWork s

theorem decodeWork_dBit (hp : s.phase = .dBit) : decodeWork s = 2 * (s.inp.drop s.ip).length + 2 := by
  rw [decodeWork, hp]

theorem decodeWork_dLit (hp : s.phase = .dLit) : decodeWork s = 2 * (s.inp.drop s.ip).length + 1 := by
  rw [decodeWork, hp]

theorem decodeWork_dRef (hp : s.phase = .dRef) : decodeWork s = 2 * (s.inp.drop s.ip).length + 1 := by
  rw [decodeWork, hp]

theorem tokenPhase_cases (f : BitVec 16) : tokenPhase f = .dLit ∨ tokenPhase f = .dRef := ite_eq_or_eq _ _ _

theorem decodeWork_tokenPhase (hp : s.phase = tokenPhase s.flags) :
    decodeWork s = 2 * (s.inp.drop s.ip).length + 1 :=
  (tokenPhase_cases s.flags).elim (fun lit => decodeWork_dLit (hp.trans lit)) fun ref => decodeWork_dRef (hp.trans ref)

theorem phaseMode_tokenPhase (f : BitVec 16) : phaseMode (tokenPhase f) = .dec := by
  rcases tokenPhase_cases f with h | h <;> rw [h] <;> rfl

theorem ne_idle_of_dec {p : Phase} (h : phaseMode p = .dec) : p ≠ .idle := by
  rintro rfl
  cases h

section
variable (h : Decompressing s)
include h

/-- R65: a step of the run performs the operation PHASE names. -/
theorem Decompressing.step_eq {i : Instr} (hf : fetchPhase s = .run i s) : step s = exec i s :=
  step_of_phase h.no_ops h.no_cmd hf

/-- A step inside the run. -/
theorem Decompressing.goes_on (hs : phaseMode s.phase = .dec) (hstep : step s = .next t) (ht : phaseMode t.phase = .dec)
    (same : SameControl s t) (out : finalOut t = finalOut s) (less : decodeWork t < decodeWork s) : DecodesOn s := by
  obtain ⟨hops, hcmd, hmode, hbusy, hdone⟩ := same
  refine ⟨t, hstep, ⟨hops.trans h.no_ops, hcmd.trans h.no_cmd, step_memWf h.mem_wf hstep, ⟨?_, ?_, ?_⟩, .inl ht⟩, out,
    less⟩
  · rw [hmode, h.control.mode_eq, hs, ht]
  · rw [hbusy]
    exact iff_of_true (h.control.busy_iff.mpr (ne_idle_of_dec hs)) (ne_idle_of_dec ht)
  · rw [hbusy, hdone]
    exact h.control.not_both

/-- R108: the last step of the run. -/
theorem Decompressing.ended {u : State} (hstep : step s = .next (endRun u)) (ports : u.ops = s.ops ∧ u.cmd = s.cmd)
    (out : u.out = finalOut s) (work : 0 < decodeWork s) : DecodesOn s :=
  ⟨endRun u, hstep, ⟨ports.1.trans h.no_ops, ports.2.trans h.no_cmd, step_memWf h.mem_wf hstep, control_endRun u,
    .inr ⟨rfl, rfl⟩⟩, out, work⟩

/-- R103: DEC.START. -/
theorem Decompressing.start (hp : s.phase = .dInit) : DecodesOn s := by
  have hstep := h.step_eq (i := .decStart) (by rw [fetchPhase, hp])
  refine h.goes_on (t := startDecoder s) (by rw [hp]; rfl) hstep rfl ⟨rfl, rfl, rfl, rfl, rfl⟩ ?_ ?_
  · rw [finalOut_startDecoder, finalOut, hp]
  · rw [decodeWork, decodeWork, hp]
    exact Nat.lt_succ_self _

/-- R104: DEC.CTRL. -/
theorem Decompressing.bit (hp : s.phase = .dBit) : DecodesOn s := by
  have hstep := h.step_eq (i := .decCtrl) (by rw [fetchPhase, hp])
  have hs : phaseMode s.phase = .dec := by rw [hp]; rfl
  have work := decodeWork_dBit hp
  have out := finalOut_dBit hp
  cases hf : (s.flags >>> 1).getLsbD 8 with
  | true =>
    refine h.goes_on hs (hstep.trans (execDecCtrl_of_bit hf)) (phaseMode_tokenPhase _) ⟨rfl, rfl, rfl, rfl, rfl⟩
      ((finalOut_of_bit hf).trans out.symm) ?_
    rw [work, decodeWork_tokenPhase rfl]
    exact Nat.lt_succ_self _
  | false =>
    cases left : s.inp.drop s.ip with
    | nil =>
      refine h.ended (hstep.trans (execDecCtrl_of_drop_nil hf left)) ⟨rfl, rfl⟩ ?_ (by omega)
      rw [out, decodeRest, left, heldBits_of_used_up hf, decodeStream, List.append_nil]
    | cons c rest =>
      have later := drop_one_of_drop left
      refine h.goes_on hs (hstep.trans (execDecCtrl_of_drop hf left)) (phaseMode_tokenPhase _)
        ⟨rfl, rfl, rfl, rfl, rfl⟩ ((finalOut_controlToken hf left).trans out.symm) ?_
      rw [work, left, decodeWork_tokenPhase rfl]
      show 2 * (s.inp.drop (s.ip + 1)).length + 1 < 2 * (rest.length + 1) + 2
      rw [later]
      omega

/-- R105: DEC.LIT. -/
theorem Decompressing.literal (hp : s.phase = .dLit) : DecodesOn s := by
  have hstep := h.step_eq (i := .decLit) (by rw [fetchPhase, hp])
  have work := decodeWork_dLit hp
  have out := finalOut_dLit hp
  cases left : s.inp.drop s.ip with
  | nil =>
    refine h.ended (hstep.trans (execDecLit_of_drop_nil left)) ⟨rfl, rfl⟩ ?_ (by omega)
    rw [out, decodeRest, left, decodeStream, List.append_nil]
  | cons c rest =>
    have later := drop_one_of_drop left
    refine h.goes_on (by rw [hp]; rfl) (hstep.trans (execDecLit_of_drop left)) rfl ?_
      ((finalOut_literalToken h.mem_wf left).trans out.symm) ?_
    · rw [literalToken_frame]
      exact ⟨rfl, rfl, rfl, rfl, rfl⟩
    · rw [work, left, decodeWork_dBit rfl, literalToken_frame]
      show 2 * (s.inp.drop (s.ip + 1)).length + 2 < 2 * (rest.length + 1) + 1
      rw [later]
      omega

/-- R106: DEC.REF. -/
theorem Decompressing.reference (hp : s.phase = .dRef) : DecodesOn s := by
  have hstep := h.step_eq (i := .decRef) (by rw [fetchPhase, hp])
  have work := decodeWork_dRef hp
  have out := finalOut_dRef hp
  match left : s.inp.drop s.ip with
  | [] =>
    refine h.ended (hstep.trans (execDecRef_of_drop_nil left)) ⟨rfl, rfl⟩ ?_ (by omega)
    rw [out, decodeRest, left, decodeStream, List.append_nil]
  | [b0] =>
    refine h.ended (hstep.trans (execDecRef_of_drop_one left)) ⟨rfl, rfl⟩ ?_ (by omega)
    rw [out, decodeRest, left, decodeStream, List.append_nil]
  | b0 :: b1 :: rest =>
    have later := drop_two_of_drop left
    refine h.goes_on (by rw [hp]; rfl) (hstep.trans (execDecRef_of_drop left)) rfl ?_
      ((finalOut_referenceToken h.mem_wf left).trans out.symm) ?_
    · rw [referenceToken_frame]
      exact ⟨rfl, rfl, rfl, rfl, rfl⟩
    · rw [work, left, decodeWork_dBit rfl, referenceToken_frame]
      show 2 * (s.inp.drop (s.ip + 2)).length + 2 < 2 * (rest.length + 2) + 1
      rw [later]
      omega

/-- R109: every step of a DECOMPRESS run before its end. -/
theorem Decompressing.decodes_on (hne : s.phase ≠ .idle) : DecodesOn s := by
  have dec : phaseMode s.phase = .dec := h.phase.resolve_right fun ended => hne ended.1
  cases hp : s.phase with
  | idle => exact absurd hp hne
  | dInit => exact h.start hp
  | dBit => exact h.bit hp
  | dLit => exact h.literal hp
  | dRef => exact h.reference hp
  | eInit | eLoad | ePre | eStep | eAdv | eFin => rw [hp] at dec; cases dec

/-- R112: after its end the block waits, and changes nothing. -/
theorem Decompressing.preserved (ht : step s = .next t) : Decompressing t ∧ finalOut t = finalOut s := by
  by_cases hp : s.phase = .idle
  · have stay := (stepPerformsTheOperationOfPhase s h.no_ops h.no_cmd).1 hp
    cases stay.symm.trans ht
    exact ⟨h, rfl⟩
  · obtain ⟨t', ht', next, out, -⟩ := h.decodes_on hp
    cases ht'.symm.trans ht
    exact ⟨next, out⟩

end

/-! ## Runs -/

/-- R109, R134: the work left falls with every step, so the run ends. -/
theorem Decompressing.ends (h : Decompressing s) : ∃ k t, core.run k s = .next t ∧ t.phase = .idle ∧ t.cmd = 0 := by
  induction hn : decodeWork s using Nat.strong_induction_on generalizing s with
  | _ n ih =>
    by_cases hp : s.phase = .idle
    · exact ⟨0, s, rfl, hp, h.no_cmd⟩
    · obtain ⟨t, ht, next, -, less⟩ := h.decodes_on hp
      obtain ⟨k, u, hk, hu⟩ := ih _ (hn ▸ less) next rfl
      exact ⟨k + 1, u, run_succ_eq_next.mpr ⟨t, ht, hk⟩, hu⟩

/-- The first state of a DECOMPRESS run of `input` (R114): the command is consumed. -/
def decompressStart (input : List Byte) (s : State) : State :=
  { s with inp := input, mode := .dec, busy := true, done := false, phase := .dInit }

/-- R112: an idle block takes the command and the input that the host presents. -/
theorem hostPresent_of_idle (h : Idle s) (command : BitVec 2) (input : List Byte) :
    s.hostPresent command input = { s with cmd := command, inp := input } := by
  have hbusy : ¬ s.busy = true := by
    rw [h.control.busy_iff]
    exact not_not_intro h.phase_eq
  exact if_neg hbusy

/-- R112, R114: presented to an idle block, DECOMPRESS starts a run. -/
theorem step_hostPresent_decompress (h : Idle s) (input : List Byte) :
    step (s.hostPresent 2 input) = .next (decompressStart input s) := by
  have consumed : { decompressStart input s with cmd := 0 } = decompressStart input s := by
    rw [← h.no_cmd]
    rfl
  rw [hostPresent_of_idle h, ← consumed]
  exact (step_of_cmd (s := { s with cmd := 2, inp := input }) (i := .decompress) (rest := []) h.no_ops
    (show (2 : BitVec 2) ≠ 0 by decide) rfl).trans (congrArg Host.Outcome.next (if_pos h.phase_eq))

theorem decompressing_decompressStart (h : Idle s) (input : List Byte) : Decompressing (decompressStart input s) where
  no_ops := h.no_ops
  no_cmd := h.no_cmd
  mem_wf := h.mem_wf
  control := ⟨rfl, iff_of_true rfl Phase.noConfusion, fun ⟨_, hd⟩ => Bool.false_ne_true hd⟩
  phase := .inl rfl

/-- A DECOMPRESS run ends only after its first step, in a state of the run, with the output it began with. -/
theorem decompressing_of_ends {input : List Byte} (h : Idle s) (ht : Ends 2 input s t) :
    Decompressing t ∧ t.out = decompress input := by
  obtain ⟨k, hk, hp, hcmd⟩ := ht
  cases k with
  | zero =>
    rw [hostPresent_of_idle h] at hk
    cases hk
    exact absurd hcmd (show (2 : BitVec 2) ≠ 0 by decide)
  | succ k =>
    obtain ⟨u, hu, hk⟩ := run_succ_eq_next.mp hk
    cases (step_hostPresent_decompress h input).symm.trans hu
    have keep : ∀ s t, Decompressing s ∧ finalOut s = decompress input → step s = .next t →
        Decompressing t ∧ finalOut t = decompress input := fun _ _ ⟨run, out⟩ ht =>
      ⟨(run.preserved ht).1, (run.preserved ht).2.trans out⟩
    obtain ⟨ended, out⟩ := run_keeps keep k ⟨decompressing_decompressStart h input, rfl⟩ hk
    rw [finalOut, hp] at out
    exact ⟨ended, out⟩

/-- Settles O54: every step leaves the output to come as it is, which is the value of the loop before DEC.START and OUT
at the end, and leaves less to do. -/
theorem decompressComputesTheRule : Obligations.DecompressComputesTheRule := by
  refine fun s input h => ⟨?_, fun t ht => ?_⟩
  · obtain ⟨k, t, hk, hend⟩ := (decompressing_decompressStart h input).ends
    exact ⟨t, k + 1, run_succ_eq_next.mpr ⟨_, step_hostPresent_decompress h input, hk⟩, hend⟩
  · obtain ⟨ended, out⟩ := decompressing_of_ends h ht
    obtain ⟨-, -, hp, hcmd⟩ := ht
    have done : t.done = true := ended.phase.elim (fun dec => absurd hp (ne_idle_of_dec dec)) And.right
    exact ⟨out, done, hp, ended.no_ops, hcmd, ended.mem_wf, ended.control⟩

/-! ## The length of the output (R109) -/

theorem ringCopy_length (n : Nat) : ∀ (ring : Pos → Byte) (src dst : Pos), (ringCopy ring src dst n).1.length = n := by
  induction n with
  | zero => intros; rfl
  | succ n ih => intro ring src dst; rw [ringCopy, List.length_cons, ih]

/-- R109: a control byte gives nothing, a literal gives one byte for one, and a reference at most 18 for two. -/
theorem decodeStream_length_le (ring : Pos → Byte) (r : Pos) (bits : List Bool) (input : List Byte) :
    (decodeStream ring r bits input).length ≤ 9 * input.length := by
  fun_induction decodeStream ring r bits input with
  | case1 | case3 | case5 | case6 => exact Nat.zero_le _
  | case2 ring r c input ih =>
    rw [List.length_cons]
    omega
  | case4 ring r bits c input ih =>
    rw [List.length_cons, List.length_cons]
    omega
  | case7 ring r bits b0 b1 input ih =>
    have high : refLen b1 ≤ 18 := (codedLen_refLen b1).2
    rw [List.length_append, ringCopy_length, List.length_cons, List.length_cons]
    omega

/-- R109: the first byte of a stream is a control byte, which gives nothing. -/
theorem decompress_length_lt {input : List Byte} (h : input ≠ []) : (decompress input).length < 9 * input.length := by
  obtain ⟨c, rest, rfl⟩ := List.exists_cons_of_ne_nil h
  have le := decodeStream_length_le (fun _ => Config.filler) Config.startR (controlBits c) rest
  rw [decompress, decodeStream, List.length_cons]
  omega

/-- Settles O55: OUT is the value of the loop, whose length has the bound. -/
theorem decompressOutputIsBounded : Obligations.DecompressOutputIsBounded := by
  intro s t input h hne ht
  rw [(decompressing_of_ends h ht).2]
  exact decompress_length_lt hne

end Sys2Proof.Proofs
end

section
/-! The states two COMPRESS runs on one input are in (R152): what START leaves unspecified (R31, R150) stays the only
difference between them through every operation of the encoder. -/

namespace Sys2Proof.Proofs

open Sys2Proof.Machine Sys2Proof.Laws Sys2Proof.Safety

variable {s s' t t' : State} {f : Byte → Shape} {r r' p p' : Pos} {b : Byte}

/-! ## The match a search path leaves (R80) -/

theorem visited_congr (text : ∀ a, s'.textAt a = s.textAt a) (r : Pos) (shape : Shape) :
    visited s' r shape = visited s r shape := by
  induction shape with
  | leaf => rfl
  | node l p u ihl ihr => rw [visited, visited, compareKeys_congr text, ihl, ihr]

theorem insertForest_congr (text : ∀ a, s'.textAt a = s.textAt a) (r : Pos) (f : Byte → Shape) :
    insertForest s' r f = insertForest s r f := by
  funext c
  rw [insertForest, insertForest, text, insertKey_congr text]

/-- R80: the node reported is the first on the path with the length reported. -/
theorem ReportsFirst.find {path : List Pos} (h : ReportsFirst s r path t) :
    path.find? (fun q => (compareKeys s r q).1 == t.matchLen.toNat) = some t.matchPos := by
  obtain ⟨before, after, hpath, attained, lower⟩ := h
  refine List.find?_eq_some_iff_append.mpr ⟨beq_iff_eq.mpr attained, before, after, hpath, fun q hq => ?_⟩
  rw [Bool.not_eq_true', beq_eq_false_iff_ne]
  exact Nat.ne_of_lt (lower q hq)

/-- R80: TEXT and the path fix MATCH_LEN, and MATCH_POS where the path has a node. -/
theorem MatchOf.unique {path : List Pos} (text : ∀ a, s'.textAt a = s.textAt a) (h : MatchOf s r path t)
    (h' : MatchOf s' r path t') : t'.matchLen = t.matchLen ∧ (1 ≤ t.matchLen.toNat → t'.matchPos = t.matchPos) := by
  have longest := h.longest
  have longest' := h'.longest
  simp only [compareKeys_congr text] at longest'
  rcases eq_or_ne path [] with empty | visits
  · have zero := (h.no_node empty).1
    exact ⟨(h'.no_node empty).1.trans zero.symm, fun low => absurd low (by rw [zero]; decide)⟩
  · obtain ⟨low, first⟩ := h.first visits
    obtain ⟨low', first'⟩ := h'.first visits
    obtain ⟨mem, attained⟩ := h.attained low
    obtain ⟨mem', attained'⟩ := h'.attained low'
    rw [compareKeys_congr text] at attained'
    have len : t'.matchLen = t.matchLen := by
      have le := longest _ mem'
      have ge := longest' _ mem
      exact BitVec.eq_of_toNat_eq (by omega)
    have found' := first'.find
    simp only [compareKeys_congr text, len] at found'
    exact ⟨len, fun _ => Option.some.inj (found'.symm.trans first.find)⟩

/-! ## States of two runs -/

/-- R31, R150: `s` with what ENC.START leaves unspecified, and what only a comparison writes, as it is in `s'`: the
links, the group buffer, MATCH_POS, CMP, the decoder's FLAGS and the model's own RET (log 4). -/
abbrev withUnspecified (s' s : State) : State :=
  { s with left := s'.left, right := s'.right, parent := s'.parent, codebuf := s'.codebuf, matchPos := s'.matchPos,
           cmp := s'.cmp, flags := s'.flags, ret := s'.ret }

/-- R31, R150: every other register, TEXT and the streams are equal. -/
def SameRegisters (s s' : State) : Prop := s' = withUnspecified s' s

/-- R152: states at one point of two COMPRESS runs on one input. The links form the same trees, the group holds the same
bytes below CODEPTR, and MATCH_POS is the same where a token would carry it. -/
structure Alike (s s' : State) : Prop where
  registers : SameRegisters s s'
  trees : ∃ f, Forest s f ∧ Forest s' f
  group : ∀ a, a = 0 ∨ a < s.codePtr.toNat → s'.codeAt a = s.codeAt a
  match_pos : 2 < s.matchLen.toNat → s'.matchPos = s.matchPos
  mem_wf : s.memWf = true ∧ s'.memWf = true

theorem Alike.textAt (h : Alike s s') (a : Nat) : s'.textAt a = s.textAt a := by
  rw [h.registers]
  rfl

theorem forest_of_sameLinks (hf : Forest s f) (same : SameLinks s t) : Forest t f := by
  obtain ⟨hl, hr, hp⟩ := same
  exact forest_congr hf (fun _ _ => congrArg (Memory.read unlistedLink · _) hl)
    (fun _ _ => congrArg (Memory.read unlistedLink · _) hr) (fun _ => congrArg (Memory.read unlistedLink · _) hr)
    (fun _ => congrArg (Memory.read unlistedLink · _) hp)

theorem forest_of_emptyIndex (h : EmptyIndex s) : Forest s fun _ => .leaf :=
  ⟨h.roots, fun _ => List.nodup_nil, fun _ _ _ hp => absurd hp List.not_mem_nil,
    fun p => iff_of_false (not_not_intro (h.parents p)) fun ⟨_, hp⟩ => absurd hp List.not_mem_nil⟩

/-! ### Registers alone -/

/-- From `s` to `t` the links, the group and MATCH_POS stay, and no match becomes long enough for a reference. -/
structure Carries (s t : State) : Prop where
  links : SameLinks s t
  code : t.codebuf = s.codebuf
  code_ptr : t.codePtr = s.codePtr
  match_pos : t.matchPos = s.matchPos
  match_len : 2 < t.matchLen.toNat → 2 < s.matchLen.toNat
  mem_wf : s.memWf = true → t.memWf = true

theorem Alike.carried (h : Alike s s') (registers : SameRegisters t t') (step : Carries s t) (step' : Carries s' t') :
    Alike t t' where
  registers := registers
  trees := h.trees.imp fun _ ⟨hf, hf'⟩ => ⟨forest_of_sameLinks hf step.links, forest_of_sameLinks hf' step'.links⟩
  group a ha := by
    rw [State.codeAt, State.codeAt, step.code, step'.code]
    exact h.group a (by rwa [← step.code_ptr])
  match_pos long := by
    rw [step.match_pos, step'.match_pos]
    exact h.match_pos (step.match_len long)
  mem_wf := ⟨step.mem_wf h.mem_wf.1, step'.mem_wf h.mem_wf.2⟩

/-- A change of registers that is the same function in both runs. -/
theorem Alike.update (h : Alike s s') (g : State → State)
    (carries : ∀ u, Carries u (g u) := by exact fun _ => ⟨⟨rfl, rfl, rfl⟩, rfl, rfl, rfl, id, id⟩)
    (registers : g (withUnspecified s' s) = withUnspecified (g s') (g s) := by rfl) : Alike (g s) (g s') :=
  h.carried ((congrArg g h.registers).trans registers) (carries s) (carries s')

/-! ### The Match Index -/

/-- The operations of the Match Index keep the registers alike where they leave the same MATCH_LEN. -/
theorem Alike.indexed (h : Alike s s') (step : IndexStep s t) (step' : IndexStep s' t')
    (len : t'.matchLen = t.matchLen) (pos : 2 < t.matchLen.toNat → t'.matchPos = t.matchPos)
    (trees : ∃ f, Forest t f ∧ Forest t' f) : Alike t t' where
  registers := by
    rw [SameRegisters, step'.only, len, h.registers, step.only]
  trees := trees
  group a ha := by
    rw [State.codeAt, State.codeAt, step.only, step'.only]
    exact h.group a (by rwa [step.only] at ha)
  match_pos := pos
  mem_wf := ⟨step.mem_wf h.mem_wf.1, step'.mem_wf h.mem_wf.2⟩

theorem not_node_of_insertNode (h : insertNode r s = .ok t) : ¬ IsNode s r := fun node => by
  rw [insertNode_of_node node] at h
  cases h

/-- R80, R81: the trees and TEXT fix what IDX.INSERT makes of the trees and the match. -/
theorem Alike.insert (h : Alike s s') (same : r = r') (ht : insertNode r s = .ok t) (ht' : insertNode r' s' = .ok t') :
    Alike t t' := by
  subst same
  obtain ⟨f, hf, hf'⟩ := h.trees
  obtain ⟨hw, hw'⟩ := h.mem_wf
  have free := not_node_of_insertNode ht
  have free' := not_node_of_insertNode ht'
  have left := insertNode_match hw hf free ht
  have right := insertNode_match hw' hf' free' ht'
  rw [visited_congr h.textAt, h.textAt] at right
  obtain ⟨len, pos⟩ := left.unique h.textAt right
  obtain ⟨u, hu, -, -, -, forest, -⟩ := insertNode_spec hw hf free
  obtain ⟨u', hu', -, -, -, forest', -⟩ := insertNode_spec hw' hf' free'
  rw [insertForest_congr h.textAt] at forest'
  cases hu.symm.trans ht
  cases hu'.symm.trans ht'
  exact h.indexed (insertNode_step ht) (insertNode_step ht') len (fun long => pos (by omega)) ⟨_, forest, forest'⟩

/-- R83: IDX.DELETE takes the same node out of the same tree. -/
theorem Alike.delete (h : Alike s s') (same : p = p') (ht : deleteNode p s = .ok t) (ht' : deleteNode p' s' = .ok t') :
    Alike t t' := by
  subst same
  obtain ⟨f, hf, hf'⟩ := h.trees
  obtain ⟨hw, hw'⟩ := h.mem_wf
  by_cases node : IsNode s p
  · obtain ⟨b, hb⟩ := (hf.node_iff p).mp node
    obtain ⟨u, hu, -, only, forest, -⟩ := deleteNode_spec hw hf hb
    obtain ⟨u', hu', -, only', forest', -⟩ := deleteNode_spec hw' hf' hb
    cases hu.symm.trans ht
    cases hu'.symm.trans ht'
    have len : t.matchLen = s.matchLen := by rw [only]
    have pos : t.matchPos = s.matchPos := by rw [only]
    refine h.indexed (.of_links (deleteNode_step ht)) (.of_links (deleteNode_step ht')) ?_ (fun long => ?_)
      ⟨_, forest, forest'⟩
    · rw [len, only', h.registers]
    · rw [len] at long
      rw [pos, only']
      exact h.match_pos long
  · have node' : ¬ IsNode s' p := by rwa [IsNode, hf'.node_iff, ← hf.node_iff]
    cases (deleteNode_of_not_node node).symm.trans ht
    cases (deleteNode_of_not_node node').symm.trans ht'
    exact h

/-- R95: the loop of ENC.PREINSERT. -/
theorem Alike.insertBack (n : Nat) : ∀ {i : Nat} {s s' : State}, Alike s s' → insertBack n i s = .ok t →
    insertBack n i s' = .ok t' → Alike t t' := by
  induction n with
  | zero =>
    intro i s s' h ht ht'
    cases ht
    cases ht'
    exact h
  | succ n ih =>
    intro i s s' h ht ht'
    obtain ⟨u, hu, ht⟩ := bind_eq_ok.mp ht
    obtain ⟨u', hu', ht'⟩ := bind_eq_ok.mp ht'
    exact ih (h.insert (by rw [h.registers]) hu hu') ht ht'

/-! ### The token encoder (R87 to R91) -/

/-- The token encoder keeps the registers alike where it writes the same MASK, CODEPTR and OUT. -/
theorem Alike.packed (h : Alike s s') (step : TokenStep s t) (step' : TokenStep s' t')
    (same : t'.codePtr = t.codePtr ∧ t'.mask = t.mask ∧ t'.out = t.out)
    (group : ∀ a, a = 0 ∨ a < t.codePtr.toNat → t'.codeAt a = t.codeAt a) : Alike t t' where
  registers := by
    obtain ⟨ptr, mask, out⟩ := same
    rw [SameRegisters, step'.only, ptr, mask, out, h.registers, step.only]
  trees := by
    rw [step.only, step'.only]
    exact h.trees.imp fun _ ⟨hf, hf'⟩ =>
      ⟨forest_of_sameLinks hf ⟨rfl, rfl, rfl⟩, forest_of_sameLinks hf' ⟨rfl, rfl, rfl⟩⟩
  group := group
  match_pos long := by
    rw [step.only] at long
    rw [step.only, step'.only]
    exact h.match_pos long
  mem_wf := ⟨step.mem_wf h.mem_wf.1, step'.mem_wf h.mem_wf.2⟩

/-- `CODEBUF[0] <- v`. -/
theorem Alike.setControl (h : Alike s s') (v : Byte) : Alike (s.setCode 0 v) (s'.setCode 0 v) := by
  have first : writeCode 0 v s = .ok (s.setCode 0 v) := writeCode_of_lt (by decide) v
  have first' : writeCode 0 v s' = .ok (s'.setCode 0 v) := writeCode_of_lt (by decide) v
  refine h.packed (writeCode_step first) (writeCode_step first') ?_ fun a ha => ?_
  · rw [h.registers]
    exact ⟨rfl, rfl, rfl⟩
  · rw [codeAt_setCode h.mem_wf.1, codeAt_setCode h.mem_wf.2, h.group a ha]

/-- `CODEBUF[CODEPTR] <- b; CODEPTR <- CODEPTR + 1` (R88, R89). -/
def pushCode (b : Byte) (s : State) : State := { s.setCode s.codePtr.toNat b with codePtr := s.codePtr + 1 }

theorem pushCode_step (hp : s.codePtr.toNat ≤ 16) (b : Byte) : TokenStep s (pushCode b s) :=
  (writeCode_step (writeCode_of_lt (by omega) b)).trans ⟨rfl, id⟩

theorem pushCode_codeAt (hw : s.memWf = true) (b : Byte) (a : Nat) :
    (pushCode b s).codeAt a = if a = s.codePtr.toNat then b else s.codeAt a := codeAt_setCode hw _ b a

theorem pushCode_codePtr (hp : s.codePtr.toNat ≤ 16) (b : Byte) :
    (pushCode b s).codePtr.toNat = s.codePtr.toNat + 1 :=
  BitVec.toNat_add_of_lt (Nat.lt_of_le_of_lt (Nat.succ_le_succ hp) (by decide))

theorem Alike.codePtr (h : Alike s s') : s'.codePtr = s.codePtr := by rw [h.registers]

theorem Alike.push (h : Alike s s') (hp : s.codePtr.toNat ≤ 16) (b : Byte) : Alike (pushCode b s) (pushCode b s') := by
  refine h.packed (pushCode_step hp b) (pushCode_step (h.codePtr ▸ hp) b) ?_ fun a ha => ?_
  · rw [h.registers]
    exact ⟨rfl, rfl, rfl⟩
  · rw [pushCode_codePtr hp] at ha
    rw [pushCode_codeAt h.mem_wf.1, pushCode_codeAt h.mem_wf.2, h.codePtr]
    split
    · rfl
    · exact h.group a (by omega)

theorem packLiteral_eq_ok : packLiteral b s = .ok t ↔
    s.codePtr.toNat ≤ 16 ∧ pushCode b (s.setCode 0 (s.codeAt 0 ||| s.mask)) = t := by
  rcases Nat.lt_or_ge 16 s.codePtr.toNat with full | room
  · rw [packLiteral_of_gt full]
    exact iff_of_false (fun h => by cases h) fun h => absurd h.1 (Nat.not_le.mpr full)
  · rw [packLiteral_of_le room, Except.ok.injEq, and_iff_right room]
    rfl

/-- R88: both groups take the literal at the same place. -/
theorem Alike.packLiteral (h : Alike s s') (ht : packLiteral b s = .ok t) (ht' : packLiteral b s' = .ok t') :
    Alike t t' := by
  obtain ⟨room, rfl⟩ := packLiteral_eq_ok.mp ht
  obtain ⟨-, rfl⟩ := packLiteral_eq_ok.mp ht'
  rw [h.group 0 (.inl rfl), show s'.mask = s.mask by rw [h.registers]]
  exact (h.setControl _).push room b

theorem packReference_eq_ok {pos : Pos} {len : Nat} : packReference pos len s = .ok t ↔
    codedLen len ∧ s.codePtr.toNat ≤ 15 ∧ pushCode (refByte1 pos len) (pushCode (refByte0 pos) s) = t := by
  by_cases coded : codedLen len
  · rw [and_iff_right coded]
    rcases Nat.lt_or_ge 15 s.codePtr.toNat with full | room
    · obtain ⟨a, -, refused⟩ := packReference_of_gt (pos := pos) coded full
      rw [refused]
      exact iff_of_false (fun h => by cases h) fun h => absurd h.1 (Nat.not_le.mpr full)
    · have second : pushCode (refByte1 pos len) (pushCode (refByte0 pos) s) =
          { (s.setCode s.codePtr.toNat (refByte0 pos)).setCode (s.codePtr.toNat + 1) (refByte1 pos len) with
            codePtr := s.codePtr + 2 } := by
        rw [pushCode, pushCode_codePtr (by omega), pushCode, BitVec.add_assoc]
        rfl
      rw [packReference_of_le coded room, Except.ok.injEq, and_iff_right room, second]
  · rw [packReference_of_not_coded coded]
    exact iff_of_false (fun h => by cases h) fun h => coded h.1

/-- R89: both groups take the two bytes of the reference at the same place. -/
theorem Alike.packReference {pos : Pos} {len : Nat} (h : Alike s s') (ht : packReference pos len s = .ok t)
    (ht' : packReference pos len s' = .ok t') : Alike t t' := by
  obtain ⟨-, room, rfl⟩ := packReference_eq_ok.mp ht
  obtain ⟨-, -, rfl⟩ := packReference_eq_ok.mp ht'
  exact (h.push (by omega) _).push (by rw [pushCode_codePtr (by omega)]; omega) _

/-- R90, R91: the bytes of the group that goes to OUT. -/
theorem Alike.bytes (h : Alike s s') :
    (List.range s'.codePtr.toNat).map s'.codeAt = (List.range s.codePtr.toNat).map s.codeAt := by
  rw [h.codePtr]
  exact List.map_congr_left fun a ha => h.group a (.inr (List.mem_range.mp ha))

theorem Alike.appendAll (h : Alike s s') (bs : List Byte) : Alike (appendAll bs s) (appendAll bs s') :=
  h.update (Machine.appendAll bs)

theorem Alike.resetGroup (h : Alike s s') : Alike (resetGroup s) (resetGroup s') := by
  refine h.packed (resetGroup_step s) (resetGroup_step s') ⟨rfl, rfl, by rw [h.registers]; rfl⟩ fun a ha => ?_
  have first : a = 0 := ha.elim id Nat.lt_one_iff.mp
  rw [resetGroup_codeAt h.mem_wf.1, resetGroup_codeAt h.mem_wf.2, if_pos first, if_pos first]

/-- R90: both slots are closed, or both groups go to OUT. -/
theorem Alike.closeToken (h : Alike s s') (ht : closeToken s = .ok t) (ht' : closeToken s' = .ok t') : Alike t t' := by
  have mask : s'.mask = s.mask := by rw [h.registers]
  by_cases full : shiftMask s.mask = 0
  · rcases Nat.lt_or_ge 17 s.codePtr.toNat with high | fits
    · rw [closeToken_of_gt full high] at ht
      cases ht
    · rw [closeToken_of_full full fits] at ht
      rw [closeToken_of_full (mask ▸ full) (h.codePtr ▸ fits), h.bytes] at ht'
      cases ht
      cases ht'
      exact (h.appendAll _).resetGroup
  · rw [closeToken_of_room full] at ht
    rw [closeToken_of_room (mask ▸ full)] at ht'
    cases ht
    cases ht'
    exact h.update (fun u => { u with mask := shiftMask u.mask })

/-! ### The sequencer (R93 to R100) -/

theorem Alike.setPhase (h : Alike s s') (p : Phase) : Alike (setPhase p s) (setPhase p s') :=
  h.update (Machine.setPhase p)

theorem Alike.endRun (h : Alike s s') : Alike (endRun s) (endRun s') :=
  h.update Machine.endRun

theorem Alike.setOut (h : Alike s s') (bs : List Byte) : Alike { s with out := bs } { s' with out := bs } :=
  h.update ({ · with out := bs })

/-- R97, R98: a step of the advance loop counts itself. -/
theorem Alike.countStep (h : Alike s s') :
    Alike { s with iCnt := nextCount s.iCnt } { s' with iCnt := nextCount s'.iCnt } :=
  h.update (fun u => { u with iCnt := nextCount u.iCnt })

/-- R96: a shorter match needs MATCH_POS only where the longer one did. -/
theorem Alike.setMatchLen (h : Alike s s') {n : Len} (short : 2 < n.toNat → 2 < s.matchLen.toNat) :
    Alike { s with matchLen := n } { s' with matchLen := n } :=
  h.carried (by rw [SameRegisters, h.registers]) ⟨⟨rfl, rfl, rfl⟩, rfl, rfl, rfl, short, id⟩
    ⟨⟨rfl, rfl, rfl⟩, rfl, rfl, rfl, fun long => by rw [h.registers]; exact short long, id⟩

theorem carries_windowSet (s : State) (a : Nat) (b : Byte) : Carries s (windowSet a b s) := by
  have wf := fun hw : s.memWf = true => memWf_windowSet hw a b
  rw [windowSet_frame] at wf ⊢
  exact ⟨⟨rfl, rfl, rfl⟩, rfl, rfl, rfl, id, wf⟩

theorem Alike.windowSet (h : Alike s s') (a : Nat) (b : Byte) : Alike (windowSet a b s) (windowSet a b s') := by
  refine h.update (Machine.windowSet a b) (carries_windowSet · a b) ?_
  unfold Machine.windowSet
  split <;> rfl

theorem Alike.setLen (h : Alike s s') (n : Len) : Alike { s with len := n } { s' with len := n } :=
  h.update ({ · with len := n })

theorem Alike.advanceCursors (h : Alike s s') : Alike (advanceR (advanceS s)) (advanceR (advanceS s')) :=
  h.update (fun u => advanceR (advanceS u))

/-- R9: `IN.next()`. -/
theorem Alike.readByte (h : Alike s s') : Alike { s with ip := s.ip + 1 } { s' with ip := s'.ip + 1 } :=
  h.update (fun u => { u with ip := u.ip + 1 })

theorem Alike.loadByte (h : Alike s s') (b : Byte) : Alike (loadByte b s) (loadByte b s') := by
  have addr : s'.rCur.toNat + s'.len.toNat = s.rCur.toNat + s.len.toNat := by rw [h.registers]
  have len : s'.len = s.len := by rw [h.registers]
  have same : Proofs.loadByte b s' = { Machine.windowSet (s.rCur.toNat + s.len.toNat) b { s' with ip := s'.ip + 1 } with
      len := s.len + 1 } := by
    rw [Proofs.loadByte, addr, len]
  rw [same]
  exact (h.readByte.windowSet _ b).setLen _

/-- R94: both runs load the same bytes. -/
theorem Alike.loadLookahead (n : Nat) : ∀ {s s' : State}, Alike s s' →
    Alike (loadLookahead n s) (loadLookahead n s') := by
  induction n with
  | zero => exact id
  | succ n ih =>
    intro s s' h
    have len : s'.len = s.len := by rw [h.registers]
    have inp : s'.inp = s.inp := by rw [h.registers]
    have ip : s'.ip = s.ip := by rw [h.registers]
    by_cases more : s.len.toNat < 18 ∧ s.ip < s.inp.length
    · obtain ⟨room, left⟩ := more
      have byte := List.getElem?_eq_getElem left
      rw [loadLookahead_succ n room byte, loadLookahead_succ n (len ▸ room) (by rw [inp, ip, byte])]
      exact ih (h.loadByte _)
    · have stop : 18 ≤ s.len.toNat ∨ s.inp.length ≤ s.ip := by omega
      rw [loadLookahead_stop _ stop, loadLookahead_stop _ (by rwa [len, inp, ip])]
      exact h

/-- R94: ENC.LOAD ends both runs, or neither. -/
theorem Alike.load (h : Alike s s') (ht : exec .encLoad s = .next t) (ht' : exec .encLoad s' = .next t') :
    Alike t t' := by
  have loaded := h.loadLookahead Config.F
  have len : (Machine.loadLookahead Config.F s').len = (Machine.loadLookahead Config.F s).len := by
    rw [loaded.registers]
  cases ht
  cases ht'
  rw [len]
  split
  · exact loaded.endRun
  · exact loaded.setPhase .ePre

/-- R97: the window moves on over the byte `c`. -/
theorem Alike.windowMoved (h : Alike s s') (c : Byte) : Alike (windowMoved c s) (windowMoved c s') := by
  have cursor : s'.sCur = s.sCur := by rw [h.registers]
  have same : Proofs.windowMoved c s' =
      advanceR (advanceS (Machine.windowSet s.sCur.toNat c { s' with ip := s'.ip + 1 })) := by
    rw [Proofs.windowMoved, cursor]
  rw [same]
  exact (h.readByte.windowSet _ c).advanceCursors

/-- R98: the window moves on with a byte less in the lookahead. -/
theorem Alike.windowDrained (h : Alike s s') : Alike (windowDrained s) (windowDrained s') :=
  h.update Proofs.windowDrained

/-- R95: ENC.PREINSERT. -/
theorem Alike.preinsert (h : Alike s s') (ht : exec .encPreinsert s = .next t)
    (ht' : exec .encPreinsert s' = .next t') : Alike t t' := by
  obtain ⟨u, hu, ht⟩ := bind_eq_ok.mp (outcome_eq_next.mp ht)
  obtain ⟨u', hu', ht'⟩ := bind_eq_ok.mp (outcome_eq_next.mp ht')
  obtain ⟨v, hv, ht⟩ := bind_eq_ok.mp ht
  obtain ⟨v', hv', ht'⟩ := bind_eq_ok.mp ht'
  have before := Alike.insertBack _ h hu hu'
  cases ht
  cases ht'
  exact (before.insert (by rw [before.registers]) hv hv').setPhase .eStep

/-- R96: a match that stays above THRESHOLD after the clamp was above it before. -/
theorem Alike.clampMatch (h : Alike s s') : Alike (clampMatch s) (clampMatch s') := by
  rw [Machine.clampMatch, Machine.clampMatch, show minLen s'.matchLen s'.len = minLen s.matchLen s.len by
    rw [h.registers]]
  exact h.setMatchLen fun long => by rw [minLen_toNat] at long; omega

/-- R96: a token carries MATCH_POS only for a match above THRESHOLD. -/
theorem Alike.packToken (h : Alike s s') (ht : packToken s = .ok t) (ht' : packToken s' = .ok t') : Alike t t' := by
  have len : s'.matchLen = s.matchLen := by rw [h.registers]
  rw [Machine.packToken] at ht ht'
  rw [len] at ht'
  by_cases short : s.matchLen.toNat ≤ Config.threshold
  · have byte : windowGet s' s'.rCur.toNat = windowGet s s.rCur.toNat := by rw [h.registers]; rfl
    rw [if_pos short] at ht ht'
    rw [byte] at ht'
    exact (h.setMatchLen (n := 1) fun long => absurd long (by decide)).packLiteral ht ht'
  · rw [if_neg short] at ht ht'
    rw [h.match_pos (Nat.not_le.mp short)] at ht'
    exact h.packReference ht ht'

/-- R96: ENC.STEP. -/
theorem Alike.stepEncoder (h : Alike s s') (ht : stepEncoder s = .ok t) (ht' : stepEncoder s' = .ok t') :
    Alike t t' := by
  obtain ⟨u, hu, ht⟩ := bind_eq_ok.mp ht
  obtain ⟨u', hu', ht'⟩ := bind_eq_ok.mp ht'
  obtain ⟨v, hv, ht⟩ := bind_eq_ok.mp ht
  obtain ⟨v', hv', ht'⟩ := bind_eq_ok.mp ht'
  have closed := (h.clampMatch.packToken hu hu').closeToken hv hv'
  cases ht
  cases ht'
  exact closed.update (fun u => { u with last := u.matchLen, iCnt := 0, phase := .eAdv })

/-- R97: ENC.ADVANCE reads the same byte in both runs. -/
theorem Alike.advanceEncoder (h : Alike s s') (ht : advanceEncoder s = .ok t) (ht' : advanceEncoder s' = .ok t') :
    Alike t t' := by
  obtain ⟨u, c, v, hd, hc, hi, rfl⟩ := advanceEncoder_eq_ok.mp ht
  obtain ⟨u', c', v', hd', hc', hi', rfl⟩ := advanceEncoder_eq_ok.mp ht'
  have deleted := h.delete (by rw [h.registers]) hd hd'
  have byte : c' = c := by
    rw [deleted.registers] at hc'
    exact Option.some.inj (hc'.symm.trans hc)
  subst byte
  have moved := deleted.windowMoved c'
  exact (moved.insert (by rw [moved.registers]) hi hi').countStep

/-- R98: ENC.DRAIN leaves both lookaheads empty, or neither. -/
theorem Alike.drainEncoder (h : Alike s s') (ht : drainEncoder s = .ok t) (ht' : drainEncoder s' = .ok t') :
    Alike t t' := by
  obtain ⟨-, u, hd, hi⟩ := drainEncoder_eq_ok.mp ht
  obtain ⟨-, u', hd', hi'⟩ := drainEncoder_eq_ok.mp ht'
  have drained := (h.countStep.delete (by rw [h.registers]) hd hd').windowDrained
  have len : (Proofs.windowDrained u').len = (Proofs.windowDrained u).len := by rw [drained.registers]
  rw [len] at hi'
  rcases hi with ⟨last, rfl⟩ | ⟨more, hi⟩
  · obtain ⟨-, rfl⟩ := hi'.resolve_right fun more => more.1 last
    exact drained
  · exact drained.insert (by rw [drained.registers]) hi (hi'.resolve_left fun last => more last.1).2

theorem codePtr_le_of_finishEncoder (h : finishEncoder s = .ok t) : s.codePtr.toNat ≤ 17 := by
  refine Nat.not_lt.mp fun high => ?_
  rw [finishEncoder, flushGroup_of_gt high] at h
  cases h

/-- R91, R100: OUT after the last group. -/
def flushedOut (s : State) : List Byte :=
  if 1 < s.codePtr.toNat then s.out ++ (List.range s.codePtr.toNat).map s.codeAt else s.out

theorem finishEncoder_eq_ok (h : finishEncoder s = .ok t) : t = endRun { s with out := flushedOut s } :=
  Except.ok.inj (h.symm.trans (finishEncoder_of_le (codePtr_le_of_finishEncoder h)))

theorem Alike.flushedOut (h : Alike s s') : flushedOut s' = flushedOut s := by
  rw [Proofs.flushedOut, Proofs.flushedOut, h.bytes, h.codePtr, show s'.out = s.out by rw [h.registers]]

/-- R100: ENC.FINISH. -/
theorem Alike.finishEncoder (h : Alike s s') (ht : finishEncoder s = .ok t) (ht' : finishEncoder s' = .ok t') :
    Alike t t' := by
  rw [finishEncoder_eq_ok ht, finishEncoder_eq_ok ht', h.flushedOut]
  exact (h.setOut _).endRun

theorem startEncoder_control (hw : s.memWf = true) : (startEncoder s).codeAt 0 = 0 :=
  resetGroup_codeAt (memWf_clearIndex (memWf_fillWindow hw)) 0

/-- R31, R93: ENC.START writes all that the run depends on, but for the input. -/
theorem Alike.startEncoder (hw : s.memWf = true) (hw' : s'.memWf = true)
    (registers : SameRegisters (startEncoder s) (startEncoder s')) : Alike (startEncoder s) (startEncoder s') where
  registers := registers
  trees := ⟨_, forest_of_emptyIndex (emptyIndex_startEncoder s), forest_of_emptyIndex (emptyIndex_startEncoder s')⟩
  group a ha := by
    rw [show a = 0 from ha.elim id Nat.lt_one_iff.mp, startEncoder_control hw, startEncoder_control hw']
  match_pos long := absurd (show 2 < (0 : Len).toNat from long) (by decide)
  mem_wf := ⟨memWf_startEncoder hw, memWf_startEncoder hw'⟩

end Sys2Proof.Proofs
end

section
/-! Two COMPRESS runs on one input (R113, R152): they stay alike step by step, and OUT does not depend on what ran
before. -/

namespace Sys2Proof.Proofs

open Sys2Proof.Machine Sys2Proof.Laws Sys2Proof.Safety

variable {s s' t t' : State}

/-! ## Steps -/

/-- R99: both runs take the same branch of the advance loop. -/
theorem Alike.step_eAdv (h : Alike s s') (run : Compressing s) (run' : Compressing s') (hp : s.phase = .eAdv)
    (ht : step s = .next t) (ht' : step s' = .next t') : Alike t t' := by
  have last : s'.last = s.last := by rw [h.registers]
  have count : s'.iCnt = s.iCnt := by rw [h.registers]
  have inp : s'.inp = s.inp := by rw [h.registers]
  have ip : s'.ip = s.ip := by rw [h.registers]
  have len : s'.len = s.len := by rw [h.registers]
  have hp' : s'.phase = .eAdv := by rw [h.registers]; exact hp
  rcases Nat.lt_or_ge s.iCnt.toNat s.last.toNat with more | done
  · have more' : s'.iCnt.toNat < s'.last.toNat := by rwa [count, last]
    rcases Nat.lt_or_ge s.ip s.inp.length with left | ended
    · rw [step_advance run.law.no_ops run.no_cmd hp more left, outcome_eq_next] at ht
      rw [step_advance run'.law.no_ops run'.no_cmd hp' more' (by rwa [ip, inp]), outcome_eq_next] at ht'
      exact h.advanceEncoder ht ht'
    · rw [step_drain run.law.no_ops run.no_cmd hp more ended, outcome_eq_next] at ht
      rw [step_drain run'.law.no_ops run'.no_cmd hp' more' (by rwa [ip, inp]), outcome_eq_next] at ht'
      exact h.drainEncoder ht ht'
  · rw [step_exit run.law.no_ops run.no_cmd hp done] at ht
    rw [step_exit run'.law.no_ops run'.no_cmd hp' (by rwa [count, last]), len] at ht'
    cases ht
    cases ht'
    exact h.setPhase _

/-- R152: one step of each run. -/
theorem Alike.step (h : Alike s s') (run : Compressing s) (run' : Compressing s') (running : s.phase ≠ .idle)
    (ht : step s = .next t) (ht' : step s' = .next t') : Alike t t' := by
  have phase : s'.phase = s.phase := by rw [h.registers]
  have enc : phaseMode s.phase = .enc := run.phase.resolve_right fun ended => running ended.1
  have performs {i : Instr} (named : ∀ u : State, u.phase = s.phase → fetchPhase u = .run i u) :
      exec i s = .next t ∧ exec i s' = .next t' :=
    ⟨(run.step_eq (named s rfl)).symm.trans ht, (run'.step_eq (named s' phase)).symm.trans ht'⟩
  cases hp : s.phase with
  | idle => exact absurd hp running
  | eInit =>
    obtain ⟨et, et'⟩ := performs (i := .encStart) fun u hu => by rw [fetchPhase, hu, hp]
    cases et
    cases et'
    exact .startEncoder h.mem_wf.1 h.mem_wf.2 (congrArg Machine.startEncoder h.registers)
  | eLoad =>
    obtain ⟨et, et'⟩ := performs (i := .encLoad) fun u hu => by rw [fetchPhase, hu, hp]
    exact h.load et et'
  | ePre =>
    obtain ⟨et, et'⟩ := performs (i := .encPreinsert) fun u hu => by rw [fetchPhase, hu, hp]
    exact h.preinsert et et'
  | eStep =>
    obtain ⟨et, et'⟩ := performs (i := .encStep) fun u hu => by rw [fetchPhase, hu, hp]
    exact h.stepEncoder (outcome_eq_next.mp et) (outcome_eq_next.mp et')
  | eAdv => exact h.step_eAdv run run' hp ht ht'
  | eFin =>
    obtain ⟨et, et'⟩ := performs (i := .encFinish) fun u hu => by rw [fetchPhase, hu, hp]
    exact h.finishEncoder (outcome_eq_next.mp et) (outcome_eq_next.mp et')
  | dInit | dBit | dLit | dRef => rw [hp] at enc; cases enc

/-! ## Runs -/

/-- R112: a run that has ended stays where it is. -/
theorem Compressing.run_idle (h : Compressing s) (hp : s.phase = .idle) (k : Nat) (ht : core.run k s = .next t) :
    t = s := by
  have stay : ∀ u v : State, u = s → Machine.step u = .next v → v = s := by
    rintro u v rfl hv
    exact Host.Outcome.next.inj (hv.symm.trans ((stepPerformsTheOperationOfPhase u h.law.no_ops h.no_cmd).1 hp))
  exact run_keeps stay k rfl ht

/-- A run that leaves a phase takes a step first. -/
theorem exists_step_of_run {k : Nat} (running : s.phase ≠ .idle) (ht : core.run k s = .next t)
    (ended : t.phase = .idle) : ∃ j u, step s = .next u ∧ core.run j u = .next t := by
  cases k with
  | zero =>
    cases ht
    exact absurd ended running
  | succ k =>
    obtain ⟨u, hu, hk⟩ := run_succ_eq_next.mp ht
    exact ⟨k, u, hu, hk⟩

/-- R152: two runs that are alike end in states that are. -/
theorem Alike.ends (k : Nat) : ∀ {s s' : State} {k' : Nat}, Alike s s' → Compressing s → Compressing s' →
    core.run k s = .next t → t.phase = .idle → core.run k' s' = .next t' → t'.phase = .idle → Alike t t' := by
  induction k with
  | zero =>
    intro s s' k' h run run' ht ended ht' ended'
    cases ht
    have phase : s'.phase = .idle := by rw [h.registers]; exact ended
    rwa [run'.run_idle phase k' ht']
  | succ k ih =>
    intro s s' k' h run run' ht ended ht' ended'
    have phase : s'.phase = s.phase := by rw [h.registers]
    by_cases hp : s.phase = .idle
    · rwa [run.run_idle hp _ ht, run'.run_idle (phase.trans hp) k' ht']
    · obtain ⟨u, hu, ht⟩ := run_succ_eq_next.mp ht
      obtain ⟨j, u', hu', ht'⟩ := exists_step_of_run (phase ▸ hp) ht' ended'
      exact ih (h.step run run' hp hu hu') (run.preserved hu) (run'.preserved hu') ht ended ht' ended'

section
variable {input : List Byte} (h : Idle s)
include h

theorem step_compressStart : step (compressStart input s) = .next (startEncoder (compressStart input s)) :=
  (compressing_compressStart h input).step_eq (i := .encStart) rfl

/-- R93, R113: a COMPRESS run that has ended has performed ENC.START. -/
theorem run_startEncoder_of_ends (ht : Ends 1 input s t) :
    ∃ k, core.run k (startEncoder (compressStart input s)) = .next t := by
  obtain ⟨k, hk, ended, consumed⟩ := ht
  cases k with
  | zero =>
    rw [hostPresent_of_idle h] at hk
    cases hk
    exact absurd consumed (show (1 : BitVec 2) ≠ 0 by decide)
  | succ k =>
    obtain ⟨u, hu, hk⟩ := run_succ_eq_next.mp hk
    cases (step_hostPresent_compress h input).symm.trans hu
    obtain ⟨j, v, hv, hj⟩ := exists_step_of_run Phase.noConfusion hk ended
    cases (step_compressStart h).symm.trans hv
    exact ⟨j, hj⟩

/-- Nothing is issued, and the command is consumed. -/
theorem startEncoder_ports : startEncoder (compressStart input s) =
    { startEncoder (compressStart input s) with cmd := 0, ops := [] } := by
  rw [← h.no_cmd, ← h.no_ops]
  rfl

/-- R31, R113: whatever the idle states hold, ENC.START makes the runs alike. -/
theorem alike_startEncoder (h' : Idle s') :
    Alike (startEncoder (compressStart input s)) (startEncoder (compressStart input s')) := by
  refine .startEncoder h.mem_wf h'.mem_wf ?_
  rw [startEncoder_ports h, startEncoder_ports h']
  rfl

end

/-- Settles O59: ENC.START makes the two runs alike, every step keeps them so, and OUT is one of the registers that
are equal then. -/
theorem compressDependsOnItsInputOnly : Obligations.CompressDependsOnItsInputOnly := by
  intro s s' t t' input h h' ht ht'
  obtain ⟨k, hk⟩ := run_startEncoder_of_ends h ht
  obtain ⟨k', hk'⟩ := run_startEncoder_of_ends h' ht'
  obtain ⟨-, -, ended, -⟩ := ht
  obtain ⟨-, -, ended', -⟩ := ht'
  have run := (compressing_compressStart h input).preserved (step_compressStart h)
  have run' := (compressing_compressStart h' input).preserved (step_compressStart h')
  have alike := (alike_startEncoder h h').ends k run run' hk ended hk' ended'
  rw [alike.registers]

end Sys2Proof.Proofs
end

section
/-! The host interface (R112 to R116): what a command does, and the combinations of MODE, BUSY and DONE that every step
of the sequencer keeps. -/

namespace Sys2Proof.Proofs

open Sys2Proof.Machine Sys2Proof.Laws Sys2Proof.Safety

variable {s t u : State}

/-! ## Commands (R112 to R114, R116) -/

theorem startRun_of_idle (h : s.phase = .idle) (m : Mode) (p : Phase) :
    startRun m p s = { s with mode := m, busy := true, done := false, phase := p } := if_pos h

theorem startRun_of_running (h : s.phase ≠ .idle) (m : Mode) (p : Phase) : startRun m p s = s := if_neg h

/-- Settles O44: by PHASE. -/
theorem commandsStartARunOnlyWhenIdle : Obligations.CommandsStartARunOnlyWhenIdle := fun _ =>
  ⟨fun h => congrArg _ (startRun_of_idle h .enc .eInit), fun h => congrArg _ (startRun_of_idle h .dec .dInit),
    fun h => ⟨congrArg _ (startRun_of_running h .enc .eInit), congrArg _ (startRun_of_running h .dec .dInit)⟩, rfl, rfl⟩

/-! ## The status words (R27, R115) -/

theorem phaseMode_eq_idle_iff {p : Phase} : phaseMode p = .idle ↔ p = .idle := by
  cases p <;> decide

/-- MODE, BUSY and DONE of `t` are those of `s`. -/
def SameStatus (s t : State) : Prop := t.mode = s.mode ∧ t.busy = s.busy ∧ t.done = s.done

theorem SameStatus.trans (h : SameStatus s t) (h' : SameStatus t u) : SameStatus s u :=
  ⟨h'.1.trans h.1, h'.2.1.trans h.2.1, h'.2.2.trans h.2.2⟩

/-- R115: the table speaks of the mode of PHASE alone. -/
theorem control_of_sameStatus (h : Control s) (same : SameStatus s t) (phase : phaseMode t.phase = phaseMode s.phase) :
    Control t := by
  obtain ⟨mode, busy, done⟩ := same
  refine ⟨by rw [mode, h.mode_eq, phase], ?_, by rw [busy, done]; exact h.not_both⟩
  rw [busy, h.busy_iff, Ne, Ne, ← phaseMode_eq_idle_iff, ← phase, phaseMode_eq_idle_iff]

/-- R115: a run starts with BUSY 1 and DONE 0. -/
theorem control_startRun (h : Control s) {m : Mode} {p : Phase} (mode : phaseMode p = m) (running : p ≠ .idle) :
    Control (startRun m p s) := by
  by_cases idle : s.phase = .idle
  · rw [startRun_of_idle idle]
    exact ⟨mode.symm, iff_of_true rfl running, fun ⟨_, done⟩ => Bool.false_ne_true done⟩
  · rwa [startRun_of_running idle]

/-! ## Operations of the sequencer (R65) -/

theorem sameStatus_of_onlyIndex (h : OnlyIndex s t) : SameStatus s t := by
  rw [h]
  exact ⟨rfl, rfl, rfl⟩

theorem sameStatus_of_tokenStep (h : TokenStep s t) : SameStatus s t := by
  rw [h.only]
  exact ⟨rfl, rfl, rfl⟩

/-- R94: ENC.LOAD moves bytes of IN to TEXT. -/
theorem loadLookahead_frame (n : Nat) : ∀ s : State, loadLookahead n s =
    { s with text := (loadLookahead n s).text, len := (loadLookahead n s).len, ip := (loadLookahead n s).ip } := by
  induction n with
  | zero => exact fun _ => rfl
  | succ n ih =>
    intro s
    by_cases more : s.len.toNat < 18 ∧ s.ip < s.inp.length
    · rw [loadLookahead_succ n more.1 (List.getElem?_eq_getElem more.2), ih, loadByte_frame]
    · rw [loadLookahead_stop _ (by omega)]

/-- R115: what the operation PHASE names does to the status: the run goes on in its mode, or it ends. -/
def GoesOnOrEnds (s t : State) : Prop :=
  (SameStatus s t ∧ phaseMode t.phase = phaseMode s.phase) ∨ ∃ u, t = endRun u

theorem GoesOnOrEnds.control (h : GoesOnOrEnds s t) (hs : Control s) : Control t := by
  obtain ⟨same, phase⟩ | ⟨u, rfl⟩ := h
  · exact control_of_sameStatus hs same phase
  · exact control_endRun u

/-- R94, R101: ENC.LOAD ends the run on empty input. -/
theorem execEncLoad_status (hp : s.phase = .eLoad) (ht : exec .encLoad s = .next t) : GoesOnOrEnds s t := by
  cases ht
  split
  · exact .inr ⟨_, rfl⟩
  · refine .inl ⟨?_, by rw [hp]; rfl⟩
    rw [loadLookahead_frame]
    exact ⟨rfl, rfl, rfl⟩

theorem execEncPreinsert_status (hp : s.phase = .ePre) (ht : exec .encPreinsert s = .next t) : GoesOnOrEnds s t := by
  obtain ⟨u, hu, ht⟩ := bind_eq_ok.mp (outcome_eq_next.mp ht)
  obtain ⟨v, hv, ht⟩ := bind_eq_ok.mp ht
  cases ht
  have inserted : SameStatus s v := sameStatus_of_onlyIndex ((insertBack_step hu).only.trans (insertNode_step hv).only)
  exact .inl ⟨inserted, by rw [hp]; rfl⟩

theorem packToken_status (ht : packToken s = .ok t) : SameStatus s t := by
  rw [packToken] at ht
  split at ht
  · exact sameStatus_of_tokenStep (s := { s with matchLen := 1 }) (packLiteral_step ht)
  · exact sameStatus_of_tokenStep (packReference_step ht)

theorem execEncStep_status (hp : s.phase = .eStep) (ht : exec .encStep s = .next t) : GoesOnOrEnds s t := by
  obtain ⟨u, hu, ht⟩ := bind_eq_ok.mp (outcome_eq_next.mp ht)
  obtain ⟨v, hv, ht⟩ := bind_eq_ok.mp ht
  cases ht
  have packed : SameStatus (clampMatch s) u := packToken_status hu
  have closed : SameStatus (clampMatch s) v := packed.trans (sameStatus_of_tokenStep (closeToken_step hv))
  exact .inl ⟨closed, by rw [hp]; rfl⟩

theorem execEncAdvance_status (ht : exec .encAdvance s = .next t) : GoesOnOrEnds s t := by
  rw [advanceEncoder_frame (outcome_eq_next.mp ht)]
  exact .inl ⟨⟨rfl, rfl, rfl⟩, rfl⟩

theorem execEncDrain_status (ht : exec .encDrain s = .next t) : GoesOnOrEnds s t := by
  rw [drainEncoder_frame (outcome_eq_next.mp ht)]
  exact .inl ⟨⟨rfl, rfl, rfl⟩, rfl⟩

/-- R100: ENC.FINISH ends the run. -/
theorem execEncFinish_status (ht : exec .encFinish s = .next t) : GoesOnOrEnds s t := by
  obtain ⟨u, -, ht⟩ := bind_eq_ok.mp (outcome_eq_next.mp ht)
  cases ht
  exact .inr ⟨u, rfl⟩

/-- R62, R104: DEC.CTRL ends the run at truncation point (a). -/
theorem execDecCtrl_status (hp : s.phase = .dBit) (ht : exec .decCtrl s = .next t) : GoesOnOrEnds s t := by
  have dec (f : BitVec 16) : phaseMode (tokenPhase f) = phaseMode s.phase := by rw [hp]; exact phaseMode_tokenPhase f
  cases hf : (s.flags >>> 1).getLsbD 8 with
  | true =>
    cases (execDecCtrl_of_bit hf).symm.trans ht
    exact .inl ⟨⟨rfl, rfl, rfl⟩, dec _⟩
  | false =>
    cases hd : s.inp.drop s.ip with
    | nil =>
      cases (execDecCtrl_of_drop_nil hf hd).symm.trans ht
      exact .inr ⟨_, rfl⟩
    | cons c rest =>
      cases (execDecCtrl_of_drop hf hd).symm.trans ht
      exact .inl ⟨⟨rfl, rfl, rfl⟩, dec _⟩

/-- R62, R105: DEC.LIT ends the run at truncation point (b). -/
theorem execDecLit_status (hp : s.phase = .dLit) (ht : exec .decLit s = .next t) : GoesOnOrEnds s t := by
  cases hd : s.inp.drop s.ip with
  | nil =>
    cases (execDecLit_of_drop_nil hd).symm.trans ht
    exact .inr ⟨_, rfl⟩
  | cons c rest =>
    cases (execDecLit_of_drop hd).symm.trans ht
    rw [literalToken_frame]
    exact .inl ⟨⟨rfl, rfl, rfl⟩, by rw [hp]; rfl⟩

/-- R62, R106: DEC.REF ends the run at truncation points (c) and (d). -/
theorem execDecRef_status (hp : s.phase = .dRef) (ht : exec .decRef s = .next t) : GoesOnOrEnds s t := by
  rcases hd : s.inp.drop s.ip with _ | ⟨b0, _ | ⟨b1, rest⟩⟩
  · cases (execDecRef_of_drop_nil hd).symm.trans ht
    exact .inr ⟨_, rfl⟩
  · cases (execDecRef_of_drop_one hd).symm.trans ht
    exact .inr ⟨_, rfl⟩
  · cases (execDecRef_of_drop hd).symm.trans ht
    rw [referenceToken_frame]
    exact .inl ⟨⟨rfl, rfl, rfl⟩, by rw [hp]; rfl⟩

/-- R99: neither operation of the advance loop nor its exit test writes the status. -/
theorem step_eAdv_status (ho : s.ops = []) (hc : s.cmd = 0) (hp : s.phase = .eAdv) (ht : step s = .next t) :
    GoesOnOrEnds s t := by
  rcases Nat.lt_or_ge s.iCnt.toNat s.last.toNat with more | done
  · rcases Nat.lt_or_ge s.ip s.inp.length with left | ended
    · exact execEncAdvance_status ((step_advance ho hc hp more left).symm.trans ht)
    · exact execEncDrain_status ((step_drain ho hc hp more ended).symm.trans ht)
  · cases (step_exit ho hc hp done).symm.trans ht
    exact .inl ⟨⟨rfl, rfl, rfl⟩, by rw [hp]; split <;> rfl⟩

/-- R65: a step without a command. -/
theorem step_status (ho : s.ops = []) (hc : s.cmd = 0) (ht : step s = .next t) : GoesOnOrEnds s t := by
  obtain ⟨idle, eInit, eLoad, ePre, eStep, eFin, dInit, dBit, dLit, dRef⟩ := stepPerformsTheOperationOfPhase s ho hc
  cases hp : s.phase with
  | idle =>
    cases (idle hp).symm.trans ht
    exact .inl ⟨⟨rfl, rfl, rfl⟩, rfl⟩
  | eInit =>
    cases (eInit hp).symm.trans ht
    exact .inl ⟨⟨rfl, rfl, rfl⟩, by rw [hp]; rfl⟩
  | eLoad => exact execEncLoad_status hp ((eLoad hp).symm.trans ht)
  | ePre => exact execEncPreinsert_status hp ((ePre hp).symm.trans ht)
  | eStep => exact execEncStep_status hp ((eStep hp).symm.trans ht)
  | eAdv => exact step_eAdv_status ho hc hp ht
  | eFin => exact execEncFinish_status ((eFin hp).symm.trans ht)
  | dInit =>
    cases (dInit hp).symm.trans ht
    exact .inl ⟨⟨rfl, rfl, rfl⟩, by rw [hp]; rfl⟩
  | dBit => exact execDecCtrl_status hp ((dBit hp).symm.trans ht)
  | dLit => exact execDecLit_status hp ((dLit hp).symm.trans ht)
  | dRef => exact execDecRef_status hp ((dRef hp).symm.trans ht)

/-! ## The table (R115) -/

theorem command_cases (c : BitVec 2) : c = 0 ∨ c = 1 ∨ c = 2 ∨ c = 3 := by
  revert c
  decide

/-- R115: every step of the sequencer keeps the table. -/
theorem step_control (h : Control s) (ho : s.ops = []) (ht : step s = .next t) : Control t := by
  obtain ⟨compress, decompress, ignored⟩ := stepRunsTheDecodedInstruction.2.2.1 s ho
  have taken : Control { s with cmd := 0 } := ⟨h.mode_eq, h.busy_iff, h.not_both⟩
  rcases command_cases s.cmd with none | c | d | i
  · exact (step_status ho none ht).control h
  · cases (compress c).symm.trans ht
    exact control_startRun taken rfl Phase.noConfusion
  · cases (decompress d).symm.trans ht
    exact control_startRun taken rfl Phase.noConfusion
  · cases (ignored i).symm.trans ht
    exact taken

/-- R115: the rows of the table, by PHASE and DONE. -/
theorem host_reads (h : Control s) :
    (hostMode s = 0 ∧ hostStatus s = 0) ∨ ((hostMode s = 1 ∨ hostMode s = 2) ∧ hostStatus s = 1) ∨
      (hostMode s = 0 ∧ hostStatus s = 2) := by
  rw [hostMode, hostStatus, h.mode_eq]
  cases hb : s.busy with
  | false =>
    have idle : s.phase = .idle := by
      by_contra running
      exact Bool.false_ne_true (hb.symm.trans (h.busy_iff.mpr running))
    rw [idle]
    cases s.done with
    | false => exact .inl ⟨rfl, rfl⟩
    | true => exact .inr (.inr ⟨rfl, rfl⟩)
  | true =>
    have running := h.busy_iff.mp hb
    have notDone : s.done = false := Bool.eq_false_iff.mpr fun done => h.not_both ⟨hb, done⟩
    have mode : phaseMode s.phase ≠ .idle := mt phaseMode_eq_idle_iff.mp running
    rw [notDone]
    refine .inr (.inl ⟨?_, rfl⟩)
    cases hm : phaseMode s.phase with
    | idle => exact absurd hm mode
    | enc => exact .inl rfl
    | dec => exact .inr rfl

/-- Settles O47: a command starts a run or is not heard, and the operation of PHASE goes on in its mode or ends the
run; what the host reads is then a row of the table. -/
theorem everyStepKeepsTheStatusCombinations : Obligations.EveryStepKeepsTheStatusCombinations :=
  ⟨fun _ _ ho h ht => step_control h ho ht, fun _ => host_reads⟩

end Sys2Proof.Proofs
end

section
/-! The search order of the trees (R121): keys compared as byte strings, and what IDX.INSERT, IDX.DELETE and IDX.REPLACE
make of an ordered tree. -/

namespace Sys2Proof.Proofs

open Sys2Proof.Machine Sys2Proof.Laws Sys2Proof.Safety

variable {s t : State} {a b c p r : Pos} {shape : Shape} {lead : Byte}

/-! ## Keys -/

/-- The key of `a` in `s` and the key of `b` in `t` are the same bytes. -/
def SameKey (s : State) (a : Pos) (t : State) (b : Pos) : Prop :=
  ∀ i < 18, t.textAt (keyAddr b i) = s.textAt (keyAddr a i)

theorem sameKey_of_text (text : ∀ x, t.textAt x = s.textAt x) (a : Pos) : SameKey s a t a := fun _ _ => text _

/-- The order of two keys depends on their bytes only. -/
theorem keyLess_of_sameKey {a' b' : Pos} (h : KeyLess s a b) (ha : SameKey s a t a') (hb : SameKey s b t b') :
    KeyLess t a' b' := by
  obtain ⟨i, hi, agree, less⟩ := h
  refine ⟨i, hi, fun j hj => ?_, ?_⟩
  · rw [ha j (hj.trans hi), hb j (hj.trans hi), agree j hj]
  · rwa [ha i hi, hb i hi]

/-- Byte strings of one length are ordered by their first difference, and the earlier of two differences decides. -/
theorem keyLess_trans (hab : KeyLess s a b) (hbc : KeyLess s b c) : KeyLess s a c := by
  obtain ⟨i, hi, agreeAB, lessAB⟩ := hab
  obtain ⟨k, hk, agreeBC, lessBC⟩ := hbc
  rcases Nat.lt_trichotomy i k with before | rfl | after
  · exact ⟨i, hi, fun j hj => (agreeAB j hj).trans (agreeBC j (hj.trans before)), by rwa [← agreeBC i before]⟩
  · exact ⟨i, hi, fun j hj => (agreeAB j hj).trans (agreeBC j hj), lessAB.trans lessBC⟩
  · exact ⟨k, hk, fun j hj => (agreeAB j (hj.trans after)).trans (agreeBC j hj), by rwa [agreeAB k after]⟩

section
variable (lead_eq : s.textAt r.toNat = s.textAt p.toNat)
include lead_eq

/-- R78: the comparator finds the keys of one tree to agree below the length it returns, byte 0 included. -/
theorem agree_below_compareKeys : ∀ j < (compareKeys s r p).1, s.textAt (keyAddr r j) = s.textAt (keyAddr p j) := by
  intro j hj
  rcases Nat.eq_zero_or_pos j with rfl | pos
  · exact lead_eq
  · exact compareKeys_agree s r p pos hj

/-- R78, R121: a full match is an equal key. -/
theorem sameKey_of_full (full : (compareKeys s r p).1 = 18) : SameKey s p s r := fun i hi =>
  agree_below_compareKeys lead_eq i (full ▸ hi)

/-- R78, R121: short of a full match, the sign is the order of the keys. -/
theorem keyLess_of_sign (short : (compareKeys s r p).1 ≠ 18) :
    if (compareKeys s r p).2 = .neg then KeyLess s r p else KeyLess s p r := by
  have agree := agree_below_compareKeys lead_eq
  rcases compareKeys_end s r p with ⟨full, -⟩ | ⟨low, differ, sign⟩
  · exact absurd full short
  · rw [sign, signOf]
    rcases Nat.lt_or_ge (s.textAt (keyAddr p (compareKeys s r p).1)).toNat
      (s.textAt (keyAddr r (compareKeys s r p).1)).toNat with less | greater
    · rw [if_pos less, if_neg (by decide)]
      exact ⟨_, low, fun j hj => (agree j hj).symm, less⟩
    · rw [if_neg (Nat.not_lt.mpr greater), if_pos rfl]
      exact ⟨_, low, agree, Nat.lt_of_le_of_ne greater fun same => differ (BitVec.eq_of_toNat_eq same)⟩

end

/-! ## Ordered trees -/

/-- R121: a tree whose nodes are those of an ordered tree, in order, each with the key it had there, is ordered. -/
theorem sorted_of_sameKeys {shape' : Shape} (h : shape.Sorted s lead) (g : Pos → Pos)
    (nodes : shape'.nodes = shape.nodes.map g) (keys : ∀ p ∈ shape.nodes, SameKey s p t (g p)) :
    shape'.Sorted t lead where
  head := by
    rw [nodes, List.forall_mem_map]
    exact fun p hp => (keys p hp 0 (by decide)).trans (h.head p hp)
  order := by
    rw [nodes, List.pairwise_map]
    exact h.order.imp_of_mem fun ha hb less => keyLess_of_sameKey less (keys _ ha) (keys _ hb)

theorem sorted_of_text (h : shape.Sorted s lead) (text : ∀ x, t.textAt x = s.textAt x) : shape.Sorted t lead :=
  sorted_of_sameKeys h id (List.map_id _).symm fun _ _ => sameKey_of_text text _

theorem sorted_leaf (s : State) (lead : Byte) : Shape.leaf.Sorted s lead := ⟨by simp, by simp⟩

/-- R121: a node of an ordered tree lies between its subtrees. -/
theorem sorted_node {l u : Shape} : (Shape.node l p u).Sorted s lead ↔
    l.Sorted s lead ∧ u.Sorted s lead ∧ s.textAt p.toNat = lead ∧ (∀ x ∈ l.nodes, KeyLess s x p) ∧
      (∀ x ∈ u.nodes, KeyLess s p x) := by
  constructor
  · rintro ⟨head, order⟩
    rw [nodes_node, List.forall_mem_append, List.forall_mem_cons] at head
    rw [nodes_node, List.pairwise_append, List.pairwise_cons] at order
    obtain ⟨headL, headP, headU⟩ := head
    obtain ⟨orderL, ⟨above, orderU⟩, across⟩ := order
    exact ⟨⟨headL, orderL⟩, ⟨headU, orderU⟩, headP, fun x hx => across x hx p List.mem_cons_self, above⟩
  · rintro ⟨⟨headL, orderL⟩, ⟨headU, orderU⟩, headP, below, above⟩
    refine ⟨?_, ?_⟩
    · rw [nodes_node, List.forall_mem_append, List.forall_mem_cons]
      exact ⟨headL, headP, headU⟩
    · rw [nodes_node, List.pairwise_append, List.pairwise_cons]
      refine ⟨orderL, ⟨above, orderU⟩, fun x hx y hy => ?_⟩
      rcases List.mem_cons.mp hy with rfl | hy
      · exact below x hx
      · exact keyLess_trans (below x hx) (above y hy)

/-- R81: an insertion adds no position but `r`. -/
theorem mem_of_mem_insertKey (shape : Shape) {z : Pos} (h : z ∈ (shape.insertKey s r).nodes) :
    z = r ∨ z ∈ shape.nodes := by
  induction shape with
  | leaf => exact .inl (List.mem_singleton.mp h)
  | node l p u ihl ihu =>
    rw [Shape.insertKey] at h
    split at h
    · simp only [nodes_node, List.mem_append, List.mem_cons] at h ⊢
      tauto
    · split at h <;> simp only [nodes_node, List.mem_append, List.mem_cons] at h ⊢ <;> tauto

/-- R79, R81, R121: the walk goes to the side of each node the new key belongs on, and an equal key takes the place of
the node. -/
theorem sorted_insertKey (lead_eq : s.textAt r.toNat = lead) (shape : Shape) (h : shape.Sorted s lead) :
    (shape.insertKey s r).Sorted s lead := by
  induction shape with
  | leaf => exact sorted_node.mpr ⟨h, h, lead_eq, by simp, by simp⟩
  | node l p u ihl ihu =>
    obtain ⟨hl, hu, headP, below, above⟩ := sorted_node.mp h
    have one_lead := lead_eq.trans headP.symm
    rw [Shape.insertKey]
    split
    case isTrue full =>
      have same := sameKey_of_full one_lead full
      have own (x : Pos) : SameKey s x s x := sameKey_of_text (fun _ => rfl) x
      exact sorted_node.mpr ⟨hl, hu, lead_eq, fun x hx => keyLess_of_sameKey (below x hx) (own x) same,
        fun x hx => keyLess_of_sameKey (above x hx) same (own x)⟩
    case isFalse short =>
      have order := keyLess_of_sign one_lead short
      split
      case isTrue neg =>
        rw [if_pos neg] at order
        refine sorted_node.mpr ⟨ihl hl, hu, headP, fun x hx => ?_, above⟩
        rcases mem_of_mem_insertKey l hx with rfl | hx
        · exact order
        · exact below x hx
      case isFalse pos =>
        rw [if_neg pos] at order
        refine sorted_node.mpr ⟨hl, ihu hu, headP, below, fun x hx => ?_⟩
        rcases mem_of_mem_insertKey u hx with rfl | hx
        · exact order
        · exact above x hx

/-! ## The operations -/

/-- R81, R121: IDX.INSERT. -/
theorem insertNode_searchTrees (hw : s.memWf = true) (h : SearchTrees s) (ht : insertNode r s = .ok t) :
    SearchTrees t := by
  obtain ⟨f, hf, sorted⟩ := h
  obtain ⟨u, hu, -, only, -, forest, -⟩ := insertNode_spec hw hf (not_node_of_insertNode ht)
  cases hu.symm.trans ht
  refine ⟨_, forest, fun lead => sorted_of_text (s := s) ?_ fun x => by rw [only]; rfl⟩
  rw [insertForest]
  split
  case isTrue here => exact sorted_insertKey here.symm _ (sorted lead)
  case isFalse => exact sorted lead

/-- R83, R121: IDX.DELETE leaves the other nodes in their order. -/
theorem deleteNode_searchTrees (hw : s.memWf = true) (h : SearchTrees s) (ht : deleteNode p s = .ok t) :
    SearchTrees t := by
  by_cases node : IsNode s p
  · obtain ⟨f, hf, sorted⟩ := h
    obtain ⟨lead, hp⟩ := (hf.node_iff p).mp node
    obtain ⟨u, hu, -, only, forest, -⟩ := deleteNode_spec hw hf hp
    cases hu.symm.trans ht
    refine ⟨_, forest, fun c => sorted_of_text (s := s) ⟨?_, ?_⟩ only.textAt⟩
    · exact fun x hx => (sorted c).head x (List.mem_of_mem_erase (remove_nodes (hf.nodup c) ▸ hx))
    · rw [remove_nodes (hf.nodup c)]
      exact (sorted c).order.sublist List.erase_sublist
  · cases (deleteNode_of_not_node node).symm.trans ht
    exact h

/-- R82, R121: IDX.REPLACE by a position with an equal key. -/
theorem replaceNode_searchTrees (hw : s.memWf = true) (h : SearchTrees s) (same : SameKey s p s r)
    (ht : replaceNode r p s = .ok t) : SearchTrees t := by
  have free : ¬ IsNode s r := fun node => by
    cases (replaceNode_by_node node).symm.trans ht
  have node : IsNode s p := by
    by_contra none
    cases (replaceNode_of_not_node free none).symm.trans ht
  obtain ⟨f, hf, sorted⟩ := h
  obtain ⟨lead, hp⟩ := (hf.node_iff p).mp node
  obtain ⟨u, hu, -, only, forest, -⟩ := replaceNode_spec hw hf hp free
  cases hu.symm.trans ht
  refine ⟨_, forest, fun c => sorted_of_text (s := s) ?_ only.textAt⟩
  refine sorted_of_sameKeys (sorted c) _ (substitute_nodes p r (f c)) fun x _ => ?_
  split
  case isTrue he => exact he ▸ same
  case isFalse => exact sameKey_of_text (fun _ => rfl) x

/-- Settles O21: the tree of the leading byte of `r` takes `r` in at its place, and the others stay. -/
theorem insertKeepsTheSearchOrder : Obligations.InsertKeepsTheSearchOrder := fun _ _ _ hw h ht =>
  insertNode_searchTrees hw h (outcome_eq_next.mp ht)

/-- Settles O25: the nodes left keep their order, and a node with an equal key stands where the other stood. -/
theorem deleteAndReplaceKeepTheSearchOrder : Obligations.DeleteAndReplaceKeepTheSearchOrder :=
  ⟨fun _ _ _ hw h ht => deleteNode_searchTrees hw h (outcome_eq_next.mp ht),
    fun _ _ _ _ hw h same ht => replaceNode_searchTrees hw h same (outcome_eq_next.mp ht)⟩

end Sys2Proof.Proofs
end

section
/-! The mirror (R73, R119) through every instruction; and what a decoder operation keeps because the writing of one byte
to OUT and to the ring keeps it. -/

namespace Sys2Proof.Proofs

open Sys2Proof.Machine Sys2Proof.Laws Sys2Proof.Safety

variable {s t : State} {P : State → Prop}

/-! ## Laws of OUT and the ring (R105, R106) -/

/-- A law of TEXT, OUT and R that the writing of one byte (R105) keeps. -/
structure KeptByEmission (P : State → Prop) : Prop where
  same : ∀ {u v : State}, P u → v.text = u.text → v.out = u.out → v.rCur = u.rCur → P v
  emit : ∀ {u : State} (c : Byte), u.memWf = true → P u → P (emitByte c u)

section
variable (kept : KeptByEmission P)
include kept

theorem KeptByEmission.copyBytes (pos n : Nat) : ∀ (k : Nat) {s : State}, s.memWf = true → P s →
    P (copyBytes pos n k s) := by
  induction n with
  | zero => exact fun _ _ _ h => h
  | succ n ih => exact fun k _ hw h => ih (k + 1) (memWf_emitByte hw _) (kept.emit _ hw h)

/-- R104: DEC.CTRL writes neither OUT nor the ring. -/
theorem KeptByEmission.execDecCtrl (h : P s) (ht : execDecCtrl s = .next t) : P t := by
  cases hf : (s.flags >>> 1).getLsbD 8 with
  | true =>
    cases (execDecCtrl_of_bit hf).symm.trans ht
    exact kept.same h rfl rfl rfl
  | false =>
    cases hd : s.inp.drop s.ip with
    | nil =>
      cases (execDecCtrl_of_drop_nil hf hd).symm.trans ht
      exact kept.same h rfl rfl rfl
    | cons c rest =>
      cases (execDecCtrl_of_drop hf hd).symm.trans ht
      exact kept.same h rfl rfl rfl

section
variable (hw : s.memWf = true) (h : P s)
include hw h

theorem KeptByEmission.literalToken (c : Byte) : P (literalToken c s) := kept.same (kept.emit c hw h) rfl rfl rfl

theorem KeptByEmission.referenceToken (pos : Pos) (n : Nat) : P (referenceToken pos n s) :=
  kept.same (kept.copyBytes pos.toNat n 0 hw h) rfl rfl rfl

theorem KeptByEmission.execRef {pos : Pos} {n : Nat} (ht : execRef pos n s = .next t) : P t := by
  rw [Machine.execRef] at ht
  split at ht <;> cases ht
  exact kept.referenceToken hw h pos n

/-- R105: DEC.LIT. -/
theorem KeptByEmission.execDecLit (ht : execDecLit s = .next t) : P t := by
  cases hd : s.inp.drop s.ip with
  | nil =>
    cases (execDecLit_of_drop_nil hd).symm.trans ht
    exact kept.same h rfl rfl rfl
  | cons c rest =>
    cases (execDecLit_of_drop hd).symm.trans ht
    exact kept.literalToken (s := { s with ip := s.ip + 1 }) hw (kept.same h rfl rfl rfl) c

/-- R106: DEC.REF. -/
theorem KeptByEmission.execDecRef (ht : execDecRef s = .next t) : P t := by
  rcases hd : s.inp.drop s.ip with _ | ⟨b0, _ | ⟨b1, rest⟩⟩
  · cases (execDecRef_of_drop_nil hd).symm.trans ht
    exact kept.same h rfl rfl rfl
  · cases (execDecRef_of_drop_one hd).symm.trans ht
    exact kept.same h rfl rfl rfl
  · cases (execDecRef_of_drop hd).symm.trans ht
    exact kept.referenceToken (s := { s with ip := s.ip + 2 }) hw (kept.same h rfl rfl rfl) _ _

end
end

/-! ## What ENC.PREINSERT and ENC.STEP change -/

/-- R95: nineteen insertions. -/
theorem execEncPreinsert_frame (ht : exec .encPreinsert s = .next t) : t =
    { s with left := t.left, right := t.right, parent := t.parent, cmp := t.cmp, matchPos := t.matchPos,
             matchLen := t.matchLen, phase := .eStep } := by
  obtain ⟨u, hu, ht⟩ := bind_eq_ok.mp (outcome_eq_next.mp ht)
  obtain ⟨v, hv, ht⟩ := bind_eq_ok.mp ht
  cases ht
  rw [(insertNode_step hv).only, (insertBack_step hu).only]
  rfl

/-- R96, steps 2 and 3. -/
theorem packToken_frame (ht : packToken s = .ok t) : t =
    { s with matchLen := t.matchLen, codebuf := t.codebuf, codePtr := t.codePtr, mask := t.mask, out := t.out } := by
  rw [packToken] at ht
  split at ht
  · rw [(packLiteral_step ht).only]
  · rw [(packReference_step ht).only]

/-- R96. -/
theorem stepEncoder_frame (ht : stepEncoder s = .ok t) : t =
    { s with matchLen := t.matchLen, codebuf := t.codebuf, codePtr := t.codePtr, mask := t.mask, out := t.out,
             last := t.last, iCnt := 0, phase := .eAdv } := by
  obtain ⟨u, hu, ht⟩ := bind_eq_ok.mp ht
  obtain ⟨v, hv, ht⟩ := bind_eq_ok.mp ht
  cases ht
  rw [(closeToken_step hv).only, packToken_frame hu]
  rfl

/-! ## The mirror (R119) -/

/-- The mirror is a law of TEXT alone. -/
theorem mirror_of_text (h : Mirror s) (text : t.text = s.text) : Mirror t := fun a ha => by
  rw [State.textAt, State.textAt, text]
  exact h a ha

theorem keptByEmission_mirror : KeptByEmission Mirror where
  same h text _ _ := mirror_of_text h text
  emit c hw h := mirror_windowSet (s := appendOut c _) hw h _ c

section
variable (hw : s.memWf = true) (h : Mirror s)
include hw h

/-- R94: ENC.LOAD writes through WIN.SET. -/
theorem execEncLoad_mirror (ht : exec .encLoad s = .next t) : Mirror t := by
  obtain ⟨u, loaded, hu⟩ := execEncLoad_loaded hw
  cases hu.symm.trans ht
  split <;> exact loaded.mirror h

/-- R97: ENC.ADVANCE writes through WIN.SET. -/
theorem advanceEncoder_mirror (ht : advanceEncoder s = .ok t) : Mirror t := by
  obtain ⟨u, c, v, hd, -, hi, rfl⟩ := advanceEncoder_eq_ok.mp ht
  have deleted := deleteNode_step hd
  have before : Mirror u := mirror_of_text h (by rw [deleted.only])
  have moved : Mirror (windowMoved c u) :=
    mirror_windowSet (s := { u with ip := u.ip + 1 }) (deleted.mem_wf hw) before u.sCur.toNat c
  exact mirror_of_text moved (by rw [(insertNode_step hi).only])

/-- R73, R119: an instruction writes ring bytes through WIN.SET, or fills all of TEXT, or does not write TEXT. -/
theorem exec_mirror {i : Instr} (ht : exec i s = .next t) : Mirror t := by
  cases i with
  | ctrl | winGet | idxClear | cmpKey | tokReset | decStop | cmdNone | cmdIgnored => cases ht; exact h
  | winFill | encStart | decStart => cases ht; exact mirror_fillWindow s
  | lit b => cases ht; exact keptByEmission_mirror.literalToken hw h b
  | ref pos n => exact keptByEmission_mirror.execRef hw h ht
  | winSet pos b => cases ht; exact mirror_windowSet hw h pos b
  | winKeyb p j =>
    obtain ⟨b, -, ht⟩ := bind_eq_ok.mp (outcome_eq_next.mp ht)
    cases ht
    exact h
  | idxSearch r =>
    obtain ⟨⟨result, u⟩, hu, ht⟩ := bind_eq_ok.mp (outcome_eq_next.mp ht)
    cases ht
    exact mirror_of_text h (t := { u with ret := _ }) (by rw [searchIndex_onlyMatch hu])
  | idxInsert r => exact mirror_of_text h (by rw [(insertNode_step (outcome_eq_next.mp ht)).only])
  | idxReplace r p => exact mirror_of_text h (by rw [(replaceNode_step (outcome_eq_next.mp ht)).only])
  | idxDelete p => exact mirror_of_text h (by rw [(deleteNode_step (outcome_eq_next.mp ht)).only])
  | tokLit b => exact mirror_of_text h (by rw [(packLiteral_step (outcome_eq_next.mp ht)).only])
  | tokRef pos n => exact mirror_of_text h (by rw [(packReference_step (outcome_eq_next.mp ht)).only])
  | tokNext => exact mirror_of_text h (by rw [(closeToken_step (outcome_eq_next.mp ht)).only])
  | tokFlush => exact mirror_of_text h (by rw [(flushGroup_step (outcome_eq_next.mp ht)).only])
  | encLoad => exact execEncLoad_mirror hw h ht
  | encPreinsert => exact mirror_of_text h (by rw [execEncPreinsert_frame ht])
  | encStep => exact mirror_of_text h (by rw [stepEncoder_frame (outcome_eq_next.mp ht)])
  | encAdvance => exact advanceEncoder_mirror hw h (outcome_eq_next.mp ht)
  | encDrain => exact mirror_of_text h (by rw [drainEncoder_frame (outcome_eq_next.mp ht)])
  | encFinish => exact mirror_of_text h (by rw [finishEncoder_eq_ok (outcome_eq_next.mp ht)]; rfl)
  | decCtrl => exact keptByEmission_mirror.execDecCtrl h ht
  | decLit => exact keptByEmission_mirror.execDecLit hw h ht
  | decRef => exact keptByEmission_mirror.execDecRef hw h ht
  | compress | decompress => cases ht; exact mirror_of_text h (by rw [startRun]; split <;> rfl)

/-- R119: every step. -/
theorem step_mirror (ht : step s = .next t) : Mirror t := by
  rcases step_eq_next.mp ht with ⟨i, u, hf, he⟩ | hp
  · have ports := fetch_run hf
    exact exec_mirror (ports.memWf.trans hw) (mirror_of_text h (by rw [ports])) he
  · obtain ⟨p, rfl⟩ := fetch_pass hp
    exact h

end

/-- Settles O46: START fills the ring and its mirror alike, and later writes go to both. -/
theorem everyStepKeepsTheMirror : Obligations.EveryStepKeepsTheMirror := by
  refine ⟨fun s t ht => ?_, fun s t ht => ?_, fun s t hw h ht => step_mirror hw h ht⟩
  · cases ht
    exact mirror_fillWindow s
  · cases ht
    exact mirror_fillWindow s

end Sys2Proof.Proofs
end

section
/-! The steps of an encode run, one by one, and the distance of the two cursors (R125). -/

namespace Sys2Proof.Proofs

open Sys2Proof.Machine Sys2Proof.Laws Sys2Proof.Safety

variable {s t : State}

/-! ## What a step of an encode run can do -/

/-- R116: a command presented during a run is consumed, and nothing else happens. -/
theorem step_command_of_running (ho : s.ops = []) (hc : s.cmd ≠ 0) (running : s.phase ≠ .idle) :
    step s = .next { s with cmd := 0 } := by
  obtain ⟨compress, decompress, ignored⟩ := stepRunsTheDecodedInstruction.2.2.1 s ho
  obtain ⟨-, -, turnedAway, -⟩ := commandsStartARunOnlyWhenIdle { s with cmd := 0 }
  rcases command_cases s.cmd with none | c | d | i
  · exact absurd none hc
  · exact (compress c).trans (turnedAway running).1
  · exact (decompress d).trans (turnedAway running).2
  · exact ignored i

/-- R65, R99, R116: a step from `s`, in a phase of an encode run, to `t`. -/
inductive EncodeStep (s t : State) : Prop
  | command (h : { s with cmd := 0 } = t)
  | start (phase : s.phase = .eInit) (h : startEncoder s = t)
  | load (phase : s.phase = .eLoad) (h : exec .encLoad s = .next t)
  | preinsert (phase : s.phase = .ePre) (h : exec .encPreinsert s = .next t)
  | token (phase : s.phase = .eStep) (h : stepEncoder s = .ok t)
  | advance (phase : s.phase = .eAdv) (more : s.iCnt.toNat < s.last.toNat) (left : s.ip < s.inp.length)
      (h : advanceEncoder s = .ok t)
  | drain (phase : s.phase = .eAdv) (more : s.iCnt.toNat < s.last.toNat) (ended : s.inp.length ≤ s.ip)
      (h : drainEncoder s = .ok t)
  | exit (phase : s.phase = .eAdv) (done : s.last.toNat ≤ s.iCnt.toNat)
      (h : setPhase (if s.len = 0 then .eFin else .eStep) s = t)
  | finish (phase : s.phase = .eFin) (h : finishEncoder s = .ok t)

theorem encodeStep_of_step (ho : s.ops = []) (enc : phaseMode s.phase = .enc) (ht : step s = .next t) :
    EncodeStep s t := by
  by_cases hc : s.cmd = 0
  · obtain ⟨-, eInit, eLoad, ePre, eStep, eFin, -⟩ := stepPerformsTheOperationOfPhase s ho hc
    cases hp : s.phase with
    | eInit => exact .start hp (Host.Outcome.next.inj ((eInit hp).symm.trans ht))
    | eLoad => exact .load hp ((eLoad hp).symm.trans ht)
    | ePre => exact .preinsert hp ((ePre hp).symm.trans ht)
    | eStep => exact .token hp (outcome_eq_next.mp ((eStep hp).symm.trans ht))
    | eAdv =>
      rcases Nat.lt_or_ge s.iCnt.toNat s.last.toNat with more | done
      · rcases Nat.lt_or_ge s.ip s.inp.length with left | ended
        · exact .advance hp more left (outcome_eq_next.mp ((step_advance ho hc hp more left).symm.trans ht))
        · exact .drain hp more ended (outcome_eq_next.mp ((step_drain ho hc hp more ended).symm.trans ht))
      · exact .exit hp done (Host.Outcome.next.inj ((step_exit ho hc hp done).symm.trans ht))
    | eFin => exact .finish hp (outcome_eq_next.mp ((eFin hp).symm.trans ht))
    | idle | dInit | dBit | dLit | dRef => rw [hp] at enc; cases enc
  · exact .command (Host.Outcome.next.inj ((step_command_of_running ho hc (ne_idle_of_enc enc)).symm.trans ht))

/-- R94: what ENC.LOAD changes. -/
theorem execEncLoad_frame (ht : exec .encLoad s = .next t) : t =
    { s with text := t.text, len := t.len, ip := t.ip, busy := t.busy, done := t.done, mode := t.mode,
             phase := t.phase } := by
  cases ht
  split
  all_goals
    rw [loadLookahead_frame]
    rfl

/-! ## The cursors -/

theorem cursors_of_same (h : Cursors s) (hS : t.sCur = s.sCur) (hR : t.rCur = s.rCur) : Cursors t := by
  rw [Cursors, hS, hR, h]

/-- R97, R98: both cursors move by one. -/
theorem cursors_of_next (h : Cursors s) (hS : t.sCur = s.sCur + 1) (hR : t.rCur = s.rCur + 1) : Cursors t := by
  rw [Cursors, hS, hR, h, add_right_comm]

theorem encodeStep_cursors (h : Cursors s) (ht : EncodeStep s t) : Cursors t := by
  cases ht with
  | command ht => cases ht; exact h
  | start _ ht => cases ht; exact rfl
  | load _ ht => exact cursors_of_same h (by rw [execEncLoad_frame ht]) (by rw [execEncLoad_frame ht])
  | preinsert _ ht => exact cursors_of_same h (by rw [execEncPreinsert_frame ht]) (by rw [execEncPreinsert_frame ht])
  | token _ ht => exact cursors_of_same h (by rw [stepEncoder_frame ht]) (by rw [stepEncoder_frame ht])
  | advance _ _ _ ht => exact cursors_of_next h (by rw [advanceEncoder_frame ht]) (by rw [advanceEncoder_frame ht])
  | drain _ _ _ ht => exact cursors_of_next h (by rw [drainEncoder_frame ht]) (by rw [drainEncoder_frame ht])
  | exit _ _ ht => cases ht; exact h
  | finish _ ht => cases finishEncoder_eq_ok ht; exact h

/-- Settles O48: ENC.START sets the cursors apart, the advance loop moves both, and nothing else moves either. -/
theorem encodeStepsKeepTheCursorsApart : Obligations.EncodeStepsKeepTheCursorsApart :=
  ⟨fun _ _ ht => by cases ht; exact rfl, fun _ _ ho enc h ht => encodeStep_cursors h (encodeStep_of_step ho enc ht)⟩

end Sys2Proof.Proofs
end

section
/-! What the ring holds (R118): the bytes of a stream at their places, as a function of the stream, in a decode and in
an encode run. -/

namespace Sys2Proof.Proofs

open Sys2Proof.Machine Sys2Proof.Laws Sys2Proof.Safety

variable {s t : State} {bytes : List Byte} {ring ring' : Pos → Byte}

/-! ## Places (R118) -/

/-- The ring position of stream byte number `k`. -/
def place (k : Nat) : Pos := Config.startR + BitVec.ofNat 12 k

theorem place_toNat (k : Nat) : (place k).toNat = posOf k := by
  rw [place, BitVec.toNat_add, BitVec.toNat_ofNat, Nat.add_mod_mod]
  rfl

theorem place_succ (k : Nat) : place (k + 1) = place k + 1 := by
  rw [place, place, BitVec.ofNat_add, BitVec.add_assoc]
  rfl

theorem place_eq_iff {j k : Nat} : place j = place k ↔ j % 4096 = k % 4096 := by
  rw [place, place, BitVec.add_right_inj, ← toNat_inj, BitVec.toNat_ofNat, BitVec.toNat_ofNat]

/-! ## Rings -/

/-- R118, of a ring on its own: the last N bytes of `bytes` at their places, and FILLER elsewhere. -/
structure HoldsBytes (ring : Pos → Byte) (bytes : List Byte) : Prop where
  recent : ∀ k (h : k < bytes.length), bytes.length ≤ k + 4096 → ring (place k) = bytes[k]
  unused : ∀ q, (∀ k < bytes.length, place k ≠ q) → ring q = Config.filler

theorem ringHolds_iff : RingHolds s bytes ↔ HoldsBytes (ringOfText s) bytes := by
  have at_place (k : Nat) : ringOfText s (place k) = s.textAt (posOf k) := congrArg s.textAt (place_toNat k)
  constructor
  · rintro ⟨recent, unused⟩
    refine ⟨fun k h near => (at_place k).trans (recent k h near), fun q free => unused q.toNat q.isLt fun k hk he => ?_⟩
    exact free k hk (BitVec.eq_of_toNat_eq ((place_toNat k).trans he))
  · rintro ⟨recent, unused⟩
    refine ⟨fun k h near => (at_place k).symm.trans (recent k h near), fun a ha free => ?_⟩
    have number : (BitVec.ofNat 12 a).toNat = a := (BitVec.toNat_ofNat a 12).trans (Nat.mod_eq_of_lt ha)
    have filler := unused (BitVec.ofNat 12 a) fun k hk he => free k hk (by rw [← place_toNat, he, number])
    rwa [ringOfText, number] at filler

theorem holdsBytes_nil : HoldsBytes (fun _ => Config.filler) [] :=
  ⟨fun _ h => absurd h (Nat.not_lt_zero _), fun _ _ => rfl⟩

/-- R118: the next byte goes to its place, over the byte N places before it. -/
theorem HoldsBytes.append (h : HoldsBytes ring bytes) (c : Byte) :
    HoldsBytes (ringSet ring (place bytes.length) c) (bytes ++ [c]) where
  recent k hk near := by
    rw [List.length_append, List.length_singleton] at hk near
    rcases Nat.lt_or_eq_of_le (Nat.le_of_lt_succ hk) with earlier | rfl
    · have other : place k ≠ place bytes.length := fun he => by
        have := place_eq_iff.mp he
        omega
      rw [ringSet, if_neg other, List.getElem_append_left earlier]
      exact h.recent k earlier (by omega)
    · rw [ringSet, if_pos rfl, List.getElem_concat_length rfl]
  unused q free := by
    rw [List.length_append, List.length_singleton] at free
    rw [ringSet, if_neg fun he => free _ (Nat.lt_succ_self _) he.symm]
    exact h.unused q fun k hk => free k (hk.trans (Nat.lt_succ_self _))

/-- R118: the stream fixes the ring. -/
theorem HoldsBytes.unique (h : HoldsBytes ring bytes) (h' : HoldsBytes ring' bytes) : ring = ring' := by
  funext q
  by_cases used : ∃ k < bytes.length, place k = q
  · obtain ⟨k, hk, rfl⟩ := used
    obtain ⟨j, hj, near, same⟩ : ∃ j < bytes.length, bytes.length ≤ j + 4096 ∧ place k = place j :=
      ⟨bytes.length - 1 - (bytes.length - 1 - k) % 4096, by omega, by omega, place_eq_iff.mpr (by omega)⟩
    rw [same, h.recent j hj near, h'.recent j hj near]
  · have free : ∀ k < bytes.length, place k ≠ q := fun k hk he => used ⟨k, hk, he⟩
    rw [h.unused q free, h'.unused q free]

/-- R118: the ring and the cursor depend on TEXT alone. -/
theorem ringOfText_of_text (text : t.text = s.text) : ringOfText t = ringOfText s := by
  funext q
  rw [ringOfText, ringOfText, State.textAt, State.textAt, text]

theorem ringHolds_of_text (h : RingHolds s bytes) (text : t.text = s.text) : RingHolds t bytes := by
  rw [ringHolds_iff, ringOfText_of_text text]
  exact ringHolds_iff.mp h

/-- Seen without the mirror, WIN.SET writes one byte. -/
theorem ringOfText_windowSet (hw : s.memWf = true) (p : Pos) (c : Byte) :
    ringOfText (windowSet p.toNat c s) = ringSet (ringOfText s) p c := by
  funext q
  have hq := q.isLt
  have at_q : (q.toNat = p.toNat ∨ (p.toNat < 17 ∧ q.toNat = p.toNat + 4096)) ↔ q = p := by
    rw [← toNat_inj]
    omega
  have written := windowSet_textAt hw p.toNat c q.toNat
  rw [ringAddr_pos] at written
  exact written.trans (if_congr at_q rfl rfl)

theorem ringHolds_filled (s : State) : RingHolds (fillWindow s) [] := ringHolds_iff.mpr holdsBytes_nil

/-! ## Decode mode -/

theorem decoderRing_iff : DecoderRing s ↔ HoldsBytes (ringOfText s) s.out ∧ s.rCur = place s.out.length := by
  rw [DecoderRing, ringHolds_iff, ← place_toNat, toNat_inj]

theorem keptByEmission_decoderRing : KeptByEmission DecoderRing where
  same h text out cursor := by
    rw [decoderRing_iff] at h ⊢
    rwa [ringOfText_of_text text, out, cursor]
  emit c hw h := by
    obtain ⟨holds, cursor⟩ := decoderRing_iff.mp h
    rw [decoderRing_iff, ringOfText_emitByte hw, emitByte_out, emitByte_rCur, cursor, List.length_append,
      List.length_singleton, place_succ]
    exact ⟨holds.append c, rfl⟩

/-- R118: a step of a decode run after DEC.START emits bytes. -/
theorem step_decoderRing (hw : s.memWf = true) (ho : s.ops = []) (dec : phaseMode s.phase = .dec)
    (started : s.phase ≠ .dInit) (h : DecoderRing s) (ht : step s = .next t) : DecoderRing t := by
  by_cases hc : s.cmd = 0
  · obtain ⟨-, -, -, -, -, -, -, dBit, dLit, dRef⟩ := stepPerformsTheOperationOfPhase s ho hc
    cases hp : s.phase with
    | dInit => exact absurd hp started
    | dBit => exact keptByEmission_decoderRing.execDecCtrl h ((dBit hp).symm.trans ht)
    | dLit => exact keptByEmission_decoderRing.execDecLit hw h ((dLit hp).symm.trans ht)
    | dRef => exact keptByEmission_decoderRing.execDecRef hw h ((dRef hp).symm.trans ht)
    | idle | eInit | eLoad | ePre | eStep | eAdv | eFin => rw [hp] at dec; cases dec
  · cases (step_command_of_running ho hc (ne_idle_of_dec dec)).symm.trans ht
    exact h

/-- Settles O49: DEC.START leaves FILLER everywhere and R at the place of byte 0, and each byte of OUT goes to its
place. -/
theorem decodeStepsKeepTheRingContents : Obligations.DecodeStepsKeepTheRingContents := by
  refine ⟨fun s t ht => ?_, fun s t hw ho dec started h ht => step_decoderRing hw ho dec started h ht⟩
  cases ht
  exact ⟨ringHolds_filled s, rfl⟩

/-! ## Encode mode -/

/-- R118 in encode mode: the ring holds the input read, and while input remains S is the place of its next byte. -/
structure InputInRing (s : State) : Prop where
  holds : RingHolds s (s.inp.take s.ip)
  next : s.ip < s.inp.length → s.sCur.toNat = posOf s.ip

theorem encoderRing_eLoad (hp : s.phase = .eLoad) : EncoderRing s ↔
    RingHolds s [] ∧ s.ip = 0 ∧ s.len = 0 ∧ s.sCur = 0 ∧ s.rCur = Config.startR := by
  rw [EncoderRing, hp]

/-- The phases in which S is the place of the next byte of the input. -/
theorem encoderRing_of_window (hp : s.phase = .ePre ∨ s.phase = .eStep ∨ s.phase = .eAdv) :
    EncoderRing s ↔ InputInRing s := by
  rcases hp with hp | hp | hp <;> rw [EncoderRing, hp] <;> exact ⟨fun h => ⟨h.1, h.2⟩, fun h => ⟨h.holds, h.next⟩⟩

theorem encoderRing_eFin (hp : s.phase = .eFin) : EncoderRing s ↔ RingHolds s (s.inp.take s.ip) := by
  rw [EncoderRing, hp]

theorem encoderRing_idle (hp : s.phase = .idle) : EncoderRing s := by
  rw [EncoderRing, hp]
  trivial

theorem encoderRing_holds (enc : phaseMode s.phase = .enc) (started : s.phase ≠ .eInit) (h : EncoderRing s) :
    RingHolds s (s.inp.take s.ip) := by
  cases hp : s.phase with
  | eInit => exact absurd hp started
  | eLoad =>
    obtain ⟨holds, hip, -⟩ := (encoderRing_eLoad hp).mp h
    rwa [hip, List.take_zero]
  | ePre => exact ((encoderRing_of_window (.inl hp)).mp h).holds
  | eStep => exact ((encoderRing_of_window (.inr (.inl hp))).mp h).holds
  | eAdv => exact ((encoderRing_of_window (.inr (.inr hp))).mp h).holds
  | eFin => exact (encoderRing_eFin hp).mp h
  | idle | dInit | dBit | dLit | dRef => rw [hp] at enc; cases enc

theorem InputInRing.of_same (h : InputInRing s) (text : t.text = s.text) (inp : t.inp = s.inp) (hip : t.ip = s.ip)
    (hS : t.sCur = s.sCur) : InputInRing t where
  holds := by
    rw [inp, hip]
    exact ringHolds_of_text h.holds text
  next := by
    rw [inp, hip, hS]
    exact h.next

/-- R94, R118: on an empty lookahead at the start of the input, ENC.LOAD writes each byte to its place. -/
theorem Loaded.inputInRing (h : Loaded s (loadCount s) t) (empty : RingHolds s []) (hip : s.ip = 0) (hlen : s.len = 0)
    (hS : s.sCur = 0) (hR : s.rCur = Config.startR) : InputInRing t := by
  have inp : t.inp = s.inp := by rw [h.only]
  have count : loadCount s = min 18 s.inp.length := by rw [loadCount, hip, hlen]; rfl
  have ip : t.ip = loadCount s := by rw [h.only, hip]; exact Nat.zero_add _
  have read : (s.inp.take (loadCount s)).length = loadCount s := by rw [List.length_take, count]; omega
  have at_place (k : Nat) : (s.rCur.toNat + s.len.toNat + k) % 4096 = posOf k := by rw [hR, hlen]; rfl
  have loaded := h.bytes
  have others := h.others
  simp only [at_place, hip, Nat.zero_add] at loaded others
  refine ⟨?_, ?_⟩
  · rw [inp, ip]
    refine ⟨fun k hk _ => ?_, fun a ha free => ?_⟩
    · obtain ⟨_, byte⟩ := List.getElem?_eq_some_iff.mp (loaded k (read ▸ hk))
      rw [List.getElem_take, byte]
    · rw [read] at free
      rw [(others a ha fun j hj => (free j hj).symm).1]
      exact empty.2 a ha fun _ hk => absurd hk (Nat.not_lt_zero _)
  · have sCur : t.sCur = 0 := by rw [h.only, hS]
    rw [inp, ip, sCur]
    intro more
    have full : loadCount s = 18 := by omega
    rw [full]
    rfl

/-- R72: what WIN.SET makes of TEXT depends on TEXT. -/
theorem windowSet_text (text : t.text = s.text) (pos : Nat) (c : Byte) :
    (windowSet pos c t).text = (windowSet pos c s).text := by
  unfold windowSet
  split <;> simp only [State.setText, text]

/-- R97: what ENC.ADVANCE writes to TEXT. -/
theorem advanceEncoder_text (ht : advanceEncoder s = .ok t) :
    ∃ c, s.inp[s.ip]? = some c ∧ t.text = (windowSet s.sCur.toNat c s).text := by
  obtain ⟨u, c, v, hd, hc, hi, rfl⟩ := advanceEncoder_eq_ok.mp ht
  have deleted := (deleteNode_step hd).only
  have cursor : u.sCur = s.sCur := by rw [deleted]
  have text : u.text = s.text := by rw [deleted]
  refine ⟨c, by rwa [deleted] at hc, ?_⟩
  calc v.text = (windowMoved c u).text := by rw [(insertNode_step hi).only]
    _ = (windowSet u.sCur.toNat c { u with ip := u.ip + 1 }).text := rfl
    _ = (windowSet u.sCur.toNat c s).text := windowSet_text (t := { u with ip := u.ip + 1 }) text _ c
    _ = (windowSet s.sCur.toNat c s).text := by rw [cursor]

/-- R97, R118: ENC.ADVANCE writes the next byte of the input to its place. -/
theorem InputInRing.advance (h : InputInRing s) (hw : s.memWf = true) (left : s.ip < s.inp.length)
    (ht : advanceEncoder s = .ok t) : InputInRing t := by
  obtain ⟨c, hc, text⟩ := advanceEncoder_text ht
  have inp : t.inp = s.inp := by rw [advanceEncoder_frame ht]
  have ip : t.ip = s.ip + 1 := by rw [advanceEncoder_frame ht]
  have hS : t.sCur = s.sCur + 1 := by rw [advanceEncoder_frame ht]
  have at_S : s.sCur = place s.ip := BitVec.eq_of_toNat_eq ((h.next left).trans (place_toNat _).symm)
  have read : (s.inp.take s.ip).length = s.ip := List.length_take_of_le left.le
  refine ⟨?_, fun _ => ?_⟩
  · have appended := (ringHolds_iff.mp h.holds).append c
    rw [read, ← at_S, ← ringOfText_windowSet hw] at appended
    rw [inp, ip, List.take_add_one, hc]
    exact ringHolds_of_text (ringHolds_iff.mpr appended) text
  · rw [hS, ip, at_S, ← place_succ, place_toNat]

/-- R118: every step of an encode run after ENC.START. -/
theorem encodeStep_encoderRing (hw : s.memWf = true) (enc : phaseMode s.phase = .enc) (started : s.phase ≠ .eInit)
    (h : EncoderRing s) (ht : EncodeStep s t) : EncoderRing t ∧ RingHolds t (t.inp.take t.ip) := by
  have window {u : State} (hp : u.phase = .ePre ∨ u.phase = .eStep ∨ u.phase = .eAdv) (law : InputInRing u) :
      EncoderRing u ∧ RingHolds u (u.inp.take u.ip) := ⟨(encoderRing_of_window hp).mpr law, law.holds⟩
  cases ht with
  | command ht => cases ht; exact ⟨h, encoderRing_holds enc started h⟩
  | start hp => exact absurd hp started
  | load hp ht =>
    obtain ⟨empty, hip, hlen, hS, hR⟩ := (encoderRing_eLoad hp).mp h
    obtain ⟨u, loaded, hu⟩ := execEncLoad_loaded hw
    have law := loaded.inputInRing empty hip hlen hS hR
    cases hu.symm.trans ht
    split
    · exact ⟨encoderRing_idle rfl, law.holds⟩
    · exact window (.inl rfl) ⟨law.holds, law.next⟩
  | preinsert hp ht =>
    have law := (encoderRing_of_window (.inl hp)).mp h
    have frame := execEncPreinsert_frame ht
    exact window (.inr (.inl (by rw [frame]))) (law.of_same (by rw [frame]) (by rw [frame]) (by rw [frame])
      (by rw [frame]))
  | token hp ht =>
    have law := (encoderRing_of_window (.inr (.inl hp))).mp h
    have frame := stepEncoder_frame ht
    exact window (.inr (.inr (by rw [frame]))) (law.of_same (by rw [frame]) (by rw [frame]) (by rw [frame])
      (by rw [frame]))
  | advance hp _ left ht =>
    have law := (encoderRing_of_window (.inr (.inr hp))).mp h
    exact window (.inr (.inr (by rw [advanceEncoder_frame ht, hp]))) (law.advance hw left ht)
  | drain hp _ ended ht =>
    have law := (encoderRing_of_window (.inr (.inr hp))).mp h
    have frame := drainEncoder_frame ht
    refine window (.inr (.inr (by rw [frame, hp]))) ⟨?_, fun left => ?_⟩
    · have same : t.text = s.text ∧ t.inp = s.inp ∧ t.ip = s.ip := by rw [frame]; exact ⟨rfl, rfl, rfl⟩
      rw [same.2.1, same.2.2]
      exact ringHolds_of_text law.holds same.1
    · rw [frame] at left
      exact absurd left (Nat.not_lt.mpr ended)
  | exit hp _ ht =>
    have law := (encoderRing_of_window (.inr (.inr hp))).mp h
    cases ht
    split
    · exact ⟨law.holds, law.holds⟩
    · exact window (.inr (.inl rfl)) ⟨law.holds, law.next⟩
  | finish hp ht =>
    have holds := (encoderRing_eFin hp).mp h
    cases finishEncoder_eq_ok ht
    exact ⟨encoderRing_idle rfl, holds⟩

/-- Settles O50: ENC.START leaves FILLER everywhere, ENC.LOAD and ENC.ADVANCE write each byte of the input to its place,
and no other step writes TEXT. -/
theorem encodeStepsKeepTheRingContents : Obligations.EncodeStepsKeepTheRingContents := by
  refine ⟨fun s t ht => ?_, fun s t hw ho enc started h ht =>
    encodeStep_encoderRing hw enc started h (encodeStep_of_step ho enc ht)⟩
  cases ht
  exact ⟨ringHolds_filled s, rfl, rfl, rfl, rfl⟩

end Sys2Proof.Proofs
end

section
/-! The search trees through an encode run (R121, R123, R155): ENC.ADVANCE writes TEXT at S when S is no node, and no
key of another position of the window holds that byte. -/

namespace Sys2Proof.Proofs

open Sys2Proof.Machine Sys2Proof.Laws Sys2Proof.Safety

variable {s t u : State} {c : Byte} {p : Pos}

/-! ## Trees and keys -/

/-- R121: the order is one of the keys of the nodes. -/
theorem searchTrees_of_sameKeys (h : SearchTrees s) (same : SameLinks s t) (keys : ∀ p, IsNode s p → SameKey s p t p) :
    SearchTrees t := by
  obtain ⟨f, hf, sorted⟩ := h
  exact ⟨f, forest_of_sameLinks hf same, fun b => sorted_of_sameKeys (sorted b) id (List.map_id _).symm fun p hp =>
    keys p ((hf.node_iff p).mpr ⟨b, hp⟩)⟩

theorem searchTrees_of_text (h : SearchTrees s) (same : SameLinks s t) (text : t.text = s.text) : SearchTrees t :=
  searchTrees_of_sameKeys h same fun p _ => sameKey_of_text (fun x => by rw [State.textAt, State.textAt, text]) p

theorem searchTrees_of_emptyIndex (h : EmptyIndex s) : SearchTrees s :=
  ⟨_, forest_of_emptyIndex h, sorted_leaf s⟩

/-- R123, R155: the last byte of the key of `S + 4078` is that of `S + 4095`, so a key of the rest of the window holds
neither the byte at `S` nor its mirror. -/
theorem sameKey_windowSet {sCur : Pos} (hw : s.memWf = true) (other : p ≠ sCur) (inside : (p - sCur).toNat ≤ 4078)
    (c : Byte) : SameKey s p (windowSet sCur.toNat c s) p := by
  intro i hi
  have apart : p.toNat ≠ sCur.toNat := fun he => other (BitVec.eq_of_toNat_eq he)
  rw [windowSet_textAt hw, if_neg]
  rw [ringAddr_pos, keyAddr]
  have := p.isLt
  have := sCur.isLt
  rw [BitVec.toNat_sub] at inside
  show ¬ (p.toNat + i = sCur.toNat ∨ sCur.toNat < 17 ∧ p.toNat + i = sCur.toNat + 4096)
  omega

/-! ## Before IDX.INSERT of `R` -/

/-- R95, R97, R98: what holds of the state in which the sequencer inserts `R`. -/
structure BeforeInsert (s : State) : Prop where
  mem_wf : s.memWf = true
  trees : SearchTrees s
  window : WindowLaw s

/-- R95: the loop of ENC.PREINSERT. -/
theorem insertBack_searchTrees (n : Nat) : ∀ {i : Nat} {s : State}, s.memWf = true → SearchTrees s →
    insertBack n i s = .ok t → SearchTrees t := by
  induction n with
  | zero =>
    intro i s _ h ht
    cases ht
    exact h
  | succ n ih =>
    intro i s hw h ht
    obtain ⟨u, hu, ht⟩ := bind_eq_ok.mp ht
    exact ih ((insertNode_step hu).mem_wf hw) (insertNode_searchTrees hw h hu) ht

/-- R95, R123: on the empty index the positions inserted back from `R` lie in the window. -/
theorem members_preinserted (hw : s.memWf = true) (empty : EmptyIndex s) (cursors : Cursors s) :
    Members (preinserted s 18) := by
  have free : ∀ i ≤ 18, ¬ IsNode s (s.rCur - BitVec.ofNat 12 i) := fun _ _ => not_not_intro (empty.parents _)
  have spec := preinserted_spec hw (treeLaw_of_emptyIndex empty) free (show 18 ≤ 19 by decide)
  intro z hz
  obtain ⟨j, -, rfl⟩ := (spec.nodes z hz).resolve_left (not_not_intro (empty.parents z))
  obtain ⟨i, hi, he⟩ := exists_preinsertPos s.rCur j
  have hS : (preinserted s 18).sCur = s.sCur := by rw [spec.only]
  rw [he, hS, cursors]
  simp only [Config.startR, Config.N, Config.F]
  bv_omega

/-- R95: before its last insertion ENC.PREINSERT has made eighteen. -/
theorem preinsert_beforeInsert (hw : s.memWf = true) (empty : EmptyIndex s) (cursors : Cursors s)
    (ht : exec .encPreinsert s = .next t) :
    ∃ u v, OnlyIndex s u ∧ BeforeInsert u ∧ insertNode u.rCur u = .ok v ∧ setPhase .eStep v = t := by
  have trees := treeLaw_of_emptyIndex empty
  have free : ∀ i ≤ 18, ¬ IsNode s (s.rCur - BitVec.ofNat 12 i) := fun _ _ => not_not_intro (empty.parents _)
  have spec := preinserted_spec hw trees free (show 18 ≤ 19 by decide)
  have inserted : insertBack 18 1 s = .ok (preinserted s 18) :=
    insertBack_preinserted hw trees free 18 (k := 0) (by decide)
  have members := members_preinserted hw empty cursors
  generalize preinserted s 18 = u at spec inserted members
  obtain ⟨u', hu, last⟩ := bind_eq_ok.mp (outcome_eq_next.mp ht)
  obtain ⟨v, hv, phase⟩ := bind_eq_ok.mp last
  obtain rfl := Except.ok.inj (inserted.symm.trans hu)
  have searchTrees := insertBack_searchTrees 18 hw (searchTrees_of_emptyIndex empty) inserted
  have apart : Cursors u := cursors_of_same cursors (by rw [spec.only]) (by rw [spec.only])
  exact ⟨u, v, spec.only, ⟨spec.mem_wf, searchTrees, ⟨spec.trees, members, apart⟩⟩, hv, Except.ok.inj phase⟩

section
variable (h : BeforeInsert s)
include h

/-- R97, R155: ENC.ADVANCE has taken `S` out of its tree before it writes TEXT there. -/
theorem BeforeInsert.advance (ht : advanceEncoder s = .ok t) :
    ∃ u v, BeforeInsert u ∧ insertNode u.rCur u = .ok v ∧ { v with iCnt := nextCount v.iCnt } = t := by
  obtain ⟨u, c, v, hd, -, hi, ht⟩ := advanceEncoder_eq_ok.mp ht
  obtain ⟨u', hu', forest, nodes⟩ := deleteNode_treeLaw h.mem_wf h.window.trees s.sCur
  cases hu'.symm.trans hd
  obtain ⟨only, hwu⟩ := deleteNode_step hd
  have cursor : u.sCur = s.sCur := by rw [only]
  have same : SameLinks u (windowMoved c u) := by rw [windowMoved_frame]; exact ⟨rfl, rfl, rfl⟩
  have hS : (windowMoved c u).sCur = s.sCur + 1 := by rw [windowMoved_frame, cursor]
  have hR : (windowMoved c u).rCur = s.rCur + 1 := by rw [windowMoved_frame, only]
  refine ⟨windowMoved c u, v, ⟨?_, ?_, (h.window.slide forest nodes same hS hR).1⟩, hi, ht⟩
  · exact memWf_windowSet (s := { u with ip := u.ip + 1 }) (hwu h.mem_wf) _ c
  · refine searchTrees_of_sameKeys (deleteNode_searchTrees h.mem_wf h.trees hd) same fun p hp => ?_
    obtain ⟨old, other⟩ := nodes p hp
    rw [← cursor] at other
    have inside := h.window.members p old
    rw [← cursor] at inside
    exact sameKey_windowSet (s := { u with ip := u.ip + 1 }) (hwu h.mem_wf) other inside c

/-- R98: ENC.DRAIN inserts `R` unless the lookahead is empty. -/
theorem BeforeInsert.drain (ht : drainEncoder s = .ok t) :
    ∃ u, BeforeInsert u ∧ (u = t ∧ t.len = 0 ∨ insertNode u.rCur u = .ok t) := by
  obtain ⟨-, u, hd, ht⟩ := drainEncoder_eq_ok.mp ht
  have counted : WindowLaw { s with iCnt := nextCount s.iCnt } := h.window.of_same ⟨rfl, rfl, rfl⟩ rfl rfl
  obtain ⟨u', hu', hwu, window, -⟩ := WindowLaw.drained (s := { s with iCnt := nextCount s.iCnt }) h.mem_wf counted
  cases hu'.symm.trans hd
  have trees := deleteNode_searchTrees (s := { s with iCnt := nextCount s.iCnt }) h.mem_wf
    (searchTrees_of_text h.trees ⟨rfl, rfl, rfl⟩ rfl) hd
  refine ⟨windowDrained u, ⟨hwu, searchTrees_of_text trees ⟨rfl, rfl, rfl⟩ rfl, window⟩, ?_⟩
  exact ht.imp (fun ⟨last, he⟩ => ⟨he, he ▸ last⟩) And.right

end

/-! ## Steps -/

/-- R121: every step of an encode run after ENC.START. -/
theorem encodeStep_searchTrees (law : RunLaw s) (started : s.phase ≠ .eInit) (h : SearchTrees s)
    (ht : EncodeStep s t) : SearchTrees t := by
  have untouched (same : SameLinks s t ∧ t.text = s.text) : SearchTrees t := searchTrees_of_text h same.1 same.2
  cases ht with
  | command ht => cases ht; exact untouched ⟨⟨rfl, rfl, rfl⟩, rfl⟩
  | start hp => exact absurd hp started
  | load hp ht =>
    obtain ⟨-, empty, -⟩ := (encoderLaw_eLoad hp).mp law.encoder
    refine searchTrees_of_emptyIndex (emptyIndex_of_sameLinks empty ?_)
    rw [execEncLoad_frame ht]
    exact ⟨rfl, rfl, rfl⟩
  | preinsert hp ht =>
    obtain ⟨-, empty, -, cursors, -⟩ := (encoderLaw_ePre hp).mp law.encoder
    obtain ⟨u, v, -, before, hv, rfl⟩ := preinsert_beforeInsert law.mem_wf empty cursors ht
    exact searchTrees_of_text (insertNode_searchTrees before.mem_wf before.trees hv) ⟨rfl, rfl, rfl⟩ rfl
  | token _ ht =>
    refine untouched ?_
    rw [stepEncoder_frame ht]
    exact ⟨⟨rfl, rfl, rfl⟩, rfl⟩
  | advance hp _ _ ht =>
    obtain ⟨-, window, -⟩ := (encoderLaw_eAdv hp).mp law.encoder
    obtain ⟨u, v, before, hv, rfl⟩ := BeforeInsert.advance ⟨law.mem_wf, h, window⟩ ht
    exact searchTrees_of_text (insertNode_searchTrees before.mem_wf before.trees hv) ⟨rfl, rfl, rfl⟩ rfl
  | drain hp _ _ ht =>
    obtain ⟨-, window, -⟩ := (encoderLaw_eAdv hp).mp law.encoder
    obtain ⟨u, before, ⟨rfl, -⟩ | hi⟩ := BeforeInsert.drain ⟨law.mem_wf, h, window⟩ ht
    · exact before.trees
    · exact insertNode_searchTrees before.mem_wf before.trees hi
  | exit _ _ ht => cases ht; exact untouched ⟨⟨rfl, rfl, rfl⟩, rfl⟩
  | finish _ ht =>
    cases finishEncoder_eq_ok ht
    exact untouched ⟨⟨rfl, rfl, rfl⟩, rfl⟩

/-- Settles O51: ENC.START leaves empty trees, and later steps insert and delete; the byte ENC.ADVANCE writes is in no
key of a node. -/
theorem encodeStepsKeepTheSearchOrder : Obligations.EncodeStepsKeepTheSearchOrder := by
  refine ⟨fun s t _ ht => ?_, fun s t law enc started h ht =>
    encodeStep_searchTrees law started h (encodeStep_of_step law.no_ops enc ht)⟩
  cases ht
  exact searchTrees_of_emptyIndex (emptyIndex_startEncoder s)

end Sys2Proof.Proofs
end

section
/-! What the loop of R109 makes of the bytes of tokens: the ring as a function of the output so far, and bytes that code
a piece of it. -/

namespace Sys2Proof.Proofs

open Sys2Proof.Machine Sys2Proof.Laws Sys2Proof.Safety

variable {s : State} {done more : List Byte} {kinds : List Bool} {bytes : List Byte}

/-! ## The ring after an output -/

/-- A ring with the bytes of a list written from position `p` on. -/
def writeRing (ring : Pos → Byte) (p : Pos) : List Byte → Pos → Byte
  | [] => ring
  | c :: cs => writeRing (ringSet ring p c) (p + 1) cs

/-- R118: the ring after the output `bytes`. -/
def ringAfter (bytes : List Byte) : Pos → Byte := writeRing (fun _ => Config.filler) (place 0) bytes

theorem place_add (j k : Nat) : place j + BitVec.ofNat 12 k = place (j + k) := by
  rw [place, place, BitVec.add_assoc, ← BitVec.ofNat_add]

theorem writeRing_concat (c : Byte) (cs : List Byte) : ∀ (ring : Pos → Byte) (p : Pos),
    writeRing ring p (cs ++ [c]) = ringSet (writeRing ring p cs) (p + BitVec.ofNat 12 cs.length) c := by
  induction cs with
  | nil => intro ring p; rw [List.length_nil, BitVec.add_zero]; rfl
  | cons b cs ih =>
    intro ring p
    rw [List.length_cons, ← pos_add_one_add]
    exact ih _ _

theorem ringAfter_concat (bytes : List Byte) (c : Byte) :
    ringAfter (bytes ++ [c]) = ringSet (ringAfter bytes) (place bytes.length) c := by
  rw [ringAfter, writeRing_concat, place_add, Nat.zero_add]
  rfl

theorem holdsBytes_ringAfter (bytes : List Byte) : HoldsBytes (ringAfter bytes) bytes := by
  induction bytes using List.reverseRecOn with
  | nil => exact holdsBytes_nil
  | append_singleton bytes c ih =>
    rw [ringAfter_concat]
    exact ih.append c

theorem ringOfText_eq_ringAfter (h : RingHolds s bytes) : ringOfText s = ringAfter bytes :=
  (ringHolds_iff.mp h).unique (holdsBytes_ringAfter bytes)

/-- R118: bytes written later change no other place than theirs. -/
theorem ringAfter_append_of_ne (bytes more : List Byte) {q : Pos}
    (other : ∀ k < more.length, place (bytes.length + k) ≠ q) : ringAfter (bytes ++ more) q = ringAfter bytes q := by
  induction more using List.reverseRecOn with
  | nil => rw [List.append_nil]
  | append_singleton more c ih =>
    rw [List.length_append, List.length_singleton] at other
    rw [← List.append_assoc, ringAfter_concat, List.length_append, ringSet,
      if_neg (other _ (Nat.lt_succ_self _)).symm]
    exact ih fun k hk => other k (hk.trans (Nat.lt_succ_self _))

/-- R106: a copy that finds the next bytes of the output, each after the ones before it are written, gives them. -/
theorem ringCopy_ringAfter (more : List Byte) : ∀ (done : List Byte) (src : Pos),
    (∀ i (h : i < more.length), ringAfter (done ++ more.take i) (src + BitVec.ofNat 12 i) = more[i]) →
    ringCopy (ringAfter done) src (place done.length) more.length = (more, ringAfter (done ++ more)) := by
  induction more with
  | nil => intro done src _; rw [List.append_nil]; rfl
  | cons c cs ih =>
    intro done src found
    have first : ringAfter done src = c := by
      have at0 := found 0 (Nat.zero_lt_succ _)
      rwa [List.take_zero, List.append_nil, BitVec.add_zero] at at0
    have rest := ih (done ++ [c]) (src + 1) fun i hi => by
      have later := found (i + 1) (Nat.succ_lt_succ hi)
      rw [List.take_succ_cons, ← List.singleton_append, ← List.append_assoc, ← pos_add_one_add] at later
      exact later
    rw [ringAfter_concat, List.length_append, List.length_singleton, place_succ, List.append_assoc,
      List.singleton_append] at rest
    rw [List.length_cons, ringCopy, first, rest]

/-! ## Tokens that code an output -/

/-- R109: what the loop gives after the output `done`, with the control bits `bits` not yet consumed. -/
def decodeAfter (done : List Byte) (bits : List Bool) (input : List Byte) : List Byte :=
  decodeStream (ringAfter done) (place done.length) bits input

theorem decompress_eq_decodeAfter (input : List Byte) : decompress input = decodeAfter [] [] input := rfl

/-- R62: no input gives no output, whatever control bits are left. -/
theorem decodeAfter_no_input (done : List Byte) (bits : List Bool) : decodeAfter done bits [] = [] := by
  cases bits with
  | nil => rfl
  | cons bit _ => cases bit <;> rfl

/-- R104: where the bits are used up the next byte is a control byte. -/
theorem decodeAfter_control (done : List Byte) (c : Byte) (input : List Byte) :
    decodeAfter done [] (c :: input) = decodeAfter done (controlBits c) input := rfl

/-- Tokens of the kinds `kinds` with the bytes `bytes` code the output `more` after the output `done`, whatever control
bits and bytes follow. -/
def Codes (done : List Byte) (kinds : List Bool) (bytes more : List Byte) : Prop :=
  ∀ bits rest, decodeAfter done (kinds ++ bits) (bytes ++ rest) = more ++ decodeAfter (done ++ more) bits rest

theorem Codes.nil (done : List Byte) : Codes done [] [] [] := fun bits rest => by
  rw [List.append_nil]
  rfl

theorem Codes.append {kinds' : List Bool} {bytes' more' : List Byte} (h : Codes done kinds bytes more)
    (h' : Codes (done ++ more) kinds' bytes' more') :
    Codes done (kinds ++ kinds') (bytes ++ bytes') (more ++ more') := fun bits rest => by
  rw [List.append_assoc, List.append_assoc, h, h', List.append_assoc, List.append_assoc]

/-- R105: a literal codes its byte. -/
theorem codes_literal (done : List Byte) (c : Byte) : Codes done [true] [c] [c] := fun bits rest => by
  show c :: decodeStream (ringSet (ringAfter done) (place done.length) c) (place done.length + 1) bits rest =
    c :: decodeAfter (done ++ [c]) bits rest
  rw [decodeAfter, ringAfter_concat, List.length_append, List.length_singleton, place_succ]

/-- R58, R106: a reference codes the bytes its copy finds. -/
theorem codes_reference {pos : Pos} (coded : codedLen more.length)
    (found : ∀ i (h : i < more.length), ringAfter (done ++ more.take i) (pos + BitVec.ofNat 12 i) = more[i]) :
    Codes done [false] [refByte0 pos, refByte1 pos more.length] more := fun bits rest => by
  show decodeStream (ringAfter done) (place done.length) (false :: bits) (_ :: _ :: rest) = _
  rw [decodeStream, refPos_refBytes pos coded.2, refLen_refByte1 pos coded, ringCopy_ringAfter more done pos found,
    place_add, decodeAfter, List.length_append]

/-! ## Control bytes (R54, R92) -/

theorem testBit_kindBits (kinds : List Bool) : ∀ i, (kindBits kinds).testBit i = kinds.getD i false := by
  induction kinds with
  | nil => intro i; rw [kindBits, Nat.zero_testBit]; rfl
  | cons k ks ih =>
    intro i
    have low := Bool.toNat_le k
    cases i with
    | zero => cases k <;> simp [kindBits, Nat.testBit_zero]
    | succ i =>
      rw [kindBits, Nat.testBit_succ, List.getD_cons_succ, ← ih]
      congr 1
      omega

/-- R92, R104: the control byte of tokens of the kinds `kinds` gives them back, and 0 for the slots left. -/
theorem controlBits_of_kindBits {c : Byte} (h : c.toNat = kindBits kinds) (few : kinds.length ≤ 8) :
    controlBits c = kinds ++ List.replicate (8 - kinds.length) false := by
  refine List.ext_getElem (by simp [controlBits]; omega) fun i hi hi' => ?_
  have bit : c.getLsbD i = kinds.getD i false := by rw [← testBit_kindBits, ← h]; rfl
  simp only [controlBits, List.getElem_map, List.getElem_range]
  rw [bit, List.getElem_append, List.getD_eq_getElem?_getD]
  split
  case isTrue inside => rw [List.getElem?_eq_getElem inside, Option.getD_some]
  case isFalse outside => rw [List.getElem?_eq_none (Nat.not_lt.mp outside), List.getElem_replicate, Option.getD_none]

end Sys2Proof.Proofs
end

section
/-! OUT and the group held as a code of the input (R92, R109, R132): the tokens packed so far, each group of eight
behind its control byte. -/

namespace Sys2Proof.Proofs

open Sys2Proof.Machine Sys2Proof.Laws Sys2Proof.Safety

variable {s t u : State} {done more w bs data : List Byte} {kinds : List Bool} {kind : Bool} {b : Byte}

/-! ## The bytes of the group held (R15) -/

/-- The bytes of the tokens held: those of CODEBUF below CODEPTR, after the control byte. -/
def heldBytes (s : State) : List Byte := (List.range (s.codePtr.toNat - 1)).map fun i => s.codeAt (i + 1)

theorem heldBytes_length (s : State) : (heldBytes s).length = s.codePtr.toNat - 1 := by
  rw [heldBytes, List.length_map, List.length_range]

/-- R90, R91: what is written out is the control byte and the bytes held. -/
theorem groupBytes_eq_cons (pos : 0 < s.codePtr.toNat) :
    (List.range s.codePtr.toNat).map s.codeAt = s.codeAt 0 :: heldBytes s := by
  obtain ⟨n, hn⟩ := Nat.exists_eq_add_of_lt pos
  rw [Nat.zero_add] at hn
  rw [heldBytes, hn, List.range_succ_eq_map, List.map_cons, List.map_map]
  rfl

theorem heldBytes_pushCode (hw : s.memWf = true) (pos : 0 < s.codePtr.toNat) (room : s.codePtr.toNat ≤ 16) (b : Byte) :
    heldBytes (pushCode b s) = heldBytes s ++ [b] := by
  obtain ⟨n, hn⟩ := Nat.exists_eq_add_of_lt pos
  rw [Nat.zero_add] at hn
  rw [heldBytes, heldBytes, pushCode_codePtr room, hn, Nat.add_sub_cancel, Nat.add_sub_cancel, List.range_succ,
    List.map_append, List.map_singleton, pushCode_codeAt hw, if_pos hn.symm]
  congr 1
  refine List.map_congr_left fun i hi => ?_
  have below := List.mem_range.mp hi
  rw [pushCode_codeAt hw, if_neg (by omega)]

/-- R88: the control byte is none of them. -/
theorem heldBytes_setControl (hw : s.memWf = true) (v : Byte) : heldBytes (s.setCode 0 v) = heldBytes s :=
  List.map_congr_left fun i _ => by rw [codeAt_setCode hw, if_neg (Nat.succ_ne_zero i)]

/-! ## One token more (R88, R89) -/

/-- `t` holds one token more than `s`, of kind `kind` and with the bytes `bs`, its slot not closed yet. -/
structure Packed (s t : State) (kinds : List Bool) (kind : Bool) (bs : List Byte) : Prop where
  holds : HoldsPacked t (kinds ++ [kind])
  bytes : heldBytes t = heldBytes s ++ bs
  step : TokenStep s t
  out : t.out = s.out

section
variable (hw : s.memWf = true) (group : HoldsGroup s kinds) (few : kinds.length ≤ 7)
include hw group few

theorem packed_literal (ht : packLiteral b s = .ok t) : Packed s t kinds true [b] := by
  obtain ⟨t', ht', holds⟩ := tokLit_holdsPacked hw group few b
  cases (outcome_eq_next.mp ht').symm.trans ht
  obtain ⟨room, he⟩ := packLiteral_eq_ok.mp ht
  have positive : 0 < s.codePtr.toNat := codePtr_pos_of_holdsGroup group
  have control := memWf_setCode hw (show entryExists .codebuf 0 = true by decide) (s.codeAt 0 ||| s.mask)
  refine ⟨holds, ?_, packLiteral_step ht, ?_⟩
  · rw [← he, heldBytes_pushCode control positive room, heldBytes_setControl hw]
  · rw [← he]
    rfl

theorem packed_reference {pos : Pos} {n : Nat} (ht : packReference pos n s = .ok t) :
    Packed s t kinds false [refByte0 pos, refByte1 pos n] := by
  obtain ⟨coded, room, he⟩ := packReference_eq_ok.mp ht
  obtain ⟨t', ht', holds⟩ := tokRef_holdsPacked hw group few pos coded.1 coded.2
  cases (outcome_eq_next.mp ht').symm.trans ht
  have positive := codePtr_pos_of_holdsGroup group
  have ptr := pushCode_codePtr (show s.codePtr.toNat ≤ 16 by omega) (refByte0 pos)
  have first := (pushCode_step (show s.codePtr.toNat ≤ 16 by omega) (refByte0 pos)).mem_wf hw
  refine ⟨holds, ?_, packReference_step ht, ?_⟩
  · rw [← he, heldBytes_pushCode first (by omega) (by omega), heldBytes_pushCode hw positive (by omega),
      List.append_assoc]
    rfl
  · rw [← he]
    rfl

end

/-! ## The code (R109, R132) -/

/-- R109, R132: the full groups in OUT code `done`, the `kinds` tokens held code `more` after it, a token for each byte
coded at most, and a byte for it at most. -/
structure Coding (s : State) (done : List Byte) (kinds : List Bool) (more : List Byte) : Prop where
  out_codes : ∀ rest, decodeAfter [] [] (s.out ++ rest) = done ++ decodeAfter done [] rest
  out_short : 8 * s.out.length ≤ 9 * done.length
  few : kinds.length ≤ 7
  group : HoldsGroup s kinds
  codes : Codes done kinds (heldBytes s) more
  short : kinds.length ≤ more.length ∧ kindBytes kinds ≤ more.length

/-- R109, R132: OUT and the group held are a code of `data`. -/
def Coded (s : State) (data : List Byte) : Prop := ∃ done kinds more, Coding s done kinds more ∧ done ++ more = data

theorem holdsGroup_of_sameGroup (h : HoldsGroup s kinds) (same : SameGroup s t) : HoldsGroup t kinds := by
  obtain ⟨mask, ptr, code⟩ := same
  refine ⟨mask.trans h.mask_eq, by rw [ptr, h.codePtr_eq], ?_⟩
  rw [State.codeAt, code]
  exact h.control_eq

theorem heldBytes_of_sameGroup (same : SameGroup s t) : heldBytes t = heldBytes s := by
  obtain ⟨-, ptr, code⟩ := same
  rw [heldBytes, heldBytes, ptr]
  exact List.map_congr_left fun i _ => by rw [State.codeAt, State.codeAt, code]

theorem coding_of_same (h : Coding s done kinds more) (same : SameGroup s t) (out : t.out = s.out) :
    Coding t done kinds more where
  out_codes := by rw [out]; exact h.out_codes
  out_short := by rw [out]; exact h.out_short
  few := h.few
  group := holdsGroup_of_sameGroup h.group same
  codes := by rw [heldBytes_of_sameGroup same]; exact h.codes
  short := h.short

theorem Coded.of_same (h : Coded s data) (same : SameGroup s t) (out : t.out = s.out) : Coded t data := by
  obtain ⟨done, kinds, more, coding, he⟩ := h
  exact ⟨done, kinds, more, coding_of_same coding same out, he⟩

/-- R93: as ENC.START leaves them, OUT and the group code nothing. -/
theorem coded_start (group : HoldsGroup s []) (out : s.out = []) : Coded s [] := by
  have none : heldBytes s = [] := List.eq_nil_of_length_eq_zero (by rw [heldBytes_length, group.codePtr_eq]; rfl)
  refine ⟨[], [], [], ⟨fun rest => by rw [out]; rfl, by rw [out]; rfl, Nat.zero_le _, group, ?_, by decide⟩, rfl⟩
  rw [none]
  exact .nil []

/-- R92: a full group of eight tokens begins with the control byte of their kinds. -/
theorem controlBits_of_holdsGroup (h : HoldsGroup s kinds) (few : kinds.length ≤ 8) :
    controlBits (s.codeAt 0) = kinds ++ List.replicate (8 - kinds.length) false :=
  controlBits_of_kindBits h.control_eq few

/-- R90: with the eighth token the group goes to OUT behind its control byte. -/
theorem coding_full (hw : s.memWf = true) (group : HoldsPacked s kinds) (eight : kinds.length = 8)
    (out_codes : ∀ rest, decodeAfter [] [] (s.out ++ rest) = done ++ decodeAfter done [] rest)
    (out_short : 8 * s.out.length ≤ 9 * done.length) (codes : Codes done kinds (heldBytes s) more)
    (short : kinds.length ≤ more.length ∧ kindBytes kinds ≤ more.length) :
    Coding (resetGroup (appendAll (s.codeAt 0 :: heldBytes s) s)) (done ++ more) [] [] := by
  have bits : controlBits (s.codeAt 0) = kinds ++ [] := by
    have all := controlBits_of_holdsGroup (s := { s with mask := shiftMask s.mask }) group eight.le
    rw [eight] at all
    exact all
  have ptr : s.codePtr.toNat = 1 + kindBytes kinds := group.codePtr_eq
  have reset := holdsGroup_resetGroup (s := appendAll (s.codeAt 0 :: heldBytes s) s) hw
  refine ⟨fun rest => ?_, ?_, Nat.zero_le _, reset, .nil _, by decide⟩
  · show decodeAfter [] [] ((s.out ++ _) ++ rest) = _
    rw [List.append_assoc, out_codes, List.cons_append, decodeAfter_control, bits, codes, List.append_assoc]
  · show 8 * (s.out ++ _).length ≤ _
    rw [List.length_append, List.length_append, List.length_cons, heldBytes_length]
    omega

/-- R88 to R90: a token that codes `w` is packed and its slot closed. -/
theorem Coded.token (h : Coded s data) (hw : s.memWf = true)
    (pack : ∀ kinds, HoldsGroup s kinds → kinds.length ≤ 7 → Packed s t kinds kind bs) (codes : Codes data [kind] bs w)
    (short : bs.length ≤ w.length) (size : bs.length = if kind then 1 else 2) (close : closeToken t = .ok u) :
    Coded u (data ++ w) := by
  obtain ⟨done, kinds, more, h, rfl⟩ := h
  have packed := pack kinds h.group h.few
  have held : Codes done (kinds ++ [kind]) (heldBytes t) (more ++ w) := by
    rw [packed.bytes]
    exact h.codes.append codes
  have positive : 1 ≤ bs.length := by rw [size]; split <;> decide
  have counted : (kinds ++ [kind]).length ≤ (more ++ w).length ∧ kindBytes (kinds ++ [kind]) ≤ (more ++ w).length := by
    have := h.short
    rw [kindBytes_append, ← size, List.length_append, List.length_append, List.length_singleton]
    omega
  have out_codes := h.out_codes
  have out_short := h.out_short
  rw [← packed.out] at out_codes out_short
  have mask : shiftMask t.mask = 1 <<< (kinds.length + 1) :=
    packed.holds.mask_eq.trans (by rw [List.length_append]; rfl)
  rw [List.append_assoc]
  by_cases full : kinds.length = 7
  · have eight : (kinds ++ [kind]).length = 8 := by rw [List.length_append, full]; rfl
    have ptr : t.codePtr.toNat ≤ 1 + 2 * (kinds ++ [kind]).length :=
      codePtr_le_of_holdsGroup (s := { t with mask := shiftMask t.mask }) packed.holds
    have some : 0 < t.codePtr.toNat := codePtr_pos_of_holdsGroup (s := { t with mask := shiftMask t.mask }) packed.holds
    have closed := closeToken_of_full (show shiftMask t.mask = 0 by rw [mask, full]; rfl) (by omega)
    rw [groupBytes_eq_cons some] at closed
    cases closed.symm.trans close
    refine ⟨_, [], [], coding_full (packed.step.mem_wf hw) packed.holds eight out_codes out_short held counted, ?_⟩
    rw [List.append_nil]
  · have room : shiftMask t.mask ≠ 0 := by
      intro zero
      have := one_shiftLeft_toNat (n := kinds.length + 1) (by have := h.few; omega)
      rw [← mask, zero] at this
      exact absurd this (Nat.two_pow_pos _).ne
    cases (closeToken_of_room room).symm.trans close
    refine ⟨done, kinds ++ [kind], more ++ w, ⟨out_codes, out_short, ?_, packed.holds, held, counted⟩, rfl⟩
    have := h.few
    rw [List.length_append, List.length_singleton]
    omega

/-- R109, R132: the output ENC.FINISH leaves decodes to what it codes, and is longer by at most a byte for every
eight. -/
theorem Coded.flushed (h : Coded s data) :
    decompress (flushedOut s) = data ∧ (flushedOut s).length ≤ data.length + (data.length + 7) / 8 := by
  obtain ⟨done, kinds, more, h, rfl⟩ := h
  have ptr := h.group.codePtr_eq
  have length := heldBytes_length s
  have out_short := h.out_short
  rw [flushedOut, decompress_eq_decodeAfter, List.length_append]
  cases kinds with
  | nil =>
    rw [if_neg (by rw [ptr]; decide)]
    have none : more = [] := by
      have codes := h.codes [] []
      rw [List.eq_nil_of_length_eq_zero (length.trans (by rw [ptr]; rfl))] at codes
      exact (List.append_eq_nil_iff.mp (codes.symm.trans (decodeAfter_no_input done []))).1
    have all := h.out_codes []
    rw [List.append_nil, decodeAfter_no_input, List.append_nil] at all
    refine ⟨by rw [all, none, List.append_nil], ?_⟩
    omega
  | cons k ks =>
    have one : 1 ≤ kindBytes (k :: ks) := by
      rw [kindBytes]
      split <;> omega
    obtain ⟨enough, bytes⟩ := h.short
    rw [List.length_cons] at enough
    have control := controlBits_of_holdsGroup h.group (h.few.trans (by decide))
    rw [if_pos (by omega), groupBytes_eq_cons (by omega)]
    constructor
    · have coded := h.codes (List.replicate (8 - (k :: ks).length) false) []
      rw [decodeAfter_no_input, List.append_nil, List.append_nil] at coded
      rw [h.out_codes, decodeAfter_control, control, coded]
    · rw [List.length_append, List.length_cons]
      omega

end Sys2Proof.Proofs
end

section
/-! A COMPRESS run as a code of its input (R92, R118, R124, R125): what holds of OUT, the group, the lookahead and the
match in each phase, and that ENC.STEP adds the token of the bytes at R. -/

namespace Sys2Proof.Proofs

open Sys2Proof.Machine Sys2Proof.Laws Sys2Proof.Safety

variable {s t u v : State} {m : Nat}

/-! ## The match (R80, R124) -/

/-- R80, R124: a match long enough for a reference is with a position of the window before R, whose key begins with as
many bytes of the key of R as it reports. -/
def ValidMatch (s : State) : Prop :=
  2 < s.matchLen.toNat → (s.matchPos - s.sCur).toNat ≤ 4078 ∧ s.matchPos ≠ s.rCur ∧
    ∀ i < s.matchLen.toNat, s.textAt (keyAddr s.matchPos i) = s.textAt (keyAddr s.rCur i)

/-- R81, R124: IDX.INSERT of `R` leaves such a match. -/
theorem BeforeInsert.validMatch (h : BeforeInsert u) (hv : insertNode u.rCur u = .ok v) : ValidMatch v := by
  intro long
  have only := (insertNode_step hv).only
  obtain ⟨v', hv', -, -, -, -, -, valid⟩ :=
    insertReportsAValidMatch u u.rCur _ h.mem_wf h.trees (not_node_of_insertNode hv) rfl
  cases (outcome_eq_next.mp hv').symm.trans hv
  obtain ⟨node, other, agree, -⟩ := valid (by omega)
  have hS : v.sCur = u.sCur := by rw [only]
  have hR : v.rCur = u.rCur := by rw [only]
  have text (a : Nat) : v.textAt a = u.textAt a := by rw [only]; rfl
  simp only [hS, hR, text]
  exact ⟨h.window.members _ node, other, agree⟩

/-- R124: the match is one of TEXT, the cursors and the match registers, and a shorter match is one too. -/
theorem ValidMatch.of_shorter (h : ValidMatch s) (text : t.text = s.text) (hS : t.sCur = s.sCur) (hR : t.rCur = s.rCur)
    (pos : t.matchPos = s.matchPos) (len : 2 < t.matchLen.toNat → t.matchLen.toNat ≤ s.matchLen.toNat) :
    ValidMatch t := by
  intro long
  have shorter := len long
  obtain ⟨inside, other, agree⟩ := h (long.trans_le shorter)
  rw [hS, hR, pos]
  refine ⟨inside, other, fun i hi => ?_⟩
  rw [State.textAt, State.textAt, text]
  exact agree i (hi.trans_le shorter)

/-! ## The lookahead (R18, R94, R97, R98) -/

/-- R18, R125: the LEN bytes of the input before IP stand from R on, and there are F of them while input remains. -/
structure Lookahead (s : State) : Prop where
  len_le : s.len.toNat ≤ s.ip
  ip_le : s.ip ≤ s.inp.length
  full : s.ip < s.inp.length → s.len.toNat = 18
  cursor : s.rCur = place (s.ip - s.len.toNat)

theorem Lookahead.of_same (h : Lookahead s) (len : t.len = s.len) (ip : t.ip = s.ip) (inp : t.inp = s.inp)
    (hR : t.rCur = s.rCur) : Lookahead t where
  len_le := by rw [len, ip]; exact h.len_le
  ip_le := by rw [ip, inp]; exact h.ip_le
  full := by rw [len, ip, inp]; exact h.full
  cursor := by rw [len, ip, hR]; exact h.cursor

/-- The bytes of the input in tokens: those before the lookahead. -/
def codedInput (s : State) : List Byte := s.inp.take (s.ip - s.len.toNat)

/-- R123, R125: the positions from R on lie outside the window but for R itself. -/
theorem ne_of_cursors (cursors : Cursors s) {p : Pos} (inside : (p - s.sCur).toNat ≤ 4078) (other : p ≠ s.rCur)
    {k : Nat} (hk : k < 18) : s.rCur + BitVec.ofNat 12 k ≠ p := by
  rintro rfl
  rcases Nat.eq_zero_or_pos k with rfl | pos
  · exact other (BitVec.add_zero _)
  · rw [cursors, BitVec.add_assoc, BitVec.add_comm, BitVec.add_sub_cancel, BitVec.toNat_add,
      BitVec.toNat_ofNat] at inside
    change (4078 + k % 4096) % 4096 ≤ 4078 at inside
    omega

section
variable (look : Lookahead s) (short : s.len.toNat ≤ 18) (holds : RingHolds s (s.inp.take s.ip))
include look short holds

/-- R118: byte `i` of the lookahead. -/
theorem lookahead_byte {i : Nat} (hi : i < s.len.toNat) :
    s.inp[s.ip - s.len.toNat + i]? = some (ringOfText s (s.rCur + BitVec.ofNat 12 i)) := by
  have len_le := look.len_le
  have read : (s.inp.take s.ip).length = s.ip := List.length_take_of_le look.ip_le
  have byte := (ringHolds_iff.mp holds).recent (s.ip - s.len.toNat + i) (by omega) (by omega)
  rw [look.cursor, place_add, byte, List.getElem_take, List.getElem?_eq_getElem]

/-- R106, R124: where the decoder has written the bytes of the match before byte `i`, the copy finds byte `i` there: the
encoder's ring differs from the decoder's in the rest of the lookahead only, and that is not where the copy reads. -/
theorem copy_finds (window : WindowLaw s) (mirror : Mirror s) (valid : ValidMatch s) (long : 2 < s.matchLen.toNat)
    {i : Nat} (hm : i < s.matchLen.toNat) (hi : i < s.len.toNat) :
    s.inp[s.ip - s.len.toNat + i]? =
      some (ringAfter (s.inp.take (s.ip - s.len.toNat + i)) (s.matchPos + BitVec.ofNat 12 i)) := by
  obtain ⟨inside, other, agree⟩ := valid long
  have len_le := look.len_le
  have ip_le := look.ip_le
  have same : ringOfText s (s.rCur + BitVec.ofNat 12 i) = ringOfText s (s.matchPos + BitVec.ofNat 12 i) := by
    have linear {p : Pos} : p.toNat + i ≤ 4112 := by have := p.isLt; omega
    rw [ringOfText_add, ringOfText_add, ← textAt_mod_of_mirror mirror linear, ← textAt_mod_of_mirror mirror linear]
    exact (agree i hm).symm
  have split : s.inp.take s.ip =
      s.inp.take (s.ip - s.len.toNat + i) ++ (s.inp.drop (s.ip - s.len.toNat + i)).take (s.len.toNat - i) := by
    rw [← List.take_add]
    congr 1
    omega
  rw [lookahead_byte look short holds hi, same, ringOfText_eq_ringAfter holds, split, ringAfter_append_of_ne]
  intro k hk
  have before : k < s.len.toNat - i := hk.trans_le (List.length_take_le _ _)
  rw [List.length_take_of_le (by omega), Nat.add_assoc, ← place_add, ← look.cursor, Nat.add_comm, BitVec.ofNat_add,
    ← BitVec.add_assoc, Ne, BitVec.add_left_inj]
  exact ne_of_cursors window.cursors inside other (by omega)

/-! ## The token of ENC.STEP (R96) -/

/-- R96, step 2: the byte at R, as a literal. -/
theorem codes_byte_at_R (low : 1 ≤ s.len.toNat) :
    s.inp.take (s.ip - s.len.toNat + 1) = codedInput s ++ [s.textAt s.rCur.toNat] := by
  have byte := lookahead_byte look short holds low
  rw [Nat.add_zero, BitVec.add_zero] at byte
  rw [List.take_add_one, byte]
  rfl

/-- R96, step 3: the match, cut to the lookahead, as a reference. -/
theorem codes_match (window : WindowLaw s) (mirror : Mirror s) (valid : ValidMatch s)
    (hm : m = min s.matchLen.toNat s.len.toNat) (long : 2 < m) : ∃ w : List Byte, w.length = m ∧
      s.inp.take (s.ip - s.len.toNat + m) = codedInput s ++ w ∧
      Codes (codedInput s) [false] [refByte0 s.matchPos, refByte1 s.matchPos m] w := by
  have len_le := look.len_le
  have ip_le := look.ip_le
  have length : ((s.inp.drop (s.ip - s.len.toNat)).take m).length = m :=
    List.length_take_of_le (by rw [List.length_drop]; omega)
  refine ⟨(s.inp.drop (s.ip - s.len.toNat)).take m, length, List.take_add, ?_⟩
  have coded := codes_reference (done := codedInput s) (pos := s.matchPos)
    (more := (s.inp.drop (s.ip - s.len.toNat)).take m) (by rw [length]; exact ⟨long, show m ≤ 18 by omega⟩)
    fun i hi => ?_
  · rwa [length] at coded
  · rw [length] at hi
    have found := copy_finds look short holds window mirror valid (by omega) (show i < s.matchLen.toNat by omega)
      (show i < s.len.toNat by omega)
    rw [List.take_take, Nat.min_eq_left hi.le, codedInput, ← List.take_add, List.getElem_take, List.getElem_drop]
    exact (List.getElem_eq_iff _).mpr found |>.symm

/-- R96: ENC.STEP packs the token of the bytes at R, and sets the advance count to their number. -/
theorem stepEncoder_coded (hw : s.memWf = true) (low : 1 ≤ s.len.toNat) (hlen : s.matchLen.toNat ≤ 18)
    (window : WindowLaw s) (mirror : Mirror s) (valid : ValidMatch s) (coded : Coded s (codedInput s))
    (ht : stepEncoder s = .ok t) :
    Coded t (s.inp.take (s.ip - s.len.toNat + t.last.toNat)) ∧
      (2 < t.matchLen.toNat → t.matchLen.toNat ≤ s.matchLen.toNat) := by
  obtain ⟨t', hp, ht⟩ := bind_eq_ok.mp ht
  obtain ⟨u, hu, ht⟩ := bind_eq_ok.mp ht
  cases ht
  generalize hm : min s.matchLen.toNat s.len.toNat = m
  suffices token : Coded u (s.inp.take (s.ip - s.len.toNat + u.matchLen.toNat)) ∧
      (2 < u.matchLen.toNat → u.matchLen.toNat ≤ s.matchLen.toNat) from
    ⟨token.1.of_same ⟨rfl, rfl, rfl⟩ rfl, token.2⟩
  rcases Nat.lt_or_ge 2 m with long | few
  · obtain ⟨w, length, split, codes⟩ := codes_match look short holds window mirror valid hm.symm long
    rw [packToken_of_long hm.symm long] at hp
    have len : u.matchLen = BitVec.ofNat 5 m := by rw [((packReference_step hp).trans (closeToken_step hu)).only]
    have number : u.matchLen.toNat = m := by rw [len, BitVec.toNat_ofNat]; omega
    have start : Coded { s with matchLen := BitVec.ofNat 5 m } (codedInput s) := coded.of_same ⟨rfl, rfl, rfl⟩ rfl
    rw [number, split]
    refine ⟨start.token hw (fun kinds group few => ?_) codes (length.symm ▸ long.le) rfl hu, fun _ => by omega⟩
    exact packed_reference (s := { s with matchLen := BitVec.ofNat 5 m }) hw group few hp
  · rw [packToken_of_short hm.symm few] at hp
    have len : u.matchLen = 1 := by rw [((packLiteral_step hp).trans (closeToken_step hu)).only]
    have start : Coded { s with matchLen := 1 } (codedInput s) := coded.of_same ⟨rfl, rfl, rfl⟩ rfl
    rw [len]
    show Coded u (s.inp.take (s.ip - s.len.toNat + 1)) ∧ _
    rw [codes_byte_at_R look short holds low]
    refine ⟨start.token hw (fun kinds group few => ?_) (codes_literal _ _) (Nat.le_refl 1) rfl hu,
      fun more => absurd more (by decide)⟩
    exact packed_literal (s := { s with matchLen := 1 }) hw group few hp

end

end Sys2Proof.Proofs
end

section
/-! COMPRESS and DECOMPRESS of one input (R127, R128, R132): the law of each phase of a COMPRESS run, kept by every
step, and what it says of OUT at the end. -/

namespace Sys2Proof.Proofs

open Sys2Proof.Machine Sys2Proof.Laws Sys2Proof.Safety

variable {s t : State} {input : List Byte}

/-! ## The law of each phase -/

/-- What OUT, the group and the lookahead are of the input in each phase. In the advance loop the bytes of the last
token count as coded, though R has not passed all of them. -/
def CodingLaw (s : State) : Prop :=
  match s.phase with
  | .eLoad => Coded s []
  | .ePre => Lookahead s ∧ Coded s (codedInput s)
  | .eStep => Lookahead s ∧ ValidMatch s ∧ Coded s (codedInput s)
  | .eAdv => Lookahead s ∧ (s.len ≠ 0 → ValidMatch s) ∧
      Coded s (s.inp.take (s.ip - s.len.toNat + (s.last.toNat - s.iCnt.toNat)))
  | .eFin => Coded s s.inp
  | .idle => decompress s.out = s.inp ∧ s.out.length ≤ s.inp.length + (s.inp.length + 7) / 8
  | .eInit | .dInit | .dBit | .dLit | .dRef => False

theorem codingLaw_eLoad (hp : s.phase = .eLoad) : CodingLaw s ↔ Coded s [] := by rw [CodingLaw, hp]

theorem codingLaw_ePre (hp : s.phase = .ePre) : CodingLaw s ↔ Lookahead s ∧ Coded s (codedInput s) := by
  rw [CodingLaw, hp]

theorem codingLaw_eStep (hp : s.phase = .eStep) :
    CodingLaw s ↔ Lookahead s ∧ ValidMatch s ∧ Coded s (codedInput s) := by rw [CodingLaw, hp]

theorem codingLaw_eAdv (hp : s.phase = .eAdv) : CodingLaw s ↔ Lookahead s ∧ (s.len ≠ 0 → ValidMatch s) ∧
    Coded s (s.inp.take (s.ip - s.len.toNat + (s.last.toNat - s.iCnt.toNat))) := by rw [CodingLaw, hp]

theorem codingLaw_eFin (hp : s.phase = .eFin) : CodingLaw s ↔ Coded s s.inp := by rw [CodingLaw, hp]

theorem codingLaw_idle (hp : s.phase = .idle) : CodingLaw s ↔
    decompress s.out = s.inp ∧ s.out.length ≤ s.inp.length + (s.inp.length + 7) / 8 := by rw [CodingLaw, hp]

/-- A state of a COMPRESS run after ENC.START, with all that the run keeps. -/
structure Encoding (s : State) : Prop where
  run : Compressing s
  mirror : Mirror s
  ring : EncoderRing s
  trees : SearchTrees s
  coding : CodingLaw s

theorem Encoding.started (h : Encoding s) : s.phase ≠ .eInit := fun hp => by
  have coding := h.coding
  rw [CodingLaw, hp] at coding
  exact coding

/-! ## Steps -/

/-- The law of OUT and the group says nothing of other registers. -/
theorem Coded.congr {data data' : List Byte} (h : Coded s data) (same : SameGroup s t) (out : t.out = s.out)
    (he : data' = data) : Coded t data' := he ▸ h.of_same same out

theorem codedInput_of_same (inp : t.inp = s.inp) (ip : t.ip = s.ip) (len : t.len = s.len) :
    codedInput t = codedInput s := by rw [codedInput, codedInput, inp, ip, len]

/-- R116: no step of a run changes IN. -/
theorem encodeStep_inp (ht : EncodeStep s t) : t.inp = s.inp := by
  cases ht with
  | command ht | start _ ht | exit _ _ ht => cases ht; rfl
  | load _ ht => rw [execEncLoad_frame ht]
  | preinsert _ ht => rw [execEncPreinsert_frame ht]
  | token _ ht => rw [stepEncoder_frame ht]
  | advance _ _ _ ht => rw [advanceEncoder_frame ht]
  | drain _ _ _ ht => rw [drainEncoder_frame ht]
  | finish _ ht => cases finishEncoder_eq_ok ht; rfl

section
variable (h : Encoding s)
include h

/-- R94, R101: ENC.LOAD fills the lookahead, or finds the input empty. -/
theorem Encoding.load (hp : s.phase = .eLoad) (ht : exec .encLoad s = .next t) : CodingLaw t := by
  obtain ⟨-, hip, hlen, -, hR⟩ := (encoderRing_eLoad hp).mp h.ring
  have coded := (codingLaw_eLoad hp).mp h.coding
  have count : loadCount s = min 18 s.inp.length := by rw [loadCount, hip, hlen]; rfl
  obtain ⟨u, loaded, hu⟩ := execEncLoad_loaded h.run.law.mem_wf
  have len : u.len.toNat = loadCount s := by rw [loaded.len_eq, hlen]; exact Nat.zero_add _
  have ip : u.ip = loadCount s := by rw [loaded.only, hip]; exact Nat.zero_add _
  have inp : u.inp = s.inp := by rw [loaded.only]
  have cursor : u.rCur = place 0 := by rw [loaded.only, hR]; rfl
  have same : Coded u [] := coded.of_same (by rw [loaded.only]; exact ⟨rfl, rfl, rfl⟩) (by rw [loaded.only])
  cases hu.symm.trans ht
  split
  case isTrue none =>
    have empty : u.inp = [] := by
      rw [none] at len
      exact List.eq_nil_of_length_eq_zero (by rw [inp]; change 0 = _ at len; omega)
    obtain ⟨done, kinds, more, coding, nothing⟩ := same
    have out : u.out = [] := by
      have short := coding.out_short
      rw [(List.append_eq_nil_iff.mp nothing).1, List.length_nil] at short
      exact List.eq_nil_of_length_eq_zero (by omega)
    refine (codingLaw_idle rfl).mpr ?_
    show decompress u.out = u.inp ∧ u.out.length ≤ _
    rw [out, empty]
    exact ⟨rfl, Nat.zero_le _⟩
  case isFalse =>
    refine (codingLaw_ePre rfl).mpr ⟨?_, same.congr ⟨rfl, rfl, rfl⟩ rfl ?_⟩
    · refine Lookahead.of_same (s := u) ⟨by omega, by rw [inp]; omega, fun left => ?_, ?_⟩ rfl rfl rfl rfl
      · rw [inp] at left
        omega
      · rw [cursor, ip, len, Nat.sub_self]
    · show u.inp.take (u.ip - u.len.toNat) = []
      rw [ip, len, Nat.sub_self, List.take_zero]

/-- R95: ENC.PREINSERT leaves the match of R. -/
theorem Encoding.preinsert (hp : s.phase = .ePre) (ht : exec .encPreinsert s = .next t) : CodingLaw t := by
  obtain ⟨look, coded⟩ := (codingLaw_ePre hp).mp h.coding
  obtain ⟨-, empty, -, cursors, -⟩ := (encoderLaw_ePre hp).mp h.run.law.encoder
  obtain ⟨u, v, -, before, hv, he⟩ := preinsert_beforeInsert h.run.law.mem_wf empty cursors ht
  have found := before.validMatch hv
  have valid : ValidMatch t := by rw [← he]; exact found
  have frame := execEncPreinsert_frame ht
  have len : t.len = s.len := by rw [frame]
  have ip : t.ip = s.ip := by rw [frame]
  have inp : t.inp = s.inp := by rw [frame]
  refine (codingLaw_eStep (by rw [frame])).mpr ⟨look.of_same len ip inp (by rw [frame]), valid, ?_⟩
  exact coded.congr (by rw [frame]; exact ⟨rfl, rfl, rfl⟩) (by rw [frame]) (codedInput_of_same inp ip len)

/-- R96: ENC.STEP packs a token of the bytes at R. -/
theorem Encoding.token (hp : s.phase = .eStep) (ht : stepEncoder s = .ok t) : CodingLaw t := by
  obtain ⟨look, valid, coded⟩ := (codingLaw_eStep hp).mp h.coding
  obtain ⟨-, window, low, high, hlen⟩ := (encoderLaw_eStep hp).mp h.run.law.encoder
  have holds := ((encoderRing_of_window (.inr (.inl hp))).mp h.ring).holds
  obtain ⟨coded', shorter⟩ :=
    stepEncoder_coded look high holds h.run.law.mem_wf low hlen window h.mirror valid coded ht
  have frame := stepEncoder_frame ht
  have len : t.len = s.len := by rw [frame]
  have ip : t.ip = s.ip := by rw [frame]
  have inp : t.inp = s.inp := by rw [frame]
  have count : t.iCnt = 0 := by rw [frame]
  refine (codingLaw_eAdv (by rw [frame])).mpr ⟨look.of_same len ip inp (by rw [frame]), fun _ => ?_, ?_⟩
  · exact valid.of_shorter (by rw [frame]) (by rw [frame]) (by rw [frame]) (by rw [frame]) shorter
  · rw [inp, ip, len, count]
    exact coded'

/-- R97, R98: each step of the advance loop moves R past one more of the bytes coded. -/
theorem Encoding.moved (hp : s.phase = .eAdv) (more : s.iCnt.toNat < s.last.toNat) (only : OnlyMoved s t)
    (look : Lookahead t) (valid : t.len ≠ 0 → ValidMatch t)
    (past : t.ip - t.len.toNat = s.ip - s.len.toNat + 1) : CodingLaw t := by
  obtain ⟨-, -, coded⟩ := (codingLaw_eAdv hp).mp h.coding
  have inp : t.inp = s.inp := by rw [only]
  have last : t.last = s.last := by rw [only]
  have count : t.iCnt.toNat = s.iCnt.toNat + 1 := by
    have : t.iCnt = nextCount s.iCnt := by rw [only]
    rw [this, nextCount_toNat (by omega)]
  refine (codingLaw_eAdv (by rw [only, hp])).mpr ⟨look, valid, ?_⟩
  refine coded.congr (by rw [only]; exact ⟨rfl, rfl, rfl⟩) (by rw [only]) ?_
  rw [inp, past, last, count]
  congr 1
  omega

theorem Encoding.beforeInsert (hp : s.phase = .eAdv) : BeforeInsert s :=
  ⟨h.run.law.mem_wf, h.trees, ((encoderLaw_eAdv hp).mp h.run.law.encoder).2.1⟩

/-- R97: ENC.ADVANCE. -/
theorem Encoding.advance (hp : s.phase = .eAdv) (more : s.iCnt.toNat < s.last.toNat) (left : s.ip < s.inp.length)
    (ht : advanceEncoder s = .ok t) : CodingLaw t := by
  obtain ⟨look, -⟩ := (codingLaw_eAdv hp).mp h.coding
  obtain ⟨u, v, before, hv, he⟩ := (h.beforeInsert hp).advance ht
  have found := before.validMatch hv
  have valid : ValidMatch t := by rw [← he]; exact found
  have frame := advanceEncoder_frame ht
  have only : OnlyMoved s t := by rw [frame]; rfl
  have len : t.len = s.len := by rw [frame]
  have ip : t.ip = s.ip + 1 := by rw [frame]
  have inp : t.inp = s.inp := by rw [frame]
  have hR : t.rCur = s.rCur + 1 := by rw [frame]
  have len_le := look.len_le
  have past : t.ip - t.len.toNat = s.ip - s.len.toNat + 1 := by rw [ip, len]; omega
  refine h.moved hp more only ⟨?_, ?_, fun _ => ?_, ?_⟩ (fun _ => valid) past
  · rw [len, ip]
    omega
  · rw [ip, inp]
    exact left
  · rw [len, look.full left]
  · rw [past, place_succ, ← look.cursor, hR]

/-- R98: ENC.DRAIN. -/
theorem Encoding.drain (hp : s.phase = .eAdv) (more : s.iCnt.toNat < s.last.toNat) (ended : s.inp.length ≤ s.ip)
    (ht : drainEncoder s = .ok t) : CodingLaw t := by
  obtain ⟨look, -⟩ := (codingLaw_eAdv hp).mp h.coding
  obtain ⟨u, before, inserted⟩ := (h.beforeInsert hp).drain ht
  have frame := drainEncoder_frame ht
  have only : OnlyMoved s t := by rw [frame]; rfl
  have held : 1 ≤ s.len.toNat :=
    Nat.one_le_iff_ne_zero.mpr fun h0 => (drainEncoder_eq_ok.mp ht).1 (BitVec.eq_of_toNat_eq h0)
  have len : t.len.toNat = s.len.toNat - 1 := by
    have : t.len = s.len - 1 := by rw [frame]
    rw [this]
    exact BitVec.toNat_sub_of_le held
  have ip : t.ip = s.ip := by rw [frame]
  have inp : t.inp = s.inp := by rw [frame]
  have hR : t.rCur = s.rCur + 1 := by rw [frame]
  have len_le := look.len_le
  have past : t.ip - t.len.toNat = s.ip - s.len.toNat + 1 := by rw [ip, len]; omega
  refine h.moved hp more only ⟨?_, ?_, fun left => ?_, ?_⟩ (fun some => ?_) past
  · rw [len, ip]
    omega
  · rw [ip, inp]
    exact look.ip_le
  · rw [ip, inp] at left
    omega
  · rw [past, place_succ, ← look.cursor, hR]
  · exact before.validMatch (inserted.resolve_left fun last => some last.2)

/-- R99: at the exit test R has passed every byte coded; with an empty lookahead these are the whole input. -/
theorem Encoding.exit (hp : s.phase = .eAdv) (moved : s.last.toNat ≤ s.iCnt.toNat) :
    CodingLaw (setPhase (if s.len = 0 then .eFin else .eStep) s) := by
  obtain ⟨look, valid, coded⟩ := (codingLaw_eAdv hp).mp h.coding
  rw [Nat.sub_eq_zero_of_le moved, Nat.add_zero] at coded
  split
  case isTrue none =>
    have all : s.inp.length ≤ s.ip := by
      by_contra left
      have full := look.full (Nat.not_le.mp left)
      rw [none] at full
      exact absurd full (by decide)
    refine (codingLaw_eFin rfl).mpr (coded.congr ⟨rfl, rfl, rfl⟩ rfl ?_)
    rw [none]
    exact (List.take_of_length_le all).symm
  case isFalse some =>
    refine (codingLaw_eStep rfl).mpr ⟨look.of_same rfl rfl rfl rfl, ?_, coded.congr ⟨rfl, rfl, rfl⟩ rfl rfl⟩
    exact valid some

/-- R100: ENC.FINISH. -/
theorem Encoding.finish (hp : s.phase = .eFin) (ht : finishEncoder s = .ok t) : CodingLaw t := by
  have flushed := ((codingLaw_eFin hp).mp h.coding).flushed
  cases finishEncoder_eq_ok ht
  exact (codingLaw_idle rfl).mpr flushed

/-- Every step of the run keeps the law of its phase. -/
theorem Encoding.codingLaw (ht : EncodeStep s t) : CodingLaw t := by
  cases ht with
  | command ht =>
    have same : { s with cmd := 0 } = s := by
      rw [← h.run.no_cmd]
    rw [← ht, same]
    exact h.coding
  | start hp => exact absurd hp h.started
  | load hp ht => exact h.load hp ht
  | preinsert hp ht => exact h.preinsert hp ht
  | token hp ht => exact h.token hp ht
  | advance hp more left ht => exact h.advance hp more left ht
  | drain hp more ended ht => exact h.drain hp more ended ht
  | exit hp moved ht => exact ht ▸ h.exit hp moved
  | finish hp ht => exact h.finish hp ht

/-- Every step of the run keeps all of it, and the input. -/
theorem Encoding.preserved (ht : step s = .next t) : Encoding t ∧ t.inp = s.inp := by
  by_cases hp : s.phase = .idle
  · have stay := (stepPerformsTheOperationOfPhase s h.run.law.no_ops h.run.no_cmd).1 hp
    cases stay.symm.trans ht
    exact ⟨h, rfl⟩
  · have law := h.run.law
    have enc : phaseMode s.phase = .enc := h.run.phase.resolve_right fun ended => hp ended.1
    have encodes := encodeStep_of_step law.no_ops enc ht
    exact ⟨⟨h.run.preserved ht, step_mirror law.mem_wf h.mirror ht,
      (encodeStep_encoderRing law.mem_wf enc h.started h.ring encodes).1,
      encodeStep_searchTrees law h.started h.trees encodes, h.codingLaw encodes⟩, encodeStep_inp encodes⟩

end

/-! ## The run -/

/-- R93: ENC.START. -/
theorem encoding_startEncoder (h : Idle s) (input : List Byte) : Encoding (startEncoder (compressStart input s)) where
  run := (compressing_compressStart h input).preserved (step_compressStart h)
  mirror := mirror_fillWindow (compressStart input s)
  ring := encodeStepsKeepTheRingContents.1 (compressStart input s) _ rfl
  trees := searchTrees_of_emptyIndex (emptyIndex_startEncoder _)
  coding := by
    have reset := holdsGroup_resetGroup
      (memWf_clearIndex (memWf_fillWindow (compressing_compressStart h input).law.mem_wf))
    exact (codingLaw_eLoad rfl).mpr (coded_start (holdsGroup_of_sameGroup reset ⟨rfl, rfl, rfl⟩) rfl)

/-- R127, R132: where a COMPRESS run has ended. -/
theorem compressed_of_ends (h : Idle s) (ht : Ends 1 input s t) :
    decompress t.out = input ∧ t.out.length ≤ input.length + (input.length + 7) / 8 := by
  obtain ⟨k, hk⟩ := run_startEncoder_of_ends h ht
  obtain ⟨-, -, ended, -⟩ := ht
  have keep : ∀ u v, Encoding u ∧ u.inp = input → step u = .next v → Encoding v ∧ v.inp = input :=
    fun _ _ ⟨law, inp⟩ hv => ⟨(law.preserved hv).1, (law.preserved hv).2.trans inp⟩
  obtain ⟨law, inp⟩ := run_keeps keep k ⟨encoding_startEncoder h input, rfl⟩ hk
  rw [← inp]
  exact (codingLaw_idle ended).mp law.coding

/-- Settles O57: each group of eight tokens is one byte longer than they are, which are no longer than the bytes they
code. -/
theorem compressExpandsByAtMostOneEighth : Obligations.CompressExpandsByAtMostOneEighth := fun _ _ _ h ht =>
  (compressed_of_ends h ht).2

/-- Settles O58: OUT codes the input token by token, and a DECOMPRESS run computes the function of R109. -/
theorem decompressInvertsCompress : Obligations.DecompressInvertsCompress := fun s t input h ht => by
  have inverse := (compressed_of_ends h ht).1
  have idle : Idle t := ((compressTerminates s input h).2 t ht).2
  exact ⟨inverse, fun u hu => ((decompressComputesTheRule t t.out idle).2 u hu).1.trans inverse⟩

/-- Settles O53: COMPRESS has no byte of output to give by its bound, and the loop of DECOMPRESS no byte to read. -/
theorem emptyInputGivesEmptyOutput : Obligations.EmptyInputGivesEmptyOutput := by
  intro s c h command
  have waits {t : State} (idle : Idle t) : t.busy = false := by
    rw [← Bool.not_eq_true, idle.control.busy_iff]
    exact not_not_intro idle.phase_eq
  rcases command with rfl | rfl
  · obtain ⟨runs, ended⟩ := compressTerminates s [] h
    refine ⟨runs, fun t ht => ⟨?_, (ended t ht).1, waits (ended t ht).2⟩⟩
    exact List.eq_nil_of_length_eq_zero (Nat.le_zero.mp (compressExpandsByAtMostOneEighth s t [] h ht))
  · obtain ⟨runs, ended⟩ := decompressComputesTheRule s [] h
    refine ⟨runs, fun t ht => ?_⟩
    obtain ⟨out, done, idle⟩ := ended t ht
    exact ⟨out, done, waits idle⟩

end Sys2Proof.Proofs
end

section
/-! Every step of a run the host starts (R136): it completes and keeps the laws of the run, whether it takes a command,
waits, encodes or decodes. -/

namespace Sys2Proof.Proofs

open Sys2Proof.Machine Sys2Proof.Laws Sys2Proof.Safety

variable {s t : State}

/-! ## The law of the phase -/

/-- Outside an encode run the encoder is under no law. -/
theorem encoderLaw_of_not_enc (h : phaseMode s.phase ≠ .enc) : EncoderLaw s := by
  rw [EncoderLaw]
  cases hp : s.phase with
  | idle | dInit | dBit | dLit | dRef => trivial
  | eInit | eLoad | ePre | eStep | eAdv | eFin => rw [hp] at h; exact absurd rfl h

/-- R116: the law says nothing of the port. -/
theorem encoderLaw_command_consumed (h : EncoderLaw s) : EncoderLaw { s with cmd := 0 } := by
  have group (held : GroupLaw s) : GroupLaw { s with cmd := 0 } := groupLaw_of_sameGroup held ⟨rfl, rfl, rfl⟩
  have empty (cleared : EmptyIndex s) : EmptyIndex { s with cmd := 0 } :=
    emptyIndex_of_sameLinks cleared ⟨rfl, rfl, rfl⟩
  have window (law : WindowLaw s) : WindowLaw { s with cmd := 0 } := law.of_same ⟨rfl, rfl, rfl⟩ rfl rfl
  obtain ⟨p, hp, taken⟩ : ∃ p, s.phase = p ∧ State.phase { s with cmd := 0 } = p := ⟨_, rfl, rfl⟩
  cases p with
  | eInit => rw [EncoderLaw, taken]; trivial
  | eLoad =>
    obtain ⟨held, cleared, rest⟩ := (encoderLaw_eLoad hp).mp h
    exact (encoderLaw_eLoad taken).mpr ⟨group held, empty cleared, rest⟩
  | ePre =>
    obtain ⟨held, cleared, rest⟩ := (encoderLaw_ePre hp).mp h
    exact (encoderLaw_ePre taken).mpr ⟨group held, empty cleared, rest⟩
  | eStep =>
    obtain ⟨held, law, rest⟩ := (encoderLaw_eStep hp).mp h
    exact (encoderLaw_eStep taken).mpr ⟨group held, window law, rest⟩
  | eAdv =>
    obtain ⟨held, law, rest⟩ := (encoderLaw_eAdv hp).mp h
    exact (encoderLaw_eAdv taken).mpr ⟨group held, window law, rest⟩
  | eFin => exact (encoderLaw_eFin taken).mpr (group ((encoderLaw_eFin hp).mp h))
  | idle | dInit | dBit | dLit | dRef => exact encoderLaw_of_not_enc (by rw [taken]; decide)

/-! ## Steps -/

/-- The next step completes and keeps the laws of the run. -/
def StaysInRun (s : State) : Prop := ∃ t, step s = .next t ∧ RunLaw t

section
variable (law : RunLaw s)
include law

/-- The form of the memories (R35) and the status combinations (R115) are kept by every step. -/
theorem staysInRun_of_step (ht : step s = .next t) (ports : t.ops = s.ops) (encoder : EncoderLaw t) : StaysInRun s :=
  ⟨t, ht, ports.trans law.no_ops, step_memWf law.mem_wf ht, step_control law.control law.no_ops ht, encoder⟩

/-- R112 to R114, R116: a step that takes a command starts a run, or changes the port alone. -/
theorem staysInRun_command (hc : s.cmd ≠ 0) : StaysInRun s := by
  rcases eq_or_ne s.phase .idle with idle | running
  · obtain ⟨compress, decompress, ignored⟩ := stepRunsTheDecodedInstruction.2.2.1 s law.no_ops
    obtain ⟨encodes, decodes, -⟩ := commandsStartARunOnlyWhenIdle { s with cmd := 0 }
    rcases command_cases s.cmd with none | c | d | i
    · exact absurd none hc
    · exact staysInRun_of_step law ((compress c).trans (encodes idle)) rfl trivial
    · exact staysInRun_of_step law ((decompress d).trans (decodes idle)) rfl trivial
    · exact staysInRun_of_step law (ignored i) rfl (encoderLaw_command_consumed law.encoder)
  · exact staysInRun_of_step law (step_command_of_running law.no_ops hc running) rfl
      (encoderLaw_command_consumed law.encoder)

/-- R112: without a command an idle block waits. -/
theorem staysInRun_wait (hc : s.cmd = 0) (idle : s.phase = .idle) : StaysInRun s :=
  ⟨s, (stepPerformsTheOperationOfPhase s law.no_ops hc).1 idle, law⟩

/-- R92 to R102: a step of a COMPRESS run. -/
theorem staysInRun_encode (hc : s.cmd = 0) (enc : phaseMode s.phase = .enc) : StaysInRun s := by
  obtain ⟨t, ht, next, -⟩ := Compressing.proceeds ⟨law, hc, .inl enc⟩ (ne_idle_of_enc enc)
  exact ⟨t, ht, next.law⟩

/-- R103 to R108: a decode run goes on in the decoder or ends, and there the encoder is under no law. -/
theorem staysInRun_decode (hc : s.cmd = 0) (dec : phaseMode s.phase = .dec) : StaysInRun s := by
  obtain ⟨t, ht, next, -⟩ := Decompressing.decodes_on ⟨law.no_ops, hc, law.mem_wf, law.control, .inl dec⟩
    (ne_idle_of_dec dec)
  refine staysInRun_of_step law ht (next.no_ops.trans law.no_ops.symm) (encoderLaw_of_not_enc ?_)
  rcases next.phase with stays | ⟨idle, -⟩
  · exact ne_of_eq_of_ne stays Mode.noConfusion
  · rw [idle]; decide

/-- R136: by what the step does: take a command, wait, encode or decode. -/
theorem staysInRun_of_runLaw : StaysInRun s := by
  by_cases hc : s.cmd = 0
  · cases hm : phaseMode s.phase with
    | idle => exact staysInRun_wait law hc (phaseMode_eq_idle_iff.mp hm)
    | enc => exact staysInRun_encode law hc hm
    | dec => exact staysInRun_decode law hc hm
  · exact staysInRun_command law hc

end

/-- Settles O52: a step takes a command, waits, or is one of the steps of a COMPRESS or DECOMPRESS run, each of which
completes. -/
theorem everyStepOfARunCompletes : Obligations.EveryStepOfARunCompletes := fun _ => staysInRun_of_runLaw

end Sys2Proof.Proofs
end

section
/-! Power-on (R148), and the base case of the invariants: the reset state satisfies every law that a step keeps. Where the
spec leaves registers and memories unspecified, these are facts about the values the model chose (logs 1 and 2). -/

namespace Sys2Proof.Proofs

open Sys2Proof.Machine Sys2Proof.Laws Sys2Proof.Safety

/-- Settles O1: R148 names the four values the reset state is defined with. -/
theorem powerOnLeavesTheBlockIdle : Obligations.PowerOnLeavesTheBlockIdle := ⟨rfl, rfl, rfl, rfl⟩

/-! ## The laws at reset -/

/-- R115: the idle row, with DONE still 0. -/
theorem control_reset : Control State.reset := by
  obtain ⟨mode, busy, -, phase⟩ := powerOnLeavesTheBlockIdle
  refine ⟨?_, ?_, ?_⟩
  · rw [mode, phase]; rfl
  · simp [busy, phase]
  · simp [busy]

/-- R119: no TEXT entry is listed, so a ring byte and its mirror both read FILLER. -/
theorem mirror_reset : Mirror State.reset := fun _ _ => rfl

/-- R75: no link is listed, so every root and every PARENT entry reads NIL. -/
theorem emptyIndex_reset : EmptyIndex State.reset where
  roots _ := rfl
  parents _ := rfl

/-- R125: S is 0 and R is N - F. -/
theorem cursors_reset : Cursors State.reset := rfl

theorem idle_reset : Idle State.reset where
  phase_eq := rfl
  no_ops := rfl
  no_cmd := rfl
  mem_wf := rfl
  control := control_reset

/-- In PHASE IDLE the encoder is under no law. -/
theorem runLaw_of_idle {s : State} (h : Idle s) : RunLaw s where
  no_ops := h.no_ops
  mem_wf := h.mem_wf
  control := h.control
  encoder := encoderLaw_of_not_enc (by rw [h.phase_eq]; exact Mode.noConfusion)

/-- Settles O2: the block is idle with empty memories, and empty trees are search trees. -/
theorem resetSatisfiesEveryLaw : Obligations.ResetSatisfiesEveryLaw :=
  ⟨idle_reset.mem_wf, mirror_reset, control_reset, idle_reset, runLaw_of_idle idle_reset,
    cursors_reset, searchTrees_of_emptyIndex emptyIndex_reset⟩

end Sys2Proof.Proofs
end
